-- ==== Sys2Proof/Word.lean ====
section
/-! DEFINITION. The words and index types of the block: 00_scope.md R7, R9, R11. -/

namespace Sys2Proof

/-- A NUM: a value of the carrier of one NUM record (00_scope.md R9; the records are `NumSystem`,
Config.lean). Values of two carriers are never equal; in a binary64 NUM the pattern is the value, so +0
and -0 are two values. -/
inductive NUM where
  /-- a rational, a value of the reference instantiation -/
  | exact (q : Rat)
  /-- a binary64 pattern -/
  | binary64 (bits : BitVec 64)
  /-- the `k`-th value of the carrier of a record given by its tables -/
  | value (k : Nat)
deriving DecidableEq, Repr

/-- A raw ADC code, 12 bits (R7 ADC_BITS; 10_state.md R21). -/
abbrev AdcCode := BitVec 12

/-- A command head, 32 bits (30_encoding.md R100). -/
abbrev Head := BitVec 32

/-- A word of the TICK port, 16 bits (30_encoding.md R105). -/
abbrev TickWord := BitVec 16

/-- A channel, also called a frequency, 0 to 9 (R7 N_CH, R14). -/
abbrev Channel := Fin 10

/-- A HistoryQueue id, 0 to 21 (R7 N_QUEUES; 10_state.md R25). -/
abbrev QueueId := Fin 22

/-- The ten channels in ascending order. -/
def channels : List Channel := [0, 1, 2, 3, 4, 5, 6, 7, 8, 9]

/-- The 22 queue ids in ascending order. -/
def queueIds : List QueueId :=
  [0, 1, 2, 3, 4, 5, 6, 7, 8, 9, 10, 11, 12, 13, 14, 15, 16, 17, 18, 19, 20, 21]

end Sys2Proof
end

