-- ==== Sys2Proof/Config.lean ====
section
/-! DEFINITION. The configuration record (00_scope.md R7 to R9) and the free values. -/

namespace Sys2Proof

/-! ### The NUM record -/

/-- NUM.enc and its inverse NUM.dec (30_encoding.md R102), of an instantiation that has a bit form. -/
structure BitForm (Carrier : Type) where
  enc : Carrier → BitVec 64
  dec : BitVec 64 → Carrier
  dec_enc : ∀ x, dec (enc x) = x

/-- The numerics record over a carrier: 00_scope.md R9, with `enc` and `dec` of
92_eei_decisions.md D1. "The rules use only these." -/
structure Numerics (Carrier : Type) where
  zero : Carrier
  one : Carrier
  ofNat : Nat → Carrier
  add : Carrier → Carrier → Carrier
  sub : Carrier → Carrier → Carrier
  mul : Carrier → Carrier → Carrier
  div : Carrier → Carrier → Carrier
  /-- strict less-than -/
  lt : Carrier → Carrier → Bool
  le : Carrier → Carrier → Bool
  /-- equality with 0 -/
  isZero : Carrier → Bool
  /-- 0 equals 0, so that FB_NORM divides by no 0 (R16). -/
  isZero_zero : isZero zero = true
  /-- none where the instantiation "has no bit form" (30_encoding.md R102) -/
  bitForm : Option (BitForm Carrier)

/-- A NUM record as plain data. By 92_eei_decisions.md D1 a record has `enc` into 64 bits and `dec` that
undoes it, so its carrier has `size` ≤ 2^64 values: they are numbered, and each field is the table of its
values. Every record with a bit form is one of these (`NumTables.exists_of_numerics`, Laws/Num.lean). -/
structure NumTables where
  size : Nat
  zero : Fin size
  one : Fin size
  /-- `ofNat` of 0, 1, 2, … The rules apply it to numbers below 2^24 only (30_encoding.md R102;
  42_filter_bank.md R181). -/
  ofNat : List (Fin size)
  /-- `ofNat` of every number that `ofNat` does not list -/
  ofNatElse : Fin size
  add : Vector (Vector (Fin size) size) size
  sub : Vector (Vector (Fin size) size) size
  mul : Vector (Vector (Fin size) size) size
  div : Vector (Vector (Fin size) size) size
  lt : Vector (Vector Bool size) size
  le : Vector (Vector Bool size) size
  isZero : Vector Bool size
  /-- 0 equals 0. -/
  isZero_zero : isZero[zero] = true := by decide
  enc : Vector (BitVec 64) size
  dec : List (BitVec 64 × Fin size)
  /-- `dec` of every pattern that `dec` does not list -/
  decElse : Fin size
  /-- "the inverse `NUM.dec`" (30_encoding.md R102) -/
  dec_enc : (List.finRange size).all
    (fun k => decide ((dec.lookup enc[k]).getD decElse = k)) = true := by decide
deriving DecidableEq, Repr

/-- A NUM record, as the configuration holds it: plain data, which State can carry (log 3). What it
stands for is `NumSystem.numerics` (Machine/Num.lean). -/
inductive NumSystem where
  /-- the reference instantiation: exact rational arithmetic, carrier ℚ, no bit form -/
  | exact
  /-- IEEE 754 binary64, round to nearest even (R16), carrier the 2^64 patterns -/
  | binary64
  /-- any other record, given by its tables -/
  | tables (t : NumTables)
deriving DecidableEq, Repr

/-- The value belongs to the carrier of the NUM record (00_scope.md R9). -/
def NumSystem.owns : NumSystem → NUM → Bool
  | .exact, .exact _ => true
  | .binary64, .binary64 _ => true
  | .tables t, .value k => decide (k < t.size)
  | _, _ => false

/-! ### The configuration -/

/-- The open parameters of 00_scope.md R8, each a field, with the constraint column as proof fields:
a configuration that breaks a constraint cannot be written (93_implementation_defined.md U12).
TX_BURST_TICKS is not a field: R8 ties it to TICK_RATE_HZ (`Config.txBurstTicks` in Machine/Params.lean). -/
structure Config where
  /-- NUM, the record -/
  num : NumSystem
  /-- C -/
  ringCapacity : Nat
  /-- W -/
  powerWindow : Nat
  /-- FIR_COEF[0..80], the store ROM.FIR -/
  firCoef : Vector NUM 81
  /-- IIR_A[0..9][0..10], the stores ROM.A[c] -/
  iirA : Vector (Vector NUM 11) 10
  /-- IIR_B[0..9][0..10], the stores ROM.B[c] -/
  iirB : Vector (Vector NUM 11) 10
  /-- FUDGE_RESET -/
  fudgeReset : NUM
  /-- TICK_RATE_HZ -/
  tickRateHz : Nat
  /-- LOCKOUT_TICKS -/
  lockoutTicks : Nat
  /-- DEBOUNCE_TICKS -/
  debounceTicks : Nat
  /-- RELOAD_HOLD_TICKS -/
  reloadHoldTicks : Nat
  /-- CLIP_SIZE, 0 to 2^16 - 1 -/
  clipSize : BitVec 16
  /-- TX_BURST_TICKS_TEST -/
  txBurstTicksTest : Nat
  /-- TX_TEST_MODE -/
  txTestMode : Bool
  /-- TX_PERIOD_TICKS[0..9] -/
  txPeriodTicks : Vector Nat 10
  /-- The NUM parameters are values of NUM. -/
  firCoef_owned : firCoef.toList.all num.owns = true := by decide
  iirA_owned : iirA.toList.all (fun row => row.toList.all num.owns) = true := by decide
  iirB_owned : iirB.toList.all (fun row => row.toList.all num.owns) = true := by decide
  fudgeReset_owned : num.owns fudgeReset = true := by decide
  ringCapacity_range : 1 ≤ ringCapacity ∧ ringCapacity < 2 ^ 24 := by decide
  powerWindow_range : 1 ≤ powerWindow ∧ powerWindow < 2 ^ 16 := by decide
  tickRateHz_range : 1 ≤ tickRateHz := by decide
  lockoutTicks_range : 1 ≤ lockoutTicks ∧ lockoutTicks < 2 ^ 32 := by decide
  debounceTicks_range : 1 ≤ debounceTicks ∧ debounceTicks < 2 ^ 32 := by decide
  reloadHoldTicks_range : 1 ≤ reloadHoldTicks ∧ reloadHoldTicks < 2 ^ 32 := by decide
  txBurstTicksTest_range : 1 ≤ txBurstTicksTest ∧ txBurstTicksTest < 2 ^ 32 := by decide
  txPeriodTicks_range : txPeriodTicks.toList.all (fun p => decide (2 ≤ p)) = true := by decide
deriving DecidableEq, Repr

/-! ### Free values: constants with no body -/

/-! What binary64 does with an infinity or a NaN, or where a rounded result lies outside the format,
the spec leaves unspecified (00_scope.md R16; 93_implementation_defined.md U7): "any value". Log 4. -/

/-- `ofNat` of a number outside the format. -/
opaque Config.freeOfNat : Nat → BitVec 64
/-- `add` with a non-finite operand or an overflow. -/
opaque Config.freeAdd : BitVec 64 → BitVec 64 → BitVec 64
/-- `sub` with a non-finite operand or an overflow. -/
opaque Config.freeSub : BitVec 64 → BitVec 64 → BitVec 64
/-- `mul` with a non-finite operand or an overflow. -/
opaque Config.freeMul : BitVec 64 → BitVec 64 → BitVec 64
/-- `div` with a non-finite operand, a zero divisor or an overflow. -/
opaque Config.freeDiv : BitVec 64 → BitVec 64 → BitVec 64
/-- `lt` with a non-finite operand. -/
opaque Config.freeLt : BitVec 64 → BitVec 64 → Bool
/-- `le` with a non-finite operand. -/
opaque Config.freeLe : BitVec 64 → BitVec 64 → Bool
/-- Equality with 0 of a non-finite operand. -/
opaque Config.freeIsZero : BitVec 64 → Bool

/-! What a value of another carrier stands for where a NUM is due. No value of a state or of a payload
that the spec gives is one (`numbersOwned`, Safety.lean). Log 3. -/

/-- A foreign value read as a rational. -/
opaque Config.foreignExact : NUM → Rat
/-- A foreign value read as a binary64 pattern. -/
opaque Config.foreignBinary64 : NUM → BitVec 64
/-- A foreign value read as a value of a record given by its tables, before its reduction to the
carrier. -/
opaque Config.foreignValue : NUM → Nat

/-- The rational that bits which are no finite binary64 pattern stand for, where a table word gives the
payload of an exact NUM as bits. Log 4. -/
opaque Config.freeNonFinite : BitVec 64 → Rat

/-! SampleRing after a TICK inside an unprotected DET_RUN. -/

/-- SampleRing contents after a TICK inside an unprotected DET_RUN (20_memory.md R84;
93_implementation_defined.md U3), by draw number and slot. Free value, log 9. -/
opaque Config.freeRingSample : Nat → Nat → AdcCode
/-- SampleRing write index after such a TICK, before its reduction to [0, C). Free value, log 9. -/
opaque Config.freeRingWriteIndex : Nat → Nat
/-- SampleRing read index after such a TICK, before its reduction to [0, C). Free value, log 9. -/
opaque Config.freeRingReadIndex : Nat → Nat
/-- SampleRing count after such a TICK, before its reduction to [0, C]. Free value, log 9. -/
opaque Config.freeRingCount : Nat → Nat

end Sys2Proof
end

