-- ==== Sys2Proof/Machine/Binary64.lean ====
section
/-! DEFINITION. IEEE 754 binary64 arithmetic on 64-bit patterns, round to nearest even (00_scope.md R9,
R16). The layout (sign, 11-bit exponent, 52-bit fraction) and the signs of zero are those of the
standard, which the spec names and does not restate. PRESUMED, log 4. -/

namespace Sys2Proof

/-! ### Reading a pattern -/

/-- The biased exponent. -/
def b64Exponent (b : BitVec 64) : Nat := (b.extractLsb' 52 11).toNat

/-- The fraction field. -/
def b64Fraction (b : BitVec 64) : Nat := (b.extractLsb' 0 52).toNat

/-- The sign bit: the value is negative, or it is -0. -/
def b64Negative (b : BitVec 64) : Bool := b.getLsbD 63

/-- Neither an infinity nor a NaN. -/
def b64Finite (b : BitVec 64) : Bool := b64Exponent b != 2047

/-- The magnitude of a finite pattern as m * 2^e, e ≥ -1074. -/
def b64Magnitude (b : BitVec 64) : Nat × Int :=
  if b64Exponent b = 0 then (b64Fraction b, -1074)
  else (2 ^ 52 + b64Fraction b, (b64Exponent b : Int) - 1075)

/-- m * 2^e as a rational. -/
def scaled (m : Nat) : Int → Rat
  | .ofNat k => ((m * 2 ^ k : Nat) : Rat)
  | .negSucc k => mkRat m (2 ^ (k + 1))

/-- The value of a finite pattern; both zeros are 0. -/
def b64Value (b : BitVec 64) : Rat :=
  let magnitude := scaled (b64Magnitude b).1 (b64Magnitude b).2
  if b64Negative b then -magnitude else magnitude

/-! ### Rounding -/

/-- A positive n/d as (a, b, e) with n/d = (a/b) * 2^e, e the exponent binary64 rounds at:
2^52 ≤ a/b < 2^53, or e = -1074 where n/d is subnormal. -/
def b64Scale (n d : Nat) : Nat × Nat × Int :=
  let guess : Int := (Nat.log2 n : Int) - (Nat.log2 d : Int) - 52
  let tooHigh : Bool := match guess with
    | .ofNat k => decide (n < 2 ^ 52 * (d * 2 ^ k))
    | .negSucc k => decide (n * 2 ^ (k + 1) < 2 ^ 52 * d)
  let e : Int := max (if tooHigh then guess - 1 else guess) (-1074)
  match e with
  | .ofNat k => (n, d * 2 ^ k, e)
  | .negSucc k => (n * 2 ^ (k + 1), d, e)

/-- a/b rounded to the nearest natural number, ties to even. -/
def roundHalfEven (a b : Nat) : Nat :=
  let q := a / b
  let r := a % b
  if 2 * r < b then q else if b < 2 * r then q + 1 else if q % 2 = 0 then q else q + 1

/-- The exponent and fraction fields, as one number, of n/d rounded to nearest even. A significand that
rounds up to 2^53 carries into the exponent. From 2047 * 2^52 on there is no finite pattern. -/
def b64RoundBits (n d : Nat) : Nat :=
  if n = 0 then 0
  else
    let (a, b, e) := b64Scale n d
    (e + 1074).toNat * 2 ^ 52 + roundHalfEven a b

/-- A rational rounded to binary64; a zero takes the sign `zeroSign`. None outside the format. -/
def b64Round (zeroSign : Bool) (x : Rat) : Option (BitVec 64) :=
  let negative := if x.num = 0 then zeroSign else decide (x.num < 0)
  let bits := b64RoundBits x.num.natAbs x.den
  if bits < 2047 * 2 ^ 52 then some (BitVec.ofNat 64 ((if negative then 2 ^ 63 else 0) + bits))
  else none

/-! ### The operations -/

/-- A binary operation: `exact` on the values, rounded once; a zero result takes the sign `zeroSign`;
where an operand is not finite or the result is outside the format, the free value. -/
def b64Operation (exact : Rat → Rat → Rat) (zeroSign : Bool) (free a b : BitVec 64) : BitVec 64 :=
  if b64Finite a && b64Finite b then (b64Round zeroSign (exact (b64Value a) (b64Value b))).getD free
  else free

/-- The sum of two zeros of one sign has that sign; every other zero sum is +0. -/
def b64Add (a b : BitVec 64) : BitVec 64 :=
  b64Operation (· + ·) (b64Negative a && b64Negative b) (Config.freeAdd a b) a b

def b64Sub (a b : BitVec 64) : BitVec 64 :=
  b64Operation (· - ·) (b64Negative a && !b64Negative b) (Config.freeSub a b) a b

def b64Mul (a b : BitVec 64) : BitVec 64 :=
  b64Operation (· * ·) (b64Negative a != b64Negative b) (Config.freeMul a b) a b

/-- No rule divides by 0 (R9): the free value there. -/
def b64Div (a b : BitVec 64) : BitVec 64 :=
  if b64Finite b && decide (b64Value b = 0) then Config.freeDiv a b
  else b64Operation (· / ·) (b64Negative a != b64Negative b) (Config.freeDiv a b) a b

def b64OfNat (n : Nat) : BitVec 64 := (b64Round false n).getD (Config.freeOfNat n)

/-- -0 and +0 compare equal. -/
def b64Lt (a b : BitVec 64) : Bool :=
  if b64Finite a && b64Finite b then decide (b64Value a < b64Value b) else Config.freeLt a b

def b64Le (a b : BitVec 64) : Bool :=
  if b64Finite a && b64Finite b then decide (b64Value a ≤ b64Value b) else Config.freeLe a b

/-- True of both zeros. -/
def b64IsZero (a : BitVec 64) : Bool :=
  if b64Finite a then decide (b64Value a = 0) else Config.freeIsZero a

end Sys2Proof
end

