-- ==== Sys2Proof/Machine/Num.lean ====
section
/-! DEFINITION. The NUM record that the configuration holds (00_scope.md R9), and NUM's operations and
bit form (30_encoding.md R102) by way of it. -/

namespace Sys2Proof

/-! ### The records -/

/-- The reference instantiation: "all are exact" (00_scope.md R16), and "the model passes the NUM itself
and has no bit form" (30_encoding.md R102). -/
def exactNumerics : Numerics Rat where
  zero := 0
  one := 1
  ofNat n := n
  add := (· + ·)
  sub := (· - ·)
  mul := (· * ·)
  div := (· / ·)
  lt a b := decide (a < b)
  le a b := decide (a ≤ b)
  isZero a := decide (a = 0)
  isZero_zero := decide_eq_true rfl
  bitForm := none

/-- IEEE 754 binary64. The carrier is the patterns, so the interchange encoding of a value is the
value. -/
def binary64Numerics : Numerics (BitVec 64) where
  zero := 0
  one := 0x3FF0000000000000
  ofNat := b64OfNat
  add := b64Add
  sub := b64Sub
  mul := b64Mul
  div := b64Div
  lt := b64Lt
  le := b64Le
  isZero := b64IsZero
  isZero_zero := by decide +kernel
  bitForm := some { enc := fun b => b, dec := fun b => b, dec_enc := fun _ => rfl }

/-- The record that tables give: each field reads its table. -/
def NumTables.numerics (t : NumTables) : Numerics (Fin t.size) where
  zero := t.zero
  one := t.one
  ofNat n := t.ofNat.getD n t.ofNatElse
  add a b := t.add[a][b]
  sub a b := t.sub[a][b]
  mul a b := t.mul[a][b]
  div a b := t.div[a][b]
  lt a b := t.lt[a][b]
  le a b := t.le[a][b]
  isZero a := t.isZero[a]
  isZero_zero := t.isZero_zero
  bitForm := some {
    enc := fun k => t.enc[k]
    dec := fun b => (t.dec.lookup b).getD t.decElse
    dec_enc := fun k => of_decide_eq_true (List.all_eq_true.mp t.dec_enc k (List.mem_finRange k)) }

/-- The carrier type of a NUM record. -/
abbrev NumSystem.Carrier : NumSystem → Type
  | .exact => Rat
  | .binary64 => BitVec 64
  | .tables t => Fin t.size

/-- The NUM record of a configuration. -/
def NumSystem.numerics : (n : NumSystem) → Numerics n.Carrier
  | .exact => exactNumerics
  | .binary64 => binary64Numerics
  | .tables t => t.numerics

/-- A carrier value as a NUM. -/
def NumSystem.wrap : (n : NumSystem) → n.Carrier → NUM
  | .exact, q => .exact q
  | .binary64, b => .binary64 b
  | .tables _, k => .value k.val

/-- What a value of another carrier stands for in a record given by its tables: a free value of the
carrier (log 3). -/
def NumTables.foreign (t : NumTables) (x : NUM) : Fin t.size :=
  ⟨Config.foreignValue x % t.size, Nat.mod_lt _ (Nat.zero_lt_of_lt t.zero.isLt)⟩

/-- A NUM as a carrier value; what a value of another carrier stands for is free (log 3). -/
def NumSystem.unwrap : (n : NumSystem) → NUM → n.Carrier
  | .exact, .exact q => q
  | .exact, x => Config.foreignExact x
  | .binary64, .binary64 b => b
  | .binary64, x => Config.foreignBinary64 x
  | .tables t, .value k => if h : k < t.size then ⟨k, h⟩ else t.foreign (.value k)
  | .tables t, x => t.foreign x

/-! ### The operations of a NUM record, on NUMs -/

/-- The constant 0. -/
def numZero (n : NumSystem) : NUM := n.wrap n.numerics.zero

/-- The constant 1. -/
def numOne (n : NumSystem) : NUM := n.wrap n.numerics.one

def numOfNat (n : NumSystem) (k : Nat) : NUM := n.wrap (n.numerics.ofNat k)

def numAdd (n : NumSystem) (a b : NUM) : NUM :=
  n.wrap (n.numerics.add (n.unwrap a) (n.unwrap b))

def numSub (n : NumSystem) (a b : NUM) : NUM :=
  n.wrap (n.numerics.sub (n.unwrap a) (n.unwrap b))

def numMul (n : NumSystem) (a b : NUM) : NUM :=
  n.wrap (n.numerics.mul (n.unwrap a) (n.unwrap b))

/-- No rule divides by 0 (R9). -/
def numDiv (n : NumSystem) (a b : NUM) : NUM :=
  n.wrap (n.numerics.div (n.unwrap a) (n.unwrap b))

def numLt (n : NumSystem) (a b : NUM) : Bool :=
  n.numerics.lt (n.unwrap a) (n.unwrap b)

def numLe (n : NumSystem) (a b : NUM) : Bool :=
  n.numerics.le (n.unwrap a) (n.unwrap b)

def numIsZero (n : NumSystem) (a : NUM) : Bool :=
  n.numerics.isZero (n.unwrap a)

/-! ### The bit form (30_encoding.md R102) -/

/-- NUM.enc; none where the record has no bit form. -/
def numEnc (n : NumSystem) (x : NUM) : Option (BitVec 64) :=
  n.numerics.bitForm.map fun f => f.enc (n.unwrap x)

/-- The rational that the payload bits of a table word stand for in the reference instantiation, which
"has no bit form": the binary64 value, the form 95_test_vectors.md prints. PRESUMED, log 4. -/
def exactOfBits (b : BitVec 64) : Rat := if b64Finite b then b64Value b else Config.freeNonFinite b

/-- NUM.dec; where the record has no bit form, the NUM that table bits stand for. -/
def numDec (n : NumSystem) (b : BitVec 64) : NUM :=
  match n.numerics.bitForm with
  | some f => n.wrap (f.dec b)
  | none => n.wrap (n.unwrap (.exact (exactOfBits b)))

end Sys2Proof
end

