-- ==== Sys2Proof/Syntax.lean ====
section
/-! DEFINITION. The command set: one constructor per row of spec/opcode_table.json (30_encoding.md R103). -/

namespace Sys2Proof

/-- The 56 commands of CORE-CMD version 1 and the TICK event (30_encoding.md R103). Every operand
field has the width its format gives it (R101), so an operand that names nothing (R112) is still an
instruction. The payload of HQ_PUSH and HQ_OPUSH is the NUM itself (R102). -/
inductive Instr where
  | srInit  -- SR_INIT, format Z, R133
  | srPush (v : AdcCode)  -- SR_PUSH, format V12, R131
  | srPop  -- SR_POP, format Z, R132
  | srCount  -- SR_COUNT, format Z, R134
  | srCap  -- SR_CAP, format Z, R135
  | hqInit (q : BitVec 5)  -- HQ_INIT, format Q, R151
  | hqPop (q : BitVec 5)  -- HQ_POP, format Q, R153
  | hqReadat (q : BitVec 5) (age : BitVec 16)  -- HQ_READAT, format QA, R155
  | hqSize (q : BitVec 5)  -- HQ_SIZE, format Q, R156
  | hqCount (q : BitVec 5)  -- HQ_COUNT, format Q, R157
  | hqUnderflowed (q : BitVec 5)  -- HQ_UNDERFLOWED, format Q, R158
  | hqOverflowed (q : BitVec 5)  -- HQ_OVERFLOWED, format Q, R159
  | hqPush (q : BitVec 5) (val : NUM)  -- HQ_PUSH, format QP, R152
  | hqOpush (q : BitVec 5) (val : NUM)  -- HQ_OPUSH, format QP, R154
  | fbPower (ch : BitVec 4)  -- FB_POWER, format CH, R192
  | fbPowers  -- FB_POWERS, format Z, R193
  | fbNorm  -- FB_NORM, format Z, R194
  | fbRecompute (ch : BitVec 4)  -- FB_RECOMPUTE, format CH, R195
  | fbFircoef (i : BitVec 8)  -- FB_FIRCOEF, format I8, R196
  | fbIira (ch : BitVec 4) (i : BitVec 8)  -- FB_IIRA, format CI, R197
  | fbIirb (ch : BitVec 4) (i : BitVec 8)  -- FB_IIRB, format CI, R198
  | fbConst (i : BitVec 8)  -- FB_CONST, format I8, R199
  | detInit  -- DET_INIT, format Z, R221
  | detSetign (m : BitVec 10)  -- DET_SETIGN, format M10, R222
  | detRun (b : Bool)  -- DET_RUN, format B1, R230
  | detHit  -- DET_HIT, format Z, R224
  | detLastfreq  -- DET_LASTFREQ, format Z, R225
  | detClearhit  -- DET_CLEARHIT, format Z, R226
  | detIgnall (b : Bool)  -- DET_IGNALL, format B1, R223
  | detHitcounts  -- DET_HITCOUNTS, format Z, R227
  | detSetfudge (u : BitVec 24)  -- DET_SETFUDGE, format U24, R228
  | detInvoc  -- DET_INVOC, format Z, R229
  | ltInit  -- LT_INIT, format Z, R261
  | ltStart  -- LT_START, format Z, R262
  | ltRunning  -- LT_RUNNING, format Z, R263
  | ltTick  -- LT_TICK, format Z, R264
  | ivInit  -- IV_INIT, format Z, R270
  | ivStart (u : BitVec 16)  -- IV_START, format U16, R272
  | ivRunning  -- IV_RUNNING, format Z, R271
  | ivTick  -- IV_TICK, format Z, R273
  | trInit  -- TR_INIT, format Z, R280
  | trStart  -- TR_START, format Z, R281
  | trRunning  -- TR_RUNNING, format Z, R282
  | trTick  -- TR_TICK, format Z, R283
  | trEnable  -- TR_ENABLE, format Z, R286
  | trDisable  -- TR_DISABLE, format Z, R287
  | trGetshots  -- TR_GETSHOTS, format Z, R288
  | trSetshots (u : BitVec 16)  -- TR_SETSHOTS, format U16, R289
  | trReload  -- TR_RELOAD, format Z, R290
  | txInit  -- TX_INIT, format Z, R300
  | txStart  -- TX_START, format Z, R301
  | txRunning  -- TX_RUNNING, format Z, R302
  | txTick  -- TX_TICK, format Z, R303
  | txSetfreq (ch : BitVec 4)  -- TX_SETFREQ, format CH, R304
  | txGetfreq  -- TX_GETFREQ, format Z, R305
  | txSetcont (b : Bool)  -- TX_SETCONT, format B1, R306
  | tick (adc : AdcCode)  -- TICK, format T, R320
deriving DecidableEq, Repr

/-- A word on the CMD port: a 32-bit head, or the 64-bit payload word as the NUM it represents
(30_encoding.md R100, R102; 20_memory.md R71, each transferred whole). -/
inductive CmdWord where
  | head (w : Head)
  | payload (v : NUM)
deriving DecidableEq, Repr

/-- An instruction as it stands on its port: words of CMD, or one word of TICK (30_encoding.md R103,
R105). -/
inductive Encoded where
  | onCmd (words : List CmdWord)
  | onTick (word : TickWord)
deriving DecidableEq, Repr

end Sys2Proof
end

