-- ==== Sys2Proof/Decode.lean ====
section
/-! DEFINITION. The command encoding (30_encoding.md): decoder and encoder. -/

namespace Sys2Proof

/-! ### Fields and formats (30_encoding.md R101) -/

/-- Why a head is an illegal command (60_exceptions.md R335). -/
inductive DecodeError where
  /-- R110: no row of the opcode map has this opcode -/
  | reservedOpcode
  /-- R111: a bit that the opcode's format reserves is 1 -/
  | reservedBits
deriving DecidableEq, Repr

/-- head[lo+len-1:lo] (00_scope.md R11). -/
def headField (h : Head) (lo len : Nat) : BitVec len := h.extractLsb' lo len

/-- head[31:24], the opcode in every format (R100). -/
def opcodeOf (h : Head) : Nat := (headField h 24 8).toNat

/-- head[31]: a payload word follows (R100). -/
def announcesPayload (h : Head) : Bool := h.getLsbD 31

/-- Read a format: the instruction where the reserved bits are 0 (R111). -/
def checkReserved (reservedAreZero : Bool) (i : Instr) : Except DecodeError Instr :=
  if reservedAreZero then .ok i else .error .reservedBits

/-- Format Z. -/
def readZ (h : Head) (i : Instr) : Except DecodeError Instr :=
  checkReserved (headField h 0 24 == 0#24) i
/-- Format V12: v = head[11:0]. -/
def readV12 (h : Head) (f : AdcCode → Instr) : Except DecodeError Instr :=
  checkReserved (headField h 12 12 == 0#12) (f (headField h 0 12))
/-- Formats Q and QP: q = head[20:16]. -/
def readQ (h : Head) (f : BitVec 5 → Instr) : Except DecodeError Instr :=
  checkReserved (headField h 21 3 == 0#3 && headField h 0 16 == 0#16) (f (headField h 16 5))
/-- Format QA: q = head[20:16], age = head[15:0]. -/
def readQA (h : Head) (f : BitVec 5 → BitVec 16 → Instr) : Except DecodeError Instr :=
  checkReserved (headField h 21 3 == 0#3) (f (headField h 16 5) (headField h 0 16))
/-- Format CH: ch = head[3:0]. -/
def readCH (h : Head) (f : BitVec 4 → Instr) : Except DecodeError Instr :=
  checkReserved (headField h 4 20 == 0#20) (f (headField h 0 4))
/-- Format CI: ch = head[11:8], i = head[7:0]. -/
def readCI (h : Head) (f : BitVec 4 → BitVec 8 → Instr) : Except DecodeError Instr :=
  checkReserved (headField h 12 12 == 0#12) (f (headField h 8 4) (headField h 0 8))
/-- Format I8: i = head[7:0]. -/
def readI8 (h : Head) (f : BitVec 8 → Instr) : Except DecodeError Instr :=
  checkReserved (headField h 8 16 == 0#16) (f (headField h 0 8))
/-- Format M10: m = head[9:0]. -/
def readM10 (h : Head) (f : BitVec 10 → Instr) : Except DecodeError Instr :=
  checkReserved (headField h 10 14 == 0#14) (f (headField h 0 10))
/-- Format B1: b = head[0]. -/
def readB1 (h : Head) (f : Bool → Instr) : Except DecodeError Instr :=
  checkReserved (headField h 1 23 == 0#23) (f (h.getLsbD 0))
/-- Format U16: u = head[15:0]. -/
def readU16 (h : Head) (f : BitVec 16 → Instr) : Except DecodeError Instr :=
  checkReserved (headField h 16 8 == 0#8) (f (headField h 0 16))
/-- Format U24: u = head[23:0], no reserved bit. -/
def readU24 (h : Head) (f : BitVec 24 → Instr) : Except DecodeError Instr :=
  checkReserved true (f (headField h 0 24))

/-! ### The decoder -/

/-- The opcode map (30_encoding.md R103): total on every head; a head that no row selects is rejected
by name (R110, R111). `payload` is the payload word, read only by the QP rows. -/
def decodeHead (h : Head) (payload : NUM) : Except DecodeError Instr :=
  match opcodeOf h with
  | 0x01 => readZ h .srInit
  | 0x02 => readV12 h .srPush
  | 0x03 => readZ h .srPop
  | 0x04 => readZ h .srCount
  | 0x05 => readZ h .srCap
  | 0x10 => readQ h .hqInit
  | 0x11 => readQ h .hqPop
  | 0x12 => readQA h .hqReadat
  | 0x13 => readQ h .hqSize
  | 0x14 => readQ h .hqCount
  | 0x15 => readQ h .hqUnderflowed
  | 0x16 => readQ h .hqOverflowed
  | 0x90 => readQ h fun q => .hqPush q payload
  | 0x91 => readQ h fun q => .hqOpush q payload
  | 0x20 => readCH h .fbPower
  | 0x21 => readZ h .fbPowers
  | 0x22 => readZ h .fbNorm
  | 0x23 => readCH h .fbRecompute
  | 0x24 => readI8 h .fbFircoef
  | 0x25 => readCI h .fbIira
  | 0x26 => readCI h .fbIirb
  | 0x27 => readI8 h .fbConst
  | 0x30 => readZ h .detInit
  | 0x31 => readM10 h .detSetign
  | 0x32 => readB1 h .detRun
  | 0x33 => readZ h .detHit
  | 0x34 => readZ h .detLastfreq
  | 0x35 => readZ h .detClearhit
  | 0x36 => readB1 h .detIgnall
  | 0x37 => readZ h .detHitcounts
  | 0x38 => readU24 h .detSetfudge
  | 0x39 => readZ h .detInvoc
  | 0x40 => readZ h .ltInit
  | 0x41 => readZ h .ltStart
  | 0x42 => readZ h .ltRunning
  | 0x43 => readZ h .ltTick
  | 0x50 => readZ h .ivInit
  | 0x51 => readU16 h .ivStart
  | 0x52 => readZ h .ivRunning
  | 0x53 => readZ h .ivTick
  | 0x60 => readZ h .trInit
  | 0x61 => readZ h .trStart
  | 0x62 => readZ h .trRunning
  | 0x63 => readZ h .trTick
  | 0x64 => readZ h .trEnable
  | 0x65 => readZ h .trDisable
  | 0x66 => readZ h .trGetshots
  | 0x67 => readU16 h .trSetshots
  | 0x68 => readZ h .trReload
  | 0x70 => readZ h .txInit
  | 0x71 => readZ h .txStart
  | 0x72 => readZ h .txRunning
  | 0x73 => readZ h .txTick
  | 0x74 => readCH h .txSetfreq
  | 0x75 => readZ h .txGetfreq
  | 0x76 => readB1 h .txSetcont
  | _ => .error .reservedOpcode

/-- A TICK word: adc = word[11:0]; word[15:12] is ignored (30_encoding.md R113). -/
def decodeTick (w : TickWord) : Instr := .tick (w.extractLsb' 0 12)

/-- What stands at the front of the CMD word stream. -/
inductive Taken where
  /-- no word: the foreground has issued no command -/
  | nothing
  /-- a head that announces a payload word, which has not arrived yet -/
  | incomplete
  /-- a payload word where a head is due, or a head where a payload word is due -/
  | outOfStep
  /-- one command: its head, its payload (`noPayload` where none is announced), the words after it -/
  | command (h : Head) (payload : NUM) (rest : List CmdWord)
deriving DecidableEq, Repr

/-- What stands for the payload of a command that has none; no row reads it. -/
def noPayload : NUM := .exact 0

/-- The length rule (30_encoding.md R100): head[31] = 1 announces one payload word. It is applied
before the opcode is looked at, so an illegal command consumes its payload too (R110). -/
def takeCommand : List CmdWord → Taken
  | [] => .nothing
  | .payload _ :: _ => .outOfStep
  | .head h :: rest =>
    if announcesPayload h then
      match rest with
      | [] => .incomplete
      | .payload v :: rest' => .command h v rest'
      | .head _ :: _ => .outOfStep
    else .command h noPayload rest

/-- Decode an instruction as it stands on its port: exactly one command, or one TICK word. -/
def decodeEncoded : Encoded → Option Instr
  | .onTick w => some (decodeTick w)
  | .onCmd ws =>
    match takeCommand ws with
    | .command h v [] => (decodeHead h v).toOption
    | _ => none

/-- The CMD words of a command whose bits are `w`: the head is bits 31..0; the payload, where head[31]
announces one, is bits 95..32, read as a NUM of the configuration's record. -/
def wordsOfBits (n : NumSystem) (w : Nat) : List CmdWord :=
  let h : Head := BitVec.ofNat 32 w
  if announcesPayload h then [.head h, .payload (numDec n (BitVec.ofNat 64 (w / 2 ^ 32)))]
  else [.head h]

/-- The instruction the decoder reads from an opcode-table word. A row of 16 bits is the TICK port's,
every other row is CMD's. The NUM record is that of the configuration of `State.reset`, the reference
instantiation (logs 2, 4). -/
def decodeTableWord (nbits w : Nat) : Option Instr :=
  if nbits = 16 then decodeEncoded (.onTick (BitVec.ofNat 16 w))
  else decodeEncoded (.onCmd (wordsOfBits .exact w))

/-! ### The encoder -/

/-- The head of an instruction, written field by field from the fixed-width patterns of R101: opcode,
reserved zeros, operands. (TICK has no head; 0 there.) -/
def encodeHead : Instr → Head
  | .srInit => 0x01#8 ++ 0#24
  | .srPush v => 0x02#8 ++ 0#12 ++ v
  | .srPop => 0x03#8 ++ 0#24
  | .srCount => 0x04#8 ++ 0#24
  | .srCap => 0x05#8 ++ 0#24
  | .hqInit q => 0x10#8 ++ 0#3 ++ q ++ 0#16
  | .hqPop q => 0x11#8 ++ 0#3 ++ q ++ 0#16
  | .hqReadat q age => 0x12#8 ++ 0#3 ++ q ++ age
  | .hqSize q => 0x13#8 ++ 0#3 ++ q ++ 0#16
  | .hqCount q => 0x14#8 ++ 0#3 ++ q ++ 0#16
  | .hqUnderflowed q => 0x15#8 ++ 0#3 ++ q ++ 0#16
  | .hqOverflowed q => 0x16#8 ++ 0#3 ++ q ++ 0#16
  | .hqPush q _ => 0x90#8 ++ 0#3 ++ q ++ 0#16
  | .hqOpush q _ => 0x91#8 ++ 0#3 ++ q ++ 0#16
  | .fbPower ch => 0x20#8 ++ 0#20 ++ ch
  | .fbPowers => 0x21#8 ++ 0#24
  | .fbNorm => 0x22#8 ++ 0#24
  | .fbRecompute ch => 0x23#8 ++ 0#20 ++ ch
  | .fbFircoef i => 0x24#8 ++ 0#16 ++ i
  | .fbIira ch i => 0x25#8 ++ 0#12 ++ ch ++ i
  | .fbIirb ch i => 0x26#8 ++ 0#12 ++ ch ++ i
  | .fbConst i => 0x27#8 ++ 0#16 ++ i
  | .detInit => 0x30#8 ++ 0#24
  | .detSetign m => 0x31#8 ++ 0#14 ++ m
  | .detRun b => 0x32#8 ++ 0#23 ++ BitVec.ofBool b
  | .detHit => 0x33#8 ++ 0#24
  | .detLastfreq => 0x34#8 ++ 0#24
  | .detClearhit => 0x35#8 ++ 0#24
  | .detIgnall b => 0x36#8 ++ 0#23 ++ BitVec.ofBool b
  | .detHitcounts => 0x37#8 ++ 0#24
  | .detSetfudge u => 0x38#8 ++ u
  | .detInvoc => 0x39#8 ++ 0#24
  | .ltInit => 0x40#8 ++ 0#24
  | .ltStart => 0x41#8 ++ 0#24
  | .ltRunning => 0x42#8 ++ 0#24
  | .ltTick => 0x43#8 ++ 0#24
  | .ivInit => 0x50#8 ++ 0#24
  | .ivStart u => 0x51#8 ++ 0#8 ++ u
  | .ivRunning => 0x52#8 ++ 0#24
  | .ivTick => 0x53#8 ++ 0#24
  | .trInit => 0x60#8 ++ 0#24
  | .trStart => 0x61#8 ++ 0#24
  | .trRunning => 0x62#8 ++ 0#24
  | .trTick => 0x63#8 ++ 0#24
  | .trEnable => 0x64#8 ++ 0#24
  | .trDisable => 0x65#8 ++ 0#24
  | .trGetshots => 0x66#8 ++ 0#24
  | .trSetshots u => 0x67#8 ++ 0#8 ++ u
  | .trReload => 0x68#8 ++ 0#24
  | .txInit => 0x70#8 ++ 0#24
  | .txStart => 0x71#8 ++ 0#24
  | .txRunning => 0x72#8 ++ 0#24
  | .txTick => 0x73#8 ++ 0#24
  | .txSetfreq ch => 0x74#8 ++ 0#20 ++ ch
  | .txGetfreq => 0x75#8 ++ 0#24
  | .txSetcont b => 0x76#8 ++ 0#23 ++ BitVec.ofBool b
  | .tick _ => 0#32

/-- The payload word of a QP command. -/
def encodePayload : Instr → Option NUM
  | .hqPush _ val => some val
  | .hqOpush _ val => some val
  | _ => none

/-- The words of an instruction on its port. -/
def encode : Instr → Encoded
  | .tick adc => .onTick (0#4 ++ adc)
  | i => .onCmd (.head (encodeHead i) :: (encodePayload i).toList.map .payload)

/-! ### The opcode map as data -/

/-- A row of the opcode map: "a head `h` selects the row when `h AND mask = match`" (R103). -/
structure OpcodeRow where
  mnemonic : String
  pattern : Head
  mask : Head
deriving DecidableEq, Repr

/-- The CMD rows of R103, in the table's order. -/
def opcodeRows : List OpcodeRow := [
  ⟨"SR_INIT", 0x01000000, 0xFFFFFFFF⟩,
  ⟨"SR_PUSH", 0x02000000, 0xFFFFF000⟩,
  ⟨"SR_POP", 0x03000000, 0xFFFFFFFF⟩,
  ⟨"SR_COUNT", 0x04000000, 0xFFFFFFFF⟩,
  ⟨"SR_CAP", 0x05000000, 0xFFFFFFFF⟩,
  ⟨"HQ_INIT", 0x10000000, 0xFFE0FFFF⟩,
  ⟨"HQ_POP", 0x11000000, 0xFFE0FFFF⟩,
  ⟨"HQ_READAT", 0x12000000, 0xFFE00000⟩,
  ⟨"HQ_SIZE", 0x13000000, 0xFFE0FFFF⟩,
  ⟨"HQ_COUNT", 0x14000000, 0xFFE0FFFF⟩,
  ⟨"HQ_UNDERFLOWED", 0x15000000, 0xFFE0FFFF⟩,
  ⟨"HQ_OVERFLOWED", 0x16000000, 0xFFE0FFFF⟩,
  ⟨"HQ_PUSH", 0x90000000, 0xFFE0FFFF⟩,
  ⟨"HQ_OPUSH", 0x91000000, 0xFFE0FFFF⟩,
  ⟨"FB_POWER", 0x20000000, 0xFFFFFFF0⟩,
  ⟨"FB_POWERS", 0x21000000, 0xFFFFFFFF⟩,
  ⟨"FB_NORM", 0x22000000, 0xFFFFFFFF⟩,
  ⟨"FB_RECOMPUTE", 0x23000000, 0xFFFFFFF0⟩,
  ⟨"FB_FIRCOEF", 0x24000000, 0xFFFFFF00⟩,
  ⟨"FB_IIRA", 0x25000000, 0xFFFFF000⟩,
  ⟨"FB_IIRB", 0x26000000, 0xFFFFF000⟩,
  ⟨"FB_CONST", 0x27000000, 0xFFFFFF00⟩,
  ⟨"DET_INIT", 0x30000000, 0xFFFFFFFF⟩,
  ⟨"DET_SETIGN", 0x31000000, 0xFFFFFC00⟩,
  ⟨"DET_RUN", 0x32000000, 0xFFFFFFFE⟩,
  ⟨"DET_HIT", 0x33000000, 0xFFFFFFFF⟩,
  ⟨"DET_LASTFREQ", 0x34000000, 0xFFFFFFFF⟩,
  ⟨"DET_CLEARHIT", 0x35000000, 0xFFFFFFFF⟩,
  ⟨"DET_IGNALL", 0x36000000, 0xFFFFFFFE⟩,
  ⟨"DET_HITCOUNTS", 0x37000000, 0xFFFFFFFF⟩,
  ⟨"DET_SETFUDGE", 0x38000000, 0xFF000000⟩,
  ⟨"DET_INVOC", 0x39000000, 0xFFFFFFFF⟩,
  ⟨"LT_INIT", 0x40000000, 0xFFFFFFFF⟩,
  ⟨"LT_START", 0x41000000, 0xFFFFFFFF⟩,
  ⟨"LT_RUNNING", 0x42000000, 0xFFFFFFFF⟩,
  ⟨"LT_TICK", 0x43000000, 0xFFFFFFFF⟩,
  ⟨"IV_INIT", 0x50000000, 0xFFFFFFFF⟩,
  ⟨"IV_START", 0x51000000, 0xFFFF0000⟩,
  ⟨"IV_RUNNING", 0x52000000, 0xFFFFFFFF⟩,
  ⟨"IV_TICK", 0x53000000, 0xFFFFFFFF⟩,
  ⟨"TR_INIT", 0x60000000, 0xFFFFFFFF⟩,
  ⟨"TR_START", 0x61000000, 0xFFFFFFFF⟩,
  ⟨"TR_RUNNING", 0x62000000, 0xFFFFFFFF⟩,
  ⟨"TR_TICK", 0x63000000, 0xFFFFFFFF⟩,
  ⟨"TR_ENABLE", 0x64000000, 0xFFFFFFFF⟩,
  ⟨"TR_DISABLE", 0x65000000, 0xFFFFFFFF⟩,
  ⟨"TR_GETSHOTS", 0x66000000, 0xFFFFFFFF⟩,
  ⟨"TR_SETSHOTS", 0x67000000, 0xFFFF0000⟩,
  ⟨"TR_RELOAD", 0x68000000, 0xFFFFFFFF⟩,
  ⟨"TX_INIT", 0x70000000, 0xFFFFFFFF⟩,
  ⟨"TX_START", 0x71000000, 0xFFFFFFFF⟩,
  ⟨"TX_RUNNING", 0x72000000, 0xFFFFFFFF⟩,
  ⟨"TX_TICK", 0x73000000, 0xFFFFFFFF⟩,
  ⟨"TX_SETFREQ", 0x74000000, 0xFFFFFFF0⟩,
  ⟨"TX_GETFREQ", 0x75000000, 0xFFFFFFFF⟩,
  ⟨"TX_SETCONT", 0x76000000, 0xFFFFFFFE⟩]

/-- The row selects the head. -/
def OpcodeRow.selects (r : OpcodeRow) (h : Head) : Bool := h &&& r.mask == r.pattern

end Sys2Proof
end

