-- ==== Sys2Proof/Machine/Params.lean ====
section
/-! DEFINITION. What follows from the configuration and the structural constants: capacities, queue
ids, burst length, half period, and the configuration of `State.reset`. -/

namespace Sys2Proof

/-! ### Structural constants, fixed by R7 -/

/-- R7 FIR_TAPS. -/
def firTaps : Nat := 81
/-- R7 DECIMATION. -/
def decimation : Nat := 10
/-- R7 Y_LEN. -/
def yLen : Nat := 11
/-- R7 IIR_LEN. -/
def iirLen : Nat := 11
/-- R7 N_CH. -/
def numChannels : Nat := 10
/-- R7 MEDIAN_RANK. -/
def medianRank : Nat := 4
/-- R8 ADC_MAX, fixed at 4095 (92_eei_decisions.md D2). -/
def adcMax : Nat := 4095

/-! ### Queue ids (10_state.md R25) -/

/-- Queue X, the FIR input history (10_state.md R25). -/
def queueX : QueueId := 0

/-- Queue Y, the FIR output history (10_state.md R25). -/
def queueY : QueueId := 1

/-- Queue Z[c], id 2 + c, channel `c`'s own IIR outputs (10_state.md R25). -/
def queueZ (c : Channel) : QueueId := ⟨2 + c.val, by omega⟩

/-- Queue P[c], id 12 + c, channel `c`'s power window (10_state.md R25). -/
def queueP (c : Channel) : QueueId := ⟨12 + c.val, by omega⟩

/-! ### Derived parameters -/

/-- TX_BURST_TICKS = max(1, floor(TICK_RATE_HZ / 5)) (00_scope.md R8; 90_conflicts.md C9). -/
def Config.txBurstTicks (cfg : Config) : Nat := max 1 (cfg.tickRateHz / 5)

/-- BURST of 44_timers.md R303: the test burst length in test mode, else TX_BURST_TICKS. -/
def Config.burst (cfg : Config) : Nat :=
  if cfg.txTestMode then cfg.txBurstTicksTest else cfg.txBurstTicks

/-- HALF(f) = floor(TX_PERIOD_TICKS[f] / 2) (44_timers.md R303; R15 (ix)). -/
def Config.halfPeriod (cfg : Config) (f : Channel) : Nat := cfg.txPeriodTicks[f] / 2

/-- N_q, the capacity of queue `q` (10_state.md R25). -/
def Config.queueCapacity (cfg : Config) (q : QueueId) : Nat :=
  if q.val = 0 then 81 else if q.val < 12 then 11 else cfg.powerWindow

/-- The configuration of `State.reset`. DESIGN CHOICE, log 2: C and W are the document's "e.g. 32768"
and the suggested 10 (92_eei_decisions.md D30, D4), the coefficients, LOCKOUT_TICKS and FUDGE_RESET
those of program P2, the trigger and transmitter parameters those of program P4
(95_test_vectors.md). Statements quantify over every `Config` instead. -/
def Config.reference : Config where
  num := .exact
  ringCapacity := 32768
  powerWindow := 10
  firCoef := Vector.ofFn fun i => .exact (if i.val = 80 then 1 else 0)
  iirA := Vector.ofFn fun c => Vector.ofFn fun i =>
    .exact (if c.val = 0 ∧ i.val = 1 then -1 / 2 else 0)
  iirB := Vector.ofFn fun c => Vector.ofFn fun i => .exact (if i.val = 0 then (c.val : Rat) + 1 else 0)
  fudgeReset := .exact 0
  tickRateHz := 40
  lockoutTicks := 3
  debounceTicks := 2
  reloadHoldTicks := 4
  clipSize := 3
  txBurstTicksTest := 2
  txTestMode := false
  txPeriodTicks := Vector.replicate 10 4

end Sys2Proof
end

