-- ==== Sys2Proof/Machine/State.lean ====
section
/-! DEFINITION. The state of the block, its value after reset, and the reasons a step can stop. -/

namespace Sys2Proof.Machine

/-! ### Storage (20_memory.md R70) -/

/-- A storage array as a list of (element index, value) pairs: indices strictly rising, no value equal
to what an unlisted element reads as (Machine/Memory.lean). Elements move whole (R71). Log 12. -/
abbrev Memory (α : Type) := List (Nat × α)

/-- `SR` (10_state.md R21). -/
structure SampleRing where
  mem : Memory AdcCode
  writeIndex : Nat
  readIndex : Nat
  count : Nat
deriving DecidableEq, Repr

/-- One HistoryQueue instance `Q[q]` (10_state.md R23). Its capacity is `Config.queueCapacity`. -/
structure HistoryQueue where
  mem : Memory NUM
  writeIndex : Nat
  readIndex : Nat
  count : Nat
  underflowed : Bool
  overflowed : Bool
deriving DecidableEq, Repr

/-- `FB` (10_state.md R26). The coefficient stores are in the configuration. -/
structure FilterBank where
  power : Vector NUM 10
deriving DecidableEq, Repr

/-- `DET` (10_state.md R28). Bit `i` of `ignored` and `savedIgnored` is the ignore flag of channel `i`
(R62). -/
structure Detector where
  ignored : BitVec 10
  savedIgnored : BitVec 10
  hitCounts : Vector (BitVec 32) 10
  lastHitFrequency : Channel
  hitDetectedFlag : Bool
  invocationCount : BitVec 32
  fudgeFactor : NUM
  decimationCounter : Fin 10
deriving DecidableEq, Repr

/-- The states of LockoutTimer and InvincibilityTimer (10_state.md R31, R32). -/
inductive TimerState where
  | idle
  | active
deriving DecidableEq, Repr

/-- `LT` (10_state.md R31). -/
structure LockoutTimer where
  state : TimerState
  elapsedTicks : BitVec 32
  startRequested : Bool
deriving DecidableEq, Repr

/-- `IV` (10_state.md R32). -/
structure InvincibilityTimer where
  state : TimerState
  elapsedTicks : BitVec 32
  startRequested : Bool
  durationTicks : BitVec 32
deriving DecidableEq, Repr

/-- The states of Trigger (10_state.md R33). -/
inductive TriggerState where
  | idle
  | pressDebounce
  | releaseDebounce
deriving DecidableEq, Repr

/-- `TR` (10_state.md R33). -/
structure Trigger where
  state : TriggerState
  elapsedTicks : BitVec 32
  holdTicks : BitVec 32
  startRequested : Bool
  enabled : Bool
  ignoreInput : Bool
  remainingShotCount : BitVec 16
deriving DecidableEq, Repr

/-- The states of Transmitter (10_state.md R34). -/
inductive TransmitterState where
  | low
  | transmit
deriving DecidableEq, Repr

/-- `TX` (10_state.md R34). `pin` is the level of the port `tx_pin` (R63). The tick counters are natural
numbers, as 92_eei_decisions.md D11 allows: 00_scope.md R8 bounds neither TICK_RATE_HZ nor
TX_PERIOD_TICKS, and they never wrap (R15 (vi)). Where the burst length is below 2^32 they fit in the 32
bits of R34 (`timersBounded`). Log 15. -/
structure Transmitter where
  state : TransmitterState
  elapsedTicks : Nat
  halfTicks : Nat
  startRequested : Bool
  frequencyNumber : Channel
  activeFrequency : Channel
  continuousMode : Bool
  pin : Bool
deriving DecidableEq, Repr

/-- The phases of the run sequencer (10_state.md R60). -/
inductive Phase where
  | idle
  | pop
  | filter
  | decide
deriving DecidableEq, Repr

/-- `SEQ`, the run sequencer (10_state.md R60). -/
structure Sequencer where
  phase : Phase
  remaining : Nat
  irqEn : Bool
  sample : AdcCode
deriving DecidableEq, Repr

/-! ### Output events (10_state.md R63) -/

/-- One beat of RESP: an unsigned integer or a NUM (00_scope.md R6; 30_encoding.md R104). -/
inductive Beat where
  | int (v : BitVec 64)
  | num (v : NUM)
deriving DecidableEq, Repr

/-- The diagnostics (60_exceptions.md R331). -/
inductive DiagCode where
  | overflow
  | underflow
  | invalidIndex
  | allIgnored
  | illegalCommand
deriving DecidableEq, Repr

/-- A DIAG event: code and info (60_exceptions.md R331). -/
structure DiagEvent where
  code : DiagCode
  info : BitVec 32
deriving DecidableEq, Repr

/-- The notifier events (60_exceptions.md R354). -/
inductive NotifyKind where
  | hit
  | reload
deriving DecidableEq, Repr

/-- A NOTIFY event: kind and argument (60_exceptions.md R354). -/
structure NotifyEvent where
  kind : NotifyKind
  arg : BitVec 8
deriving DecidableEq, Repr

/-! ### The schedule (10_state.md R66; 20_memory.md R81) -/

/-- What happens next. The schedule is data, so that a statement for every state holds for every
interleaving. DESIGN CHOICE, log 6. -/
inductive Event where
  /-- a TICK event with this word of the TICK port -/
  | tick (w : TickWord)
  /-- the environment sets `trig_in` -/
  | pin (level : Bool)
  /-- the RESET input is asserted -/
  | reset
  /-- the foreground performs its next step: a phase step of the DET_RUN in progress, else the next
  command on CMD -/
  | foreground
  /-- the foreground performs its next step and a TICK arrives while it does: held where the step is
  masked (R64), taken before the step where it is not. Log 10. -/
  | foregroundAndTick (w : TickWord)
deriving DecidableEq, Repr

/-- The state of the block. Every field is the spec's, but for `cfg` (log 1), `heldTick` (log 10),
`cmd` (log 8), `schedule` (log 6) and `freeDraws` (log 9), which are the model's. -/
structure State where
  cfg : Config
  sr : SampleRing
  q : Vector HistoryQueue 22
  fb : FilterBank
  det : Detector
  lt : LockoutTimer
  iv : InvincibilityTimer
  tr : Trigger
  tx : Transmitter
  seq : Sequencer
  tickPending : Bool
  heldTick : TickWord
  trigIn : Bool
  resp : List Beat
  diag : List DiagEvent
  notify : List NotifyEvent
  cmd : List CmdWord
  schedule : List Event
  freeDraws : Nat
deriving DecidableEq, Repr

/-! ### Reset values (10_state.md R65) -/

def SampleRing.reset : SampleRing where
  mem := []
  writeIndex := 0
  readIndex := 0
  count := 0

/-- Full of zeros (92_eei_decisions.md D3). -/
def HistoryQueue.reset (capacity : Nat) : HistoryQueue where
  mem := []
  writeIndex := 0
  readIndex := 0
  count := capacity
  underflowed := false
  overflowed := false

def FilterBank.reset (n : NumSystem) : FilterBank where
  power := Vector.replicate 10 (numZero n)

def Detector.reset (fudgeReset : NUM) : Detector where
  ignored := 0
  savedIgnored := 0
  hitCounts := Vector.replicate 10 0
  lastHitFrequency := 0
  hitDetectedFlag := false
  invocationCount := 0
  fudgeFactor := fudgeReset
  decimationCounter := 0

def LockoutTimer.reset : LockoutTimer where
  state := .idle
  elapsedTicks := 0
  startRequested := false

def InvincibilityTimer.reset : InvincibilityTimer where
  state := .idle
  elapsedTicks := 0
  startRequested := false
  durationTicks := 0

/-- `ignoreInput` is the level of `trig_in` at reset. -/
def Trigger.reset (trigIn : Bool) : Trigger where
  state := .idle
  elapsedTicks := 0
  holdTicks := 0
  startRequested := false
  enabled := false
  ignoreInput := trigIn
  remainingShotCount := 0

def Transmitter.reset : Transmitter where
  state := .low
  elapsedTicks := 0
  halfTicks := 0
  startRequested := false
  frequencyNumber := 0
  activeFrequency := 0
  continuousMode := false
  pin := false

def Sequencer.reset : Sequencer where
  phase := .idle
  remaining := 0
  irqEn := false
  sample := 0

/-- The state after RESET for a configuration and a level of `trig_in` (10_state.md R65). -/
def State.resetWith (cfg : Config) (trigIn : Bool) : State where
  cfg := cfg
  sr := .reset
  q := Vector.ofFn fun q => .reset (cfg.queueCapacity q)
  fb := .reset cfg.num
  det := .reset cfg.fudgeReset
  lt := .reset
  iv := .reset
  tr := .reset trigIn
  tx := .reset
  seq := .reset
  tickPending := false
  heldTick := 0
  trigIn := trigIn
  resp := []
  diag := []
  notify := []
  cmd := []
  schedule := []
  freeDraws := 0

/-- The machine right after reset: `State.resetWith` at the reference configuration (DESIGN CHOICE,
log 2) with the trigger input released (DESIGN CHOICE, log 5). -/
def State.reset : State := State.resetWith Config.reference false

/-! ### Reasons to stop -/

/-- The block itself never stops: "There are no fatal/process-terminating error paths in this core"
(60_exceptions.md R330). -/
inductive Fault where
  /-- Raised by `step` when the foreground's word stream on CMD breaks the length rule
  (30_encoding.md R100): a payload word where a head is due, or a head where a payload word is due.
  The environment left the spec; safe. Log 8. -/
  | cmdOutOfStep
deriving DecidableEq, Repr

inductive Refusal where
  /-- An instruction the model gives no meaning to yet. No arm of `exec` uses it. Safe. -/
  | notModelled (mnemonic : String)
deriving DecidableEq, Repr

end Sys2Proof.Machine
end

