-- ==== Sys2Proof/Machine/Memory.lean ====
section
/-! DEFINITION. Reading and writing one element of a storage array (00_scope.md R12 MemRead, MemWrite).
`z` is what an unlisted element reads as. -/

namespace Sys2Proof.Machine

/-- What an unlisted element of `SR.mem` reads as: SR_INIT "zero-fills backing storage"
(40_sample_ring.md R130, R133). -/
def unlistedSample : AdcCode := 0

/-- What an unlisted element of a queue reads as: HQ_INIT zero-fills with NUM 0
(41_history_queue.md R151). -/
def unlistedNum (n : NumSystem) : NUM := numZero n

/-- MemRead (00_scope.md R12). -/
def Memory.read {α : Type} (z : α) : Memory α → Nat → α
  | [], _ => z
  | (k, v) :: rest, i => if i = k then v else Memory.read z rest i

/-- MemWrite (00_scope.md R12), keeping the canonical form: writing `z` removes the entry. -/
def Memory.write {α : Type} [DecidableEq α] (z : α) : Memory α → Nat → α → Memory α
  | [], i, v => if v = z then [] else [(i, v)]
  | (k, w) :: rest, i, v =>
    if i < k then (if v = z then (k, w) :: rest else (i, v) :: (k, w) :: rest)
    else if i = k then (if v = z then rest else (k, v) :: rest)
    else (k, w) :: Memory.write z rest i v

/-- Indices from `low` on, strictly rising, below `size`, and no value equal to `z`. -/
def Memory.wfFrom {α : Type} [DecidableEq α] (z : α) (size : Nat) : Nat → Memory α → Bool
  | _, [] => true
  | low, (k, v) :: rest =>
    decide (low ≤ k) && decide (k < size) && decide (v ≠ z) && Memory.wfFrom z size (k + 1) rest

/-- The canonical form of an array of `size` elements. -/
def Memory.wf {α : Type} [DecidableEq α] (z : α) (size : Nat) (m : Memory α) : Bool :=
  Memory.wfFrom z size 0 m

/-- The array whose element `i`, for `i < n`, is `f i`. -/
def Memory.fromSlots {α : Type} [DecidableEq α] (z : α) (f : Nat → α) : Nat → Memory α
  | 0 => []
  | n + 1 => Memory.write z (Memory.fromSlots z f n) n (f n)

end Sys2Proof.Machine
end

