-- ==== Sys2Proof/Machine/Ops.lean ====
section
/-! DEFINITION. The shared operations: diagnostics (the block's exceptions), notifier, responses, and
the SampleRing and HistoryQueue procedures. -/

namespace Sys2Proof.Machine

/-! ### Output events -/

/-- `raise X(info)` (60_exceptions.md R330): append the event to DIAG and go on. It is the block's
whole exception entry: nothing is saved, no control is transferred, and there is no return. -/
def State.raise (code : DiagCode) (info : BitVec 32) (s : State) : State :=
  { s with diag := s.diag ++ [⟨code, info⟩] }

/-- `notify E(info)` (00_scope.md R12). -/
def State.notifyEvent (kind : NotifyKind) (arg : BitVec 8) (s : State) : State :=
  { s with notify := s.notify ++ [⟨kind, arg⟩] }

/-- `respond v1, v2, ...` (00_scope.md R12; 30_encoding.md R104). -/
def State.respond (beats : List Beat) (s : State) : State :=
  { s with resp := s.resp ++ beats }

/-- The numeric code of a diagnostic, 8 bits (60_exceptions.md R331). -/
def DiagCode.toBits : DiagCode → BitVec 8
  | .overflow => 1
  | .underflow => 2
  | .invalidIndex => 3
  | .allIgnored => 4
  | .illegalCommand => 5

/-- The numeric kind of a notifier event, 8 bits (60_exceptions.md R354). -/
def NotifyKind.toBits : NotifyKind → BitVec 8
  | .hit => 1
  | .reload => 2

/-- The 64 bits of a beat on the RESP port: a num beat is NUM.enc of the configured NUM (30_encoding.md
R104); none where that NUM "has no bit form" (R102). -/
def Beat.toBits (n : NumSystem) : Beat → Option (BitVec 64)
  | .int v => some v
  | .num v => numEnc n v

/-- An integer beat, zero-extended to 64 bits (30_encoding.md R104). -/
def natBeat (n : Nat) : Beat := .int (BitVec.ofNat 64 n)

/-- The operand range error (60_exceptions.md R334): `raise InvalidIndex(head)`, then the sentinel
beats of the opcode's response; nothing else changes. -/
def State.rejectOperand (i : Instr) (sentinel : List Beat) (s : State) : State :=
  (s.raise .invalidIndex (encodeHead i)).respond sentinel

/-! ### SampleRing procedures (40_sample_ring.md) -/

/-- SR_init() (R133). -/
def srInit (s : State) : State :=
  { s with sr := { mem := [], writeIndex := 0, readIndex := 0, count := 0 } }

/-- SR_push(v) (R131). -/
def srPush (v : AdcCode) (s : State) : State :=
  let c := s.cfg.ringCapacity
  let r := if s.sr.count = c then { s.sr with readIndex := (s.sr.readIndex + 1) % c }
    else { s.sr with count := s.sr.count + 1 }
  { s with sr := { r with
      mem := Memory.write unlistedSample r.mem r.writeIndex v
      writeIndex := (r.writeIndex + 1) % c } }

/-- SR_pop() (R132): the result and the state after it. -/
def srPop (s : State) : AdcCode × State :=
  if s.sr.count = 0 then (0, s)
  else
    (Memory.read unlistedSample s.sr.mem s.sr.readIndex,
      { s with sr := { s.sr with
          readIndex := (s.sr.readIndex + 1) % s.cfg.ringCapacity
          count := s.sr.count - 1 } })

/-- SampleRing after a TICK inside an unprotected DET_RUN (20_memory.md R84): unspecified contents,
within the ranges of 10_state.md R21. Free value, log 9. -/
def freeRing (cfg : Config) (draw : Nat) : SampleRing where
  mem := Memory.fromSlots unlistedSample (Config.freeRingSample draw) cfg.ringCapacity
  writeIndex := Config.freeRingWriteIndex draw % cfg.ringCapacity
  readIndex := Config.freeRingReadIndex draw % cfg.ringCapacity
  count := Config.freeRingCount draw % (cfg.ringCapacity + 1)

/-! ### HistoryQueue procedures (41_history_queue.md) -/

/-- Q[q]. -/
def State.queue (s : State) (q : QueueId) : HistoryQueue := s.q[q]

/-- Replace Q[q]. -/
def State.setQueue (q : QueueId) (x : HistoryQueue) (s : State) : State :=
  { s with q := s.q.set q.val x q.isLt }

/-- N_q. -/
def State.capacity (s : State) (q : QueueId) : Nat := s.cfg.queueCapacity q

/-- The info of Overflow and Underflow, zext_32(q) (60_exceptions.md R331). -/
def queueInfo (q : QueueId) : BitVec 32 := BitVec.ofNat 32 q.val

/-- The info of InvalidIndex from a queue read, q × 65536 + age[15:0] (60_exceptions.md R331 (a)). -/
def readInfo (q : QueueId) (age : Nat) : BitVec 32 := BitVec.ofNat 32 (q.val * 65536 + age % 65536)

/-- HQ_init(q) (R151). -/
def hqInit (q : QueueId) (s : State) : State :=
  s.setQueue q
    { mem := [], writeIndex := 0, readIndex := 0, count := 0, underflowed := false, overflowed := false }

/-- HQ_push(q, val) (R152). -/
def hqPush (q : QueueId) (val : NUM) (s : State) : State :=
  let x := s.queue q
  if x.count = s.capacity q then
    (s.setQueue q { x with overflowed := true }).raise .overflow (queueInfo q)
  else
    s.setQueue q { x with
      mem := Memory.write (unlistedNum s.cfg.num) x.mem x.writeIndex val
      writeIndex := (x.writeIndex + 1) % s.capacity q
      count := x.count + 1
      underflowed := false }

/-- HQ_pop(q) (R153): the result and the state after it. -/
def hqPop (q : QueueId) (s : State) : NUM × State :=
  let x := s.queue q
  if x.count = 0 then
    (numZero s.cfg.num, (s.setQueue q { x with underflowed := true }).raise .underflow (queueInfo q))
  else
    (Memory.read (unlistedNum s.cfg.num) x.mem x.readIndex,
      s.setQueue q { x with
        readIndex := (x.readIndex + 1) % s.capacity q
        count := x.count - 1
        overflowed := false })

/-- HQ_opush(q, val) (R154). -/
def hqOpush (q : QueueId) (val : NUM) (s : State) : State :=
  let s' := if (s.queue q).count = s.capacity q then (hqPop q s).2 else s
  hqPush q val s'

/-- HQ_readAt(q, age) (R155): the result and the state after it. -/
def hqReadAt (q : QueueId) (age : Nat) (s : State) : NUM × State :=
  let x := s.queue q
  if age < x.count then
    (Memory.read (unlistedNum s.cfg.num) x.mem ((x.readIndex + age) % s.capacity q), s)
  else (numZero s.cfg.num, s.raise .invalidIndex (readInfo q age))

end Sys2Proof.Machine
end

