-- ==== Sys2Proof/Machine/Flags.lean ====
section
/-! DEFINITION. The one-bit conditions the block computes (10_state.md R61 to R63). There are no
arithmetic condition codes (R61). -/

namespace Sys2Proof.Machine

/-- A boolean beat: 0 or 1 (30_encoding.md R104). -/
def flagBeat (b : Bool) : Beat := .int (if b then 1 else 0)

/-- LT_RUNNING (44_timers.md R263). -/
def ltRunning (s : State) : Bool := s.lt.state == .active

/-- IV_RUNNING (44_timers.md R271). -/
def ivRunning (s : State) : Bool := s.iv.state == .active

/-- TR_RUNNING (44_timers.md R282). -/
def trRunning (s : State) : Bool := s.tr.state != .idle

/-- TX_RUNNING (44_timers.md R302). -/
def txRunning (s : State) : Bool := s.tx.state == .transmit

/-- The Detector's gate (43_detector.md R231): open while neither timer is running. -/
def gateOpen (s : State) : Bool := s.lt.state == .idle && s.iv.state == .idle

/-- The level the Trigger believes: `trig_in and not TR.ignoreInput` (44_timers.md R283). -/
def triggerPressed (s : State) : Bool := s.trigIn && !s.tr.ignoreInput

/-- The ignore flag of a channel, `DET.ignored[c]` (10_state.md R28). -/
def isIgnored (ignored : BitVec 10) (c : Channel) : Bool := ignored.getLsbD c.val

/-- A DET_RUN with `irqEn = 0` is in progress (20_memory.md R84). -/
def unprotectedRun (s : State) : Bool := s.seq.phase != .idle && !s.seq.irqEn

/-- sat32(c + 1) on a 32-bit counter (00_scope.md R15 (iii)). -/
def saturatingIncrement (c : BitVec 32) : BitVec 32 := if c = BitVec.allOnes 32 then c else c + 1

/-- sat32(x) as a 32-bit register value (00_scope.md R11). -/
def sat32 (x : Nat) : BitVec 32 := BitVec.ofNat 32 (min x (2 ^ 32 - 1))

end Sys2Proof.Machine
end

