-- ==== Sys2Proof/Machine/Operands.lean ====
section
/-! DEFINITION. Operands that name something, and the check that they do (30_encoding.md R102, R112;
60_exceptions.md R334). -/

namespace Sys2Proof.Machine

/-- A queue-id operand; none where `q ≥ 22`. -/
def operandQueue (q : BitVec 5) : Option QueueId :=
  if h : q.toNat < 22 then some ⟨q.toNat, h⟩ else none

/-- A channel operand; none where `ch ≥ 10`. -/
def operandChannel (ch : BitVec 4) : Option Channel :=
  if h : ch.toNat < 10 then some ⟨ch.toNat, h⟩ else none

/-- A FIR coefficient index; none where `i ≥ 81`. -/
def operandFirIndex (i : BitVec 8) : Option (Fin 81) :=
  if h : i.toNat < 81 then some ⟨i.toNat, h⟩ else none

/-- An IIR coefficient index; none where `i ≥ 11`. -/
def operandIirIndex (i : BitVec 8) : Option (Fin 11) :=
  if h : i.toNat < 11 then some ⟨i.toNat, h⟩ else none

/-- A channel and an IIR coefficient index (format CI); none where either names nothing. -/
def operandCoefficient (ch : BitVec 4) (i : BitVec 8) : Option (Channel × Fin 11) :=
  match operandChannel ch, operandIirIndex i with
  | some c, some k => some (c, k)
  | _, _ => none

/-- FB_CONST's table K (42_filter_bank.md R199); none where `i ≥ 5`. -/
def operandConst (i : BitVec 8) : Option Nat :=
  [firTaps, iirLen, iirLen, decimation, numChannels][i.toNat]?

/-- Run `k` on what an operand names; where it names nothing, the step of 60_exceptions.md R334. -/
def withOperand {α : Type} (operand : Option α) (i : Instr) (sentinel : List Beat)
    (k : α → State → State) (s : State) : State :=
  match operand with
  | some a => k a s
  | none => s.rejectOperand i sentinel

end Sys2Proof.Machine
end

