-- ==== Sys2Proof/Machine/HistoryQueue.lean ====
section
/-! DEFINITION. The HistoryQueue commands (41_history_queue.md). For `q ≥ 22` each is the step of
60_exceptions.md R334 (R150). -/

namespace Sys2Proof.Machine

/-- HQ_INIT q (R151). -/
def execHqInit (q : BitVec 5) (s : State) : Host.Outcome State Fault Refusal :=
  .next (withOperand (operandQueue q) (.hqInit q) [] hqInit s)

/-- HQ_POP q (R153): one num beat, the element or the sentinel 0. -/
def execHqPop (q : BitVec 5) (s : State) : Host.Outcome State Fault Refusal :=
  .next (withOperand (operandQueue q) (.hqPop q) [.num (numZero s.cfg.num)]
    (fun q s => (hqPop q s).2.respond [.num (hqPop q s).1]) s)

/-- HQ_READAT q, age (R155): one num beat, the element of that age or the sentinel 0. -/
def execHqReadat (q : BitVec 5) (age : BitVec 16) (s : State) : Host.Outcome State Fault Refusal :=
  .next (withOperand (operandQueue q) (.hqReadat q age) [.num (numZero s.cfg.num)]
    (fun q s => (hqReadAt q age.toNat s).2.respond [.num (hqReadAt q age.toNat s).1]) s)

/-- HQ_SIZE q (R156): the capacity. -/
def execHqSize (q : BitVec 5) (s : State) : Host.Outcome State Fault Refusal :=
  .next (withOperand (operandQueue q) (.hqSize q) [natBeat 0]
    (fun q s => s.respond [natBeat (s.capacity q)]) s)

/-- HQ_COUNT q (R157). -/
def execHqCount (q : BitVec 5) (s : State) : Host.Outcome State Fault Refusal :=
  .next (withOperand (operandQueue q) (.hqCount q) [natBeat 0]
    (fun q s => s.respond [natBeat (s.queue q).count]) s)

/-- HQ_UNDERFLOWED q (R158): reading does not clear the flag. -/
def execHqUnderflowed (q : BitVec 5) (s : State) : Host.Outcome State Fault Refusal :=
  .next (withOperand (operandQueue q) (.hqUnderflowed q) [natBeat 0]
    (fun q s => s.respond [flagBeat (s.queue q).underflowed]) s)

/-- HQ_OVERFLOWED q (R159): reading does not clear the flag. -/
def execHqOverflowed (q : BitVec 5) (s : State) : Host.Outcome State Fault Refusal :=
  .next (withOperand (operandQueue q) (.hqOverflowed q) [natBeat 0]
    (fun q s => s.respond [flagBeat (s.queue q).overflowed]) s)

/-- HQ_PUSH q, val (R152). -/
def execHqPush (q : BitVec 5) (val : NUM) (s : State) : Host.Outcome State Fault Refusal :=
  .next (withOperand (operandQueue q) (.hqPush q val) [] (fun q s => hqPush q val s) s)

/-- HQ_OPUSH q, val (R154). -/
def execHqOpush (q : BitVec 5) (val : NUM) (s : State) : Host.Outcome State Fault Refusal :=
  .next (withOperand (operandQueue q) (.hqOpush q val) [] (fun q s => hqOpush q val s) s)

end Sys2Proof.Machine
end

