-- ==== Sys2Proof/Machine/SampleRing.lean ====
section
/-! DEFINITION. The SampleRing commands (40_sample_ring.md). -/

namespace Sys2Proof.Machine

/-- SR_INIT (R133). -/
def execSrInit (s : State) : Host.Outcome State Fault Refusal := .next (srInit s)

/-- SR_PUSH v (R131). -/
def execSrPush (v : AdcCode) (s : State) : Host.Outcome State Fault Refusal := .next (srPush v s)

/-- SR_POP (R132): one int beat, the sample or the sentinel 0. -/
def execSrPop (s : State) : Host.Outcome State Fault Refusal :=
  .next ((srPop s).2.respond [natBeat (srPop s).1.toNat])

/-- SR_COUNT (R134). -/
def execSrCount (s : State) : Host.Outcome State Fault Refusal :=
  .next (s.respond [natBeat s.sr.count])

/-- SR_CAP (R135). -/
def execSrCap (s : State) : Host.Outcome State Fault Refusal :=
  .next (s.respond [natBeat s.cfg.ringCapacity])

end Sys2Proof.Machine
end

