-- ==== Sys2Proof/Machine/FilterBank.lean ====
section
/-! DEFINITION. The FilterBank pipeline and its accessors (42_filter_bank.md). -/

namespace Sys2Proof.Machine

/-! ### The pipeline -/

/-- Step 1, scaling (R181): s = v / (ADC_MAX / 2) - 1 in NUM. -/
def scaleSample (n : NumSystem) (v : AdcCode) : NUM :=
  let half := numDiv n (numOfNat n adcMax) (numOfNat n 2)
  numSub n (numDiv n (numOfNat n v.toNat) half) (numOfNat n 1)

/-- FB_accept(v): scale, then overwrite-push into X (R182). -/
def fbAccept (v : AdcCode) (s : State) : State := hqOpush queueX (scaleSample s.cfg.num v) s

/-- A sum of products of coefficients and elements of queue `q` (00_scope.md R10): `terms` lists the
(coefficient, age) pairs in the order of evaluation, `acc` is the accumulator. -/
def sumProducts (q : QueueId) : List (NUM × Nat) → NUM → State → NUM × State
  | [], acc, s => (acc, s)
  | (coefficient, age) :: rest, acc, s =>
    let r := hqReadAt q age s
    sumProducts q rest (numAdd s.cfg.num acc (numMul s.cfg.num coefficient r.1)) r.2

/-- A sum of squares of the elements of queue `q` of the listed ages, in that order. -/
def sumSquares (q : QueueId) : List Nat → NUM → State → NUM × State
  | [], acc, s => (acc, s)
  | age :: rest, acc, s =>
    let r := hqReadAt q age s
    sumSquares q rest (numAdd s.cfg.num acc (numMul s.cfg.num r.1 r.1)) r.2

/-- The FIR pairing: coefficient `i` with age `i` of X (R183). -/
def firTerms (cfg : Config) : List (NUM × Nat) := cfg.firCoef.toList.zipIdx

/-- The term1 pairing: B[i] with age 10 - i of Y (R185). -/
def term1Terms (cfg : Config) (c : Channel) : List (NUM × Nat) :=
  cfg.iirB[c].toList.zipIdx.map fun t => (t.1, 10 - t.2)

/-- The term2 pairing: A[i+1] with age 10 - i of Z[c], i = 0..9; A[0] is never read (R186). -/
def term2Terms (cfg : Config) (c : Channel) : List (NUM × Nat) :=
  cfg.iirA[c].toList.tail.zipIdx.map fun t => (t.1, 10 - t.2)

/-- Replace FB.power[c]. -/
def State.setPower (c : Channel) (x : NUM) (s : State) : State :=
  { s with fb := { s.fb with power := s.fb.power.set c.val x c.isLt } }

/-- The element about to leave P[c] (R188): age 0 where the window is full, else 0. -/
def windowOldest (c : Channel) (s : State) : NUM × State :=
  if (s.queue (queueP c)).count = s.cfg.powerWindow then hqReadAt (queueP c) 0 s else (numZero s.cfg.num, s)

/-- The histories and the power of channel `c` after its output `z` (R187, R188). -/
def channelUpdate (c : Channel) (z : NUM) (s : State) : State :=
  let n := s.cfg.num
  let old := windowOldest c s
  let s := hqOpush (queueP c) z (hqOpush (queueZ c) z old.2)
  s.setPower c (numAdd n (numSub n s.fb.power[c] (numMul n old.1 old.1)) (numMul n z z))

/-- The output of channel `c`: term1 - term2 (R185, R186). -/
def channelOutput (c : Channel) (s : State) : NUM × State :=
  let t1 := sumProducts queueY (term1Terms s.cfg c) (numZero s.cfg.num) s
  let t2 := sumProducts (queueZ c) (term2Terms s.cfg c) (numZero s.cfg.num) t1.2
  (numSub s.cfg.num t1.1 t2.1, t2.2)

/-- One channel of a window (R190). -/
def channelStep (c : Channel) (s : State) : State :=
  channelUpdate c (channelOutput c s).1 (channelOutput c s).2

/-- FB_window() (R190): the FIR output (R183, R184), then the ten channels in ascending order. -/
def fbWindow (s : State) : State :=
  let y := sumProducts queueX (firTerms s.cfg) (numZero s.cfg.num) s
  channels.foldl (fun s c => channelStep c s) (hqOpush queueY y.1 y.2)

/-- FB_recompute(c) (R189). -/
def fbRecompute (c : Channel) (s : State) : State :=
  let r := sumSquares (queueP c) (List.range (s.queue (queueP c)).count) (numZero s.cfg.num) s
  r.2.setPower c r.1

/-- `k` overwrite-pushes of NUM 0. -/
def fillZeros (q : QueueId) : Nat → State → State
  | 0, s => s
  | k + 1, s => fillZeros q k (hqOpush q (numZero s.cfg.num) s)

/-- FB_init() (R191): every queue emptied, then filled with zeros; every power 0. -/
def fbInit (s : State) : State :=
  let zero := numZero s.cfg.num
  let s := queueIds.foldl (fun s q => fillZeros q (s.capacity q) (hqInit q s)) s
  channels.foldl (fun s c => s.setPower c zero) s

/-! ### Accessors -/

/-- FB_POWER ch (R192). -/
def execFbPower (ch : BitVec 4) (s : State) : Host.Outcome State Fault Refusal :=
  .next (withOperand (operandChannel ch) (.fbPower ch) [.num (numZero s.cfg.num)]
    (fun c s => s.respond [.num s.fb.power[c]]) s)

/-- FB_POWERS (R193): channel 0 first. -/
def execFbPowers (s : State) : Host.Outcome State Fault Refusal :=
  .next (s.respond (channels.map fun c => .num s.fb.power[c]))

/-- The index of the maximum, the lowest channel among equal maxima (R194). -/
def maxChannel (n : NumSystem) (power : Vector NUM 10) : Channel :=
  channels.tail.foldl (fun m c => if numLt n power[m] power[c] then c else m) 0

/-- The response of FB_NORM (R194). -/
def normBeats (n : NumSystem) (power : Vector NUM 10) : List Beat :=
  let m := maxChannel n power
  if numIsZero n power[m] then channels.map (fun _ => .num (numZero n)) ++ [natBeat 0]
  else channels.map (fun c => .num (numDiv n power[c] power[m])) ++ [natBeat m.val]

/-- FB_NORM (R194). -/
def execFbNorm (s : State) : Host.Outcome State Fault Refusal :=
  .next (s.respond (normBeats s.cfg.num s.fb.power))

/-- FB_RECOMPUTE ch (R195). -/
def execFbRecompute (ch : BitVec 4) (s : State) : Host.Outcome State Fault Refusal :=
  .next (withOperand (operandChannel ch) (.fbRecompute ch) [] fbRecompute s)

/-- FB_FIRCOEF i (R196). -/
def execFbFircoef (i : BitVec 8) (s : State) : Host.Outcome State Fault Refusal :=
  .next (withOperand (operandFirIndex i) (.fbFircoef i) [.num (numZero s.cfg.num)]
    (fun k s => s.respond [.num s.cfg.firCoef[k]]) s)

/-- FB_IIRA ch, i (R197). -/
def execFbIira (ch : BitVec 4) (i : BitVec 8) (s : State) : Host.Outcome State Fault Refusal :=
  .next (withOperand (operandCoefficient ch i) (.fbIira ch i) [.num (numZero s.cfg.num)]
    (fun k s => s.respond [.num s.cfg.iirA[k.1][k.2]]) s)

/-- FB_IIRB ch, i (R198). -/
def execFbIirb (ch : BitVec 4) (i : BitVec 8) (s : State) : Host.Outcome State Fault Refusal :=
  .next (withOperand (operandCoefficient ch i) (.fbIirb ch i) [.num (numZero s.cfg.num)]
    (fun k s => s.respond [.num s.cfg.iirB[k.1][k.2]]) s)

/-- FB_CONST i (R199). -/
def execFbConst (i : BitVec 8) (s : State) : Host.Outcome State Fault Refusal :=
  .next (withOperand (operandConst i) (.fbConst i) [natBeat 0] (fun k s => s.respond [natBeat k]) s)

end Sys2Proof.Machine
end

