-- ==== Sys2Proof/Machine/Detector.lean ====
section
/-! DEFINITION. The Detector: configuration, the hit decision, and the steps of DET_RUN
(43_detector.md). -/

namespace Sys2Proof.Machine

/-! ### The hit decision -/

/-- Insert channel `k` into a list sorted ascending by power, after the channels of equal power. -/
def insertByPower (n : NumSystem) (power : Vector NUM 10) (k : Channel) : List Channel → List Channel
  | [] => [k]
  | c :: rest =>
    if numLt n power[k] power[c] then k :: c :: rest else c :: insertByPower n power k rest

/-- The permutation `sorted` of R237: a stable insertion sort, ascending by power. -/
def rankChannels (n : NumSystem) (power : Vector NUM 10) : List Channel :=
  channels.foldl (fun sorted k => insertByPower n power k sorted) []

/-- The median, p[sorted[4]] (R238). -/
def medianPower (n : NumSystem) (power : Vector NUM 10) : NUM := power[(rankChannels n power).getD medianRank 0]

/-- The candidate: the highest-ranked channel that is not ignored (R239). -/
def candidate (n : NumSystem) (power : Vector NUM 10) (ignored : BitVec 10) : Option Channel :=
  (rankChannels n power).reverse.find? fun c => !isIgnored ignored c

/-- The result of HITDEC (R242). -/
inductive Decision where
  | allIgnored
  | noHit
  | hit (c : Channel)
deriving DecidableEq, Repr

/-- HITDEC(p, ignored, fudge) (R242). -/
def hitDecision (n : NumSystem) (power : Vector NUM 10) (ignored : BitVec 10) (fudge : NUM) :
    Decision :=
  match candidate n power ignored with
  | none => .allIgnored
  | some c => if numLe n (numMul n (medianPower n power) fudge) power[c] then .hit c else .noHit

/-- The info byte of the Hit event (60_exceptions.md R354). -/
def channelInfo (c : Channel) : BitVec 8 := BitVec.ofNat 8 c.val

/-- The effects of a hit on `cand` (R241; 90_conflicts.md C2). -/
def recordHit (cand : Channel) (s : State) : State :=
  { s with
    det := { s.det with
      hitDetectedFlag := true
      lastHitFrequency := cand
      hitCounts := s.det.hitCounts.set cand.val (saturatingIncrement s.det.hitCounts[cand]) cand.isLt }
    lt := { s.lt with startRequested := true } }.notifyEvent .hit (channelInfo cand)

/-- Clear DET.hitDetectedFlag. -/
def clearHitFlag (s : State) : State := { s with det := { s.det with hitDetectedFlag := false } }

/-- DET_decide() (R241). -/
def detDecide (s : State) : State :=
  match hitDecision s.cfg.num s.fb.power s.det.ignored s.det.fudgeFactor with
  | .allIgnored => clearHitFlag (s.raise .allIgnored 0)
  | .noHit => clearHitFlag s
  | .hit c => recordHit c s

/-! ### Ignore sets -/

/-- DET_ignoreAll(b) (R223), called by DET_IGNALL and by the InvincibilityTimer. -/
def detIgnoreAll (b : Bool) (s : State) : State :=
  { s with det := { s.det with
      ignored := if b then BitVec.allOnes 10 else s.det.savedIgnored } }

/-! ### DET_RUN's steps -/

/-- The phase after a sample is done with: IDLE when none remains, else POP (R234, R235). -/
def afterSample (remaining : Nat) : Phase := if remaining = 0 then .idle else .pop

/-- ENTRY (R232). -/
def detEntry (b : Bool) (s : State) : State :=
  { s with
    det := { s.det with invocationCount := s.det.invocationCount + 1 }
    seq := { s.seq with
      irqEn := b
      remaining := s.sr.count
      phase := afterSample s.sr.count } }

/-- POP (R233). -/
def popStep (s : State) : State :=
  let r := srPop s
  { r.2 with seq := { r.2.seq with
      sample := r.1
      remaining := s.seq.remaining - 1
      phase := .filter } }

/-- FILTER (R234). -/
def filterStep (s : State) : State :=
  let s := fbAccept s.seq.sample s
  if s.det.decimationCounter.val + 1 = decimation then
    let s := fbWindow { s with det := { s.det with decimationCounter := 0 } }
    { s with seq := { s.seq with phase := .decide } }
  else
    { s with
      det := { s.det with decimationCounter := s.det.decimationCounter + 1 }
      seq := { s.seq with phase := afterSample s.seq.remaining } }

/-- DECIDE (R235): the gate test and the whole decision are one step. -/
def decideStep (s : State) : State :=
  let s := if gateOpen s then detDecide s else s
  { s with seq := { s.seq with phase := afterSample s.seq.remaining } }

/-! ### Commands -/

/-- The body of DET_INIT (R221), which reset runs too (70_reset_and_hazards.md R370). -/
def detInit (s : State) : State :=
  fbInit { s with det := {
    ignored := 0
    savedIgnored := 0
    hitCounts := Vector.replicate 10 0
    lastHitFrequency := 0
    hitDetectedFlag := false
    invocationCount := 0
    decimationCounter := 0
    fudgeFactor := s.cfg.fudgeReset } }

/-- DET_INIT (R221). -/
def execDetInit (s : State) : Host.Outcome State Fault Refusal := .next (detInit s)

/-- DET_SETIGN m (R222): the active and the saved set. -/
def execDetSetign (m : BitVec 10) (s : State) : Host.Outcome State Fault Refusal :=
  .next { s with det := { s.det with ignored := m, savedIgnored := m } }

/-- DET_RUN b (R230): its ENTRY step. The POP, FILTER and DECIDE steps follow one by one, as the
foreground's next steps (20_memory.md R81 (d)). -/
def execDetRun (b : Bool) (s : State) : Host.Outcome State Fault Refusal := .next (detEntry b s)

/-- DET_HIT (R224): reading does not clear the flag. -/
def execDetHit (s : State) : Host.Outcome State Fault Refusal :=
  .next (s.respond [flagBeat s.det.hitDetectedFlag])

/-- DET_LASTFREQ (R225). -/
def execDetLastfreq (s : State) : Host.Outcome State Fault Refusal :=
  .next (s.respond [natBeat s.det.lastHitFrequency.val])

/-- DET_CLEARHIT (R226). -/
def execDetClearhit (s : State) : Host.Outcome State Fault Refusal := .next (clearHitFlag s)

/-- DET_IGNALL b (R223). -/
def execDetIgnall (b : Bool) (s : State) : Host.Outcome State Fault Refusal :=
  .next (detIgnoreAll b s)

/-- DET_HITCOUNTS (R227): ten beats, channel 0 first. -/
def execDetHitcounts (s : State) : Host.Outcome State Fault Refusal :=
  .next (s.respond (channels.map fun c => natBeat s.det.hitCounts[c].toNat))

/-- DET_SETFUDGE u (R228). -/
def execDetSetfudge (u : BitVec 24) (s : State) : Host.Outcome State Fault Refusal :=
  .next { s with det := { s.det with fudgeFactor := numOfNat s.cfg.num u.toNat } }

/-- DET_INVOC (R229). -/
def execDetInvoc (s : State) : Host.Outcome State Fault Refusal :=
  .next (s.respond [natBeat s.det.invocationCount.toNat])

end Sys2Proof.Machine
end

