-- ==== Sys2Proof/Machine/Invincibility.lean ====
section
/-! DEFINITION. InvincibilityTimer (44_timers.md R270 to R273). -/

namespace Sys2Proof.Machine

/-- The body of IV_INIT (R270), which reset runs too. The exit action is not run. -/
def ivInit (s : State) : State :=
  { s with iv := { state := .idle, elapsedTicks := 0, startRequested := false, durationTicks := 0 } }

/-- Transition evaluation of IV_tick(), with the entry and exit actions (R273 (a)). -/
def ivTransition (s : State) : State :=
  match s.iv.state with
  | .idle =>
    if s.iv.startRequested = true ∧ 1 ≤ s.iv.durationTicks.toNat then
      detIgnoreAll true { s with iv := { s.iv with state := .active, elapsedTicks := 0 } }
    else s
  | .active =>
    if s.iv.durationTicks.toNat ≤ s.iv.elapsedTicks.toNat then
      detIgnoreAll false { s with iv := { s.iv with state := .idle } }
    else s

/-- The request consumed, then the action of the resulting state (R273 (b)). -/
def ivAction (t : InvincibilityTimer) : InvincibilityTimer :=
  let t := { t with startRequested := false }
  if t.state = .active then { t with elapsedTicks := t.elapsedTicks + 1 } else t

/-- IV_tick() (R273). -/
def ivTick (s : State) : State :=
  { ivTransition s with iv := ivAction (ivTransition s).iv }

/-- IV_INIT (R270). -/
def execIvInit (s : State) : Host.Outcome State Fault Refusal := .next (ivInit s)

/-- IV_START u (R272): whole seconds times the tick rate, saturated, written at once. -/
def execIvStart (u : BitVec 16) (s : State) : Host.Outcome State Fault Refusal :=
  .next { s with iv := { s.iv with
    durationTicks := sat32 (u.toNat * s.cfg.tickRateHz)
    startRequested := true } }

/-- IV_RUNNING (R271). -/
def execIvRunning (s : State) : Host.Outcome State Fault Refusal :=
  .next (s.respond [flagBeat (ivRunning s)])

/-- IV_TICK (R273). -/
def execIvTick (s : State) : Host.Outcome State Fault Refusal := .next (ivTick s)

end Sys2Proof.Machine
end

