-- ==== Sys2Proof/Machine/Lockout.lean ====
section
/-! DEFINITION. LockoutTimer (44_timers.md R261 to R264). -/

namespace Sys2Proof.Machine

/-- The body of LT_INIT (R261), which reset runs too. -/
def ltInit (s : State) : State :=
  { s with lt := { state := .idle, elapsedTicks := 0, startRequested := false } }

/-- LT_tick() (R264): transition evaluation, the request consumed, then the action. -/
def ltTick (s : State) : State :=
  let t := s.lt
  let t : LockoutTimer := match t.state with
    | .idle => if t.startRequested then { t with state := .active, elapsedTicks := 0 } else t
    | .active => if s.cfg.lockoutTicks ≤ t.elapsedTicks.toNat then { t with state := .idle } else t
  let t := { t with startRequested := false }
  let t := if t.state = .active then { t with elapsedTicks := t.elapsedTicks + 1 } else t
  { s with lt := t }

/-- LT_INIT (R261). -/
def execLtInit (s : State) : Host.Outcome State Fault Refusal := .next (ltInit s)

/-- LT_START (R262). -/
def execLtStart (s : State) : Host.Outcome State Fault Refusal :=
  .next { s with lt := { s.lt with startRequested := true } }

/-- LT_RUNNING (R263). -/
def execLtRunning (s : State) : Host.Outcome State Fault Refusal :=
  .next (s.respond [flagBeat (ltRunning s)])

/-- LT_TICK (R264). -/
def execLtTick (s : State) : Host.Outcome State Fault Refusal := .next (ltTick s)

end Sys2Proof.Machine
end

