-- ==== Sys2Proof/Machine/Transmitter.lean ====
section
/-! DEFINITION. Transmitter (44_timers.md R300 to R306). -/

namespace Sys2Proof.Machine

/-- The body of TX_INIT (R300), which reset runs too. -/
def txInit (s : State) : State :=
  { s with tx := {
    state := .low
    elapsedTicks := 0
    halfTicks := 0
    startRequested := false
    frequencyNumber := 0
    activeFrequency := 0
    continuousMode := false
    pin := false } }

/-- begin_burst (R303): the pin starts high and the frequency is latched. -/
def beginBurst (t : Transmitter) : Transmitter :=
  { t with
    state := .transmit
    elapsedTicks := 0
    halfTicks := 0
    activeFrequency := t.frequencyNumber
    pin := true }

/-- Transition evaluation of TX_tick() (R303 (a)): the end of the burst wins over a toggle. -/
def txTransition (cfg : Config) (t : Transmitter) : Transmitter :=
  match t.state with
  | .low => if t.startRequested then beginBurst t else t
  | .transmit =>
    if cfg.burst ≤ t.elapsedTicks then
      if t.continuousMode then beginBurst t else { t with state := .low, pin := false }
    else if cfg.halfPeriod t.activeFrequency ≤ t.halfTicks then
      { t with pin := !t.pin, halfTicks := 0 }
    else t

/-- The request consumed, then the action of the resulting state (R303 (b)). -/
def txAction (t : Transmitter) : Transmitter :=
  let t := { t with startRequested := false }
  if t.state = .transmit then
    { t with elapsedTicks := t.elapsedTicks + 1, halfTicks := t.halfTicks + 1 }
  else t

/-- TX_tick() (R303). -/
def txTick (s : State) : State := { s with tx := txAction (txTransition s.cfg s.tx) }

/-- The port `tx_pin` (10_state.md R63). -/
def txPin (s : State) : Bool := s.tx.pin

/-- TX_INIT (R300). -/
def execTxInit (s : State) : Host.Outcome State Fault Refusal := .next (txInit s)

/-- TX_START (R301). -/
def execTxStart (s : State) : Host.Outcome State Fault Refusal :=
  .next { s with tx := { s.tx with startRequested := true } }

/-- TX_RUNNING (R302). -/
def execTxRunning (s : State) : Host.Outcome State Fault Refusal :=
  .next (s.respond [flagBeat (txRunning s)])

/-- TX_TICK (R303). -/
def execTxTick (s : State) : Host.Outcome State Fault Refusal := .next (txTick s)

/-- TX_SETFREQ ch (R304): `activeFrequency` is not touched. -/
def execTxSetfreq (ch : BitVec 4) (s : State) : Host.Outcome State Fault Refusal :=
  .next (withOperand (operandChannel ch) (.txSetfreq ch) []
    (fun c s => { s with tx := { s.tx with frequencyNumber := c } }) s)

/-- TX_GETFREQ (R305): the number last set. -/
def execTxGetfreq (s : State) : Host.Outcome State Fault Refusal :=
  .next (s.respond [natBeat s.tx.frequencyNumber.val])

/-- TX_SETCONT b (R306). -/
def execTxSetcont (b : Bool) (s : State) : Host.Outcome State Fault Refusal :=
  .next { s with tx := { s.tx with continuousMode := b } }

end Sys2Proof.Machine
end

