-- ==== Sys2Proof/Machine/Trigger.lean ====
section
/-! DEFINITION. Trigger (44_timers.md R280 to R290). -/

namespace Sys2Proof.Machine

/-- The body of TR_INIT (R280), which reset runs too: `ignoreInput` samples `trig_in`. -/
def trInit (s : State) : State :=
  { s with tr := {
    state := .idle
    elapsedTicks := 0
    holdTicks := 0
    startRequested := false
    enabled := false
    remainingShotCount := 0
    ignoreInput := s.trigIn } }

/-- TR_fire() (R284): an empty clip fires nothing. -/
def trFire (s : State) : State :=
  if 0 < s.tr.remainingShotCount.toNat then
    { s with
      tr := { s.tr with remainingShotCount := s.tr.remainingShotCount - 1 }
      tx := { s.tx with startRequested := true } }
  else s

/-- TR_reload() (R285). -/
def trReload (s : State) : State :=
  { s with tr := { s.tr with remainingShotCount := s.cfg.clipSize } }.notifyEvent .reload 0

/-- Transition evaluation of TR_tick() (R283 (a)); `p` is the believed level. -/
def trTransition (p : Bool) (s : State) : State :=
  match s.tr.state with
  | .idle =>
    if p then { s with tr := { s.tr with state := .pressDebounce, elapsedTicks := 0 } } else s
  | .pressDebounce =>
    if !p then { s with tr := { s.tr with state := .idle } }
    else if s.cfg.debounceTicks ≤ s.tr.elapsedTicks.toNat then
      trFire { s with tr := { s.tr with state := .releaseDebounce, elapsedTicks := 0, holdTicks := 0 } }
    else s
  | .releaseDebounce =>
    if p then
      let s := { s with tr := { s.tr with elapsedTicks := 0 } }
      if s.cfg.reloadHoldTicks ≤ s.tr.holdTicks.toNat then
        let s := trReload s
        { s with tr := { s.tr with holdTicks := 0 } }
      else s
    else
      let s := { s with tr := { s.tr with holdTicks := 0 } }
      if s.cfg.debounceTicks ≤ s.tr.elapsedTicks.toNat then
        { s with tr := { s.tr with state := .idle } }
      else s

/-- The request consumed, then the action of the resulting state (R283 (b)). -/
def trAction (p : Bool) (t : Trigger) : Trigger :=
  let t := { t with startRequested := false }
  match t.state with
  | .idle => t
  | .pressDebounce => { t with elapsedTicks := t.elapsedTicks + 1 }
  | .releaseDebounce =>
    if p then { t with holdTicks := t.holdTicks + 1 } else { t with elapsedTicks := t.elapsedTicks + 1 }

/-- TR_tick() (R283): a disabled Trigger is dormant, no field changes. -/
def trTick (s : State) : State :=
  if s.tr.enabled then
    let p := triggerPressed s
    let s := trTransition p s
    { s with tr := trAction p s.tr }
  else s

/-- TR_INIT (R280). -/
def execTrInit (s : State) : Host.Outcome State Fault Refusal := .next (trInit s)

/-- TR_START (R281): the flag has no other effect. -/
def execTrStart (s : State) : Host.Outcome State Fault Refusal :=
  .next { s with tr := { s.tr with startRequested := true } }

/-- TR_RUNNING (R282). -/
def execTrRunning (s : State) : Host.Outcome State Fault Refusal :=
  .next (s.respond [flagBeat (trRunning s)])

/-- TR_TICK (R283). -/
def execTrTick (s : State) : Host.Outcome State Fault Refusal := .next (trTick s)

/-- TR_ENABLE (R286). -/
def execTrEnable (s : State) : Host.Outcome State Fault Refusal :=
  .next { s with tr := { s.tr with enabled := true } }

/-- TR_DISABLE (R287). -/
def execTrDisable (s : State) : Host.Outcome State Fault Refusal :=
  .next { s with tr := { s.tr with enabled := false } }

/-- TR_GETSHOTS (R288). -/
def execTrGetshots (s : State) : Host.Outcome State Fault Refusal :=
  .next (s.respond [natBeat s.tr.remainingShotCount.toNat])

/-- TR_SETSHOTS u (R289): nothing clamps it. -/
def execTrSetshots (u : BitVec 16) (s : State) : Host.Outcome State Fault Refusal :=
  .next { s with tr := { s.tr with remainingShotCount := u } }

/-- TR_RELOAD (R290): enabled or not, in any state. -/
def execTrReload (s : State) : Host.Outcome State Fault Refusal := .next (trReload s)

end Sys2Proof.Machine
end

