-- ==== Sys2Proof/Machine/Tick.lean ====
section
/-! DEFINITION. The TICK event, the block's one interrupt (44_timers.md R320; 60_exceptions.md R340 to
R344). -/

namespace Sys2Proof.Machine

/-- The producer side of a TICK: SR_push(adc) (R320). Inside a DET_RUN issued with `irqEn = 0` the
contents of SampleRing are unspecified after it (20_memory.md R84): a free value, log 9. -/
def tickPush (adc : AdcCode) (s : State) : State :=
  if unprotectedRun s then { s with sr := freeRing s.cfg s.freeDraws, freeDraws := s.freeDraws + 1 }
  else srPush adc s

/-- One TICK (R320): the push, then LockoutTimer, InvincibilityTimer, Trigger, Transmitter. It saves
nothing, changes no mode and has no return (60_exceptions.md R343, R344). -/
def takeTick (adc : AdcCode) (s : State) : State :=
  txTick (trTick (ivTick (ltTick (tickPush adc s))))

/-- TICK adc (R320). -/
def execTick (adc : AdcCode) (s : State) : Host.Outcome State Fault Refusal := .next (takeTick adc s)

end Sys2Proof.Machine
end

