-- ==== Sys2Proof/Machine/Dispatch.lean ====
section
/-! DEFINITION. One arm per instruction. -/

namespace Sys2Proof.Machine

def exec (i : Instr) (s : State) : Host.Outcome State Fault Refusal :=
  match i with
  | .srInit => Sys2Proof.Machine.execSrInit s
  | .srPush v => Sys2Proof.Machine.execSrPush v s
  | .srPop => Sys2Proof.Machine.execSrPop s
  | .srCount => Sys2Proof.Machine.execSrCount s
  | .srCap => Sys2Proof.Machine.execSrCap s
  | .hqInit q => Sys2Proof.Machine.execHqInit q s
  | .hqPop q => Sys2Proof.Machine.execHqPop q s
  | .hqReadat q age => Sys2Proof.Machine.execHqReadat q age s
  | .hqSize q => Sys2Proof.Machine.execHqSize q s
  | .hqCount q => Sys2Proof.Machine.execHqCount q s
  | .hqUnderflowed q => Sys2Proof.Machine.execHqUnderflowed q s
  | .hqOverflowed q => Sys2Proof.Machine.execHqOverflowed q s
  | .hqPush q val => Sys2Proof.Machine.execHqPush q val s
  | .hqOpush q val => Sys2Proof.Machine.execHqOpush q val s
  | .fbPower ch => Sys2Proof.Machine.execFbPower ch s
  | .fbPowers => Sys2Proof.Machine.execFbPowers s
  | .fbNorm => Sys2Proof.Machine.execFbNorm s
  | .fbRecompute ch => Sys2Proof.Machine.execFbRecompute ch s
  | .fbFircoef k => Sys2Proof.Machine.execFbFircoef k s
  | .fbIira ch k => Sys2Proof.Machine.execFbIira ch k s
  | .fbIirb ch k => Sys2Proof.Machine.execFbIirb ch k s
  | .fbConst k => Sys2Proof.Machine.execFbConst k s
  | .detInit => Sys2Proof.Machine.execDetInit s
  | .detSetign m => Sys2Proof.Machine.execDetSetign m s
  | .detRun b => Sys2Proof.Machine.execDetRun b s
  | .detHit => Sys2Proof.Machine.execDetHit s
  | .detLastfreq => Sys2Proof.Machine.execDetLastfreq s
  | .detClearhit => Sys2Proof.Machine.execDetClearhit s
  | .detIgnall b => Sys2Proof.Machine.execDetIgnall b s
  | .detHitcounts => Sys2Proof.Machine.execDetHitcounts s
  | .detSetfudge u => Sys2Proof.Machine.execDetSetfudge u s
  | .detInvoc => Sys2Proof.Machine.execDetInvoc s
  | .ltInit => Sys2Proof.Machine.execLtInit s
  | .ltStart => Sys2Proof.Machine.execLtStart s
  | .ltRunning => Sys2Proof.Machine.execLtRunning s
  | .ltTick => Sys2Proof.Machine.execLtTick s
  | .ivInit => Sys2Proof.Machine.execIvInit s
  | .ivStart u => Sys2Proof.Machine.execIvStart u s
  | .ivRunning => Sys2Proof.Machine.execIvRunning s
  | .ivTick => Sys2Proof.Machine.execIvTick s
  | .trInit => Sys2Proof.Machine.execTrInit s
  | .trStart => Sys2Proof.Machine.execTrStart s
  | .trRunning => Sys2Proof.Machine.execTrRunning s
  | .trTick => Sys2Proof.Machine.execTrTick s
  | .trEnable => Sys2Proof.Machine.execTrEnable s
  | .trDisable => Sys2Proof.Machine.execTrDisable s
  | .trGetshots => Sys2Proof.Machine.execTrGetshots s
  | .trSetshots u => Sys2Proof.Machine.execTrSetshots u s
  | .trReload => Sys2Proof.Machine.execTrReload s
  | .txInit => Sys2Proof.Machine.execTxInit s
  | .txStart => Sys2Proof.Machine.execTxStart s
  | .txRunning => Sys2Proof.Machine.execTxRunning s
  | .txTick => Sys2Proof.Machine.execTxTick s
  | .txSetfreq ch => Sys2Proof.Machine.execTxSetfreq ch s
  | .txGetfreq => Sys2Proof.Machine.execTxGetfreq s
  | .txSetcont b => Sys2Proof.Machine.execTxSetcont b s
  | .tick adc => Sys2Proof.Machine.execTick adc s

end Sys2Proof.Machine
end

