-- ==== Sys2Proof/Machine/Reset.lean ====
section
/-! DEFINITION. The RESET input (70_reset_and_hazards.md R370). -/

namespace Sys2Proof.Machine

/-- RESET as one step (R370): every component's init, the sequencer, the pending bit and the output
lists. The configuration, the words waiting on CMD, the schedule and `trig_in` are the environment's
and stay (log 16). -/
def hardwareReset (s : State) : State :=
  let s := detInit (srInit s)
  let s := txInit (trInit (ivInit (ltInit s)))
  { s with
    seq := { phase := .idle, remaining := 0, irqEn := false, sample := 0 }
    tickPending := false
    heldTick := 0
    resp := []
    diag := []
    notify := [] }

end Sys2Proof.Machine
end

