-- ==== Sys2Proof/Machine/Fetch.lean ====
section
/-! DEFINITION. What the next step is: the foreground's next step, the interrupt, the environment
(20_memory.md R80 to R84). -/

namespace Sys2Proof.Machine

/-- What a step does. -/
inductive Work where
  /-- run this instruction from this state -/
  | run (i : Instr) (s : State)
  /-- the step leads to this state -/
  | done (s : State)
  /-- the environment left the spec -/
  | stop (r : Fault)
deriving DecidableEq, Repr

/-- Take the next command from CMD (30_encoding.md R100). An illegal command raises IllegalCommand and
does nothing else; its words are consumed (R110, R111; 60_exceptions.md R335). With no complete command
on CMD the foreground waits. -/
def nextCommand (s : State) : Work :=
  match takeCommand s.cmd with
  | .nothing => .done s
  | .incomplete => .done s
  | .outOfStep => .stop .cmdOutOfStep
  | .command h payload rest =>
    match decodeHead h payload with
    | .ok i => .run i { s with cmd := rest }
    | .error _ => .done ({ s with cmd := rest }.raise .illegalCommand h)

/-- The foreground's next step: the phase step of the DET_RUN in progress, else the next command; no
command is taken while a DET_RUN is in progress (10_state.md R60; 20_memory.md R81). -/
def foregroundStep (s : State) : Work :=
  match s.seq.phase with
  | .idle => nextCommand s
  | .pop => .done (popStep s)
  | .filter => .done (filterStep s)
  | .decide => .done (decideStep s)

/-- The commands that are critical sections (20_memory.md R83 (ii)). -/
def maskedCommand : Instr → Bool
  | .srInit => true
  | .srPush _ => true
  | .srPop => true
  | _ => false

/-- The port `irq_mask` during the foreground's next step (20_memory.md R83; 10_state.md R63): high for
the POP step of a run with `irqEn = 1` and for SR_INIT, SR_PUSH and SR_POP. -/
def irqMask (s : State) : Bool :=
  match s.seq.phase with
  | .idle =>
    match nextCommand s with
    | .run i _ => maskedCommand i
    | _ => false
  | .pop => s.seq.irqEn
  | .filter => false
  | .decide => false

/-- The TICK held by a masked step is taken (60_exceptions.md R341, R344). -/
def releaseTick (s : State) : Work :=
  .run (decodeTick s.heldTick) { s with tickPending := false, heldTick := 0 }

/-- What the next step does (20_memory.md R81). A pending TICK comes first, "as soon as `irq_mask`
falls" (10_state.md R64); then the schedule; with no event scheduled the foreground goes on. -/
def nextWork (s : State) : Work :=
  if s.tickPending then releaseTick s
  else match s.schedule with
    | [] => foregroundStep s
    | .foreground :: rest => foregroundStep { s with schedule := rest }
    | .tick w :: rest => .run (decodeTick w) { s with schedule := rest }
    | .pin level :: rest => .done { s with schedule := rest, trigIn := level }
    | .reset :: rest => .done (hardwareReset { s with schedule := rest })
    | .foregroundAndTick w :: rest =>
      if irqMask s then
        foregroundStep { s with schedule := rest, tickPending := true, heldTick := w }
      else .run (decodeTick w) { s with schedule := .foreground :: rest }

end Sys2Proof.Machine
end

