-- ==== Sys2Proof/Machine/Step.lean ====
section
/-! DEFINITION. One step of the block, and an instruction placed where the next step takes it. -/

namespace Sys2Proof.Machine

/-- One step (20_memory.md R81). -/
def step (s : State) : Host.Outcome State Fault Refusal :=
  match nextWork s with
  | .run i s' => exec i s'
  | .done s' => .next s'
  | .stop r => .fault r

/-- `s` with the instruction whose bits are `w` placed so that the very next step runs it: a 16-bit word
as a TICK event at the head of the schedule, any other as words at the head of CMD, with the foreground
next and no DET_RUN in progress; no TICK is pending. Log 7. -/
def State.withFetchWord (s : State) (nbits w : Nat) : State :=
  if nbits = 16 then
    { s with tickPending := false, schedule := .tick (BitVec.ofNat 16 w) :: s.schedule }
  else
    { s with
      tickPending := false
      schedule := .foreground :: s.schedule
      seq := { s.seq with phase := .idle }
      cmd := wordsOfBits s.cfg.num w ++ s.cmd }

end Sys2Proof.Machine
end

