-- ==== Sys2Proof/Safety.lean ====
section
/-! DEFINITION. The terms claims are stated in: completion, sequences of instructions, what a ring or a
queue holds, and the invariants of 10_state.md. -/

namespace Sys2Proof.Machine

/-! ### Outcomes -/

/-- The outcome is a next state. -/
def completes (o : Host.Outcome State Fault Refusal) : Prop := ∃ t, o = .next t

/-- Run instructions one after another, stopping at the first fault or refusal. -/
def execAll : List Instr → State → Host.Outcome State Fault Refusal
  | [], s => .next s
  | i :: rest, s =>
    match exec i s with
    | .next t => execAll rest t
    | .fault r => .fault r
    | .refused r => .refused r

/-- `k` steps, stopping at the first fault or refusal. -/
def steps : Nat → State → Host.Outcome State Fault Refusal
  | 0, s => .next s
  | k + 1, s =>
    match step s with
    | .next t => steps k t
    | .fault r => .fault r
    | .refused r => .refused r

/-! ### What is issued and what is next -/

/-- The words of a command with head `h` (30_encoding.md R100); `payload` is there only where `h[31]`
announces it. -/
def issuedWords (h : Head) (payload : NUM) : List CmdWord :=
  if announcesPayload h then [.head h, .payload payload] else [.head h]

/-- The next step is the foreground's: no TICK is pending, and the schedule is empty or names the
foreground first. The schedule after the step is `s.schedule.tail`. -/
def foregroundIsNext (s : State) : Prop :=
  s.tickPending = false ∧ (s.schedule = [] ∨ ∃ rest, s.schedule = .foreground :: rest)

/-- The beats of an operand error (60_exceptions.md R334; 30_encoding.md R104): one sentinel for each
beat of the opcode's response column. -/
def sentinelBeats (n : NumSystem) : Instr → List Beat
  | .hqPop _ | .hqReadat _ _ | .fbPower _ | .fbFircoef _ | .fbIira _ _ | .fbIirb _ _ =>
    [.num (numZero n)]
  | .hqSize _ | .hqCount _ | .hqUnderflowed _ | .hqOverflowed _ | .fbConst _ => [.int 0]
  | _ => []

/-! ### Contents -/

/-- The unread samples, oldest first (10_state.md R22 (iii)). -/
def ringContents (s : State) : List AdcCode :=
  (List.range s.sr.count).map fun k =>
    Memory.read unlistedSample s.sr.mem ((s.sr.readIndex + k) % s.cfg.ringCapacity)

/-- The elements of a queue, oldest first (10_state.md R24 (iii)). -/
def queueContents (s : State) (q : QueueId) : List NUM :=
  (List.range (s.queue q).count).map fun a =>
    Memory.read (unlistedNum s.cfg.num) (s.queue q).mem (((s.queue q).readIndex + a) % s.capacity q)

/-- The sum of the squares of the elements of a list, in the reference instantiation. -/
def sumOfSquares (l : List NUM) : NUM :=
  .exact (l.map fun e => NumSystem.exact.unwrap e * NumSystem.exact.unwrap e).sum

/-- Σ p·q over the pairs of a list, in its order, in the instantiation's arithmetic (00_scope.md
R10). -/
def sumOfPairs (n : NumSystem) (l : List (NUM × NUM)) : NUM :=
  l.foldl (fun acc t => numAdd n acc (numMul n t.1 t.2)) (numZero n)

/-- The diagnostics of reading queue `q`, which holds `count` elements, at the ages of a list: one
InvalidIndex(q, age) for each age that is not there, in order (41_history_queue.md R155;
60_exceptions.md R331 (a)). -/
def missingAges (q : QueueId) (count : Nat) (ages : List Nat) : List DiagEvent :=
  (ages.filter fun age => decide (count ≤ age)).map fun age =>
    ⟨.invalidIndex, BitVec.ofNat 32 (q.val * 65536 + age % 65536)⟩

/-- The contents after an overwrite-push of `v` into `l` at capacity `n` (41_history_queue.md R154). -/
def overwritten {α : Type} (n : Nat) (l : List α) (v : α) : List α :=
  (if l.length = n then l.tail else l) ++ [v]

/-- The phase after a sample is done with (43_detector.md R234, R235). -/
def nextPhase (s : State) : Phase := if s.seq.remaining = 0 then .idle else .pop

/-- The foreground steps left in the DET_RUN in progress (43_detector.md R236). -/
def runStepsLeft (s : State) : Nat :=
  match s.seq.phase with
  | .idle => 0
  | .pop => 2 * s.seq.remaining + (s.det.decimationCounter.val + s.seq.remaining) / 10
  | .filter => 1 + 2 * s.seq.remaining + (s.det.decimationCounter.val + 1 + s.seq.remaining) / 10
  | .decide => 1 + 2 * s.seq.remaining + (s.det.decimationCounter.val + s.seq.remaining) / 10

/-! ### Invariants -/

/-- SampleRing within its ranges (10_state.md R21, R22 (i)) and its memory in canonical form. -/
def ringInRange (s : State) : Prop :=
  s.sr.writeIndex < s.cfg.ringCapacity ∧ s.sr.readIndex < s.cfg.ringCapacity ∧
  s.sr.count ≤ s.cfg.ringCapacity ∧
  Memory.wf unlistedSample s.cfg.ringCapacity s.sr.mem = true

/-- 10_state.md R22 (ii). -/
def ringLinked (s : State) : Prop :=
  s.sr.writeIndex = (s.sr.readIndex + s.sr.count) % s.cfg.ringCapacity

/-- A queue of capacity `n` within its ranges (10_state.md R23, R24 (i), (ii)) and its memory in
canonical form. -/
def HistoryQueue.wf (num : NumSystem) (n : Nat) (x : HistoryQueue) : Prop :=
  x.readIndex < n ∧ x.writeIndex < n ∧ x.count ≤ n ∧ x.writeIndex = (x.readIndex + x.count) % n ∧
  Memory.wf (unlistedNum num) n x.mem = true

/-- Every queue is well formed. -/
def queuesWf (s : State) : Prop := ∀ q : QueueId, (s.queue q).wf s.cfg.num (s.capacity q)

/-- All storage in form: SampleRing and the 22 queues. -/
def storageWf (s : State) : Prop := ringInRange s ∧ queuesWf s

/-- The tick counters stay within the bounds they are compared with, `halfTicks` within `elapsedTicks`
too (so that both fit in 32 bits where the burst length does), and the pin is low in LOW (44_timers.md R264, R283, R303;
R15 (vi)). -/
def timersBounded (s : State) : Prop :=
  s.lt.elapsedTicks.toNat ≤ s.cfg.lockoutTicks ∧
  s.tr.elapsedTicks.toNat ≤ s.cfg.debounceTicks ∧
  s.tr.holdTicks.toNat ≤ s.cfg.reloadHoldTicks ∧
  s.tx.elapsedTicks ≤ s.cfg.burst ∧
  s.tx.halfTicks ≤ s.cfg.halfPeriod s.tx.activeFrequency ∧
  s.tx.halfTicks ≤ s.tx.elapsedTicks ∧
  (s.tx.state = .low → s.tx.pin = false)

/-- What one step may make of a tick counter without a wrap (00_scope.md R15 (vi)): nothing; 0, only where
`cleared` holds; 1, where counting begins; or one more, from below `bound`. -/
def countsUp (cleared : Prop) (bound : Nat) (old new : Nat) : Prop :=
  new = old ∨ (cleared ∧ new = 0) ∨ new = 1 ∨ (old < bound ∧ new = old + 1)

/-- The run sequencer's form (10_state.md R60; 43_detector.md R233): nothing remains when idle,
something remains at POP, and in a protected run the ring holds what remains. -/
def sequencerWf (s : State) : Prop :=
  (s.seq.phase = .idle → s.seq.remaining = 0) ∧
  (s.seq.phase = .pop → 1 ≤ s.seq.remaining) ∧
  (s.seq.phase ≠ .idle → s.seq.irqEn = true → s.seq.remaining ≤ s.sr.count)

/-- Every FilterBank queue is full (10_state.md R27 (i)). -/
def queuesFull (s : State) : Prop := ∀ q : QueueId, (s.queue q).count = s.capacity q

/-- The power of each channel is the sum of the squares of its window (10_state.md R27 (ii)). -/
def powersExact (s : State) : Prop :=
  ∀ c : Channel, s.fb.power[c] = sumOfSquares (queueContents s (queueP c))

/-- Every NUM of the state and of the words on CMD belongs to the carrier of the configured record
(00_scope.md R9). -/
def numbersOwned (s : State) : Prop :=
  (∀ q : QueueId, ∀ e ∈ (s.queue q).mem, s.cfg.num.owns e.2 = true) ∧
  (∀ c : Channel, s.cfg.num.owns s.fb.power[c] = true) ∧
  s.cfg.num.owns s.det.fudgeFactor = true ∧
  (∀ v, .num v ∈ s.resp → s.cfg.num.owns v = true) ∧
  (∀ v, .payload v ∈ s.cmd → s.cfg.num.owns v = true)

/-! ### The order of the powers -/

/-- `lt` orders ten powers strictly and totally, but for powers that it cannot tell apart: what
92_eei_decisions.md D38 and 93_implementation_defined.md U7 ask of a NUM on the values that occur. -/
def ordersPowers (n : NumSystem) (power : Vector NUM 10) : Prop :=
  (∀ a b : Channel, numLt n power[a] power[b] = true → numLt n power[b] power[a] = false) ∧
  (∀ a b c : Channel, numLt n power[a] power[c] = true →
    numLt n power[a] power[b] = true ∨ numLt n power[b] power[c] = true)

/-- Channel `a` ranks below channel `b`: it has the lower power, or an equal one and the lower number
(43_detector.md R237). -/
def ranksBelow (n : NumSystem) (power : Vector NUM 10) (a b : Channel) : Prop :=
  numLt n power[a] power[b] = true ∨ (numLt n power[b] power[a] = false ∧ a < b)

/-! ### What the next step is -/

/-- The next step takes a TICK inside a DET_RUN issued with `irqEn = 0` (20_memory.md R84). -/
def ticksUnprotectedRun (s : State) : Bool :=
  match nextWork s with
  | .run (.tick _) s' => unprotectedRun s'
  | _ => false

/-- A HistoryQueue mutator of the verification port (10_state.md R27; 70_reset_and_hazards.md R384). -/
def isQueueMutator : Instr → Bool
  | .hqInit _ => true
  | .hqPush _ _ => true
  | .hqPop _ => true
  | .hqOpush _ _ => true
  | _ => false

/-- The next step runs a HistoryQueue mutator. -/
def runsQueueMutator (s : State) : Bool :=
  match nextWork s with
  | .run i _ => isQueueMutator i
  | _ => false

end Sys2Proof.Machine
end

