-- ==== Sys2Proof/WellFormed.lean ====
section
/-! DEFINITION. Well-formed instructions: every operand names something (30_encoding.md R112). -/

namespace Sys2Proof

/-- The operand range check of 30_encoding.md R112 and 60_exceptions.md R334 as a predicate: `true`
when every operand of the instruction names something. An instruction that is not well formed still
decodes and runs: its step is the InvalidIndex step of R334. -/
def Instr.wf : Instr → Bool
  | .hqInit q => decide (q.toNat < 22)
  | .hqPop q => decide (q.toNat < 22)
  | .hqReadat q _ => decide (q.toNat < 22)
  | .hqSize q => decide (q.toNat < 22)
  | .hqCount q => decide (q.toNat < 22)
  | .hqUnderflowed q => decide (q.toNat < 22)
  | .hqOverflowed q => decide (q.toNat < 22)
  | .hqPush q _ => decide (q.toNat < 22)
  | .hqOpush q _ => decide (q.toNat < 22)
  | .fbPower ch => decide (ch.toNat < 10)
  | .fbRecompute ch => decide (ch.toNat < 10)
  | .fbFircoef i => decide (i.toNat < 81)
  | .fbIira ch i => decide (ch.toNat < 10) && decide (i.toNat < 11)
  | .fbIirb ch i => decide (ch.toNat < 10) && decide (i.toNat < 11)
  | .fbConst i => decide (i.toNat < 5)
  | .txSetfreq ch => decide (ch.toNat < 10)
  | .srInit | .srPush _ | .srPop | .srCount | .srCap
  | .fbPowers | .fbNorm
  | .detInit | .detSetign _ | .detRun _ | .detHit | .detLastfreq | .detClearhit | .detIgnall _
  | .detHitcounts | .detSetfudge _ | .detInvoc
  | .ltInit | .ltStart | .ltRunning | .ltTick
  | .ivInit | .ivStart _ | .ivRunning | .ivTick
  | .trInit | .trStart | .trRunning | .trTick | .trEnable | .trDisable | .trGetshots
  | .trSetshots _ | .trReload
  | .txInit | .txStart | .txRunning | .txTick | .txGetfreq | .txSetcont _
  | .tick _ => true

end Sys2Proof
end

