-- ==== Sys2Proof/Certificates/Slice0/Obligations.lean ====
section
/-! DEFINITION. The statements for the provers, in the order of OBLIGATIONS.json. -/

open Sys2Proof Sys2Proof.Machine

/-! ### Encoding -/

/-- 30_encoding.md R100 to R105: no bit of an encoding is dropped. It covers every instruction, well
formed or not. -/
def Obligations.DecodeEncodeRoundTrip : Prop :=
  ∀ i : Instr, decodeEncoded (encode i) = some i

/-- 30_encoding.md R100, R103: each head, with its payload where one is announced, has one meaning. -/
def Obligations.DecodedHeadEncodesBack : Prop :=
  ∀ (h : Head) (payload : NUM) (i : Instr), decodeHead h payload = .ok i →
    encode i = .onCmd (issuedWords h payload)

/-- 30_encoding.md R103, R110, R111: the heads that decode are those that exactly one row of the opcode
map selects. -/
def Obligations.LegalHeadsAreTheTableRows : Prop :=
  ∀ (h : Head) (payload : NUM),
    (∃ i, decodeHead h payload = .ok i) ↔
      ∃! r : OpcodeRow, r ∈ opcodeRows ∧ h &&& r.mask = r.pattern

/-- Words written out bit by bit from the formats of 30_encoding.md R101 to R105, one or more of each
family, ports and illegal heads included. The payload word is the binary64 form of 5, which
95_test_vectors.md prints for other commands; that the exact NUM is read from it is PRESUMED (log 4). -/
def Obligations.DecodesSpecWords : Prop :=
  decodeTableWord 32 0x0200000A = some (.srPush 10) ∧
  decodeTableWord 32 0x12150003 = some (.hqReadat 21 3) ∧
  decodeTableWord 96 0x401400000000000091000000 = some (.hqOpush 0 (.exact 5)) ∧
  decodeTableWord 32 0x22000000 = some .fbNorm ∧
  decodeTableWord 32 0x31000200 = some (.detSetign 0x200) ∧
  decodeTableWord 32 0x32000001 = some (.detRun true) ∧
  decodeTableWord 32 0x41000000 = some .ltStart ∧
  decodeTableWord 32 0x51000002 = some (.ivStart 2) ∧
  decodeTableWord 32 0x67000001 = some (.trSetshots 1) ∧
  decodeTableWord 32 0x74000002 = some (.txSetfreq 2) ∧
  decodeTableWord 16 0xF123 = some (.tick 0x123) ∧
  decodeTableWord 32 0x06000000 = none ∧
  decodeTableWord 32 0x01000001 = none ∧
  decodeTableWord 32 0x32000002 = none

/-! ### The step -/

/-- A step runs the decoded instruction: a command on CMD (30_encoding.md R100; 20_memory.md R81 (c)),
whose words leave CMD with the step; a TICK event, of whose word only the low twelve bits are used
(R113); a TICK held by a critical section (60_exceptions.md R344). That a schedule orders the events is
the model's form of R66 (log 6), and that the held word is kept is log 10. -/
def Obligations.StepRunsDecodedInstruction : Prop :=
  (∀ (s : State) (h : Head) (payload : NUM) (rest : List CmdWord) (i : Instr),
    foregroundIsNext s → s.seq.phase = .idle → s.cmd = issuedWords h payload ++ rest →
    decodeHead h payload = .ok i →
    step s = exec i { s with cmd := rest, schedule := s.schedule.tail }) ∧
  (∀ (s : State) (w : TickWord) (rest : List Event),
    s.tickPending = false → s.schedule = .tick w :: rest →
    step s = exec (.tick (w.extractLsb' 0 12)) { s with schedule := rest }) ∧
  (∀ s : State, s.tickPending = true →
    step s = exec (.tick (s.heldTick.extractLsb' 0 12)) { s with tickPending := false, heldTick := 0 })

/-- 60_exceptions.md R335, with 30_encoding.md R110 and R111: an illegal head, and the payload word it
announces, are consumed; IllegalCommand is raised; nothing else happens. -/
def Obligations.IllegalCommandStep : Prop :=
  ∀ (s : State) (h : Head) (payload : NUM) (rest : List CmdWord),
    foregroundIsNext s → s.seq.phase = .idle → s.cmd = issuedWords h payload ++ rest →
    (∀ r ∈ opcodeRows, h &&& r.mask ≠ r.pattern) →
    step s = .next { s with
      cmd := rest
      schedule := s.schedule.tail
      diag := s.diag ++ [⟨.illegalCommand, h⟩] }

/-- 60_exceptions.md R334: a command whose operand names nothing raises InvalidIndex(head), answers one
sentinel for each beat of its response, and changes nothing else; as an instruction and as a step. -/
def Obligations.OperandErrorStep : Prop :=
  (∀ (i : Instr) (s : State), i.wf = false →
    exec i s = .next { s with
      diag := s.diag ++ [⟨.invalidIndex, encodeHead i⟩]
      resp := s.resp ++ sentinelBeats s.cfg.num i }) ∧
  (∀ (s : State) (h : Head) (payload : NUM) (rest : List CmdWord) (i : Instr),
    foregroundIsNext s → s.seq.phase = .idle → s.cmd = issuedWords h payload ++ rest →
    decodeHead h payload = .ok i → i.wf = false →
    step s = .next { s with
      cmd := rest
      schedule := s.schedule.tail
      diag := s.diag ++ [⟨.invalidIndex, h⟩]
      resp := s.resp ++ sentinelBeats s.cfg.num i })

/-- While a DET_RUN is in progress no command is taken, whatever the event, and the step is never the end
of the machine. 10_state.md R60 says that none is issued then; that the step takes none is the model's
(log 21), as are what RESET does to the words on CMD (log 16) and that a TICK inside a run with
`irqEn = 0` completes (log 9). -/
def Obligations.CommandsWaitForTheRun : Prop :=
  ∀ s : State, s.seq.phase ≠ .idle → ∃ t, step s = .next t ∧ t.cmd = s.cmd

/-- 20_memory.md R83, 60_exceptions.md R341: which steps are critical sections; a TICK that arrives
during one is held, while the foreground's step leads where it leads without a TICK, and is the very next
step. A TICK that arrives with any other step is taken before
that step: 60_exceptions.md R342 admits both orders, and this one is the model's (log 10), as is that
the held word is kept (log 10). -/
def Obligations.MaskedStepHoldsTick : Prop :=
  (∀ s : State, irqMask s = true ↔
    (s.seq.phase = .pop ∧ s.seq.irqEn = true) ∨
    (s.seq.phase = .idle ∧ ∃ h payload rest i, s.cmd = issuedWords h payload ++ rest ∧
      decodeHead h payload = .ok i ∧ (i = .srInit ∨ (∃ v, i = .srPush v) ∨ i = .srPop))) ∧
  (∀ (s : State) (w : TickWord) (rest : List Event),
    s.tickPending = false → s.schedule = .foregroundAndTick w :: rest → irqMask s = true →
    ∃ u t, step { s with schedule := .foreground :: rest } = .next u ∧ step s = .next t ∧
      t = { u with tickPending := true, heldTick := w } ∧ t.schedule = rest ∧
      step t = exec (.tick (w.extractLsb' 0 12)) { t with tickPending := false, heldTick := 0 }) ∧
  (∀ (s : State) (w : TickWord) (rest : List Event),
    s.tickPending = false → s.schedule = .foregroundAndTick w :: rest → irqMask s = false →
    step s = exec (.tick (w.extractLsb' 0 12)) { s with schedule := .foreground :: rest })

/-- 60_exceptions.md R330: no step stops, but where the words on CMD break the length rule of
30_encoding.md R100, which no foreground issues (log 8). A TICK inside a run with `irqEn = 0`, which
20_memory.md R84 lets a model flag as a fault, goes on in this one (log 9). Where the foreground is next
and no DET_RUN is in progress, the step waits while no command stands whole on CMD, and leaves a head
whose payload has not come where it is; and it stops where the words break the length rule. Both are the
model's (log 8): the spec gives no step to a foreground that issues nothing. -/
def Obligations.StepStopsOnlyOutOfStep : Prop :=
  (∀ s : State, completes (step s) ∨
    (step s = .fault .cmdOutOfStep ∧ s.seq.phase = .idle ∧ takeCommand s.cmd = .outOfStep)) ∧
  (∀ s : State, foregroundIsNext s → s.seq.phase = .idle →
    (s.cmd = [] ∨ ∃ h : Head, h.getLsbD 31 = true ∧ s.cmd = [.head h]) →
    step s = .next { s with schedule := s.schedule.tail }) ∧
  (∀ s : State, foregroundIsNext s → s.seq.phase = .idle →
    ((∃ v rest, s.cmd = .payload v :: rest) ∨
      ∃ (h h' : Head) (rest : List CmdWord), h.getLsbD 31 = true ∧ s.cmd = .head h :: .head h' :: rest) →
    step s = .fault .cmdOutOfStep)

/-- 60_exceptions.md R330, R334: every instruction, in every state and with every operand, ends in a next
state. For TICK inside a run with `irqEn = 0`, which 20_memory.md R84 lets a model flag as a fault, that
is the model's choice (log 9). -/
def Obligations.EveryInstructionCompletes : Prop :=
  ∀ (i : Instr) (s : State), ∃ t, exec i s = .next t

/-- 10_state.md R66, 70_reset_and_hazards.md R373, 20_memory.md R87: no step, RESET included, changes a
parameter or a coefficient. -/
def Obligations.ConfigurationNeverChanges : Prop :=
  ∀ s t : State, step s = .next t → t.cfg = s.cfg

/-- 10_state.md R63: RESP, DIAG and NOTIFY only grow, but at RESET. -/
def Obligations.OutputsAppendOnly : Prop :=
  ∀ s t : State, step s = .next t →
    (s.tickPending = true ∨ ∀ rest, s.schedule ≠ .reset :: rest) →
    s.resp <+: t.resp ∧ s.diag <+: t.diag ∧ s.notify <+: t.notify

/-! ### Reset -/

/-- 10_state.md R65, its whole table, for every configuration and every level of `trig_in`. -/
def Obligations.ResetStateValues : Prop :=
  ∀ (cfg : Config) (pin : Bool), let s := State.resetWith cfg pin
    ((∀ i, Memory.read unlistedSample s.sr.mem i = 0) ∧
      s.sr.writeIndex = 0 ∧ s.sr.readIndex = 0 ∧ s.sr.count = 0) ∧
    (∀ q : QueueId, (∀ i, Memory.read (unlistedNum cfg.num) (s.queue q).mem i = numZero cfg.num) ∧
      (s.queue q).readIndex = 0 ∧ (s.queue q).writeIndex = 0 ∧
      (s.queue q).count = cfg.queueCapacity q ∧
      (s.queue q).underflowed = false ∧ (s.queue q).overflowed = false) ∧
    (∀ c : Channel, s.fb.power[c] = numZero cfg.num) ∧
    (s.det.ignored = 0 ∧ s.det.savedIgnored = 0 ∧ (∀ c : Channel, s.det.hitCounts[c] = 0) ∧
      s.det.lastHitFrequency = 0 ∧ s.det.hitDetectedFlag = false ∧ s.det.invocationCount = 0 ∧
      s.det.fudgeFactor = cfg.fudgeReset ∧ s.det.decimationCounter = 0) ∧
    (s.lt.state = .idle ∧ s.lt.elapsedTicks = 0 ∧ s.lt.startRequested = false) ∧
    (s.iv.state = .idle ∧ s.iv.elapsedTicks = 0 ∧ s.iv.startRequested = false ∧
      s.iv.durationTicks = 0) ∧
    (s.tr.state = .idle ∧ s.tr.elapsedTicks = 0 ∧ s.tr.holdTicks = 0 ∧
      s.tr.startRequested = false ∧ s.tr.enabled = false ∧ s.tr.ignoreInput = pin ∧
      s.tr.remainingShotCount = 0) ∧
    (s.tx.state = .low ∧ s.tx.elapsedTicks = 0 ∧ s.tx.halfTicks = 0 ∧
      s.tx.startRequested = false ∧ s.tx.frequencyNumber = 0 ∧ s.tx.activeFrequency = 0 ∧
      s.tx.continuousMode = false ∧ s.tx.pin = false) ∧
    (s.seq.phase = .idle ∧ s.seq.remaining = 0 ∧ s.seq.irqEn = false ∧ s.seq.sample = 0) ∧
    s.tickPending = false ∧ s.resp = [] ∧ s.diag = [] ∧ s.notify = [] ∧ s.trigIn = pin

/-- 70_reset_and_hazards.md R370: the RESET step, the composition of every component's init, leaves the
state of 10_state.md R65, from any state. That the words on CMD, the schedule, `trig_in`, the
configuration and the count of free draws stay is the model's choice (log 16). -/
def Obligations.ResetEventReachesResetState : Prop :=
  ∀ (s : State) (rest : List Event), s.tickPending = false → s.schedule = .reset :: rest →
    step s = .next { State.resetWith s.cfg s.trigIn with
      cmd := s.cmd, schedule := rest, freeDraws := s.freeDraws }

/-- The invariants of 10_state.md R22, R24, R27, R60 hold after reset, for every configuration; the
second of R27, of the powers, in the reference instantiation. -/
def Obligations.ResetStateHasInvariants : Prop :=
  ∀ (cfg : Config) (pin : Bool), let s := State.resetWith cfg pin
    storageWf s ∧ ringLinked s ∧ timersBounded s ∧ sequencerWf s ∧ queuesFull s ∧ numbersOwned s ∧
      (cfg.num = .exact → powersExact s)

/-! ### Invariants that every step keeps -/

/-- 10_state.md R21, R22 (i), R24; 20_memory.md R74: every index and count stays in its range, every
queue's indices stay linked, and every memory keeps its canonical form (log 12). Across a TICK inside a
run with `irqEn = 0`, where 20_memory.md R84 leaves SampleRing unspecified, its ranges are the model's
(log 9). And 00_scope.md R9: every NUM of the state stays a value of the configured record. -/
def Obligations.StepKeepsStorageForm : Prop :=
  (∀ s t : State, storageWf s → step s = .next t → storageWf t) ∧
  (∀ s t : State, numbersOwned s → step s = .next t → numbersOwned t)

/-- 10_state.md R22 (ii), but across a TICK inside a DET_RUN issued with `irqEn = 0`, after which the
spec leaves the ring unspecified (20_memory.md R84). -/
def Obligations.StepKeepsRingOrder : Prop :=
  ∀ s t : State, storageWf s → ringLinked s → ticksUnprotectedRun s = false → step s = .next t →
    ringLinked t

/-- 00_scope.md R15 (vi); 44_timers.md R264, R273, R283, R303: no tick counter wraps. Those of
LockoutTimer, Trigger and Transmitter never pass the bounds they are compared with, and the pin is 0 in
LOW; so Transmitter's, natural numbers here (log 15), fit in 32 bits where the burst length does. That of
InvincibilityTimer may come to lie above its bound, which IV_START can lower (70_reset_and_hazards.md
R385). A step leaves a counter, makes it 1, or, only from below its bound, adds one; it makes it 0 only
where the machine is put in its reset state or, of Trigger's, where RELEASE_DEBOUNCE reads a pressed
trigger (`elapsedTicks`) or the trigger reads released (`holdTicks`). -/
def Obligations.StepKeepsTimerBounds : Prop :=
  (∀ s t : State, timersBounded s → step s = .next t → timersBounded t) ∧
  (∀ s t : State, step s = .next t →
    countsUp (t.lt = .reset) s.cfg.lockoutTicks s.lt.elapsedTicks.toNat t.lt.elapsedTicks.toNat ∧
    countsUp (t.iv = .reset) s.iv.durationTicks.toNat s.iv.elapsedTicks.toNat
      t.iv.elapsedTicks.toNat ∧
    countsUp (t.tr = .reset s.trigIn ∨ (t.tr.state = .releaseDebounce ∧ triggerPressed s = true))
      s.cfg.debounceTicks s.tr.elapsedTicks.toNat t.tr.elapsedTicks.toNat ∧
    countsUp (t.tr = .reset s.trigIn ∨ triggerPressed s = false)
      s.cfg.reloadHoldTicks s.tr.holdTicks.toNat t.tr.holdTicks.toNat ∧
    countsUp (t.tx = .reset) s.cfg.burst s.tx.elapsedTicks t.tx.elapsedTicks ∧
    countsUp (t.tx = .reset) (s.cfg.halfPeriod s.tx.activeFrequency) s.tx.halfTicks t.tx.halfTicks)

/-- 10_state.md R60; 43_detector.md R233: nothing remains when idle, something remains at POP, and the
ring holds what a protected run has still to drain. -/
def Obligations.StepKeepsSequencerForm : Prop :=
  ∀ s t : State, sequencerWf s → step s = .next t → sequencerWf t

/-- 10_state.md R27: the FilterBank's queues stay full and, in the exact NUM, the power of each channel
is the sum of the squares of its window, as long as no HistoryQueue mutator runs. -/
def Obligations.StepKeepsFilterReady : Prop :=
  ∀ s t : State, queuesWf s → queuesFull s → (s.cfg.num = .exact → powersExact s) →
    runsQueueMutator s = false → step s = .next t →
    queuesWf t ∧ queuesFull t ∧ (t.cfg.num = .exact → powersExact t)

/-! ### SampleRing -/

/-- 40_sample_ring.md R131: SR_PUSH drops the oldest unread sample of a full ring, writes one element,
and changes nothing else. -/
def Obligations.SrPushResult : Prop :=
  ∀ (v : AdcCode) (s : State), Memory.wf unlistedSample s.cfg.ringCapacity s.sr.mem = true →
    ∃ t, exec (.srPush v) s = .next t ∧ t = { s with sr := t.sr } ∧
      t.sr.writeIndex = (s.sr.writeIndex + 1) % s.cfg.ringCapacity ∧
      (s.sr.count = s.cfg.ringCapacity →
        t.sr.readIndex = (s.sr.readIndex + 1) % s.cfg.ringCapacity ∧ t.sr.count = s.sr.count) ∧
      (s.sr.count ≠ s.cfg.ringCapacity →
        t.sr.readIndex = s.sr.readIndex ∧ t.sr.count = s.sr.count + 1) ∧
      ∀ i, Memory.read unlistedSample t.sr.mem i =
        if i = s.sr.writeIndex then v else Memory.read unlistedSample s.sr.mem i

/-- 40_sample_ring.md R132 to R135: SR_POP answers the oldest sample or the sentinel 0 and clears no
slot; SR_INIT empties and zero-fills; SR_COUNT and SR_CAP only answer. -/
def Obligations.SrPopInitAndAccessors : Prop :=
  (∀ s : State, s.sr.count = 0 → exec .srPop s = .next { s with resp := s.resp ++ [.int 0] }) ∧
  (∀ s : State, s.sr.count ≠ 0 → exec .srPop s = .next { s with
    sr := { s.sr with
      readIndex := (s.sr.readIndex + 1) % s.cfg.ringCapacity
      count := s.sr.count - 1 }
    resp := s.resp ++
      [natBeat (Memory.read unlistedSample s.sr.mem s.sr.readIndex).toNat] }) ∧
  (∀ s : State, ∃ t, exec .srInit s = .next t ∧ t = { s with sr := t.sr } ∧
    t.sr.writeIndex = 0 ∧ t.sr.readIndex = 0 ∧ t.sr.count = 0 ∧
    ∀ i, Memory.read unlistedSample t.sr.mem i = 0) ∧
  (∀ s : State, exec .srCount s = .next { s with resp := s.resp ++ [natBeat s.sr.count] }) ∧
  (∀ s : State, exec .srCap s = .next { s with resp := s.resp ++ [natBeat s.cfg.ringCapacity] })

/-- 10_state.md R22 (iii), 20_memory.md R85: what is popped is what was pushed, in order; only the
oldest is lost, and only at a push on a full ring. -/
def Obligations.RingIsFirstInFirstOut : Prop :=
  ∀ s : State, ringInRange s → ringLinked s →
    (∀ v, ∃ t, exec (.srPush v) s = .next t ∧
      ringContents t = overwritten s.cfg.ringCapacity (ringContents s) v) ∧
    (∃ t, exec .srPop s = .next t ∧ ringContents t = (ringContents s).tail ∧
      t.resp = s.resp ++ [natBeat ((ringContents s).headD 0).toNat])

/-- 40_sample_ring.md R136: after overwrite-pushes of v0 .. v(N-1) and then vN, N pops answer
v1 .. v(N-1), vN; of SampleRing and of every HistoryQueue. -/
def Obligations.OverwriteKeepsNewest : Prop :=
  (∀ (s : State) (vs : List AdcCode) (last : AdcCode), ringInRange s → ringLinked s →
    vs.length = s.cfg.ringCapacity →
    ∃ t, execAll ((vs ++ [last]).map .srPush ++ List.replicate vs.length .srPop) s = .next t ∧
      t.resp = s.resp ++ (vs.tail ++ [last]).map fun v => natBeat v.toNat) ∧
  (∀ (s : State) (q : BitVec 5) (hq : q.toNat < 22) (vs : List NUM) (last : NUM),
    (s.queue ⟨q.toNat, hq⟩).wf s.cfg.num (s.capacity ⟨q.toNat, hq⟩) → vs.length = s.capacity ⟨q.toNat, hq⟩ →
    ∃ t, execAll ((vs ++ [last]).map (.hqOpush q) ++ List.replicate vs.length (.hqPop q)) s = .next t ∧
      t.resp = s.resp ++ (vs.tail ++ [last]).map .num)

/-! ### HistoryQueue -/

/-- 41_history_queue.md R152, R153: HQ_PUSH and HQ_POP, their flags and diagnostics; on failure the
contents stay; nothing else changes. -/
def Obligations.HqPushAndPopResult : Prop :=
  ∀ (q : BitVec 5) (hq : q.toNat < 22) (s : State),
    let id : QueueId := ⟨q.toNat, hq⟩
    let x := s.queue id
    (∀ val, x.count = s.capacity id → exec (.hqPush q val) s = .next
      { s.setQueue id { x with overflowed := true } with
        diag := s.diag ++ [⟨.overflow, BitVec.ofNat 32 q.toNat⟩] }) ∧
    (∀ val, x.count ≠ s.capacity id → Memory.wf (unlistedNum s.cfg.num) (s.capacity id) x.mem = true →
      ∃ m, exec (.hqPush q val) s = .next (s.setQueue id { x with
          mem := m
          writeIndex := (x.writeIndex + 1) % s.capacity id
          count := x.count + 1
          underflowed := false }) ∧
        ∀ i, Memory.read (unlistedNum s.cfg.num) m i =
          if i = x.writeIndex then val else Memory.read (unlistedNum s.cfg.num) x.mem i) ∧
    (x.count = 0 → exec (.hqPop q) s = .next
      { s.setQueue id { x with underflowed := true } with
        diag := s.diag ++ [⟨.underflow, BitVec.ofNat 32 q.toNat⟩]
        resp := s.resp ++ [.num (numZero s.cfg.num)] }) ∧
    (x.count ≠ 0 → exec (.hqPop q) s = .next
      { s.setQueue id { x with
          readIndex := (x.readIndex + 1) % s.capacity id
          count := x.count - 1
          overflowed := false } with
        resp := s.resp ++ [.num (Memory.read (unlistedNum s.cfg.num) x.mem x.readIndex)] })

/-- 41_history_queue.md R154: HQ_OPUSH always succeeds, evicts the element of age 0 of a full queue,
raises nothing, and writes one element. -/
def Obligations.HqOpushResult : Prop :=
  ∀ (q : BitVec 5) (hq : q.toNat < 22) (val : NUM) (s : State),
    let id : QueueId := ⟨q.toNat, hq⟩
    (s.queue id).wf s.cfg.num (s.capacity id) →
    ∃ x, exec (.hqOpush q val) s = .next (s.setQueue id x) ∧ x.wf s.cfg.num (s.capacity id) ∧
      queueContents (s.setQueue id x) id =
        overwritten (s.capacity id) (queueContents s id) val ∧
      x.underflowed = false ∧
      x.overflowed =
        (if (s.queue id).count = s.capacity id then false else (s.queue id).overflowed) ∧
      ∀ i, Memory.read (unlistedNum s.cfg.num) x.mem i =
        if i = (s.queue id).writeIndex then val
        else Memory.read (unlistedNum s.cfg.num) (s.queue id).mem i

/-- 41_history_queue.md R155: HQ_READAT answers the element of that age, or raises InvalidIndex(q, age)
and answers the sentinel; no flag, no storage, nothing else changes. -/
def Obligations.HqReadatResult : Prop :=
  ∀ (q : BitVec 5) (hq : q.toNat < 22) (age : BitVec 16) (s : State),
    let id : QueueId := ⟨q.toNat, hq⟩
    let x := s.queue id
    (age.toNat < x.count → exec (.hqReadat q age) s = .next { s with
      resp := s.resp ++ [.num (Memory.read (unlistedNum s.cfg.num) x.mem
        ((x.readIndex + age.toNat) % s.capacity id))] }) ∧
    (x.count ≤ age.toNat → exec (.hqReadat q age) s = .next { s with
      diag := s.diag ++ [⟨.invalidIndex, BitVec.ofNat 32 (q.toNat * 65536 + age.toNat)⟩]
      resp := s.resp ++ [.num (numZero s.cfg.num)] })

/-- 41_history_queue.md R151, R156 to R159. -/
def Obligations.HqInitAndAccessors : Prop :=
  ∀ (q : BitVec 5) (hq : q.toNat < 22) (s : State),
    let id : QueueId := ⟨q.toNat, hq⟩
    (∃ x, exec (.hqInit q) s = .next (s.setQueue id x) ∧
      x.writeIndex = 0 ∧ x.readIndex = 0 ∧ x.count = 0 ∧
      x.underflowed = false ∧ x.overflowed = false ∧
      ∀ i, Memory.read (unlistedNum s.cfg.num) x.mem i = numZero s.cfg.num) ∧
    exec (.hqSize q) s = .next { s with resp := s.resp ++ [natBeat (s.cfg.queueCapacity id)] } ∧
    exec (.hqCount q) s = .next { s with resp := s.resp ++ [natBeat (s.queue id).count] } ∧
    exec (.hqUnderflowed q) s = .next { s with
      resp := s.resp ++ [.int (if (s.queue id).underflowed then 1 else 0)] } ∧
    exec (.hqOverflowed q) s = .next { s with
      resp := s.resp ++ [.int (if (s.queue id).overflowed then 1 else 0)] }

/-! ### FilterBank -/

/-- 42_filter_bank.md R181, R182; 43_detector.md R234: the FILTER step of a sample that completes no
window. The scaling is a NUM division in every instantiation and (2v - 4095) / 4095 in the exact one;
the scaled sample is overwrite-pushed into X, which is left as HQ_OPUSH leaves it, flags included;
nothing else changes. -/
def Obligations.FilterStepAcceptsSample : Prop :=
  (∀ (n : NumSystem) (v : AdcCode), scaleSample n v =
    numSub n (numDiv n (numOfNat n v.toNat) (numDiv n (numOfNat n 4095) (numOfNat n 2)))
      (numOfNat n 1)) ∧
  (∀ v : AdcCode, scaleSample .exact v = .exact ((2 * (v.toNat : Rat) - 4095) / 4095)) ∧
  (∀ s : State, foregroundIsNext s → s.seq.phase = .filter → (s.queue queueX).wf s.cfg.num 81 →
    s.det.decimationCounter.val < 9 →
    ∃ x, step s = .next { s.setQueue queueX x with
        schedule := s.schedule.tail
        det := { s.det with decimationCounter := s.det.decimationCounter + 1 }
        seq := { s.seq with phase := nextPhase s } } ∧
      exec (.hqOpush 0 (scaleSample s.cfg.num s.seq.sample)) s = .next (s.setQueue queueX x) ∧
      x.wf s.cfg.num 81 ∧ x.underflowed = false ∧
      x.overflowed = (if (s.queue queueX).count = 81 then false else (s.queue queueX).overflowed) ∧
      queueContents (s.setQueue queueX x) queueX =
        overwritten 81 (queueContents s queueX) (scaleSample s.cfg.num s.seq.sample))

/-- 42_filter_bank.md R181 to R188, R190; 43_detector.md R234: the FILTER step of the tenth sample, with
the queues at any length. FIR coefficient `i` meets the sample of age `i`; B[i] the element of Y of age
10 - i; A[i+1] that of Z[c] of age 10 - i, before the channel's own push; the power recurrence drops the
square of the element that P[c] evicts, or of 0 where P[c] is not full (R188). A missing element reads
as 0 and raises InvalidIndex, in the order of evaluation (R155; 70_reset_and_hazards.md R384). Every
queue takes one overwrite-push, its flags with it (R154), and nothing else changes. It holds in every
instantiation of NUM, in the order of evaluation of 00_scope.md R10. -/
def Obligations.FilterStepComputesWindow : Prop :=
  ∀ s : State, foregroundIsNext s → s.seq.phase = .filter → s.det.decimationCounter = 9 →
    queuesWf s →
    let n := s.cfg.num
    let xs := overwritten 81 (queueContents s queueX) (scaleSample n s.seq.sample)
    let y := sumOfPairs n (s.cfg.firCoef.toList.zipIdx.map fun t => (t.1, xs.getD t.2 (numZero n)))
    let ys := overwritten 11 (queueContents s queueY) y
    let zs := fun c : Channel => queueContents s (queueZ c)
    let ps := fun c : Channel => queueContents s (queueP c)
    let z := fun c : Channel => numSub n
      (sumOfPairs n (s.cfg.iirB[c].toList.zipIdx.map fun t =>
        (t.1, ys.getD (10 - t.2) (numZero n))))
      (sumOfPairs n (s.cfg.iirA[c].toList.tail.zipIdx.map fun t =>
        (t.1, (zs c).getD (10 - t.2) (numZero n))))
    let old := fun c : Channel =>
      if (ps c).length = s.cfg.powerWindow then (ps c).headD (numZero n) else numZero n
    ∃ t, step s = .next t ∧
      t = { s with
        schedule := s.schedule.tail
        q := t.q
        fb := t.fb
        diag := s.diag ++ missingAges queueX xs.length (List.range 81) ++
          channels.flatMap fun c =>
            missingAges queueY ys.length (List.range 11).reverse ++
            missingAges (queueZ c) (zs c).length ((List.range 10).map (10 - ·))
        det := { s.det with decimationCounter := 0 }
        seq := { s.seq with phase := .decide } } ∧
      queueContents t queueX = xs ∧ queueContents t queueY = ys ∧
      (∀ c : Channel,
        queueContents t (queueZ c) = overwritten 11 (zs c) (z c) ∧
        queueContents t (queueP c) = overwritten s.cfg.powerWindow (ps c) (z c) ∧
        t.fb.power[c] =
          numAdd n (numSub n s.fb.power[c] (numMul n (old c) (old c))) (numMul n (z c) (z c))) ∧
      queuesWf t ∧
      ∀ q : QueueId, (t.queue q).underflowed = false ∧ (t.queue q).overflowed =
        (if (s.queue q).count = s.capacity q then false else (s.queue q).overflowed)

/-- 41_history_queue.md R155, 42_filter_bank.md R183, 70_reset_and_hazards.md R384: a sum of products
over a queue that software has shortened reads 0 for each missing age and raises InvalidIndex(q, age)
for it, in the order of the sum; nothing else changes. -/
def Obligations.SumOverShortQueue : Prop :=
  ∀ (q : QueueId) (terms : List (NUM × Nat)) (s : State),
    sumProducts q terms (numZero s.cfg.num) s =
      (sumOfPairs s.cfg.num
        (terms.map fun t => (t.1, (queueContents s q).getD t.2 (numZero s.cfg.num))),
        { s with diag := s.diag ++ missingAges q (s.queue q).count (terms.map (·.2)) })

/-- 60_exceptions.md R332: with the invariants of 10_state.md R27 intact a DET_RUN raises nothing but
AllIgnored, once per aborted decision. -/
def Obligations.RunRaisesOnlyAllIgnored : Prop :=
  ∀ s t : State, s.seq.phase ≠ .idle → queuesWf s → queuesFull s → foregroundIsNext s →
    step s = .next t →
    t.diag = s.diag ∨
    (s.seq.phase = .decide ∧ (∀ c : Channel, s.det.ignored.getLsbD c.val = true) ∧
      t.diag = s.diag ++ [⟨.allIgnored, 0⟩])

/-- 42_filter_bank.md R195: the from-scratch sum over the window, oldest first; in the exact NUM, with
the invariant of 10_state.md R27 (ii), it changes nothing. -/
def Obligations.FbRecomputeResult : Prop :=
  ∀ (ch : BitVec 4) (h : ch.toNat < 10) (s : State),
    let c : Channel := ⟨ch.toNat, h⟩
    exec (.fbRecompute ch) s = .next { s with fb := { s.fb with
      power := s.fb.power.set ch.toNat
        (sumOfPairs s.cfg.num ((queueContents s (queueP c)).map fun e => (e, e))) } } ∧
    (s.cfg.num = .exact → powersExact s → exec (.fbRecompute ch) s = .next s)

/-- 42_filter_bank.md R192, R193, R196 to R199. -/
def Obligations.FbReadouts : Prop :=
  (∀ (ch : BitVec 4) (h : ch.toNat < 10) (s : State),
    exec (.fbPower ch) s = .next { s with resp := s.resp ++ [.num s.fb.power[ch.toNat]] }) ∧
  (∀ s : State, exec .fbPowers s = .next { s with
    resp := s.resp ++ s.fb.power.toList.map .num }) ∧
  (∀ (i : BitVec 8) (h : i.toNat < 81) (s : State),
    exec (.fbFircoef i) s = .next { s with resp := s.resp ++ [.num s.cfg.firCoef[i.toNat]] }) ∧
  (∀ (ch : BitVec 4) (i : BitVec 8) (hc : ch.toNat < 10) (hi : i.toNat < 11) (s : State),
    exec (.fbIira ch i) s = .next { s with
      resp := s.resp ++ [.num s.cfg.iirA[ch.toNat][i.toNat]] }) ∧
  (∀ (ch : BitVec 4) (i : BitVec 8) (hc : ch.toNat < 10) (hi : i.toNat < 11) (s : State),
    exec (.fbIirb ch i) s = .next { s with
      resp := s.resp ++ [.num s.cfg.iirB[ch.toNat][i.toNat]] }) ∧
  (∀ (i : BitVec 8) (h : i.toNat < 5) (s : State),
    exec (.fbConst i) s = .next { s with
      resp := s.resp ++ [natBeat ([81, 11, 11, 10, 10][i.toNat])] })

/-- 42_filter_bank.md R194: FB_NORM scans upward for a power that `lt` puts above the best so far, divides
by it and answers its channel; where it is 0, eleven zeros, so that it divides by no 0 in any NUM. Where
`lt` orders the powers, as 92_eei_decisions.md D38 assumes and the exact NUM always does, that channel is
the lowest of those with the maximum power. -/
def Obligations.FbNormResult : Prop :=
  (∀ p : Vector NUM 10, ordersPowers .exact p) ∧
  ∀ s : State,
    let n := s.cfg.num
    let p := s.fb.power
    let m := channels.tail.foldl (fun m c => if numLt n p[m] p[c] then c else m) 0
    (numIsZero n p[m] = true → exec .fbNorm s = .next { s with
      resp := s.resp ++ (List.replicate 10 (.num (numZero n)) ++ [.int 0]) }) ∧
    (numIsZero n p[m] = false → p[m] ≠ numZero n ∧ exec .fbNorm s = .next { s with
      resp := s.resp ++ (p.toList.map (fun x => .num (numDiv n x p[m])) ++ [natBeat m.val]) }) ∧
    (ordersPowers n p →
      (∀ c : Channel, numLt n p[m] p[c] = false) ∧
      ∀ c : Channel, c < m → numLt n p[c] p[m] = true)

/-! ### Detector -/

/-- 43_detector.md R222 to R229: the configuration commands and the read-outs, each with its frame. -/
def Obligations.DetConfigurationAndReadouts : Prop :=
  ∀ s : State,
    (∀ m, exec (.detSetign m) s = .next { s with
      det := { s.det with ignored := m, savedIgnored := m } }) ∧
    exec (.detIgnall true) s = .next { s with det := { s.det with ignored := 0x3FF } } ∧
    exec (.detIgnall false) s = .next { s with
      det := { s.det with ignored := s.det.savedIgnored } } ∧
    exec .detClearhit s = .next { s with det := { s.det with hitDetectedFlag := false } } ∧
    (∀ u, exec (.detSetfudge u) s = .next { s with
      det := { s.det with fudgeFactor := numOfNat s.cfg.num u.toNat } }) ∧
    exec .detHit s = .next { s with
      resp := s.resp ++ [.int (if s.det.hitDetectedFlag then 1 else 0)] } ∧
    exec .detLastfreq s = .next { s with
      resp := s.resp ++ [natBeat s.det.lastHitFrequency.val] } ∧
    exec .detHitcounts s = .next { s with
      resp := s.resp ++ s.det.hitCounts.toList.map (fun k => natBeat k.toNat) } ∧
    exec .detInvoc s = .next { s with resp := s.resp ++ [natBeat s.det.invocationCount.toNat] }

/-- 43_detector.md R221, 42_filter_bank.md R191: DET_INIT, with its fill of every queue, from any state:
every queue full of zeros with both indices 0 and both flags 0, every power 0, every Detector field at
its value; nothing else changes. -/
def Obligations.DetInitResult : Prop :=
  ∀ s : State, ∃ t, exec .detInit s = .next t ∧
    t = { s with q := t.q, fb := t.fb, det := t.det } ∧
    (∀ q : QueueId, (∀ i, Memory.read (unlistedNum s.cfg.num) (t.queue q).mem i = numZero s.cfg.num) ∧
      (t.queue q).readIndex = 0 ∧ (t.queue q).writeIndex = 0 ∧
      (t.queue q).count = s.cfg.queueCapacity q ∧
      (t.queue q).underflowed = false ∧ (t.queue q).overflowed = false) ∧
    (∀ c : Channel, t.fb.power[c] = numZero s.cfg.num) ∧
    t.det.ignored = 0 ∧ t.det.savedIgnored = 0 ∧ (∀ c : Channel, t.det.hitCounts[c] = 0) ∧
    t.det.lastHitFrequency = 0 ∧ t.det.hitDetectedFlag = false ∧ t.det.invocationCount = 0 ∧
    t.det.decimationCounter = 0 ∧ t.det.fudgeFactor = s.cfg.fudgeReset

/-- 43_detector.md R237: the ranking is the one permutation of the channels that is ascending by power
with equal powers in channel order. The premise is what 92_eei_decisions.md D38 assumes of `lt`; the
exact NUM always meets it, and binary64 where every power is finite. -/
def Obligations.RankingIsTheStableSort : Prop :=
  (∀ p : Vector NUM 10, ordersPowers .exact p) ∧
  (∀ p : Vector NUM 10, (∀ c : Channel, ∃ b, p[c] = .binary64 b ∧ b64Finite b = true) →
    ordersPowers .binary64 p) ∧
  ∀ (n : NumSystem) (power : Vector NUM 10), ordersPowers n power →
    let ordered := fun l : List Channel => l.Perm channels ∧ l.Pairwise (ranksBelow n power)
    ordered (rankChannels n power) ∧ ∀ l, ordered l → l = rankChannels n power

/-- 43_detector.md R239, R240: there is no candidate exactly when every channel is ignored; else it is
the channel of highest power among those not ignored, and of equal ones the highest-numbered, where `lt`
orders the powers (92_eei_decisions.md D38). -/
def Obligations.CandidateIsHighestNotIgnored : Prop :=
  ∀ (n : NumSystem) (power : Vector NUM 10) (ignored : BitVec 10),
    (candidate n power ignored = none ↔ ∀ c : Channel, ignored.getLsbD c.val = true) ∧
    (ordersPowers n power → ∀ c : Channel, candidate n power ignored = some c ↔
      ignored.getLsbD c.val = false ∧
        ∀ d : Channel, ignored.getLsbD d.val = false → d ≠ c → ranksBelow n power d c)

/-- 43_detector.md R235, R238, R240, R241: the DECIDE step, whole: gate closed; all channels ignored; a
hit; no hit. The gate test and the decision are one step. -/
def Obligations.DecideStepResult : Prop :=
  ∀ s : State, foregroundIsNext s → s.seq.phase = .decide →
    let t : State := { s with
      schedule := s.schedule.tail
      seq := { s.seq with phase := nextPhase s } }
    let sorted := rankChannels s.cfg.num s.fb.power
    let cand := sorted.reverse.find? fun c => !s.det.ignored.getLsbD c.val
    let threshold := numMul s.cfg.num s.fb.power[sorted.getD 4 0] s.det.fudgeFactor
    let gate := s.lt.state = .idle ∧ s.iv.state = .idle
    (¬ gate → step s = .next t) ∧
    (gate → cand = none → step s = .next { t with
      det := { s.det with hitDetectedFlag := false }
      diag := s.diag ++ [⟨.allIgnored, 0⟩] }) ∧
    (∀ c : Channel, gate → cand = some c → numLe s.cfg.num threshold s.fb.power[c] = true → step s = .next { t with
      det := { s.det with
        hitDetectedFlag := true
        lastHitFrequency := c
        hitCounts := s.det.hitCounts.set c.val
          (if s.det.hitCounts[c].toNat = 2 ^ 32 - 1 then s.det.hitCounts[c]
            else s.det.hitCounts[c] + 1) }
      lt := { s.lt with startRequested := true }
      notify := s.notify ++ [⟨.hit, BitVec.ofNat 8 c.val⟩] }) ∧
    (∀ c : Channel, gate → cand = some c → numLe s.cfg.num threshold s.fb.power[c] = false → step s = .next { t with
      det := { s.det with hitDetectedFlag := false } })

/-- 43_detector.md R232, R233: the ENTRY step and the POP step. That the instruction DET_RUN is its
ENTRY step, and the other phases are steps of their own, is log 22 (DEDUCED). An empty ring pops the
sentinel 0 and is left as it is (40_sample_ring.md R132); a run meets one only after a TICK inside it
with `irqEn = 0` (20_memory.md R84, log 9). -/
def Obligations.DetRunEntryAndPop : Prop :=
  (∀ (b : Bool) (s : State), exec (.detRun b) s = .next { s with
    det := { s.det with invocationCount := s.det.invocationCount + 1 }
    seq := { s.seq with
      irqEn := b
      remaining := s.sr.count
      phase := if s.sr.count = 0 then .idle else .pop } }) ∧
  (∀ s : State, foregroundIsNext s → s.seq.phase = .pop →
    step s = .next { s with
      schedule := s.schedule.tail
      sr := if s.sr.count = 0 then s.sr else { s.sr with
        readIndex := (s.sr.readIndex + 1) % s.cfg.ringCapacity
        count := s.sr.count - 1 }
      seq := { s.seq with
        sample := if s.sr.count = 0 then 0 else Memory.read unlistedSample s.sr.mem s.sr.readIndex
        remaining := s.seq.remaining - 1
        phase := .filter } })

/-- 43_detector.md R236, 20_memory.md R86: every foreground step of a DET_RUN in progress takes one from
the number of steps left, which is 2n + floor((d + n) / 10) after ENTRY and 0 exactly when idle; a TICK
or a PIN takes none. A TICK that arrives with a foreground step is held over a masked one, which counts
down as always, and comes before any other (log 10). So the run ends after that many foreground steps,
wherever the TICKs fall. Inside a run with `irqEn = 0` a TICK goes on by log 9. -/
def Obligations.RunStepsCountDown : Prop :=
  (∀ (b : Bool) (s : State), ∃ t, exec (.detRun b) s = .next t ∧
    runStepsLeft t = 2 * s.sr.count + (s.det.decimationCounter.val + s.sr.count) / 10) ∧
  (∀ s : State, sequencerWf s → (runStepsLeft s = 0 ↔ s.seq.phase = .idle)) ∧
  (∀ s : State, sequencerWf s → foregroundIsNext s → s.seq.phase ≠ .idle →
    ∃ t, step s = .next t ∧ runStepsLeft t + 1 = runStepsLeft s) ∧
  (∀ (s : State) (w : TickWord) (rest : List Event), sequencerWf s → s.seq.phase ≠ .idle →
    s.tickPending = false → s.schedule = .foregroundAndTick w :: rest →
    ∃ t, step s = .next t ∧
      (irqMask s = true → runStepsLeft t + 1 = runStepsLeft s ∧ t.tickPending = true) ∧
      (irqMask s = false → runStepsLeft t = runStepsLeft s ∧ t.schedule = .foreground :: rest)) ∧
  (∀ (s : State) (w : TickWord) (rest : List Event),
    s.tickPending = true ∨ s.schedule = .tick w :: rest →
    ∃ t, step s = .next t ∧ runStepsLeft t = runStepsLeft s) ∧
  (∀ (s : State) (level : Bool) (rest : List Event),
    s.tickPending = false → s.schedule = .pin level :: rest →
    ∃ t, step s = .next t ∧ runStepsLeft t = runStepsLeft s)

/-- 43_detector.md R230, R236: DET_RUN whole, with no event scheduled: it ends after exactly
1 + 2n + floor((d + n) / 10) steps and not before, with every sample drained, the invocation counted and
the decimation counter advanced by n modulo 10; the next command is still on CMD. -/
def Obligations.DetRunCompletes : Prop :=
  ∀ (s : State) (b : Bool) (rest : List CmdWord),
    s.tickPending = false → s.schedule = [] → s.seq.phase = .idle →
    s.cmd = .head (encodeHead (.detRun b)) :: rest →
    let n := s.sr.count
    let d := s.det.decimationCounter.val
    let total := 1 + 2 * n + (d + n) / 10
    (∃ t, steps total s = .next t ∧ t.seq.phase = .idle ∧ t.cmd = rest ∧ t.sr.count = 0 ∧
      t.det.invocationCount = s.det.invocationCount + 1 ∧
      t.det.decimationCounter.val = (d + n) % 10) ∧
    ∀ k, 1 ≤ k → k < total → ∃ t, steps k s = .next t ∧ t.seq.phase ≠ .idle

/-- 10_state.md R29: no hit counter decreases, but at DET_INIT and at RESET. -/
def Obligations.HitCountsNeverDecrease : Prop :=
  ∀ s t : State, step s = .next t → (∀ s', nextWork s ≠ .run .detInit s') →
    (s.tickPending = true ∨ ∀ rest, s.schedule ≠ .reset :: rest) →
    ∀ c : Channel, s.det.hitCounts[c].toNat ≤ t.det.hitCounts[c].toNat

/-! ### The TICK event -/

/-- 44_timers.md R320: a TICK, where the SampleRing push is specified, is SR_PUSH, LT_TICK, IV_TICK,
TR_TICK and TX_TICK in that order, as one step. -/
def Obligations.TickResult : Prop :=
  ∀ (adc : AdcCode) (s : State), unprotectedRun s = false →
    completes (exec (.tick adc) s) ∧
    exec (.tick adc) s = execAll [.srPush adc, .ltTick, .ivTick, .trTick, .txTick] s

/-- 60_exceptions.md R343, 44_timers.md R320, 20_memory.md R84: what a TICK leaves alone: SEQ, FB, every
queue, every Detector field but the ignore set, RESP and DIAG; and the ignore set too, unless the
InvincibilityTimer enters or leaves ACTIVE. Inside a DET_RUN issued with `irqEn = 0` the spec leaves the
ring unspecified: it holds free values within its ranges (log 9), and everything else is as for any
TICK. -/
def Obligations.TickFrame : Prop :=
  ∀ (adc : AdcCode) (s : State), ∃ t, exec (.tick adc) s = .next t ∧
    t = { s with
      sr := t.sr
      lt := t.lt
      iv := t.iv
      tr := t.tr
      tx := t.tx
      notify := t.notify
      det := { s.det with ignored := t.det.ignored }
      freeDraws := t.freeDraws } ∧
    (t.iv.state = s.iv.state → t.det.ignored = s.det.ignored) ∧
    (unprotectedRun s = false → t.freeDraws = s.freeDraws) ∧
    (unprotectedRun s = true → ringInRange t ∧
      exec (.tick adc) { s with seq := { s.seq with irqEn := true } } = .next { t with
        seq := { s.seq with irqEn := true }
        sr := (srPush adc s).sr
        freeDraws := s.freeDraws })

/-- 43_detector.md R234: the FILTER step shares no state with the interrupt context, so a TICK before it
and a TICK after it leave the same state. -/
def Obligations.TickCommutesWithFilter : Prop :=
  ∀ (s : State) (w : TickWord), s.tickPending = false → s.seq.phase = .filter →
    s.seq.irqEn = true →
    completes (steps 2 { s with schedule := [.tick w, .foreground] }) ∧
    steps 2 { s with schedule := [.tick w, .foreground] } =
      steps 2 { s with schedule := [.foreground, .tick w] }

/-! ### The timing state machines -/

/-- 44_timers.md R261 to R264. -/
def Obligations.LockoutCommands : Prop :=
  ∀ s : State,
    exec .ltInit s = .next { s with lt := ⟨.idle, 0, false⟩ } ∧
    exec .ltStart s = .next { s with lt := { s.lt with startRequested := true } } ∧
    exec .ltRunning s = .next { s with
      resp := s.resp ++ [.int (if s.lt.state = .active then 1 else 0)] } ∧
    (s.lt.state = .idle → s.lt.startRequested = false → exec .ltTick s = .next s) ∧
    (s.lt.state = .idle → s.lt.startRequested = true →
      exec .ltTick s = .next { s with lt := ⟨.active, 1, false⟩ }) ∧
    (s.lt.state = .active → s.cfg.lockoutTicks ≤ s.lt.elapsedTicks.toNat →
      exec .ltTick s = .next { s with lt := ⟨.idle, s.lt.elapsedTicks, false⟩ }) ∧
    (s.lt.state = .active → s.lt.elapsedTicks.toNat < s.cfg.lockoutTicks →
      exec .ltTick s = .next { s with lt := ⟨.active, s.lt.elapsedTicks + 1, false⟩ })

/-- 44_timers.md R270 to R273: with the entry action (every channel ignored) and the exit action (the
saved set restored as it is then). -/
def Obligations.InvincibilityCommands : Prop :=
  ∀ s : State,
    exec .ivInit s = .next { s with iv := ⟨.idle, 0, false, 0⟩ } ∧
    exec .ivRunning s = .next { s with
      resp := s.resp ++ [.int (if s.iv.state = .active then 1 else 0)] } ∧
    (∀ u, exec (.ivStart u) s = .next { s with iv := { s.iv with
      durationTicks := BitVec.ofNat 32 (min (u.toNat * s.cfg.tickRateHz) (2 ^ 32 - 1))
      startRequested := true } }) ∧
    (s.iv.state = .idle → (s.iv.startRequested = false ∨ s.iv.durationTicks = 0) →
      exec .ivTick s = .next { s with iv := { s.iv with startRequested := false } }) ∧
    (s.iv.state = .idle → s.iv.startRequested = true → s.iv.durationTicks ≠ 0 →
      exec .ivTick s = .next { s with
        iv := ⟨.active, 1, false, s.iv.durationTicks⟩
        det := { s.det with ignored := 0x3FF } }) ∧
    (s.iv.state = .active → s.iv.durationTicks ≤ s.iv.elapsedTicks →
      exec .ivTick s = .next { s with
        iv := ⟨.idle, s.iv.elapsedTicks, false, s.iv.durationTicks⟩
        det := { s.det with ignored := s.det.savedIgnored } }) ∧
    (s.iv.state = .active → s.iv.elapsedTicks < s.iv.durationTicks →
      exec .ivTick s = .next { s with
        iv := ⟨.active, s.iv.elapsedTicks + 1, false, s.iv.durationTicks⟩ })

/-- 44_timers.md R280 to R282, R285 to R290. -/
def Obligations.TriggerCommands : Prop :=
  ∀ s : State,
    exec .trInit s = .next { s with tr := ⟨.idle, 0, 0, false, false, s.trigIn, 0⟩ } ∧
    exec .trStart s = .next { s with tr := { s.tr with startRequested := true } } ∧
    exec .trRunning s = .next { s with
      resp := s.resp ++ [.int (if s.tr.state = .idle then 0 else 1)] } ∧
    exec .trEnable s = .next { s with tr := { s.tr with enabled := true } } ∧
    exec .trDisable s = .next { s with tr := { s.tr with enabled := false } } ∧
    exec .trGetshots s = .next { s with
      resp := s.resp ++ [natBeat s.tr.remainingShotCount.toNat] } ∧
    (∀ u, exec (.trSetshots u) s = .next { s with tr := { s.tr with remainingShotCount := u } }) ∧
    exec .trReload s = .next { s with
      tr := { s.tr with remainingShotCount := s.cfg.clipSize }
      notify := s.notify ++ [⟨.reload, 0⟩] }

/-- 44_timers.md R283, R284: TR_TICK case by case: dormant while disabled; the debounce of the press; the
shot, which an empty clip does not fire; the hold that reloads; the debounce of the release. -/
def Obligations.TriggerTick : Prop :=
  ∀ s : State,
    let p := s.trigIn = true ∧ s.tr.ignoreInput = false
    let tr : Trigger := { s.tr with startRequested := false }
    (s.tr.enabled = false → exec .trTick s = .next s) ∧
    (s.tr.enabled = true → s.tr.state = .idle →
      (¬ p → exec .trTick s = .next { s with tr := tr }) ∧
      (p → exec .trTick s = .next { s with
        tr := { tr with state := .pressDebounce, elapsedTicks := 1 } })) ∧
    (s.tr.enabled = true → s.tr.state = .pressDebounce →
      (¬ p → exec .trTick s = .next { s with tr := { tr with state := .idle } }) ∧
      (p → s.tr.elapsedTicks.toNat < s.cfg.debounceTicks → exec .trTick s = .next { s with
        tr := { tr with elapsedTicks := s.tr.elapsedTicks + 1 } }) ∧
      (p → s.cfg.debounceTicks ≤ s.tr.elapsedTicks.toNat → s.tr.remainingShotCount ≠ 0 →
        exec .trTick s = .next { s with
          tr := { tr with
            state := .releaseDebounce
            elapsedTicks := 0
            holdTicks := 1
            remainingShotCount := s.tr.remainingShotCount - 1 }
          tx := { s.tx with startRequested := true } }) ∧
      (p → s.cfg.debounceTicks ≤ s.tr.elapsedTicks.toNat → s.tr.remainingShotCount = 0 →
        exec .trTick s = .next { s with
          tr := { tr with state := .releaseDebounce, elapsedTicks := 0, holdTicks := 1 } })) ∧
    (s.tr.enabled = true → s.tr.state = .releaseDebounce →
      (p → s.tr.holdTicks.toNat < s.cfg.reloadHoldTicks → exec .trTick s = .next { s with
        tr := { tr with elapsedTicks := 0, holdTicks := s.tr.holdTicks + 1 } }) ∧
      (p → s.cfg.reloadHoldTicks ≤ s.tr.holdTicks.toNat → exec .trTick s = .next { s with
        tr := { tr with elapsedTicks := 0, holdTicks := 1, remainingShotCount := s.cfg.clipSize }
        notify := s.notify ++ [⟨.reload, 0⟩] }) ∧
      (¬ p → s.tr.elapsedTicks.toNat < s.cfg.debounceTicks → exec .trTick s = .next { s with
        tr := { tr with holdTicks := 0, elapsedTicks := s.tr.elapsedTicks + 1 } }) ∧
      (¬ p → s.cfg.debounceTicks ≤ s.tr.elapsedTicks.toNat → exec .trTick s = .next { s with
        tr := { tr with state := .idle, holdTicks := 0 } }))

/-- 44_timers.md R280: nothing but TR_INIT and RESET writes the latch; with it set, no step takes the
Trigger out of IDLE, and no step but TR_INIT, TR_SETSHOTS, TR_RELOAD and RESET changes the shot count. -/
def Obligations.InputLatchIsPermanent : Prop :=
  ∀ s t : State, step s = .next t → (∀ s', nextWork s ≠ .run .trInit s') →
    (s.tickPending = true ∨ ∀ rest, s.schedule ≠ .reset :: rest) →
    t.tr.ignoreInput = s.tr.ignoreInput ∧
    (s.tr.ignoreInput = true → s.tr.state = .idle → t.tr.state = .idle ∧
      ((∀ u s', nextWork s ≠ .run (.trSetshots u) s') → (∀ s', nextWork s ≠ .run .trReload s') →
        t.tr.remainingShotCount = s.tr.remainingShotCount))

/-- 44_timers.md R283, R320: with the input held, the shot falls on TICK DEBOUNCE_TICKS + 1 and not
before, a Transmitter that is LOW starts its burst on that same TICK, and the clip is full again
RELOAD_HOLD_TICKS TICKs after the shot. -/
def Obligations.PressFiresAndReloads : Prop :=
  ∀ (s : State) (adcs : List AdcCode),
    s.tr.enabled = true → s.tr.state = .idle → s.trigIn = true → s.tr.ignoreInput = false →
    (1 ≤ adcs.length → adcs.length ≤ s.cfg.debounceTicks →
      ∃ t, execAll (adcs.map .tick) s = .next t ∧ t.tr.state = .pressDebounce ∧
        t.tr.remainingShotCount = s.tr.remainingShotCount) ∧
    (adcs.length = s.cfg.debounceTicks + 1 → s.tr.remainingShotCount ≠ 0 →
      ∃ t, execAll (adcs.map .tick) s = .next t ∧ t.tr.state = .releaseDebounce ∧
        t.tr.remainingShotCount = s.tr.remainingShotCount - 1 ∧
        (s.tx.state = .low → s.tx.startRequested = false →
          t.tx.state = .transmit ∧ t.tx.pin = true ∧
          t.tx.activeFrequency = s.tx.frequencyNumber)) ∧
    (adcs.length = s.cfg.debounceTicks + 1 + s.cfg.reloadHoldTicks →
      ∃ t, execAll (adcs.map .tick) s = .next t ∧ t.tr.state = .releaseDebounce ∧
        t.tr.remainingShotCount = s.cfg.clipSize ∧
        t.notify = s.notify ++ [⟨.reload, 0⟩])

/-- 44_timers.md R300 to R302, R304 to R306. -/
def Obligations.TransmitterCommands : Prop :=
  ∀ s : State,
    exec .txInit s = .next { s with tx := ⟨.low, 0, 0, false, 0, 0, false, false⟩ } ∧
    exec .txStart s = .next { s with tx := { s.tx with startRequested := true } } ∧
    exec .txRunning s = .next { s with
      resp := s.resp ++ [.int (if s.tx.state = .transmit then 1 else 0)] } ∧
    (∀ (ch : BitVec 4) (h : ch.toNat < 10), exec (.txSetfreq ch) s = .next { s with
      tx := { s.tx with frequencyNumber := ⟨ch.toNat, h⟩ } }) ∧
    exec .txGetfreq s = .next { s with resp := s.resp ++ [natBeat s.tx.frequencyNumber.val] } ∧
    (∀ b, exec (.txSetcont b) s = .next { s with tx := { s.tx with continuousMode := b } })

/-- 44_timers.md R303: TX_TICK case by case: the start of a burst, its end, which wins over a toggle due
on the same tick, the next burst of continuous mode, the toggle. -/
def Obligations.TransmitterTick : Prop :=
  ∀ s : State,
    let tx : Transmitter := { s.tx with startRequested := false }
    let newBurst : Transmitter := { tx with
      state := .transmit
      elapsedTicks := 1
      halfTicks := 1
      activeFrequency := s.tx.frequencyNumber
      pin := true }
    let burst := if s.cfg.txTestMode then s.cfg.txBurstTicksTest else max 1 (s.cfg.tickRateHz / 5)
    let half := s.cfg.txPeriodTicks[s.tx.activeFrequency] / 2
    (s.tx.state = .low → s.tx.startRequested = false → exec .txTick s = .next s) ∧
    (s.tx.state = .low → s.tx.startRequested = true →
      exec .txTick s = .next { s with tx := newBurst }) ∧
    (s.tx.state = .transmit → burst ≤ s.tx.elapsedTicks → s.tx.continuousMode = true →
      exec .txTick s = .next { s with tx := newBurst }) ∧
    (s.tx.state = .transmit → burst ≤ s.tx.elapsedTicks → s.tx.continuousMode = false →
      exec .txTick s = .next { s with tx := { tx with state := .low, pin := false } }) ∧
    (s.tx.state = .transmit → s.tx.elapsedTicks < burst → half ≤ s.tx.halfTicks →
      exec .txTick s = .next { s with tx := { tx with
        pin := !s.tx.pin
        halfTicks := 1
        elapsedTicks := s.tx.elapsedTicks + 1 } }) ∧
    (s.tx.state = .transmit → s.tx.elapsedTicks < burst → s.tx.halfTicks < half →
      exec .txTick s = .next { s with tx := { tx with
        halfTicks := s.tx.halfTicks + 1
        elapsedTicks := s.tx.elapsedTicks + 1 } })

/-- 44_timers.md R259: after START in the idle state RUNNING is 1 after each of TICKs 1 to D and 0 after
TICK D + 1: LockoutTimer, InvincibilityTimer, and Transmitter outside continuous mode. -/
def Obligations.TimerLifecycle : Prop :=
  ∀ (s : State) (adcs : List AdcCode),
    (s.lt.state = .idle →
      ∃ t, execAll (.ltStart :: adcs.map .tick) s = .next t ∧
        (1 ≤ adcs.length → adcs.length ≤ s.cfg.lockoutTicks → t.lt.state = .active) ∧
        (adcs.length = s.cfg.lockoutTicks + 1 → t.lt.state = .idle)) ∧
    (∀ u : BitVec 16, s.iv.state = .idle → u ≠ 0 →
      let d := min (u.toNat * s.cfg.tickRateHz) (2 ^ 32 - 1)
      ∃ t, execAll (.ivStart u :: adcs.map .tick) s = .next t ∧
        (1 ≤ adcs.length → adcs.length ≤ d → t.iv.state = .active ∧ t.det.ignored = 0x3FF) ∧
        (adcs.length = d + 1 → t.iv.state = .idle ∧ t.det.ignored = s.det.savedIgnored)) ∧
    (s.tx.state = .low → s.tx.continuousMode = false →
      ∃ t, execAll (.txStart :: adcs.map .tick) s = .next t ∧
        (1 ≤ adcs.length → adcs.length ≤ s.cfg.burst → t.tx.state = .transmit) ∧
        (adcs.length = s.cfg.burst + 1 → t.tx.state = .low ∧ t.tx.pin = false))

/-- 44_timers.md R303: within a burst the pin is high for HALF ticks, low for HALF ticks, and so on,
starting high. -/
def Obligations.BurstWaveform : Prop :=
  ∀ (s : State) (adcs : List AdcCode), s.tx.state = .low →
    1 ≤ adcs.length → adcs.length ≤ s.cfg.burst →
    ∃ t, execAll (.txStart :: adcs.map .tick) s = .next t ∧
      (t.tx.pin = true ↔
        (adcs.length - 1) / s.cfg.halfPeriod s.tx.frequencyNumber % 2 = 0)

/-! ### The ports: the bit form of a NUM, the trigger input -/

/-- 30_encoding.md R102, R104; 00_scope.md R16: the 64-bit form of a NUM. Where the configured record has
a bit form, a num beat is NUM.enc of its value, a payload word is NUM.dec of its bits, and `dec` undoes
`enc`; a record given by its tables takes both from them; the reference instantiation has none. In
binary64 the form is the value itself, both ways, bit for bit, the sign of a zero included; and every
finite pattern is what its value rounds to, under the sign it has. How bits stand for an exact NUM in an opcode-table word is PRESUMED (log 4); for bits that are no
finite pattern the last clause says nothing. -/
def Obligations.NumBitForm : Prop :=
  (∀ (n : NumSystem) (f : BitForm n.Carrier), n.numerics.bitForm = some f →
    (∀ x, n.owns x = true →
      (Beat.num x).toBits n = some (f.enc (n.unwrap x)) ∧ numDec n (f.enc (n.unwrap x)) = x) ∧
    ∀ w : Nat, (BitVec.ofNat 32 w).getLsbD 31 = true →
      wordsOfBits n w = [.head (BitVec.ofNat 32 w),
        .payload (n.wrap (f.dec (BitVec.ofNat 64 (w / 2 ^ 32))))]) ∧
  (∀ (t : NumTables) (k : Fin t.size), (Beat.num (.value k)).toBits (.tables t) = some t.enc[k] ∧
    numDec (.tables t) t.enc[k] = .value k) ∧
  (∀ (n : NumSystem) (v : BitVec 64), (Beat.int v).toBits n = some v) ∧
  (∀ x, (Beat.num x).toBits .exact = none) ∧
  (∀ b : BitVec 64, (Beat.num (.binary64 b)).toBits .binary64 = some b ∧
    numDec .binary64 b = .binary64 b) ∧
  (∀ b : BitVec 64, b64Finite b = true →
    b64Round (b.getLsbD 63) (b64Value b) = some b ∧ numDec .exact b = .exact (b64Value b))

/-- 10_state.md R63, 20_memory.md R81 (b): PIN(level) sets `trig_in` and changes nothing else; no other
step, RESET included, changes `trig_in`. That the schedule orders the PIN events is the model's (log 6);
that RESET leaves `trig_in` is log 16. -/
def Obligations.PinEventSetsTrigIn : Prop :=
  (∀ (s : State) (level : Bool) (rest : List Event),
    s.tickPending = false → s.schedule = .pin level :: rest →
    step s = .next { s with schedule := rest, trigIn := level }) ∧
  (∀ s t : State, step s = .next t →
    (s.tickPending = true ∨ ∀ level rest, s.schedule ≠ .pin level :: rest) → t.trigIn = s.trigIn)
end

