-- ==== Sys2Proof/Laws/Encoding.lean ====
section
/-! SUPPORT. Fields of a head as numbers, and each format read back from a head that was written with
it. -/

namespace Sys2Proof

theorem append_toNat {n m : Nat} (a : BitVec n) (b : BitVec m) :
    (a ++ b).toNat = a.toNat * 2 ^ m + b.toNat := by
  rw [BitVec.toNat_append, ← Nat.shiftLeft_add_eq_or_of_lt b.isLt, Nat.shiftLeft_eq]

theorem headField_toNat (h : Head) (lo len : Nat) :
    (headField h lo len).toNat = h.toNat / 2 ^ lo % 2 ^ len := by
  simp [headField, Nat.shiftRight_eq_div_pow]

theorem opcodeOf_eq (h : Head) : opcodeOf h = h.toNat / 2 ^ 24 := by
  rw [opcodeOf, headField_toNat, Nat.mod_eq_of_lt]
  have := h.isLt
  omega

theorem announcesPayload_eq (h : Head) : announcesPayload h = decide (2 ^ 31 ≤ h.toNat) := by
  have := BitVec.msb_eq_decide h
  rwa [BitVec.msb_eq_getLsbD_last] at this

theorem headField_eq_iff (h : Head) (lo len : Nat) (x : BitVec len) :
    (headField h lo len == x) = true ↔ h.toNat / 2 ^ lo % 2 ^ len = x.toNat := by
  rw [beq_iff_eq, ← BitVec.toNat_inj, headField_toNat]

theorem headField_of_toNat {h : Head} {lo len : Nat} {x : BitVec len}
    (e : h.toNat / 2 ^ lo % 2 ^ len = x.toNat) : headField h lo len = x :=
  BitVec.eq_of_toNat_eq (by rw [headField_toNat, e])

/-! ### Each format, read back -/

theorem readZ_of_toNat {h : Head} {op : Nat} (i : Instr) (e : h.toNat = op * 2 ^ 24) :
    readZ h i = .ok i := by
  have : (headField h 0 24 == 0#24) = true := by rw [headField_eq_iff]; simp; omega
  simp [readZ, checkReserved, this]

theorem readV12_of_toNat {h : Head} {op : Nat} {v : BitVec 12} (f : AdcCode → Instr)
    (e : h.toNat = op * 2 ^ 24 + v.toNat) : readV12 h f = .ok (f v) := by
  have hv := v.isLt
  have h1 : (headField h 12 12 == 0#12) = true := by rw [headField_eq_iff]; simp; omega
  have h2 : headField h 0 12 = v := headField_of_toNat (by omega)
  simp [readV12, checkReserved, h1, h2]

theorem readQ_of_toNat {h : Head} {op : Nat} {q : BitVec 5} (f : BitVec 5 → Instr)
    (e : h.toNat = op * 2 ^ 24 + q.toNat * 2 ^ 16) : readQ h f = .ok (f q) := by
  have hq := q.isLt
  have h1 : (headField h 21 3 == 0#3) = true := by rw [headField_eq_iff]; simp; omega
  have h2 : (headField h 0 16 == 0#16) = true := by rw [headField_eq_iff]; simp; omega
  have h3 : headField h 16 5 = q := headField_of_toNat (by omega)
  simp [readQ, checkReserved, h1, h2, h3]

theorem readQA_of_toNat {h : Head} {op : Nat} {q : BitVec 5} {age : BitVec 16}
    (f : BitVec 5 → BitVec 16 → Instr)
    (e : h.toNat = op * 2 ^ 24 + q.toNat * 2 ^ 16 + age.toNat) : readQA h f = .ok (f q age) := by
  have hq := q.isLt
  have ha := age.isLt
  have h1 : (headField h 21 3 == 0#3) = true := by rw [headField_eq_iff]; simp; omega
  have h2 : headField h 16 5 = q := headField_of_toNat (by omega)
  have h3 : headField h 0 16 = age := headField_of_toNat (by omega)
  simp [readQA, checkReserved, h1, h2, h3]

theorem readCH_of_toNat {h : Head} {op : Nat} {ch : BitVec 4} (f : BitVec 4 → Instr)
    (e : h.toNat = op * 2 ^ 24 + ch.toNat) : readCH h f = .ok (f ch) := by
  have hc := ch.isLt
  have h1 : (headField h 4 20 == 0#20) = true := by rw [headField_eq_iff]; simp; omega
  have h2 : headField h 0 4 = ch := headField_of_toNat (by omega)
  simp [readCH, checkReserved, h1, h2]

theorem readCI_of_toNat {h : Head} {op : Nat} {ch : BitVec 4} {i : BitVec 8}
    (f : BitVec 4 → BitVec 8 → Instr)
    (e : h.toNat = op * 2 ^ 24 + ch.toNat * 2 ^ 8 + i.toNat) : readCI h f = .ok (f ch i) := by
  have hc := ch.isLt
  have hi := i.isLt
  have h1 : (headField h 12 12 == 0#12) = true := by rw [headField_eq_iff]; simp; omega
  have h2 : headField h 8 4 = ch := headField_of_toNat (by omega)
  have h3 : headField h 0 8 = i := headField_of_toNat (by omega)
  simp [readCI, checkReserved, h1, h2, h3]

theorem readI8_of_toNat {h : Head} {op : Nat} {i : BitVec 8} (f : BitVec 8 → Instr)
    (e : h.toNat = op * 2 ^ 24 + i.toNat) : readI8 h f = .ok (f i) := by
  have hi := i.isLt
  have h1 : (headField h 8 16 == 0#16) = true := by rw [headField_eq_iff]; simp; omega
  have h2 : headField h 0 8 = i := headField_of_toNat (by omega)
  simp [readI8, checkReserved, h1, h2]

theorem readM10_of_toNat {h : Head} {op : Nat} {m : BitVec 10} (f : BitVec 10 → Instr)
    (e : h.toNat = op * 2 ^ 24 + m.toNat) : readM10 h f = .ok (f m) := by
  have hm := m.isLt
  have h1 : (headField h 10 14 == 0#14) = true := by rw [headField_eq_iff]; simp; omega
  have h2 : headField h 0 10 = m := headField_of_toNat (by omega)
  simp [readM10, checkReserved, h1, h2]

theorem readB1_of_toNat {h : Head} {op : Nat} {b : Bool} (f : Bool → Instr)
    (e : h.toNat = op * 2 ^ 24 + b.toNat) : readB1 h f = .ok (f b) := by
  have h1 : (headField h 1 23 == 0#23) = true := by
    rw [headField_eq_iff]; cases b <;> simp at e ⊢ <;> omega
  have h2 : h.getLsbD 0 = b := by
    rw [BitVec.getLsbD, e]; cases b <;> simp [Nat.testBit_zero] <;> omega
  simp only [readB1, checkReserved, h1, h2, if_true]

theorem readU16_of_toNat {h : Head} {op : Nat} {u : BitVec 16} (f : BitVec 16 → Instr)
    (e : h.toNat = op * 2 ^ 24 + u.toNat) : readU16 h f = .ok (f u) := by
  have hu := u.isLt
  have h1 : (headField h 16 8 == 0#8) = true := by rw [headField_eq_iff]; simp; omega
  have h2 : headField h 0 16 = u := headField_of_toNat (by omega)
  simp [readU16, checkReserved, h1, h2]

theorem readU24_of_toNat {h : Head} {op : Nat} {u : BitVec 24} (f : BitVec 24 → Instr)
    (e : h.toNat = op * 2 ^ 24 + u.toNat) : readU24 h f = .ok (f u) := by
  have hu := u.isLt
  have h2 : headField h 0 24 = u := headField_of_toNat (by omega)
  simp [readU24, checkReserved, h2]

end Sys2Proof
end

