-- ==== Sys2Proof/Laws/Memory.lean ====
section
/-! SUPPORT. The laws of a storage array: read after write, the canonical form kept, and equal reads
mean equal memories. -/

namespace Sys2Proof.Machine

variable {α : Type} [DecidableEq α] {z : α}

theorem Memory.wfFrom_mono {n low low' : Nat} (hle : low' ≤ low) :
    ∀ {m : Memory α}, Memory.wfFrom z n low m = true → Memory.wfFrom z n low' m = true
  | [], _ => rfl
  | (k, v) :: rest, h => by
    simp only [Memory.wfFrom, Bool.and_eq_true, decide_eq_true_eq] at h ⊢
    exact ⟨⟨⟨by omega, h.1.1.2⟩, h.1.2⟩, h.2⟩

theorem Memory.read_below {n : Nat} :
    ∀ {low : Nat} {m : Memory α}, Memory.wfFrom z n low m = true → ∀ i < low, Memory.read z m i = z
  | _, [], _, _, _ => rfl
  | low, (k, v) :: rest, h, i, hi => by
    simp only [Memory.wfFrom, Bool.and_eq_true, decide_eq_true_eq] at h
    have hk : i ≠ k := by omega
    simp only [Memory.read, if_neg hk]
    exact Memory.read_below h.2 i (by omega)

theorem Memory.read_write_from {n : Nat} (i : Nat) (v : α) :
    ∀ {low : Nat} {m : Memory α}, Memory.wfFrom z n low m = true → ∀ j,
      Memory.read z (Memory.write z m i v) j = if j = i then v else Memory.read z m j
  | _, [], _, j => by
    by_cases hv : v = z
    · subst hv
      simp [Memory.write, Memory.read]
    · by_cases hj : j = i <;> simp [Memory.write, Memory.read, hv, hj]
  | low, (k, w) :: rest, h, j => by
    simp only [Memory.wfFrom, Bool.and_eq_true, decide_eq_true_eq] at h
    have hrest : ∀ j ≤ k, Memory.read z rest j = z := fun j hj =>
      Memory.read_below h.2 j (by omega)
    rcases Nat.lt_trichotomy i k with hik | hik | hik
    · by_cases hv : v = z
      · subst hv
        simp only [Memory.write, if_pos hik, if_true, Memory.read]
        by_cases hj : j = i
        · subst hj
          rw [if_neg (by omega), if_pos rfl, hrest j (by omega)]
        · rw [if_neg hj]
      · simp only [Memory.write, if_pos hik, if_neg hv, Memory.read]
    · subst hik
      by_cases hv : v = z
      · subst hv
        simp only [Memory.write, lt_irrefl, if_false, if_true, Memory.read]
        by_cases hj : j = i
        · subst hj
          rw [if_pos rfl, hrest j (by omega)]
        · rw [if_neg hj, if_neg hj]
      · simp only [Memory.write, lt_irrefl, if_false, if_true, if_neg hv, Memory.read]
        by_cases hj : j = i <;> simp [hj]
    · simp only [Memory.write, if_neg (Nat.not_lt.mpr (Nat.le_of_lt hik)),
        if_neg (Nat.ne_of_gt hik), Memory.read]
      by_cases hj : j = k
      · subst hj
        rw [if_pos rfl, if_neg (by omega), if_pos rfl]
      · rw [if_neg hj, if_neg hj, Memory.read_write_from i v h.2 j]

/-- Read after write: the written element, and no other, changes. -/
theorem Memory.read_write {n : Nat} {m : Memory α} (h : Memory.wf z n m = true) (i j : Nat) (v : α) :
    Memory.read z (Memory.write z m i v) j = if j = i then v else Memory.read z m j :=
  Memory.read_write_from i v h j

theorem Memory.write_wfFrom {n i : Nat} (hi : i < n) (v : α) :
    ∀ {low : Nat} {m : Memory α}, low ≤ i → Memory.wfFrom z n low m = true →
      Memory.wfFrom z n low (Memory.write z m i v) = true
  | low, [], hlow, _ => by
    by_cases hv : v = z <;> simp [Memory.write, Memory.wfFrom, hv, hlow, hi]
  | low, (k, w) :: rest, hlow, h => by
    simp only [Memory.wfFrom, Bool.and_eq_true, decide_eq_true_eq] at h
    obtain ⟨⟨⟨hlk, hkn⟩, hw⟩, hr⟩ := h
    rcases Nat.lt_trichotomy i k with hik | hik | hik
    · by_cases hv : v = z
      · simp only [Memory.write, if_pos hik, if_pos hv, Memory.wfFrom, Bool.and_eq_true,
          decide_eq_true_eq]
        exact ⟨⟨⟨hlk, hkn⟩, hw⟩, hr⟩
      · simp only [Memory.write, if_pos hik, if_neg hv, Memory.wfFrom, Bool.and_eq_true,
          decide_eq_true_eq]
        exact ⟨⟨⟨hlow, hi⟩, hv⟩, ⟨⟨by omega, hkn⟩, hw⟩, hr⟩
    · subst hik
      by_cases hv : v = z
      · simp only [Memory.write, lt_irrefl, if_false, if_true, if_pos hv]
        exact Memory.wfFrom_mono (by omega) hr
      · simp only [Memory.write, lt_irrefl, if_false, if_true, if_neg hv, Memory.wfFrom,
          Bool.and_eq_true, decide_eq_true_eq]
        exact ⟨⟨⟨hlk, hkn⟩, hv⟩, hr⟩
    · simp only [Memory.write, if_neg (Nat.not_lt.mpr (Nat.le_of_lt hik)),
        if_neg (Nat.ne_of_gt hik), Memory.wfFrom, Bool.and_eq_true, decide_eq_true_eq]
      exact ⟨⟨⟨hlk, hkn⟩, hw⟩, Memory.write_wfFrom hi v (by omega) hr⟩

/-- A write keeps the canonical form. -/
theorem Memory.write_wf {n i : Nat} {m : Memory α} (hi : i < n) (h : Memory.wf z n m = true) (v : α) :
    Memory.wf z n (Memory.write z m i v) = true :=
  Memory.write_wfFrom hi v (Nat.zero_le i) h

@[simp] theorem Memory.wf_nil {n : Nat} : Memory.wf z n ([] : Memory α) = true := rfl

omit [DecidableEq α] in
@[simp] theorem Memory.read_nil (i : Nat) : Memory.read z ([] : Memory α) i = z := rfl

/-- Writing the unlisted value to an empty array leaves it empty. -/
@[simp] theorem Memory.write_nil_unlisted (i : Nat) :
    Memory.write z ([] : Memory α) i z = [] := by simp [Memory.write]

/-- An array built slot by slot is in canonical form. -/
theorem Memory.fromSlots_wf (f : Nat → α) {n size : Nat} (h : n ≤ size) :
    Memory.wf z size (Memory.fromSlots z f n) = true := by
  induction n with
  | zero => rfl
  | succ n ih => exact Memory.write_wf (by omega) (ih (by omega)) (f n)

/-- Equal reads mean equal memories: the form is canonical. -/
theorem Memory.ext_wfFrom {n : Nat} :
    ∀ {low : Nat} {a b : Memory α}, Memory.wfFrom z n low a = true → Memory.wfFrom z n low b = true →
      (∀ i, Memory.read z a i = Memory.read z b i) → a = b
  | _, [], [], _, _, _ => rfl
  | _, [], (k, v) :: rest, _, hb, h => by
    simp only [Memory.wfFrom, Bool.and_eq_true, decide_eq_true_eq] at hb
    have := h k
    simp only [Memory.read, if_true] at this
    exact absurd this.symm hb.1.2
  | _, (k, v) :: rest, [], ha, _, h => by
    simp only [Memory.wfFrom, Bool.and_eq_true, decide_eq_true_eq] at ha
    have := h k
    simp only [Memory.read, if_true] at this
    exact absurd this ha.1.2
  | low, (k, v) :: ra, (k', v') :: rb, ha, hb, h => by
    simp only [Memory.wfFrom, Bool.and_eq_true, decide_eq_true_eq] at ha hb
    have hk : k = k' := by
      rcases Nat.lt_trichotomy k k' with hlt | heq | hgt
      · have := h k
        simp only [Memory.read, if_true, if_neg (Nat.ne_of_lt hlt)] at this
        rw [Memory.read_below hb.2 k (by omega)] at this
        exact absurd this ha.1.2
      · exact heq
      · have := h k'
        simp only [Memory.read, if_true, if_neg (Nat.ne_of_lt hgt)] at this
        rw [Memory.read_below ha.2 k' (by omega)] at this
        exact absurd this.symm hb.1.2
    subst hk
    have hv : v = v' := by simpa [Memory.read] using h k
    subst hv
    have : ra = rb := by
      refine Memory.ext_wfFrom ha.2 hb.2 fun i => ?_
      by_cases hi : i = k
      · subst hi
        rw [Memory.read_below ha.2 i (by omega), Memory.read_below hb.2 i (by omega)]
      · simpa [Memory.read, hi] using h i
    rw [this]

/-- Two arrays in canonical form that read alike are equal. -/
theorem Memory.ext {n : Nat} {a b : Memory α} (ha : Memory.wf z n a = true)
    (hb : Memory.wf z n b = true) (h : ∀ i, Memory.read z a i = Memory.read z b i) : a = b :=
  Memory.ext_wfFrom ha hb h

end Sys2Proof.Machine
end

