-- ==== Sys2Proof/Laws/State.lean ====
section
/-! SUPPORT. What each update of the state does to each field, so that no later proof unfolds one. -/

namespace Sys2Proof.Machine

variable (s : State)

/-! ### A diagnostic -/

@[simp] theorem State.raise_cfg (code : DiagCode) (info : BitVec 32) : (s.raise code info).cfg = s.cfg := rfl
@[simp] theorem State.raise_sr (code : DiagCode) (info : BitVec 32) : (s.raise code info).sr = s.sr := rfl
@[simp] theorem State.raise_q (code : DiagCode) (info : BitVec 32) : (s.raise code info).q = s.q := rfl
@[simp] theorem State.raise_fb (code : DiagCode) (info : BitVec 32) : (s.raise code info).fb = s.fb := rfl
@[simp] theorem State.raise_det (code : DiagCode) (info : BitVec 32) : (s.raise code info).det = s.det := rfl
@[simp] theorem State.raise_lt (code : DiagCode) (info : BitVec 32) : (s.raise code info).lt = s.lt := rfl
@[simp] theorem State.raise_iv (code : DiagCode) (info : BitVec 32) : (s.raise code info).iv = s.iv := rfl
@[simp] theorem State.raise_tr (code : DiagCode) (info : BitVec 32) : (s.raise code info).tr = s.tr := rfl
@[simp] theorem State.raise_tx (code : DiagCode) (info : BitVec 32) : (s.raise code info).tx = s.tx := rfl
@[simp] theorem State.raise_seq (code : DiagCode) (info : BitVec 32) : (s.raise code info).seq = s.seq := rfl
@[simp] theorem State.raise_tickPending (code : DiagCode) (info : BitVec 32) : (s.raise code info).tickPending = s.tickPending := rfl
@[simp] theorem State.raise_heldTick (code : DiagCode) (info : BitVec 32) : (s.raise code info).heldTick = s.heldTick := rfl
@[simp] theorem State.raise_trigIn (code : DiagCode) (info : BitVec 32) : (s.raise code info).trigIn = s.trigIn := rfl
@[simp] theorem State.raise_resp (code : DiagCode) (info : BitVec 32) : (s.raise code info).resp = s.resp := rfl
@[simp] theorem State.raise_diag (code : DiagCode) (info : BitVec 32) : (s.raise code info).diag = s.diag ++ [⟨code, info⟩] := rfl
@[simp] theorem State.raise_notify (code : DiagCode) (info : BitVec 32) : (s.raise code info).notify = s.notify := rfl
@[simp] theorem State.raise_cmd (code : DiagCode) (info : BitVec 32) : (s.raise code info).cmd = s.cmd := rfl
@[simp] theorem State.raise_schedule (code : DiagCode) (info : BitVec 32) : (s.raise code info).schedule = s.schedule := rfl
@[simp] theorem State.raise_freeDraws (code : DiagCode) (info : BitVec 32) : (s.raise code info).freeDraws = s.freeDraws := rfl
@[simp] theorem State.raise_queue (code : DiagCode) (info : BitVec 32) (q' : QueueId) :
    (s.raise code info).queue q' = s.queue q' := rfl
@[simp] theorem State.raise_capacity (code : DiagCode) (info : BitVec 32) (q' : QueueId) :
    (s.raise code info).capacity q' = s.capacity q' := rfl

/-! ### A notifier event -/

@[simp] theorem State.notifyEvent_cfg (kind : NotifyKind) (arg : BitVec 8) : (s.notifyEvent kind arg).cfg = s.cfg := rfl
@[simp] theorem State.notifyEvent_sr (kind : NotifyKind) (arg : BitVec 8) : (s.notifyEvent kind arg).sr = s.sr := rfl
@[simp] theorem State.notifyEvent_q (kind : NotifyKind) (arg : BitVec 8) : (s.notifyEvent kind arg).q = s.q := rfl
@[simp] theorem State.notifyEvent_fb (kind : NotifyKind) (arg : BitVec 8) : (s.notifyEvent kind arg).fb = s.fb := rfl
@[simp] theorem State.notifyEvent_det (kind : NotifyKind) (arg : BitVec 8) : (s.notifyEvent kind arg).det = s.det := rfl
@[simp] theorem State.notifyEvent_lt (kind : NotifyKind) (arg : BitVec 8) : (s.notifyEvent kind arg).lt = s.lt := rfl
@[simp] theorem State.notifyEvent_iv (kind : NotifyKind) (arg : BitVec 8) : (s.notifyEvent kind arg).iv = s.iv := rfl
@[simp] theorem State.notifyEvent_tr (kind : NotifyKind) (arg : BitVec 8) : (s.notifyEvent kind arg).tr = s.tr := rfl
@[simp] theorem State.notifyEvent_tx (kind : NotifyKind) (arg : BitVec 8) : (s.notifyEvent kind arg).tx = s.tx := rfl
@[simp] theorem State.notifyEvent_seq (kind : NotifyKind) (arg : BitVec 8) : (s.notifyEvent kind arg).seq = s.seq := rfl
@[simp] theorem State.notifyEvent_tickPending (kind : NotifyKind) (arg : BitVec 8) : (s.notifyEvent kind arg).tickPending = s.tickPending := rfl
@[simp] theorem State.notifyEvent_heldTick (kind : NotifyKind) (arg : BitVec 8) : (s.notifyEvent kind arg).heldTick = s.heldTick := rfl
@[simp] theorem State.notifyEvent_trigIn (kind : NotifyKind) (arg : BitVec 8) : (s.notifyEvent kind arg).trigIn = s.trigIn := rfl
@[simp] theorem State.notifyEvent_resp (kind : NotifyKind) (arg : BitVec 8) : (s.notifyEvent kind arg).resp = s.resp := rfl
@[simp] theorem State.notifyEvent_diag (kind : NotifyKind) (arg : BitVec 8) : (s.notifyEvent kind arg).diag = s.diag := rfl
@[simp] theorem State.notifyEvent_notify (kind : NotifyKind) (arg : BitVec 8) : (s.notifyEvent kind arg).notify = s.notify ++ [⟨kind, arg⟩] := rfl
@[simp] theorem State.notifyEvent_cmd (kind : NotifyKind) (arg : BitVec 8) : (s.notifyEvent kind arg).cmd = s.cmd := rfl
@[simp] theorem State.notifyEvent_schedule (kind : NotifyKind) (arg : BitVec 8) : (s.notifyEvent kind arg).schedule = s.schedule := rfl
@[simp] theorem State.notifyEvent_freeDraws (kind : NotifyKind) (arg : BitVec 8) : (s.notifyEvent kind arg).freeDraws = s.freeDraws := rfl
@[simp] theorem State.notifyEvent_queue (kind : NotifyKind) (arg : BitVec 8) (q' : QueueId) :
    (s.notifyEvent kind arg).queue q' = s.queue q' := rfl
@[simp] theorem State.notifyEvent_capacity (kind : NotifyKind) (arg : BitVec 8) (q' : QueueId) :
    (s.notifyEvent kind arg).capacity q' = s.capacity q' := rfl

/-! ### A response -/

@[simp] theorem State.respond_cfg (beats : List Beat) : (s.respond beats).cfg = s.cfg := rfl
@[simp] theorem State.respond_sr (beats : List Beat) : (s.respond beats).sr = s.sr := rfl
@[simp] theorem State.respond_q (beats : List Beat) : (s.respond beats).q = s.q := rfl
@[simp] theorem State.respond_fb (beats : List Beat) : (s.respond beats).fb = s.fb := rfl
@[simp] theorem State.respond_det (beats : List Beat) : (s.respond beats).det = s.det := rfl
@[simp] theorem State.respond_lt (beats : List Beat) : (s.respond beats).lt = s.lt := rfl
@[simp] theorem State.respond_iv (beats : List Beat) : (s.respond beats).iv = s.iv := rfl
@[simp] theorem State.respond_tr (beats : List Beat) : (s.respond beats).tr = s.tr := rfl
@[simp] theorem State.respond_tx (beats : List Beat) : (s.respond beats).tx = s.tx := rfl
@[simp] theorem State.respond_seq (beats : List Beat) : (s.respond beats).seq = s.seq := rfl
@[simp] theorem State.respond_tickPending (beats : List Beat) : (s.respond beats).tickPending = s.tickPending := rfl
@[simp] theorem State.respond_heldTick (beats : List Beat) : (s.respond beats).heldTick = s.heldTick := rfl
@[simp] theorem State.respond_trigIn (beats : List Beat) : (s.respond beats).trigIn = s.trigIn := rfl
@[simp] theorem State.respond_resp (beats : List Beat) : (s.respond beats).resp = s.resp ++ beats := rfl
@[simp] theorem State.respond_diag (beats : List Beat) : (s.respond beats).diag = s.diag := rfl
@[simp] theorem State.respond_notify (beats : List Beat) : (s.respond beats).notify = s.notify := rfl
@[simp] theorem State.respond_cmd (beats : List Beat) : (s.respond beats).cmd = s.cmd := rfl
@[simp] theorem State.respond_schedule (beats : List Beat) : (s.respond beats).schedule = s.schedule := rfl
@[simp] theorem State.respond_freeDraws (beats : List Beat) : (s.respond beats).freeDraws = s.freeDraws := rfl
@[simp] theorem State.respond_queue (beats : List Beat) (q' : QueueId) :
    (s.respond beats).queue q' = s.queue q' := rfl
@[simp] theorem State.respond_capacity (beats : List Beat) (q' : QueueId) :
    (s.respond beats).capacity q' = s.capacity q' := rfl

/-! ### A rejected operand -/

@[simp] theorem State.rejectOperand_cfg (i : Instr) (sentinel : List Beat) : (s.rejectOperand i sentinel).cfg = s.cfg := rfl
@[simp] theorem State.rejectOperand_sr (i : Instr) (sentinel : List Beat) : (s.rejectOperand i sentinel).sr = s.sr := rfl
@[simp] theorem State.rejectOperand_q (i : Instr) (sentinel : List Beat) : (s.rejectOperand i sentinel).q = s.q := rfl
@[simp] theorem State.rejectOperand_fb (i : Instr) (sentinel : List Beat) : (s.rejectOperand i sentinel).fb = s.fb := rfl
@[simp] theorem State.rejectOperand_det (i : Instr) (sentinel : List Beat) : (s.rejectOperand i sentinel).det = s.det := rfl
@[simp] theorem State.rejectOperand_lt (i : Instr) (sentinel : List Beat) : (s.rejectOperand i sentinel).lt = s.lt := rfl
@[simp] theorem State.rejectOperand_iv (i : Instr) (sentinel : List Beat) : (s.rejectOperand i sentinel).iv = s.iv := rfl
@[simp] theorem State.rejectOperand_tr (i : Instr) (sentinel : List Beat) : (s.rejectOperand i sentinel).tr = s.tr := rfl
@[simp] theorem State.rejectOperand_tx (i : Instr) (sentinel : List Beat) : (s.rejectOperand i sentinel).tx = s.tx := rfl
@[simp] theorem State.rejectOperand_seq (i : Instr) (sentinel : List Beat) : (s.rejectOperand i sentinel).seq = s.seq := rfl
@[simp] theorem State.rejectOperand_tickPending (i : Instr) (sentinel : List Beat) : (s.rejectOperand i sentinel).tickPending = s.tickPending := rfl
@[simp] theorem State.rejectOperand_heldTick (i : Instr) (sentinel : List Beat) : (s.rejectOperand i sentinel).heldTick = s.heldTick := rfl
@[simp] theorem State.rejectOperand_trigIn (i : Instr) (sentinel : List Beat) : (s.rejectOperand i sentinel).trigIn = s.trigIn := rfl
@[simp] theorem State.rejectOperand_resp (i : Instr) (sentinel : List Beat) : (s.rejectOperand i sentinel).resp = s.resp ++ sentinel := rfl
@[simp] theorem State.rejectOperand_diag (i : Instr) (sentinel : List Beat) : (s.rejectOperand i sentinel).diag = s.diag ++ [⟨.invalidIndex, encodeHead i⟩] := rfl
@[simp] theorem State.rejectOperand_notify (i : Instr) (sentinel : List Beat) : (s.rejectOperand i sentinel).notify = s.notify := rfl
@[simp] theorem State.rejectOperand_cmd (i : Instr) (sentinel : List Beat) : (s.rejectOperand i sentinel).cmd = s.cmd := rfl
@[simp] theorem State.rejectOperand_schedule (i : Instr) (sentinel : List Beat) : (s.rejectOperand i sentinel).schedule = s.schedule := rfl
@[simp] theorem State.rejectOperand_freeDraws (i : Instr) (sentinel : List Beat) : (s.rejectOperand i sentinel).freeDraws = s.freeDraws := rfl
@[simp] theorem State.rejectOperand_queue (i : Instr) (sentinel : List Beat) (q' : QueueId) :
    (s.rejectOperand i sentinel).queue q' = s.queue q' := rfl
@[simp] theorem State.rejectOperand_capacity (i : Instr) (sentinel : List Beat) (q' : QueueId) :
    (s.rejectOperand i sentinel).capacity q' = s.capacity q' := rfl

/-! ### A replaced queue -/

@[simp] theorem State.setQueue_cfg (q : QueueId) (x : HistoryQueue) : (s.setQueue q x).cfg = s.cfg := rfl
@[simp] theorem State.setQueue_sr (q : QueueId) (x : HistoryQueue) : (s.setQueue q x).sr = s.sr := rfl
@[simp] theorem State.setQueue_q (q : QueueId) (x : HistoryQueue) : (s.setQueue q x).q = s.q.set q.val x q.isLt := rfl
@[simp] theorem State.setQueue_fb (q : QueueId) (x : HistoryQueue) : (s.setQueue q x).fb = s.fb := rfl
@[simp] theorem State.setQueue_det (q : QueueId) (x : HistoryQueue) : (s.setQueue q x).det = s.det := rfl
@[simp] theorem State.setQueue_lt (q : QueueId) (x : HistoryQueue) : (s.setQueue q x).lt = s.lt := rfl
@[simp] theorem State.setQueue_iv (q : QueueId) (x : HistoryQueue) : (s.setQueue q x).iv = s.iv := rfl
@[simp] theorem State.setQueue_tr (q : QueueId) (x : HistoryQueue) : (s.setQueue q x).tr = s.tr := rfl
@[simp] theorem State.setQueue_tx (q : QueueId) (x : HistoryQueue) : (s.setQueue q x).tx = s.tx := rfl
@[simp] theorem State.setQueue_seq (q : QueueId) (x : HistoryQueue) : (s.setQueue q x).seq = s.seq := rfl
@[simp] theorem State.setQueue_tickPending (q : QueueId) (x : HistoryQueue) : (s.setQueue q x).tickPending = s.tickPending := rfl
@[simp] theorem State.setQueue_heldTick (q : QueueId) (x : HistoryQueue) : (s.setQueue q x).heldTick = s.heldTick := rfl
@[simp] theorem State.setQueue_trigIn (q : QueueId) (x : HistoryQueue) : (s.setQueue q x).trigIn = s.trigIn := rfl
@[simp] theorem State.setQueue_resp (q : QueueId) (x : HistoryQueue) : (s.setQueue q x).resp = s.resp := rfl
@[simp] theorem State.setQueue_diag (q : QueueId) (x : HistoryQueue) : (s.setQueue q x).diag = s.diag := rfl
@[simp] theorem State.setQueue_notify (q : QueueId) (x : HistoryQueue) : (s.setQueue q x).notify = s.notify := rfl
@[simp] theorem State.setQueue_cmd (q : QueueId) (x : HistoryQueue) : (s.setQueue q x).cmd = s.cmd := rfl
@[simp] theorem State.setQueue_schedule (q : QueueId) (x : HistoryQueue) : (s.setQueue q x).schedule = s.schedule := rfl
@[simp] theorem State.setQueue_freeDraws (q : QueueId) (x : HistoryQueue) : (s.setQueue q x).freeDraws = s.freeDraws := rfl
@[simp] theorem State.setQueue_capacity (q : QueueId) (x : HistoryQueue) (q' : QueueId) :
    (s.setQueue q x).capacity q' = s.capacity q' := rfl

/-! ### A replaced power -/

@[simp] theorem State.setPower_cfg (c : Channel) (x : NUM) : (s.setPower c x).cfg = s.cfg := rfl
@[simp] theorem State.setPower_sr (c : Channel) (x : NUM) : (s.setPower c x).sr = s.sr := rfl
@[simp] theorem State.setPower_q (c : Channel) (x : NUM) : (s.setPower c x).q = s.q := rfl
@[simp] theorem State.setPower_fb (c : Channel) (x : NUM) : (s.setPower c x).fb = { s.fb with power := s.fb.power.set c.val x c.isLt } := rfl
@[simp] theorem State.setPower_det (c : Channel) (x : NUM) : (s.setPower c x).det = s.det := rfl
@[simp] theorem State.setPower_lt (c : Channel) (x : NUM) : (s.setPower c x).lt = s.lt := rfl
@[simp] theorem State.setPower_iv (c : Channel) (x : NUM) : (s.setPower c x).iv = s.iv := rfl
@[simp] theorem State.setPower_tr (c : Channel) (x : NUM) : (s.setPower c x).tr = s.tr := rfl
@[simp] theorem State.setPower_tx (c : Channel) (x : NUM) : (s.setPower c x).tx = s.tx := rfl
@[simp] theorem State.setPower_seq (c : Channel) (x : NUM) : (s.setPower c x).seq = s.seq := rfl
@[simp] theorem State.setPower_tickPending (c : Channel) (x : NUM) : (s.setPower c x).tickPending = s.tickPending := rfl
@[simp] theorem State.setPower_heldTick (c : Channel) (x : NUM) : (s.setPower c x).heldTick = s.heldTick := rfl
@[simp] theorem State.setPower_trigIn (c : Channel) (x : NUM) : (s.setPower c x).trigIn = s.trigIn := rfl
@[simp] theorem State.setPower_resp (c : Channel) (x : NUM) : (s.setPower c x).resp = s.resp := rfl
@[simp] theorem State.setPower_diag (c : Channel) (x : NUM) : (s.setPower c x).diag = s.diag := rfl
@[simp] theorem State.setPower_notify (c : Channel) (x : NUM) : (s.setPower c x).notify = s.notify := rfl
@[simp] theorem State.setPower_cmd (c : Channel) (x : NUM) : (s.setPower c x).cmd = s.cmd := rfl
@[simp] theorem State.setPower_schedule (c : Channel) (x : NUM) : (s.setPower c x).schedule = s.schedule := rfl
@[simp] theorem State.setPower_freeDraws (c : Channel) (x : NUM) : (s.setPower c x).freeDraws = s.freeDraws := rfl
@[simp] theorem State.setPower_queue (c : Channel) (x : NUM) (q' : QueueId) :
    (s.setPower c x).queue q' = s.queue q' := rfl
@[simp] theorem State.setPower_capacity (c : Channel) (x : NUM) (q' : QueueId) :
    (s.setPower c x).capacity q' = s.capacity q' := rfl

/-! ### The cleared hit flag -/

@[simp] theorem clearHitFlag_cfg : (clearHitFlag s).cfg = s.cfg := rfl
@[simp] theorem clearHitFlag_sr : (clearHitFlag s).sr = s.sr := rfl
@[simp] theorem clearHitFlag_q : (clearHitFlag s).q = s.q := rfl
@[simp] theorem clearHitFlag_fb : (clearHitFlag s).fb = s.fb := rfl
@[simp] theorem clearHitFlag_det : (clearHitFlag s).det = { s.det with hitDetectedFlag := false } := rfl
@[simp] theorem clearHitFlag_lt : (clearHitFlag s).lt = s.lt := rfl
@[simp] theorem clearHitFlag_iv : (clearHitFlag s).iv = s.iv := rfl
@[simp] theorem clearHitFlag_tr : (clearHitFlag s).tr = s.tr := rfl
@[simp] theorem clearHitFlag_tx : (clearHitFlag s).tx = s.tx := rfl
@[simp] theorem clearHitFlag_seq : (clearHitFlag s).seq = s.seq := rfl
@[simp] theorem clearHitFlag_tickPending : (clearHitFlag s).tickPending = s.tickPending := rfl
@[simp] theorem clearHitFlag_heldTick : (clearHitFlag s).heldTick = s.heldTick := rfl
@[simp] theorem clearHitFlag_trigIn : (clearHitFlag s).trigIn = s.trigIn := rfl
@[simp] theorem clearHitFlag_resp : (clearHitFlag s).resp = s.resp := rfl
@[simp] theorem clearHitFlag_diag : (clearHitFlag s).diag = s.diag := rfl
@[simp] theorem clearHitFlag_notify : (clearHitFlag s).notify = s.notify := rfl
@[simp] theorem clearHitFlag_cmd : (clearHitFlag s).cmd = s.cmd := rfl
@[simp] theorem clearHitFlag_schedule : (clearHitFlag s).schedule = s.schedule := rfl
@[simp] theorem clearHitFlag_freeDraws : (clearHitFlag s).freeDraws = s.freeDraws := rfl
@[simp] theorem clearHitFlag_queue (q' : QueueId) :
    (clearHitFlag s).queue q' = s.queue q' := rfl
@[simp] theorem clearHitFlag_capacity (q' : QueueId) :
    (clearHitFlag s).capacity q' = s.capacity q' := rfl

/-! ### Reading what was replaced -/

theorem State.queue_setQueue (q q' : QueueId) (x : HistoryQueue) :
    (s.setQueue q x).queue q' = if q' = q then x else s.queue q' := by
  by_cases h : q' = q
  · subst h; simp [State.queue, State.setQueue]
  · have : q.val ≠ q'.val := fun e => h (Fin.ext e.symm)
    simp [State.queue, State.setQueue, h, this]

@[simp] theorem State.queue_setQueue_self (q : QueueId) (x : HistoryQueue) :
    (s.setQueue q x).queue q = x := by rw [State.queue_setQueue, if_pos rfl]

theorem State.queue_setQueue_ne {q q' : QueueId} (h : q' ≠ q) (x : HistoryQueue) :
    (s.setQueue q x).queue q' = s.queue q' := by rw [State.queue_setQueue, if_neg h]

@[simp] theorem State.setQueue_setQueue (q : QueueId) (x y : HistoryQueue) :
    (s.setQueue q x).setQueue q y = s.setQueue q y := by
  simp [State.setQueue]

@[simp] theorem State.setQueue_queue (q : QueueId) : s.setQueue q (s.queue q) = s := by
  simp [State.setQueue, State.queue]

theorem State.power_setPower (c d : Channel) (x : NUM) :
    (s.setPower c x).fb.power[d] = if d = c then x else s.fb.power[d] := by
  by_cases h : d = c
  · subst h; simp
  · have : c.val ≠ d.val := fun e => h (Fin.ext e.symm)
    simp [h, this]

/-- Two states with the same queues have the same vector of queues. -/
theorem State.q_ext {s t : State} (h : ∀ q : QueueId, t.queue q = s.queue q) : t.q = s.q := by
  ext1 i hi
  exact h ⟨i, hi⟩

/-- Two filter banks with the same powers are equal. -/
theorem FilterBank.ext_power {a b : FilterBank} (h : ∀ c : Channel, a.power[c] = b.power[c]) :
    a = b := by
  cases a; cases b
  congr 1
  ext1 i hi
  exact h ⟨i, hi⟩

/-- What a queue holds depends on the queue and the configuration only. -/
theorem queueContents_congr {s t : State} {q : QueueId} (hq : t.queue q = s.queue q)
    (hc : t.cfg = s.cfg) : queueContents t q = queueContents s q := by
  simp [queueContents, State.capacity, hq, hc]

/-- What the ring holds depends on the ring and the configuration only. -/
theorem ringContents_congr {s t : State} (hr : t.sr = s.sr) (hc : t.cfg = s.cfg) :
    ringContents t = ringContents s := by simp [ringContents, hr, hc]

end Sys2Proof.Machine
end

