-- ==== Sys2Proof/Laws/Ring.lean ====
section
/-! SUPPORT. What a circular buffer holds after a push and after a pop: SampleRing and HistoryQueue
alike. -/

namespace Sys2Proof.Machine

/-! ### Circular indices -/

theorem mod_add_lt {r k n : Nat} (hn : 0 < n) : (r + k) % n < n := Nat.mod_lt _ hn

/-- Two offsets below the capacity name two different elements. -/
theorem ring_index_ne {r a b n : Nat} (ha : a < b) (hb : b < n) : (r + a) % n ≠ (r + b) % n := by
  intro h
  have h2 : (r + b) % n = ((r + a) + (b - a)) % n := by congr 1; omega
  have h3 : (r + a) ≡ (r + a) + (b - a) [MOD n] := h.trans h2
  have h4 : n ∣ (b - a) := by simpa using h3.symm
  exact absurd (Nat.le_of_dvd (by omega) h4) (by omega)

theorem ring_index_succ (r k n : Nat) : ((r + 1) % n + k) % n = (r + (k + 1)) % n := by
  rw [Nat.mod_add_mod]; congr 1; omega

/-! ### What a window of a circular buffer holds -/

variable {α : Type} [DecidableEq α] {z : α}

/-- The `count` elements from index `r` on, modulo `n`. -/
def window (z : α) (m : Memory α) (r count n : Nat) : List α :=
  (List.range count).map fun k => Memory.read z m ((r + k) % n)

omit [DecidableEq α] in
@[simp] theorem window_length (m : Memory α) (r count n : Nat) :
    (window z m r count n).length = count := by simp [window]

omit [DecidableEq α] in
theorem window_getElem (m : Memory α) (r count n k : Nat) (h : k < (window z m r count n).length) :
    (window z m r count n)[k] = Memory.read z m ((r + k) % n) := by simp [window]

omit [DecidableEq α] in
theorem window_getD (m : Memory α) (r count n k : Nat) (h : k < count) (d : α) :
    (window z m r count n).getD k d = Memory.read z m ((r + k) % n) := by
  simp [window, List.getD, h]

omit [DecidableEq α] in
theorem window_succ (m : Memory α) (r count n : Nat) :
    window z m r (count + 1) n = Memory.read z m (r % n) :: window z m ((r + 1) % n) count n := by
  simp only [window, List.range_succ_eq_map, List.map_cons, List.map_map, Nat.add_zero]
  congr 1
  refine List.map_congr_left fun k _ => ?_
  simp only [Function.comp]
  rw [ring_index_succ]

omit [DecidableEq α] in
/-- A pop takes the head. -/
theorem window_pop {m : Memory α} {r count n : Nat} (h : count ≠ 0) :
    window z m ((r + 1) % n) (count - 1) n = (window z m r count n).tail := by
  obtain ⟨c, rfl⟩ := Nat.exists_eq_succ_of_ne_zero h
  simp [window_succ]

omit [DecidableEq α] in
theorem window_headD {m : Memory α} {r count n : Nat} (h : count ≠ 0) (hr : r < n) (d : α) :
    (window z m r count n).headD d = Memory.read z m r := by
  obtain ⟨c, rfl⟩ := Nat.exists_eq_succ_of_ne_zero h
  simp [window_succ, Nat.mod_eq_of_lt hr]

/-- A push into a buffer that is not full appends. -/
theorem window_push {m : Memory α} {r count n : Nat} (hm : Memory.wf z n m = true) (h : count < n)
    (v : α) :
    window z (Memory.write z m ((r + count) % n) v) r (count + 1) n = window z m r count n ++ [v] := by
  simp only [window, List.range_succ, List.map_append, List.map_cons, List.map_nil]
  congr 1
  · refine List.map_congr_left fun k hk => ?_
    rw [Memory.read_write hm, if_neg (ring_index_ne (List.mem_range.1 hk) h)]
  · rw [Memory.read_write hm, if_pos rfl]

/-- A push into a full buffer, whose oldest element is given up first. -/
theorem window_push_full {m : Memory α} {r n : Nat} (hm : Memory.wf z n m = true) (hn : 0 < n) (v : α) :
    window z (Memory.write z m ((r + n) % n) v) ((r + 1) % n) n n =
      (window z m r n n).tail ++ [v] := by
  have hw : (r + n) % n = ((r + 1) % n + (n - 1)) % n := by
    rw [Nat.mod_add_mod]; congr 1; omega
  have := window_push (z := z) (r := (r + 1) % n) (count := n - 1) hm (by omega) v
  rw [← hw, Nat.sub_add_cancel hn] at this
  rw [this, window_pop (by omega)]

/-! ### SampleRing -/

theorem ringContents_eq (s : State) :
    ringContents s = window unlistedSample s.sr.mem s.sr.readIndex s.sr.count s.cfg.ringCapacity := rfl

theorem Config.ringCapacity_pos (cfg : Config) : 0 < cfg.ringCapacity := cfg.ringCapacity_range.1

theorem Config.powerWindow_pos (cfg : Config) : 0 < cfg.powerWindow := cfg.powerWindow_range.1

theorem Config.queueCapacity_pos (cfg : Config) (q : QueueId) : 0 < cfg.queueCapacity q := by
  unfold Config.queueCapacity
  split
  · omega
  · split
    · omega
    · exact Config.powerWindow_pos cfg

theorem State.capacity_pos (s : State) (q : QueueId) : 0 < s.capacity q :=
  Config.queueCapacity_pos s.cfg q

/-! ### HistoryQueue -/

/-- What a queue of capacity `n` holds, oldest first. -/
def HistoryQueue.contents (num : NumSystem) (n : Nat) (x : HistoryQueue) : List NUM :=
  window (unlistedNum num) x.mem x.readIndex x.count n

theorem queueContents_eq (s : State) (q : QueueId) :
    queueContents s q = (s.queue q).contents s.cfg.num (s.capacity q) := rfl

@[simp] theorem HistoryQueue.contents_length (num : NumSystem) (n : Nat) (x : HistoryQueue) :
    (x.contents num n).length = x.count := by simp [HistoryQueue.contents]

@[simp] theorem queueContents_length (s : State) (q : QueueId) :
    (queueContents s q).length = (s.queue q).count := by simp [queueContents_eq]

@[simp] theorem ringContents_length (s : State) : (ringContents s).length = s.sr.count := by
  simp [ringContents_eq]

/-- The queue after an overwrite-push (41_history_queue.md R154). -/
def HistoryQueue.overwrite (num : NumSystem) (n : Nat) (v : NUM) (x : HistoryQueue) : HistoryQueue where
  mem := Memory.write (unlistedNum num) x.mem x.writeIndex v
  writeIndex := (x.writeIndex + 1) % n
  readIndex := if x.count = n then (x.readIndex + 1) % n else x.readIndex
  count := if x.count = n then n else x.count + 1
  underflowed := false
  overflowed := if x.count = n then false else x.overflowed

theorem HistoryQueue.overwrite_wf {num : NumSystem} {n : Nat} {x : HistoryQueue} (hn : 0 < n) (h : x.wf num n) (v : NUM) :
    (x.overwrite num n v).wf num n := by
  obtain ⟨hr, hw, hc, hl, hm⟩ := h
  refine ⟨?_, Nat.mod_lt _ hn, ?_, ?_, Memory.write_wf hw hm v⟩
  · simp only [HistoryQueue.overwrite]; split
    · exact Nat.mod_lt _ hn
    · exact hr
  · simp only [HistoryQueue.overwrite]; split <;> omega
  · simp only [HistoryQueue.overwrite]; rw [hl]; split
    · rename_i h; rw [h, Nat.mod_add_mod, Nat.mod_add_mod]; congr 1; omega
    · rw [Nat.mod_add_mod]; congr 1

theorem HistoryQueue.contents_overwrite {num : NumSystem} {n : Nat} {x : HistoryQueue} (hn : 0 < n) (h : x.wf num n)
    (v : NUM) : (x.overwrite num n v).contents num n = overwritten n (x.contents num n) v := by
  obtain ⟨hr, hw, hc, hl, hm⟩ := h
  simp only [HistoryQueue.contents, HistoryQueue.overwrite, overwritten, window_length]
  rw [hl]
  by_cases hf : x.count = n
  · simp only [hf, if_true]
    exact window_push_full hm hn v
  · simp only [hf, if_false]
    exact window_push hm (by omega) v

@[simp] theorem HistoryQueue.overwrite_count_full {num : NumSystem} {n : Nat} {x : HistoryQueue} (h : x.count = n)
    (v : NUM) : (x.overwrite num n v).count = n := by simp [HistoryQueue.overwrite, h]

/-- A queue of zeros, full or empty, is well formed. -/
theorem HistoryQueue.reset_wf {num : NumSystem} {n : Nat} (hn : 0 < n) : (HistoryQueue.reset n).wf num n := by
  refine ⟨hn, hn, le_refl _, ?_, rfl⟩
  simp [HistoryQueue.reset]

theorem HistoryQueue.contents_reset (num : NumSystem) (n k : Nat) :
    (HistoryQueue.reset n).contents num k = List.replicate n (numZero num) := by
  refine List.ext_getElem (by simp [HistoryQueue.reset]) fun i h1 h2 => ?_
  simp [HistoryQueue.contents, HistoryQueue.reset, window, unlistedNum]

end Sys2Proof.Machine
end

