-- ==== Sys2Proof/Laws/Ops.lean ====
section
/-! SUPPORT. For each shared operation, once, everything it can do. -/

namespace Sys2Proof.Machine

/-! ### SampleRing -/

theorem srPush_full {s : State} (h : s.sr.count = s.cfg.ringCapacity) (v : AdcCode) :
    srPush v s = { s with sr := {
      mem := Memory.write unlistedSample s.sr.mem s.sr.writeIndex v
      writeIndex := (s.sr.writeIndex + 1) % s.cfg.ringCapacity
      readIndex := (s.sr.readIndex + 1) % s.cfg.ringCapacity
      count := s.sr.count } } := by simp [srPush, h]

theorem srPush_room {s : State} (h : s.sr.count ≠ s.cfg.ringCapacity) (v : AdcCode) :
    srPush v s = { s with sr := {
      mem := Memory.write unlistedSample s.sr.mem s.sr.writeIndex v
      writeIndex := (s.sr.writeIndex + 1) % s.cfg.ringCapacity
      readIndex := s.sr.readIndex
      count := s.sr.count + 1 } } := by simp [srPush, h]

theorem srPush_frame (v : AdcCode) (s : State) : srPush v s = { s with sr := (srPush v s).sr } := rfl

theorem srPop_empty {s : State} (h : s.sr.count = 0) : srPop s = (0, s) := by simp [srPop, h]

theorem srPop_some {s : State} (h : s.sr.count ≠ 0) :
    srPop s = (Memory.read unlistedSample s.sr.mem s.sr.readIndex, { s with sr := { s.sr with
      readIndex := (s.sr.readIndex + 1) % s.cfg.ringCapacity
      count := s.sr.count - 1 } }) := by simp [srPop, h]

theorem srPop_frame (s : State) : (srPop s).2 = { s with sr := (srPop s).2.sr } := by
  unfold srPop; split <;> rfl

theorem srPush_inRange {s : State} (h : ringInRange s) (v : AdcCode) : ringInRange (srPush v s) := by
  obtain ⟨hw, hr, hc, hm⟩ := h
  have hp := Config.ringCapacity_pos s.cfg
  by_cases hf : s.sr.count = s.cfg.ringCapacity
  · rw [srPush_full hf]
    exact ⟨Nat.mod_lt _ hp, Nat.mod_lt _ hp, hc, Memory.write_wf hw hm v⟩
  · rw [srPush_room hf]
    exact ⟨Nat.mod_lt _ hp, hr, by simp only; omega, Memory.write_wf hw hm v⟩

theorem srPush_linked {s : State} (h : ringLinked s) (v : AdcCode) : ringLinked (srPush v s) := by
  unfold ringLinked at h ⊢
  by_cases hf : s.sr.count = s.cfg.ringCapacity
  · rw [srPush_full hf]
    simp only
    rw [h, Nat.mod_add_mod, Nat.mod_add_mod]; congr 1; omega
  · rw [srPush_room hf]
    simp only
    rw [h, Nat.mod_add_mod]; congr 1

/-- A push appends, dropping the oldest sample of a full ring. -/
theorem ringContents_srPush {s : State} (h : ringInRange s) (hl : ringLinked s) (v : AdcCode) :
    ringContents (srPush v s) = overwritten s.cfg.ringCapacity (ringContents s) v := by
  obtain ⟨hw, hr, hc, hm⟩ := h
  have hp := Config.ringCapacity_pos s.cfg
  unfold ringLinked at hl
  simp only [overwritten, ringContents_length]
  by_cases hf : s.sr.count = s.cfg.ringCapacity
  · rw [srPush_full hf]
    simp only [ringContents_eq, hf, if_true] at hl ⊢
    rw [hl]
    exact window_push_full hm hp v
  · rw [srPush_room hf]
    simp only [ringContents_eq, hf, if_false]
    rw [hl]
    exact window_push hm (by omega) v

theorem srPop_inRange {s : State} (h : ringInRange s) : ringInRange (srPop s).2 := by
  obtain ⟨hw, hr, hc, hm⟩ := h
  by_cases hf : s.sr.count = 0
  · rw [srPop_empty hf]; exact ⟨hw, hr, hc, hm⟩
  · rw [srPop_some hf]
    exact ⟨hw, Nat.mod_lt _ (Config.ringCapacity_pos s.cfg), by simp only; omega, hm⟩

theorem srPop_linked {s : State} (h : ringLinked s) : ringLinked (srPop s).2 := by
  unfold ringLinked at h ⊢
  by_cases hf : s.sr.count = 0
  · rw [srPop_empty hf]; exact h
  · rw [srPop_some hf]
    simp only
    rw [h, Nat.mod_add_mod]; congr 1; omega

/-- A pop takes the oldest sample, or answers the sentinel. -/
theorem ringContents_srPop {s : State} (hr : s.sr.readIndex < s.cfg.ringCapacity) :
    ringContents (srPop s).2 = (ringContents s).tail ∧ (srPop s).1 = (ringContents s).headD 0 := by
  by_cases hf : s.sr.count = 0
  · rw [srPop_empty hf]
    have : ringContents s = [] := List.length_eq_zero_iff.1 (by simp [hf])
    simp [this]
  · rw [srPop_some hf]
    exact ⟨window_pop hf, (window_headD hf hr 0).symm⟩

theorem freeRing_inRange (cfg : Config) (draw : Nat) (s : State) (hc : s.cfg = cfg)
    (hs : s.sr = freeRing cfg draw) : ringInRange s := by
  have hp := Config.ringCapacity_pos cfg
  unfold ringInRange
  rw [hs, hc]
  exact ⟨Nat.mod_lt _ hp, Nat.mod_lt _ hp, Nat.le_of_lt_succ (Nat.mod_lt _ (Nat.succ_pos _)),
    Memory.fromSlots_wf _ (le_refl _)⟩

/-! ### HistoryQueue -/

theorem hqPush_full {q : QueueId} {s : State} (h : (s.queue q).count = s.capacity q) (v : NUM) :
    hqPush q v s =
      (s.setQueue q { s.queue q with overflowed := true }).raise .overflow (queueInfo q) := by
  simp [hqPush, h]

theorem hqPush_room {q : QueueId} {s : State} (h : (s.queue q).count ≠ s.capacity q) (v : NUM) :
    hqPush q v s = s.setQueue q { s.queue q with
      mem := Memory.write (unlistedNum s.cfg.num) (s.queue q).mem (s.queue q).writeIndex v
      writeIndex := ((s.queue q).writeIndex + 1) % s.capacity q
      count := (s.queue q).count + 1
      underflowed := false } := by simp [hqPush, h]

theorem hqPop_empty {q : QueueId} {s : State} (h : (s.queue q).count = 0) :
    hqPop q s =
      (numZero s.cfg.num, (s.setQueue q { s.queue q with underflowed := true }).raise .underflow (queueInfo q)) := by
  simp [hqPop, h]

theorem hqPop_some {q : QueueId} {s : State} (h : (s.queue q).count ≠ 0) :
    hqPop q s = (Memory.read (unlistedNum s.cfg.num) (s.queue q).mem (s.queue q).readIndex,
      s.setQueue q { s.queue q with
        readIndex := ((s.queue q).readIndex + 1) % s.capacity q
        count := (s.queue q).count - 1
        overflowed := false }) := by simp [hqPop, h]

/-- An overwrite-push replaces the queue and raises nothing. -/
theorem hqOpush_eq (q : QueueId) (s : State) (v : NUM) :
    hqOpush q v s = s.setQueue q ((s.queue q).overwrite s.cfg.num (s.capacity q) v) := by
  have hp := State.capacity_pos s q
  unfold hqOpush
  by_cases hf : (s.queue q).count = s.capacity q
  · simp only [hf, if_true]
    rw [hqPop_some (by omega)]
    simp only
    rw [hqPush_room (by simp; omega)]
    simp only [State.queue_setQueue_self, State.setQueue_setQueue, HistoryQueue.overwrite, hf,
      if_true, State.setQueue_capacity]
    congr 2
    omega
  · simp only [hf, if_false]
    rw [hqPush_room hf]
    simp [HistoryQueue.overwrite, hf]

theorem hqReadAt_some {q : QueueId} {age : Nat} {s : State} (h : age < (s.queue q).count) :
    hqReadAt q age s = (Memory.read (unlistedNum s.cfg.num) (s.queue q).mem
      (((s.queue q).readIndex + age) % s.capacity q), s) := by simp [hqReadAt, h]

theorem hqReadAt_none {q : QueueId} {age : Nat} {s : State} (h : (s.queue q).count ≤ age) :
    hqReadAt q age s = (numZero s.cfg.num, s.raise .invalidIndex (readInfo q age)) := by
  simp [hqReadAt, Nat.not_lt.mpr h]

/-- An age-indexed read answers the element of that age, or the sentinel with a diagnostic. -/
theorem hqReadAt_eq (q : QueueId) (age : Nat) (s : State) :
    hqReadAt q age s = ((queueContents s q).getD age (numZero s.cfg.num),
      if age < (s.queue q).count then s else s.raise .invalidIndex (readInfo q age)) := by
  by_cases h : age < (s.queue q).count
  · rw [hqReadAt_some h, if_pos h]
    congr 1
    exact (window_getD _ _ _ _ _ h _).symm
  · rw [hqReadAt_none (Nat.not_lt.mp h), if_neg h]
    congr 1
    rw [List.getD_eq_getElem?_getD, List.getElem?_eq_none (by simpa using h)]
    rfl

/-! ### Operands -/

theorem operandQueue_of_lt {q : BitVec 5} (h : q.toNat < 22) :
    operandQueue q = some ⟨q.toNat, h⟩ := by simp [operandQueue, h]

theorem operandQueue_of_ge {q : BitVec 5} (h : ¬ q.toNat < 22) : operandQueue q = none := by
  simp [operandQueue, h]

theorem operandChannel_of_lt {ch : BitVec 4} (h : ch.toNat < 10) :
    operandChannel ch = some ⟨ch.toNat, h⟩ := by simp [operandChannel, h]

theorem operandChannel_of_ge {ch : BitVec 4} (h : ¬ ch.toNat < 10) : operandChannel ch = none := by
  simp [operandChannel, h]

theorem operandFirIndex_of_lt {i : BitVec 8} (h : i.toNat < 81) :
    operandFirIndex i = some ⟨i.toNat, h⟩ := by simp [operandFirIndex, h]

theorem operandFirIndex_of_ge {i : BitVec 8} (h : ¬ i.toNat < 81) : operandFirIndex i = none := by
  simp [operandFirIndex, h]

theorem operandIirIndex_of_lt {i : BitVec 8} (h : i.toNat < 11) :
    operandIirIndex i = some ⟨i.toNat, h⟩ := by simp [operandIirIndex, h]

theorem operandIirIndex_of_ge {i : BitVec 8} (h : ¬ i.toNat < 11) : operandIirIndex i = none := by
  simp [operandIirIndex, h]

theorem operandCoefficient_of_lt {ch : BitVec 4} {i : BitVec 8} (hc : ch.toNat < 10)
    (hi : i.toNat < 11) : operandCoefficient ch i = some (⟨ch.toNat, hc⟩, ⟨i.toNat, hi⟩) := by
  simp [operandCoefficient, operandChannel_of_lt hc, operandIirIndex_of_lt hi]

theorem operandCoefficient_of_ge {ch : BitVec 4} {i : BitVec 8}
    (h : ¬ (ch.toNat < 10 ∧ i.toNat < 11)) : operandCoefficient ch i = none := by
  unfold operandCoefficient
  by_cases hc : ch.toNat < 10
  · rw [operandIirIndex_of_ge fun hi => h ⟨hc, hi⟩]; split <;> simp_all
  · rw [operandChannel_of_ge hc]

theorem operandConst_of_lt {i : BitVec 8} (h : i.toNat < 5) :
    operandConst i = some ([81, 11, 11, 10, 10][i.toNat]) := by
  simp only [operandConst, firTaps, iirLen, decimation, numChannels]
  exact List.getElem?_eq_getElem h

theorem operandConst_of_ge {i : BitVec 8} (h : ¬ i.toNat < 5) : operandConst i = none := by
  rw [operandConst, List.getElem?_eq_none]; simpa using h

@[simp] theorem withOperand_some {α : Type} (a : α) (i : Instr) (l : List Beat)
    (k : α → State → State) (s : State) : withOperand (some a) i l k s = k a s := rfl

@[simp] theorem withOperand_none {α : Type} (i : Instr) (l : List Beat)
    (k : α → State → State) (s : State) : withOperand none i l k s = s.rejectOperand i l := rfl

theorem operandQueue_eq_some {q : BitVec 5} {id : QueueId} (h : operandQueue q = some id) :
    id.val = q.toNat := by
  unfold operandQueue at h
  split at h
  · cases h; rfl
  · cases h

theorem operandChannel_eq_some {ch : BitVec 4} {c : Channel} (h : operandChannel ch = some c) :
    c.val = ch.toNat := by
  unfold operandChannel at h
  split at h
  · cases h; rfl
  · cases h

end Sys2Proof.Machine
end

