-- ==== Sys2Proof/Laws/Filter.lean ====
section
/-! SUPPORT. The FilterBank's procedures read and write only the configuration, the queues, the powers
and DIAG; and what they compute while every queue is full. -/

namespace Sys2Proof.Machine

/-! ### Everything else is neither read nor written -/

/-- `r` with the queues, the powers, DIAG and the configuration of `s`. -/
def State.embed (r s : State) : State := { r with cfg := s.cfg, q := s.q, fb := s.fb, diag := s.diag }

@[simp] theorem State.embed_self (s : State) : s.embed s = s := rfl
@[simp] theorem State.embed_cfg (r s : State) : (r.embed s).cfg = s.cfg := rfl
@[simp] theorem State.embed_q (r s : State) : (r.embed s).q = s.q := rfl
@[simp] theorem State.embed_fb (r s : State) : (r.embed s).fb = s.fb := rfl
@[simp] theorem State.embed_diag (r s : State) : (r.embed s).diag = s.diag := rfl
@[simp] theorem State.embed_sr (r s : State) : (r.embed s).sr = r.sr := rfl
@[simp] theorem State.embed_det (r s : State) : (r.embed s).det = r.det := rfl
@[simp] theorem State.embed_lt (r s : State) : (r.embed s).lt = r.lt := rfl
@[simp] theorem State.embed_iv (r s : State) : (r.embed s).iv = r.iv := rfl
@[simp] theorem State.embed_tr (r s : State) : (r.embed s).tr = r.tr := rfl
@[simp] theorem State.embed_tx (r s : State) : (r.embed s).tx = r.tx := rfl
@[simp] theorem State.embed_seq (r s : State) : (r.embed s).seq = r.seq := rfl
@[simp] theorem State.embed_queue (r s : State) (q : QueueId) : (r.embed s).queue q = s.queue q := rfl
@[simp] theorem State.embed_capacity (r s : State) (q : QueueId) :
    (r.embed s).capacity q = s.capacity q := rfl
@[simp] theorem State.embed_embed (r s t : State) : (r.embed s).embed t = r.embed t := rfl

theorem raise_embed (r s : State) (c : DiagCode) (i : BitVec 32) :
    (r.embed s).raise c i = r.embed (s.raise c i) := rfl

theorem setQueue_embed (r s : State) (q : QueueId) (x : HistoryQueue) :
    (r.embed s).setQueue q x = r.embed (s.setQueue q x) := rfl

theorem setPower_embed (r s : State) (c : Channel) (x : NUM) :
    (r.embed s).setPower c x = r.embed (s.setPower c x) := rfl

theorem hqInit_embed (r s : State) (q : QueueId) : hqInit q (r.embed s) = r.embed (hqInit q s) := rfl

theorem hqOpush_embed (r s : State) (q : QueueId) (v : NUM) :
    hqOpush q v (r.embed s) = r.embed (hqOpush q v s) := by
  rw [hqOpush_eq, hqOpush_eq]; rfl

theorem hqReadAt_embed (r s : State) (q : QueueId) (age : Nat) :
    hqReadAt q age (r.embed s) = ((hqReadAt q age s).1, r.embed (hqReadAt q age s).2) := by
  by_cases h : age < (s.queue q).count
  · rw [hqReadAt_some h, hqReadAt_some (s := r.embed s) h]; rfl
  · rw [hqReadAt_none (Nat.not_lt.mp h), hqReadAt_none (s := r.embed s) (Nat.not_lt.mp h)]; rfl

theorem sumProducts_embed (r : State) (q : QueueId) : ∀ (terms : List (NUM × Nat)) (acc : NUM) (s : State),
    sumProducts q terms acc (r.embed s) =
      ((sumProducts q terms acc s).1, r.embed (sumProducts q terms acc s).2)
  | [], _, _ => rfl
  | (c, age) :: rest, acc, s => by
    simp only [sumProducts, hqReadAt_embed, State.embed_cfg]
    rw [sumProducts_embed r q rest]

theorem sumSquares_embed (r : State) (q : QueueId) : ∀ (ages : List Nat) (acc : NUM) (s : State),
    sumSquares q ages acc (r.embed s) =
      ((sumSquares q ages acc s).1, r.embed (sumSquares q ages acc s).2)
  | [], _, _ => rfl
  | age :: rest, acc, s => by
    simp only [sumSquares, hqReadAt_embed, State.embed_cfg]
    rw [sumSquares_embed r q rest]

theorem windowOldest_embed (r s : State) (c : Channel) :
    windowOldest c (r.embed s) = ((windowOldest c s).1, r.embed (windowOldest c s).2) := by
  unfold windowOldest
  simp only [State.embed_queue, State.embed_cfg, hqReadAt_embed]
  split <;> rfl

theorem channelUpdate_eq (c : Channel) (z : NUM) (s : State) :
    channelUpdate c z s = (hqOpush (queueP c) z (hqOpush (queueZ c) z (windowOldest c s).2)).setPower c
      (numAdd s.cfg.num
        (numSub s.cfg.num
          (hqOpush (queueP c) z (hqOpush (queueZ c) z (windowOldest c s).2)).fb.power[c]
          (numMul s.cfg.num (windowOldest c s).1 (windowOldest c s).1))
        (numMul s.cfg.num z z)) := rfl

theorem channelUpdate_embed (r s : State) (c : Channel) (z : NUM) :
    channelUpdate c z (r.embed s) = r.embed (channelUpdate c z s) := by
  simp only [channelUpdate, windowOldest_embed, hqOpush_embed, State.embed_cfg, State.embed_fb,
    setPower_embed]

theorem channelOutput_embed (r s : State) (c : Channel) :
    channelOutput c (r.embed s) = ((channelOutput c s).1, r.embed (channelOutput c s).2) := by
  simp only [channelOutput, sumProducts_embed, State.embed_cfg]

theorem channelStep_embed (r s : State) (c : Channel) :
    channelStep c (r.embed s) = r.embed (channelStep c s) := by
  simp only [channelStep, channelOutput_embed, channelUpdate_embed]

theorem foldl_embed {β : Type} (r : State) (f : β → State → State)
    (hf : ∀ b s, f b (r.embed s) = r.embed (f b s)) :
    ∀ (l : List β) (s : State),
      l.foldl (fun s b => f b s) (r.embed s) = r.embed (l.foldl (fun s b => f b s) s)
  | [], _ => rfl
  | b :: rest, s => by
    simp only [List.foldl_cons, hf]
    exact foldl_embed r f hf rest _

theorem fbAccept_embed (r s : State) (v : AdcCode) :
    fbAccept v (r.embed s) = r.embed (fbAccept v s) := by
  simp only [fbAccept, hqOpush_embed, State.embed_cfg]

theorem fbWindow_embed (r s : State) : fbWindow (r.embed s) = r.embed (fbWindow s) := by
  simp only [fbWindow, sumProducts_embed, hqOpush_embed, State.embed_cfg]
  exact foldl_embed r (fun c s => channelStep c s) (fun c s => channelStep_embed r s c) channels _

theorem fbRecompute_embed (r s : State) (c : Channel) :
    fbRecompute c (r.embed s) = r.embed (fbRecompute c s) := by
  simp only [fbRecompute, sumSquares_embed, State.embed_queue, State.embed_cfg, setPower_embed]

theorem fillZeros_embed (r : State) (q : QueueId) : ∀ (k : Nat) (s : State),
    fillZeros q k (r.embed s) = r.embed (fillZeros q k s)
  | 0, _ => rfl
  | k + 1, s => by simp only [fillZeros, hqOpush_embed, State.embed_cfg]; exact fillZeros_embed r q k _

theorem fbInit_embed (r s : State) : fbInit (r.embed s) = r.embed (fbInit s) := by
  simp only [fbInit, State.embed_cfg]
  rw [foldl_embed r (fun q s => fillZeros q (s.capacity q) (hqInit q s)) (fun q s => by
    simp only [State.embed_capacity, hqInit_embed, fillZeros_embed]) queueIds s]
  exact foldl_embed r (fun c t => t.setPower c (numZero s.cfg.num)) (fun c s => rfl) channels _

/-! ### The configuration is kept -/

@[simp] theorem hqOpush_cfg (q : QueueId) (v : NUM) (s : State) : (hqOpush q v s).cfg = s.cfg := by
  rw [hqOpush_eq]; rfl

@[simp] theorem hqReadAt_cfg (q : QueueId) (age : Nat) (s : State) :
    (hqReadAt q age s).2.cfg = s.cfg := by
  unfold hqReadAt; simp only; split <;> rfl

@[simp] theorem sumProducts_cfg (q : QueueId) : ∀ (terms : List (NUM × Nat)) (acc : NUM) (s : State),
    (sumProducts q terms acc s).2.cfg = s.cfg
  | [], _, _ => rfl
  | (c, age) :: rest, acc, s => by simp [sumProducts, sumProducts_cfg q rest]

@[simp] theorem sumSquares_cfg (q : QueueId) : ∀ (ages : List Nat) (acc : NUM) (s : State),
    (sumSquares q ages acc s).2.cfg = s.cfg
  | [], _, _ => rfl
  | age :: rest, acc, s => by simp [sumSquares, sumSquares_cfg q rest]

@[simp] theorem windowOldest_cfg (c : Channel) (s : State) : (windowOldest c s).2.cfg = s.cfg := by
  unfold windowOldest; split <;> simp

@[simp] theorem channelUpdate_cfg (c : Channel) (z : NUM) (s : State) :
    (channelUpdate c z s).cfg = s.cfg := by simp [channelUpdate]

@[simp] theorem channelOutput_cfg (c : Channel) (s : State) : (channelOutput c s).2.cfg = s.cfg := by
  simp [channelOutput]

@[simp] theorem channelStep_cfg (c : Channel) (s : State) : (channelStep c s).cfg = s.cfg := by
  simp [channelStep]

theorem foldl_cfg {β : Type} (f : β → State → State) (hf : ∀ b s, (f b s).cfg = s.cfg) :
    ∀ (l : List β) (s : State), (l.foldl (fun s b => f b s) s).cfg = s.cfg
  | [], _ => rfl
  | b :: rest, s => by rw [List.foldl_cons, foldl_cfg f hf rest, hf]

@[simp] theorem fbAccept_cfg (v : AdcCode) (s : State) : (fbAccept v s).cfg = s.cfg := by
  simp [fbAccept]

@[simp] theorem fbWindow_cfg (s : State) : (fbWindow s).cfg = s.cfg := by
  unfold fbWindow
  rw [foldl_cfg (fun c s => channelStep c s) fun c s => channelStep_cfg c s]
  simp

@[simp] theorem fbRecompute_cfg (c : Channel) (s : State) : (fbRecompute c s).cfg = s.cfg := by
  simp [fbRecompute]

@[simp] theorem fillZeros_cfg (q : QueueId) : ∀ (k : Nat) (s : State), (fillZeros q k s).cfg = s.cfg
  | 0, _ => rfl
  | k + 1, s => by simp [fillZeros, fillZeros_cfg q k]

@[simp] theorem fbInit_cfg (s : State) : (fbInit s).cfg = s.cfg := by
  unfold fbInit
  simp only
  rw [foldl_cfg (fun c t => t.setPower c (numZero s.cfg.num)) fun c s => rfl,
    foldl_cfg (fun q s => fillZeros q (s.capacity q) (hqInit q s)) fun q s => by
      rw [fillZeros_cfg]; rfl]

/-! ### Frames -/

theorem fbAccept_frame (v : AdcCode) (s : State) : fbAccept v s = s.embed (fbAccept v s) :=
  fbAccept_embed s s v

theorem fbWindow_frame (s : State) : fbWindow s = s.embed (fbWindow s) := fbWindow_embed s s

theorem fbRecompute_frame (c : Channel) (s : State) : fbRecompute c s = s.embed (fbRecompute c s) :=
  fbRecompute_embed s s c

theorem fbInit_frame (s : State) : fbInit s = s.embed (fbInit s) := fbInit_embed s s

/-! ### Sums over ages that are all there -/

theorem sumProducts_present (q : QueueId) : ∀ (terms : List (NUM × Nat)) (acc : NUM) (s : State),
    (∀ t ∈ terms, t.2 < (s.queue q).count) →
    sumProducts q terms acc s =
      (terms.foldl (fun acc t => numAdd s.cfg.num acc
        (numMul s.cfg.num t.1 ((queueContents s q).getD t.2 (numZero s.cfg.num)))) acc, s)
  | [], _, _, _ => rfl
  | (c, age) :: rest, acc, s, h => by
    have ha := h (c, age) (by simp)
    simp only [sumProducts, List.foldl_cons, hqReadAt_eq, if_pos ha]
    exact sumProducts_present q rest _ s fun t ht => h t (by simp [ht])

theorem sumSquares_present (q : QueueId) : ∀ (ages : List Nat) (acc : NUM) (s : State),
    (∀ a ∈ ages, a < (s.queue q).count) →
    sumSquares q ages acc s =
      (ages.foldl (fun acc a => numAdd s.cfg.num acc
        (numMul s.cfg.num ((queueContents s q).getD a (numZero s.cfg.num))
          ((queueContents s q).getD a (numZero s.cfg.num)))) acc, s)
  | [], _, _, _ => rfl
  | a :: rest, acc, s, h => by
    have ha := h a (by simp)
    simp only [sumSquares, List.foldl_cons, hqReadAt_eq, if_pos ha]
    exact sumSquares_present q rest _ s fun t ht => h t (by simp [ht])

/-! ### FB_init -/

/-- A queue of capacity `n` that has taken `k` zeros since it was emptied. -/
def HistoryQueue.zeros (n k : Nat) : HistoryQueue where
  mem := []
  writeIndex := k % n
  readIndex := 0
  count := k
  underflowed := false
  overflowed := false

theorem HistoryQueue.zeros_full (n : Nat) : HistoryQueue.zeros n n = HistoryQueue.reset n := by
  simp [HistoryQueue.zeros, HistoryQueue.reset]

theorem HistoryQueue.zeros_overwrite {num : NumSystem} {n k : Nat} (h : k < n) :
    (HistoryQueue.zeros n k).overwrite num n (numZero num) = HistoryQueue.zeros n (k + 1) := by
  have hk : k ≠ n := by omega
  have hw : Memory.write (unlistedNum num) [] (k % n) (numZero num) = [] := by simp [Memory.write, unlistedNum]
  simp [HistoryQueue.zeros, HistoryQueue.overwrite, hk, hw]

theorem fillZeros_eq (q : QueueId) : ∀ (k j : Nat) (s : State),
    s.queue q = .zeros (s.capacity q) j → j + k ≤ s.capacity q →
    fillZeros q k s = s.setQueue q (.zeros (s.capacity q) (j + k))
  | 0, j, s, hq, _ => by
    rw [Nat.add_zero, ← hq, State.setQueue_queue]; rfl
  | k + 1, j, s, hq, h => by
    rw [fillZeros, hqOpush_eq, hq, HistoryQueue.zeros_overwrite (by omega),
      fillZeros_eq q k (j + 1) _ (by simp) (by simp; omega)]
    simp only [State.setQueue_setQueue, State.setQueue_capacity]
    congr 2; omega

/-- A queue emptied and filled with zeros. -/
theorem fillZeros_hqInit (q : QueueId) (s : State) :
    fillZeros q (s.capacity q) (hqInit q s) = s.setQueue q (.reset (s.capacity q)) := by
  have h := fillZeros_eq q (s.capacity q) 0 (hqInit q s)
    (by simp [hqInit, HistoryQueue.zeros]) (by simp [hqInit])
  rw [h]
  simp [hqInit, HistoryQueue.zeros_full]

theorem foldl_setQueue (f : QueueId → HistoryQueue) : ∀ (l : List QueueId) (s : State),
    let t := l.foldl (fun s q => s.setQueue q (f q)) s
    t = { s with q := t.q } ∧ ∀ q, t.queue q = if q ∈ l then f q else s.queue q
  | [], s => ⟨rfl, fun q => by simp⟩
  | q :: rest, s => by
    obtain ⟨h1, h2⟩ := foldl_setQueue f rest (s.setQueue q (f q))
    refine ⟨by rw [List.foldl_cons]; exact h1, fun q' => ?_⟩
    rw [List.foldl_cons, h2, State.queue_setQueue]
    by_cases hq : q' = q
    · subst hq; simp
    · simp [hq]

theorem foldl_setPower (f : Channel → NUM) : ∀ (l : List Channel) (s : State),
    let t := l.foldl (fun s c => s.setPower c (f c)) s
    t = { s with fb := t.fb } ∧ ∀ c : Channel, t.fb.power[c] = if c ∈ l then f c else s.fb.power[c]
  | [], s => ⟨rfl, fun c => by simp⟩
  | c :: rest, s => by
    obtain ⟨h1, h2⟩ := foldl_setPower f rest (s.setPower c (f c))
    refine ⟨by rw [List.foldl_cons]; exact h1, fun d => ?_⟩
    rw [List.foldl_cons, h2, State.power_setPower]
    by_cases hd : d = c
    · subst hd; simp
    · simp [hd]

/-- FB_init: every queue full of zeros, every power 0, nothing else touched (42_filter_bank.md R191). -/
theorem fbInit_eq (s : State) : fbInit s =
    { s with q := Vector.ofFn fun q => .reset (s.capacity q), fb := .reset s.cfg.num } := by
  have hq : ∀ (l : List QueueId) (u : State), u.cfg = s.cfg →
      l.foldl (fun s q => fillZeros q (s.capacity q) (hqInit q s)) u =
        l.foldl (fun s' q => s'.setQueue q (.reset (s.capacity q))) u := by
    intro l
    induction l with
    | nil => intro u _; rfl
    | cons q rest ih =>
      intro u hu
      rw [List.foldl_cons, List.foldl_cons, fillZeros_hqInit]
      have hc : u.capacity q = s.capacity q := by simp [State.capacity, hu]
      rw [hc, ih _ (by simp [hu])]
  unfold fbInit
  simp only
  rw [hq queueIds s rfl]
  obtain ⟨h1, h2⟩ := foldl_setQueue (fun q => .reset (s.capacity q)) queueIds s
  generalize queueIds.foldl (fun s' q => s'.setQueue q (.reset (s.capacity q))) s = u at h1 h2 ⊢
  obtain ⟨h3, h4⟩ := foldl_setPower (fun _ => numZero s.cfg.num) channels u
  generalize channels.foldl (fun t c => t.setPower c (numZero s.cfg.num)) u = t at h3 h4 ⊢
  have hfb : t.fb = .reset s.cfg.num := by
    refine FilterBank.ext_power fun c => ?_
    have hc : c ∈ channels := by revert c; decide
    rw [h4, if_pos hc]
    simp [FilterBank.reset]
  have hqs : u.q = Vector.ofFn fun q => .reset (s.capacity q) := by
    ext1 i hi
    have hm : (⟨i, hi⟩ : QueueId) ∈ queueIds := by
      generalize (⟨i, hi⟩ : QueueId) = x; revert x; decide
    have := h2 ⟨i, hi⟩
    rw [if_pos hm] at this
    simpa [State.queue] using this
  rw [h3, h1, hqs, hfb]

end Sys2Proof.Machine
end

