-- ==== Sys2Proof/Laws/Step.lean ====
section
/-! SUPPORT. What a step can do, said once. -/

namespace Sys2Proof.Machine

/-! ### The front of CMD -/

theorem decodeHead_noPayload {h : Head} (hp : announcesPayload h = false) (v v' : NUM) :
    decodeHead h v = decodeHead h v' := by
  rw [announcesPayload_eq] at hp
  have : opcodeOf h < 128 := by rw [opcodeOf_eq]; simp at hp; omega
  unfold decodeHead
  split <;> first | rfl | omega

theorem takeCommand_issued (h : Head) (v : NUM) (rest : List CmdWord) :
    takeCommand (issuedWords h v ++ rest) =
      .command h (if announcesPayload h then v else noPayload) rest := by
  unfold issuedWords
  by_cases hp : announcesPayload h <;> simp [hp, takeCommand]

theorem takeCommand_eq_command {ws : List CmdWord} {h : Head} {v : NUM} {rest : List CmdWord}
    (e : takeCommand ws = .command h v rest) : ws = issuedWords h v ++ rest := by
  unfold takeCommand at e
  split at e
  · cases e
  · cases e
  · rename_i h' rest'
    unfold issuedWords
    split at e
    · rename_i hp
      split at e <;> cases e
      simp [hp]
    · rename_i hp
      cases e
      simp [hp]

theorem decodeHead_issued (h : Head) (v : NUM) :
    decodeHead h (if announcesPayload h then v else noPayload) = decodeHead h v := by
  by_cases hp : announcesPayload h
  · simp [hp]
  · exact decodeHead_noPayload (by simpa using hp) _ _

/-- No head is a TICK: TICK has no opcode (30_encoding.md R105). -/
theorem decodeHead_ne_tick {h : Head} {v : NUM} {adc : AdcCode} :
    decodeHead h v ≠ .ok (.tick adc) := by
  unfold decodeHead readZ readV12 readQ readQA readCH readCI readI8 readM10 readB1 readU16 readU24
    checkReserved
  intro h
  split at h <;> first | (split at h <;> cases h) | cases h

/-! ### What is next -/

theorem nextWork_foreground {s : State} (hf : foregroundIsNext s) :
    nextWork s = foregroundStep { s with schedule := s.schedule.tail } := by
  obtain ⟨ht, hs | ⟨rest, hs⟩⟩ := hf
  · unfold nextWork; simp only [ht, hs]; cases s; simp_all
  · unfold nextWork; simp only [ht, hs]; rfl

theorem nextWork_command {s : State} {h : Head} {v : NUM} {rest : List CmdWord} {i : Instr}
    (hf : foregroundIsNext s) (hi : s.seq.phase = .idle) (hc : s.cmd = issuedWords h v ++ rest)
    (hd : decodeHead h v = .ok i) :
    nextWork s = .run i { s with cmd := rest, schedule := s.schedule.tail } := by
  rw [nextWork_foreground hf]
  simp only [foregroundStep, hi, nextCommand, hc, takeCommand_issued, decodeHead_issued, hd]

/-- `u` is `s` but for what stands at the ports: the words on CMD, the schedule, the held TICK. -/
def SameBlock (s u : State) : Prop :=
  u = { s with
    cmd := u.cmd, schedule := u.schedule, tickPending := u.tickPending, heldTick := u.heldTick }

theorem SameBlock.refl (s : State) : SameBlock s s := rfl

theorem SameBlock.cfg {s u : State} (h : SameBlock s u) : u.cfg = s.cfg := by rw [h]
theorem SameBlock.sr {s u : State} (h : SameBlock s u) : u.sr = s.sr := by rw [h]
theorem SameBlock.q {s u : State} (h : SameBlock s u) : u.q = s.q := by rw [h]
theorem SameBlock.fb {s u : State} (h : SameBlock s u) : u.fb = s.fb := by rw [h]
theorem SameBlock.det {s u : State} (h : SameBlock s u) : u.det = s.det := by rw [h]
theorem SameBlock.lt {s u : State} (h : SameBlock s u) : u.lt = s.lt := by rw [h]
theorem SameBlock.iv {s u : State} (h : SameBlock s u) : u.iv = s.iv := by rw [h]
theorem SameBlock.tr {s u : State} (h : SameBlock s u) : u.tr = s.tr := by rw [h]
theorem SameBlock.tx {s u : State} (h : SameBlock s u) : u.tx = s.tx := by rw [h]
theorem SameBlock.seq {s u : State} (h : SameBlock s u) : u.seq = s.seq := by rw [h]
theorem SameBlock.trigIn {s u : State} (h : SameBlock s u) : u.trigIn = s.trigIn := by rw [h]
theorem SameBlock.resp {s u : State} (h : SameBlock s u) : u.resp = s.resp := by rw [h]
theorem SameBlock.diag {s u : State} (h : SameBlock s u) : u.diag = s.diag := by rw [h]
theorem SameBlock.notify {s u : State} (h : SameBlock s u) : u.notify = s.notify := by rw [h]
theorem SameBlock.freeDraws {s u : State} (h : SameBlock s u) : u.freeDraws = s.freeDraws := by rw [h]

theorem SameBlock.queue {s u : State} (h : SameBlock s u) (q : QueueId) : u.queue q = s.queue q := by
  rw [State.queue, h.q]; rfl

theorem SameBlock.capacity {s u : State} (h : SameBlock s u) (q : QueueId) :
    u.capacity q = s.capacity q := by rw [State.capacity, h.cfg]; rfl

/-- What the foreground's step can do. -/
theorem foregroundStep_cases (u : State) :
    (u.seq.phase = .idle ∧ takeCommand u.cmd = .outOfStep ∧ foregroundStep u = .stop .cmdOutOfStep) ∨
    (u.seq.phase = .idle ∧ foregroundStep u = .done u) ∨
    (u.seq.phase = .idle ∧ ∃ h v rest e, u.cmd = issuedWords h v ++ rest ∧
      decodeHead h v = .error e ∧
      foregroundStep u = .done ({ u with cmd := rest }.raise .illegalCommand h)) ∨
    (u.seq.phase = .idle ∧ ∃ h v rest i, u.cmd = issuedWords h v ++ rest ∧ decodeHead h v = .ok i ∧
      foregroundStep u = .run i { u with cmd := rest }) ∨
    (u.seq.phase = .pop ∧ foregroundStep u = .done (popStep u)) ∨
    (u.seq.phase = .filter ∧ foregroundStep u = .done (filterStep u)) ∨
    (u.seq.phase = .decide ∧ foregroundStep u = .done (decideStep u)) := by
  unfold foregroundStep
  cases u.seq.phase with
  | idle =>
    simp only [nextCommand]
    cases ht : takeCommand u.cmd with
    | nothing => simp
    | incomplete => simp
    | outOfStep => simp
    | command h v rest =>
      have hc := takeCommand_eq_command ht
      cases hd : decodeHead h v with
      | error e =>
        exact .inr (.inr (.inl ⟨trivial, h, v, rest, e, hc, hd, by simp only [hd]⟩))
      | ok i =>
        exact .inr (.inr (.inr (.inl ⟨trivial, h, v, rest, i, hc, hd, by simp only [hd]⟩)))
  | pop => exact .inr (.inr (.inr (.inr (.inl ⟨rfl, rfl⟩))))
  | filter => exact .inr (.inr (.inr (.inr (.inr (.inl ⟨rfl, rfl⟩)))))
  | decide => exact .inr (.inr (.inr (.inr (.inr (.inr ⟨rfl, rfl⟩)))))

/-- Everything a step that answers a next state `t` can have done. `u` is the state it did it from. -/
inductive StepFrom (s t : State) : Prop where
  | run (u : State) (i : Instr) (block : SameBlock s u) (next : nextWork s = .run i u)
    (result : exec i u = .next t)
    (origin : (∃ adc, i = .tick adc) ∨ (u.seq.phase = .idle ∧ ∃ h v, decodeHead h v = .ok i))
  | pop (u : State) (block : SameBlock s u) (phase : u.seq.phase = .pop) (result : t = popStep u)
  | filter (u : State) (block : SameBlock s u) (phase : u.seq.phase = .filter)
    (result : t = filterStep u)
  | decide (u : State) (block : SameBlock s u) (phase : u.seq.phase = .decide)
    (result : t = decideStep u)
  | wait (block : SameBlock s t) (phase : t.seq.phase = .idle)
  | illegal (u : State) (h : Head) (block : SameBlock s u) (phase : u.seq.phase = .idle)
    (result : t = u.raise .illegalCommand h)
  | pin (u : State) (level : Bool) (block : SameBlock s u) (result : t = { u with trigIn := level })
  | reset (u : State) (rest : List Event) (block : SameBlock s u) (pending : s.tickPending = false)
    (next : s.schedule = .reset :: rest) (result : t = hardwareReset u)

theorem stepFrom_foreground {s t u : State} (h : step s = .next t) (hu : SameBlock s u)
    (hw : nextWork s = foregroundStep u) : StepFrom s t := by
  unfold step at h
  rw [hw] at h
  rcases foregroundStep_cases u with ⟨-, -, e⟩ | ⟨hp, e⟩ | ⟨hp, hd, v, rest, er, -, -, e⟩ |
    ⟨hp, hd, v, rest, i, -, hdec, e⟩ | ⟨hp, e⟩ | ⟨hp, e⟩ | ⟨hp, e⟩ <;> rw [e] at h
  · cases h
  · cases h; exact .wait hu hp
  · cases h; exact .illegal { u with cmd := rest } hd (by rw [hu]; rfl) hp rfl
  · exact .run { u with cmd := rest } i (by rw [hu]; rfl) (hw.trans e) h (.inr ⟨hp, hd, v, hdec⟩)
  · cases h; exact .pop u hu hp rfl
  · cases h; exact .filter u hu hp rfl
  · cases h; exact .decide u hu hp rfl

theorem stepFrom_tick {s t u : State} {w : TickWord} (h : step s = .next t) (hu : SameBlock s u)
    (hw : nextWork s = .run (decodeTick w) u) : StepFrom s t := by
  unfold step at h
  rw [hw] at h
  exact .run u _ hu hw h (.inl ⟨_, rfl⟩)

theorem stepFrom_done {s t u : State} (h : step s = .next t) (hw : nextWork s = .done u) : t = u := by
  unfold step at h; rw [hw] at h; cases h; rfl

theorem nextWork_pending {s : State} (ht : s.tickPending = true) :
    nextWork s =
      .run (decodeTick s.heldTick) { s with tickPending := false, heldTick := 0 } := by
  unfold nextWork; rw [if_pos ht]; rfl

theorem nextWork_tick {s : State} {w : TickWord} {rest : List Event} (ht : s.tickPending = false)
    (hs : s.schedule = .tick w :: rest) :
    nextWork s = .run (decodeTick w) { s with schedule := rest } := by
  unfold nextWork; simp only [ht, hs]; rfl

theorem nextWork_pin {s : State} {level : Bool} {rest : List Event} (ht : s.tickPending = false)
    (hs : s.schedule = .pin level :: rest) :
    nextWork s = .done { s with schedule := rest, trigIn := level } := by
  unfold nextWork; simp only [ht, hs]; rfl

theorem nextWork_reset {s : State} {rest : List Event} (ht : s.tickPending = false)
    (hs : s.schedule = .reset :: rest) :
    nextWork s = .done (hardwareReset { s with schedule := rest }) := by
  unfold nextWork; simp only [ht, hs]; rfl

theorem nextWork_masked {s : State} {w : TickWord} {rest : List Event} (ht : s.tickPending = false)
    (hs : s.schedule = .foregroundAndTick w :: rest) (hm : irqMask s = true) :
    nextWork s = foregroundStep { s with schedule := rest, tickPending := true, heldTick := w } := by
  unfold nextWork; simp only [ht, hs, hm, if_true]; rfl

theorem nextWork_unmasked {s : State} {w : TickWord} {rest : List Event} (ht : s.tickPending = false)
    (hs : s.schedule = .foregroundAndTick w :: rest) (hm : irqMask s = false) :
    nextWork s = .run (decodeTick w) { s with schedule := .foreground :: rest } := by
  unfold nextWork; simp only [ht, hs, hm]; rfl

theorem step_cases {s t : State} (h : step s = .next t) : StepFrom s t := by
  by_cases ht : s.tickPending = true
  · exact stepFrom_tick h (by rfl) (nextWork_pending ht)
  have ht : s.tickPending = false := by simpa using ht
  have hs : s.schedule = [] ∨ ∃ e rest, s.schedule = e :: rest := by cases s.schedule <;> simp
  rcases hs with hs | ⟨e, rest, hs⟩
  · exact stepFrom_foreground h (u := { s with schedule := s.schedule.tail }) rfl
      (nextWork_foreground ⟨ht, .inl hs⟩)
  · cases e with
    | tick w => exact stepFrom_tick h (by rfl) (nextWork_tick ht hs)
    | pin level =>
      exact .pin { s with schedule := rest } level rfl (stepFrom_done h (nextWork_pin ht hs))
    | reset =>
      exact .reset { s with schedule := rest } rest rfl ht hs (stepFrom_done h (nextWork_reset ht hs))
    | foreground =>
      exact stepFrom_foreground h (u := { s with schedule := s.schedule.tail }) rfl
        (nextWork_foreground ⟨ht, .inr ⟨rest, hs⟩⟩)
    | foregroundAndTick w =>
      cases hm : irqMask s with
      | true =>
        exact stepFrom_foreground h
          (u := { s with schedule := rest, tickPending := true, heldTick := w }) rfl
          (nextWork_masked ht hs hm)
      | false => exact stepFrom_tick h (by rfl) (nextWork_unmasked ht hs hm)

end Sys2Proof.Machine
end

