-- ==== Sys2Proof/Laws/Exec.lean ====
section
/-! SUPPORT. Frames: which instructions can change each component of the state. -/

namespace Sys2Proof.Machine

/-! ### The shared operations -/

theorem withOperand_ind {α : Type} {P : State → Prop} (o : Option α) (i : Instr) (l : List Beat)
    (k : α → State → State) (s : State) (reject : P (s.rejectOperand i l))
    (run : ∀ a, o = some a → P (k a s)) : P (withOperand o i l k s) := by
  cases o with
  | none => exact reject
  | some a => exact run a rfl

/-- HQ_push changes its queue and DIAG only. -/
theorem hqPush_frame (q : QueueId) (v : NUM) (s : State) :
    hqPush q v s = { s with q := (hqPush q v s).q, diag := (hqPush q v s).diag } := by
  unfold hqPush; simp only; split <;> rfl

/-- HQ_pop changes its queue and DIAG only. -/
theorem hqPop_frame (q : QueueId) (s : State) :
    (hqPop q s).2 = { s with q := (hqPop q s).2.q, diag := (hqPop q s).2.diag } := by
  unfold hqPop; simp only; split <;> rfl

/-- HQ_opush changes its queue only. -/
theorem hqOpush_frame (q : QueueId) (v : NUM) (s : State) :
    hqOpush q v s = { s with q := (hqOpush q v s).q } := by
  rw [hqOpush_eq]; rfl

/-- HQ_readAt changes DIAG only. -/
theorem hqReadAt_frame (q : QueueId) (age : Nat) (s : State) :
    (hqReadAt q age s).2 = { s with diag := (hqReadAt q age s).2.diag } := by
  unfold hqReadAt; simp only; split <;> rfl

/-- FB_recompute reads ages that are all there, so it changes one power only. -/
theorem fbRecompute_eq (c : Channel) (s : State) : fbRecompute c s = s.setPower c
    ((List.range (s.queue (queueP c)).count).foldl (fun acc a => numAdd s.cfg.num acc
      (numMul s.cfg.num ((queueContents s (queueP c)).getD a (numZero s.cfg.num))
        ((queueContents s (queueP c)).getD a (numZero s.cfg.num))))
      (numZero s.cfg.num)) := by
  unfold fbRecompute
  rw [sumSquares_present _ _ _ _ fun a ha => List.mem_range.1 ha]

/-- IV_tick changes the InvincibilityTimer and the active ignore set only. -/
theorem ivTick_frame (s : State) : ivTick s =
    { s with iv := (ivTick s).iv, det := { s.det with ignored := (ivTick s).det.ignored } } := by
  simp only [ivTick, ivTransition, detIgnoreAll]
  split <;> split <;> rfl

/-- `r` with what the Trigger reads and writes taken from `s`. -/
def State.embedTrigger (r s : State) : State :=
  { r with cfg := s.cfg, tr := s.tr, tx := s.tx, trigIn := s.trigIn, notify := s.notify }

theorem trFire_embed (r s : State) : trFire (r.embedTrigger s) = r.embedTrigger (trFire s) := by
  have : (r.embedTrigger s).tr = s.tr := rfl
  unfold trFire
  rw [this]
  split <;> rfl

theorem trTransition_embed (p : Bool) (r s : State) :
    trTransition p (r.embedTrigger s) = r.embedTrigger (trTransition p s) := by
  have h1 : (r.embedTrigger s).tr = s.tr := rfl
  have h2 : (r.embedTrigger s).cfg = s.cfg := rfl
  unfold trTransition
  rw [h1, h2]
  cases hs : s.tr.state with
  | idle => cases p <;> rfl
  | pressDebounce =>
    cases p with
    | false => rfl
    | true =>
      by_cases hd : s.cfg.debounceTicks ≤ s.tr.elapsedTicks.toNat
      · simp only [hd, if_true, Bool.not_true]
        exact trFire_embed r { s with
          tr := { s.tr with state := .releaseDebounce, elapsedTicks := 0, holdTicks := 0 } }
      · simp only [hd, if_false, Bool.not_true]; rfl
  | releaseDebounce =>
    cases p with
    | true =>
      by_cases hd : s.cfg.reloadHoldTicks ≤ s.tr.holdTicks.toNat
      · simp only [hd, if_true]; rfl
      · simp only [hd, if_true, if_false]; rfl
    | false =>
      by_cases hd : s.cfg.debounceTicks ≤ s.tr.elapsedTicks.toNat
      · simp only [hd]; rfl
      · simp only [hd]; rfl

/-- TR_tick reads and writes only the Trigger, the Transmitter, `trig_in`, NOTIFY and the parameters. -/
theorem trTick_embed (r s : State) : trTick (r.embedTrigger s) = r.embedTrigger (trTick s) := by
  have h1 : (r.embedTrigger s).tr = s.tr := rfl
  have h2 : triggerPressed (r.embedTrigger s) = triggerPressed s := rfl
  unfold trTick
  rw [h1, h2]
  split
  · simp only [trTransition_embed]; rfl
  · rfl

theorem trTransition_frame (p : Bool) (s : State) : trTransition p s =
    { s with
      tr := (trTransition p s).tr
      tx := { s.tx with startRequested := (trTransition p s).tx.startRequested }
      notify := (trTransition p s).notify } := by
  unfold trTransition
  cases hs : s.tr.state with
  | idle => cases p <;> rfl
  | pressDebounce =>
    cases p with
    | false => rfl
    | true =>
      by_cases hd : s.cfg.debounceTicks ≤ s.tr.elapsedTicks.toNat
      · by_cases hn : 0 < s.tr.remainingShotCount.toNat
        · simp only [hd, hn, trFire, if_true, Bool.not_true]; rfl
        · simp only [hd, hn, trFire, if_true, if_false, Bool.not_true]; rfl
      · simp only [hd, if_false, Bool.not_true]; rfl
  | releaseDebounce =>
    cases p with
    | true =>
      by_cases hd : s.cfg.reloadHoldTicks ≤ s.tr.holdTicks.toNat
      · simp only [hd, if_true]; rfl
      · simp only [hd, if_true, if_false]
    | false =>
      by_cases hd : s.cfg.debounceTicks ≤ s.tr.elapsedTicks.toNat
      · simp only [hd]; rfl
      · simp only [hd]; rfl

/-- TR_tick changes the Trigger, the Transmitter's request and NOTIFY only. -/
theorem trTick_frame (s : State) : trTick s =
    { s with
      tr := (trTick s).tr
      tx := { s.tx with startRequested := (trTick s).tx.startRequested }
      notify := (trTick s).notify } := by
  unfold trTick
  split
  · simp only
    have h := trTransition_frame (triggerPressed s) s
    generalize trTransition (triggerPressed s) s = t at h ⊢
    rw [h]
  · rfl

/-- `r` with what the InvincibilityTimer reads and writes taken from `s`. -/
def State.embedInvincibility (r s : State) : State := { r with iv := s.iv, det := s.det }

/-- IV_tick reads and writes only the InvincibilityTimer and the Detector's ignore sets. -/
theorem ivTick_embed (r s : State) :
    ivTick (r.embedInvincibility s) = r.embedInvincibility (ivTick s) := by
  have h1 : (r.embedInvincibility s).iv = s.iv := rfl
  have : ivTransition (r.embedInvincibility s) = r.embedInvincibility (ivTransition s) := by
    unfold ivTransition
    rw [h1]
    cases s.iv.state with
    | idle => simp only; split <;> rfl
    | active => simp only; split <;> rfl
  unfold ivTick
  simp only [this]
  rfl

/-- The producer side of a TICK changes SampleRing and the count of free draws only. -/
theorem tickPush_frame (adc : AdcCode) (s : State) : tickPush adc s =
    { s with sr := (tickPush adc s).sr, freeDraws := (tickPush adc s).freeDraws } := by
  unfold tickPush; split <;> rfl

/-- A TICK changes SampleRing, the four timers, the active ignore set and NOTIFY only (60_exceptions.md
R343), and the count of free draws (log 9). -/
theorem takeTick_frame (adc : AdcCode) (s : State) : takeTick adc s =
    { s with
      sr := (tickPush adc s).sr
      lt := (ltTick s).lt
      iv := (ivTick s).iv
      tr := (trTick s).tr
      tx := (txTick (trTick s)).tx
      notify := (trTick s).notify
      det := { s.det with ignored := (ivTick s).det.ignored }
      freeDraws := (tickPush adc s).freeDraws } := by
  have e0 : (trTick s).cfg = s.cfg := by rw [trTick_frame]
  unfold takeTick txTick
  simp only [e0]
  have e1 := tickPush_frame adc s
  generalize tickPush adc s = a at e1 ⊢
  have e2 : ltTick a = { a with lt := (ltTick s).lt } := by rw [e1]; rfl
  have e3 : ivTick (ltTick a) = { ltTick a with
      iv := (ivTick s).iv, det := { s.det with ignored := (ivTick s).det.ignored } } := by
    have h : ltTick a = (ltTick a).embedInvincibility s := by rw [e2, e1]; rfl
    rw [h, ivTick_embed, ivTick_frame s]; rfl
  have e4 : trTick (ivTick (ltTick a)) = { ivTick (ltTick a) with
      tr := (trTick s).tr, tx := (trTick s).tx, notify := (trTick s).notify } := by
    have h : ivTick (ltTick a) = (ivTick (ltTick a)).embedTrigger s := by rw [e3, e2, e1]; rfl
    rw [h, trTick_embed, trTick_frame s]; rfl
  rw [e4, e3, e2, e1]

/-! ### The instructions -/

/-- No instruction changes the configuration. -/
theorem exec_cfg {i : Instr} {u t : State} (h : exec i u = .next t) :
    t.cfg = u.cfg := by
  cases i <;> (unfold exec at h; injection h with h; subst h)
  case detInit => show (detInit u).cfg = _; simp only [detInit, fbInit_eq]
  case srPop => show (srPop u).2.cfg = _; rw [srPop_frame]
  case ivTick => show (ivTick u).cfg = _; rw [ivTick_frame]
  case trTick => show (trTick u).cfg = _; rw [trTick_frame]
  case tick => show (takeTick _ u).cfg = _; rw [takeTick_frame]
  case hqPush =>
    exact withOperand_ind (P := fun t => t.cfg = u.cfg) _ _ _ _ _ rfl fun a _ => by rw [hqPush_frame]
  case hqPop =>
    exact withOperand_ind (P := fun t => t.cfg = u.cfg) _ _ _ _ _ rfl fun a _ => by show (hqPop a u).2.cfg = _; rw [hqPop_frame]
  case hqOpush =>
    exact withOperand_ind (P := fun t => t.cfg = u.cfg) _ _ _ _ _ rfl fun a _ => by rw [hqOpush_frame]
  case hqReadat =>
    exact withOperand_ind (P := fun t => t.cfg = u.cfg) _ _ _ _ _ rfl fun a _ => by show (hqReadAt a _ u).2.cfg = _; rw [hqReadAt_frame]
  case hqInit =>
    exact withOperand_ind (P := fun t => t.cfg = u.cfg) _ _ _ _ _ rfl fun a _ => rfl
  case fbRecompute =>
    exact withOperand_ind (P := fun t => t.cfg = u.cfg) _ _ _ _ _ rfl fun a _ => by rw [fbRecompute_eq]; rfl
  case txSetfreq =>
    exact withOperand_ind (P := fun t => t.cfg = u.cfg) _ _ _ _ _ rfl fun a _ => rfl
  all_goals first
    | rfl
    | (simp; done)
    | exact withOperand_ind (P := fun t => t.cfg = u.cfg) _ _ _ _ _ rfl fun a _ => rfl

/-- The SampleRing commands and TICK change SampleRing. -/
theorem exec_sr {i : Instr} {u t : State} (h : exec i u = .next t) :
    t.sr = u.sr ∨
    i = .srInit ∨ (∃ v, i = .srPush v) ∨ i = .srPop ∨ ∃ adc, i = .tick adc := by
  cases i <;> (unfold exec at h; injection h with h; subst h)
  case detInit => left; show (detInit u).sr = _; simp only [detInit, fbInit_eq]
  case srPop => simp
  case ivTick => left; show (ivTick u).sr = _; rw [ivTick_frame]
  case trTick => left; show (trTick u).sr = _; rw [trTick_frame]
  case tick => simp
  case hqPush =>
    left; exact withOperand_ind (P := fun t => t.sr = u.sr) _ _ _ _ _ rfl fun a _ => by rw [hqPush_frame]
  case hqPop =>
    left; exact withOperand_ind (P := fun t => t.sr = u.sr) _ _ _ _ _ rfl fun a _ => by show (hqPop a u).2.sr = _; rw [hqPop_frame]
  case hqOpush =>
    left; exact withOperand_ind (P := fun t => t.sr = u.sr) _ _ _ _ _ rfl fun a _ => by rw [hqOpush_frame]
  case hqReadat =>
    left; exact withOperand_ind (P := fun t => t.sr = u.sr) _ _ _ _ _ rfl fun a _ => by show (hqReadAt a _ u).2.sr = _; rw [hqReadAt_frame]
  case hqInit =>
    left; exact withOperand_ind (P := fun t => t.sr = u.sr) _ _ _ _ _ rfl fun a _ => rfl
  case fbRecompute =>
    left; exact withOperand_ind (P := fun t => t.sr = u.sr) _ _ _ _ _ rfl fun a _ => by rw [fbRecompute_eq]; rfl
  case txSetfreq =>
    left; exact withOperand_ind (P := fun t => t.sr = u.sr) _ _ _ _ _ rfl fun a _ => rfl
  all_goals first
    | exact .inl rfl
    | (simp; done)
    | refine .inl ?_; exact withOperand_ind (P := fun t => t.sr = u.sr) _ _ _ _ _ rfl fun a _ => rfl

/-- The four mutators and DET_INIT change a queue. -/
theorem exec_q {i : Instr} {u t : State} (h : exec i u = .next t) :
    t.q = u.q ∨
    (∃ q, i = .hqInit q) ∨ (∃ q v, i = .hqPush q v) ∨ (∃ q, i = .hqPop q) ∨ (∃ q v, i = .hqOpush q v) ∨ i = .detInit := by
  cases i <;> (unfold exec at h; injection h with h; subst h)
  case detInit => simp
  case srPop => left; show (srPop u).2.q = _; rw [srPop_frame]
  case ivTick => left; show (ivTick u).q = _; rw [ivTick_frame]
  case trTick => left; show (trTick u).q = _; rw [trTick_frame]
  case tick => left; show (takeTick _ u).q = _; rw [takeTick_frame]
  case hqPush => simp
  case hqPop => simp
  case hqOpush => simp
  case hqReadat =>
    left; exact withOperand_ind (P := fun t => t.q = u.q) _ _ _ _ _ rfl fun a _ => by show (hqReadAt a _ u).2.q = _; rw [hqReadAt_frame]
  case hqInit => simp
  case fbRecompute =>
    left; exact withOperand_ind (P := fun t => t.q = u.q) _ _ _ _ _ rfl fun a _ => by rw [fbRecompute_eq]; rfl
  case txSetfreq =>
    left; exact withOperand_ind (P := fun t => t.q = u.q) _ _ _ _ _ rfl fun a _ => rfl
  all_goals first
    | exact .inl rfl
    | (simp; done)
    | refine .inl ?_; exact withOperand_ind (P := fun t => t.q = u.q) _ _ _ _ _ rfl fun a _ => rfl

/-- FB_RECOMPUTE and DET_INIT change a power. -/
theorem exec_fb {i : Instr} {u t : State} (h : exec i u = .next t) :
    t.fb = u.fb ∨
    (∃ ch, i = .fbRecompute ch) ∨ i = .detInit := by
  cases i <;> (unfold exec at h; injection h with h; subst h)
  case detInit => simp
  case srPop => left; show (srPop u).2.fb = _; rw [srPop_frame]
  case ivTick => left; show (ivTick u).fb = _; rw [ivTick_frame]
  case trTick => left; show (trTick u).fb = _; rw [trTick_frame]
  case tick => left; show (takeTick _ u).fb = _; rw [takeTick_frame]
  case hqPush =>
    left; exact withOperand_ind (P := fun t => t.fb = u.fb) _ _ _ _ _ rfl fun a _ => by rw [hqPush_frame]
  case hqPop =>
    left; exact withOperand_ind (P := fun t => t.fb = u.fb) _ _ _ _ _ rfl fun a _ => by show (hqPop a u).2.fb = _; rw [hqPop_frame]
  case hqOpush =>
    left; exact withOperand_ind (P := fun t => t.fb = u.fb) _ _ _ _ _ rfl fun a _ => by rw [hqOpush_frame]
  case hqReadat =>
    left; exact withOperand_ind (P := fun t => t.fb = u.fb) _ _ _ _ _ rfl fun a _ => by show (hqReadAt a _ u).2.fb = _; rw [hqReadAt_frame]
  case hqInit =>
    left; exact withOperand_ind (P := fun t => t.fb = u.fb) _ _ _ _ _ rfl fun a _ => rfl
  case fbRecompute => simp
  case txSetfreq =>
    left; exact withOperand_ind (P := fun t => t.fb = u.fb) _ _ _ _ _ rfl fun a _ => rfl
  all_goals first
    | exact .inl rfl
    | (simp; done)
    | refine .inl ?_; exact withOperand_ind (P := fun t => t.fb = u.fb) _ _ _ _ _ rfl fun a _ => rfl

/-- Six Detector commands, IV_TICK and TICK change the Detector. -/
theorem exec_det {i : Instr} {u t : State} (h : exec i u = .next t) :
    t.det = u.det ∨
    i = .detInit ∨ (∃ m, i = .detSetign m) ∨ (∃ b, i = .detRun b) ∨ i = .detClearhit ∨ (∃ b, i = .detIgnall b) ∨ (∃ f, i = .detSetfudge f) ∨ i = .ivTick ∨ ∃ adc, i = .tick adc := by
  cases i <;> (unfold exec at h; injection h with h; subst h)
  case detInit => simp
  case srPop => left; show (srPop u).2.det = _; rw [srPop_frame]
  case ivTick => simp
  case trTick => left; show (trTick u).det = _; rw [trTick_frame]
  case tick => simp
  case hqPush =>
    left; exact withOperand_ind (P := fun t => t.det = u.det) _ _ _ _ _ rfl fun a _ => by rw [hqPush_frame]
  case hqPop =>
    left; exact withOperand_ind (P := fun t => t.det = u.det) _ _ _ _ _ rfl fun a _ => by show (hqPop a u).2.det = _; rw [hqPop_frame]
  case hqOpush =>
    left; exact withOperand_ind (P := fun t => t.det = u.det) _ _ _ _ _ rfl fun a _ => by rw [hqOpush_frame]
  case hqReadat =>
    left; exact withOperand_ind (P := fun t => t.det = u.det) _ _ _ _ _ rfl fun a _ => by show (hqReadAt a _ u).2.det = _; rw [hqReadAt_frame]
  case hqInit =>
    left; exact withOperand_ind (P := fun t => t.det = u.det) _ _ _ _ _ rfl fun a _ => rfl
  case fbRecompute =>
    left; exact withOperand_ind (P := fun t => t.det = u.det) _ _ _ _ _ rfl fun a _ => by rw [fbRecompute_eq]; rfl
  case txSetfreq =>
    left; exact withOperand_ind (P := fun t => t.det = u.det) _ _ _ _ _ rfl fun a _ => rfl
  all_goals first
    | exact .inl rfl
    | (simp; done)
    | refine .inl ?_; exact withOperand_ind (P := fun t => t.det = u.det) _ _ _ _ _ rfl fun a _ => rfl

/-- Three LockoutTimer commands and TICK change LockoutTimer. -/
theorem exec_lt {i : Instr} {u t : State} (h : exec i u = .next t) :
    t.lt = u.lt ∨
    i = .ltInit ∨ i = .ltStart ∨ i = .ltTick ∨ ∃ adc, i = .tick adc := by
  cases i <;> (unfold exec at h; injection h with h; subst h)
  case detInit => left; show (detInit u).lt = _; simp only [detInit, fbInit_eq]
  case srPop => left; show (srPop u).2.lt = _; rw [srPop_frame]
  case ivTick => left; show (ivTick u).lt = _; rw [ivTick_frame]
  case trTick => left; show (trTick u).lt = _; rw [trTick_frame]
  case tick => simp
  case hqPush =>
    left; exact withOperand_ind (P := fun t => t.lt = u.lt) _ _ _ _ _ rfl fun a _ => by rw [hqPush_frame]
  case hqPop =>
    left; exact withOperand_ind (P := fun t => t.lt = u.lt) _ _ _ _ _ rfl fun a _ => by show (hqPop a u).2.lt = _; rw [hqPop_frame]
  case hqOpush =>
    left; exact withOperand_ind (P := fun t => t.lt = u.lt) _ _ _ _ _ rfl fun a _ => by rw [hqOpush_frame]
  case hqReadat =>
    left; exact withOperand_ind (P := fun t => t.lt = u.lt) _ _ _ _ _ rfl fun a _ => by show (hqReadAt a _ u).2.lt = _; rw [hqReadAt_frame]
  case hqInit =>
    left; exact withOperand_ind (P := fun t => t.lt = u.lt) _ _ _ _ _ rfl fun a _ => rfl
  case fbRecompute =>
    left; exact withOperand_ind (P := fun t => t.lt = u.lt) _ _ _ _ _ rfl fun a _ => by rw [fbRecompute_eq]; rfl
  case txSetfreq =>
    left; exact withOperand_ind (P := fun t => t.lt = u.lt) _ _ _ _ _ rfl fun a _ => rfl
  all_goals first
    | exact .inl rfl
    | (simp; done)
    | refine .inl ?_; exact withOperand_ind (P := fun t => t.lt = u.lt) _ _ _ _ _ rfl fun a _ => rfl

/-- Three InvincibilityTimer commands and TICK change InvincibilityTimer. -/
theorem exec_iv {i : Instr} {u t : State} (h : exec i u = .next t) :
    t.iv = u.iv ∨
    i = .ivInit ∨ (∃ d, i = .ivStart d) ∨ i = .ivTick ∨ ∃ adc, i = .tick adc := by
  cases i <;> (unfold exec at h; injection h with h; subst h)
  case detInit => left; show (detInit u).iv = _; simp only [detInit, fbInit_eq]
  case srPop => left; show (srPop u).2.iv = _; rw [srPop_frame]
  case ivTick => simp
  case trTick => left; show (trTick u).iv = _; rw [trTick_frame]
  case tick => simp
  case hqPush =>
    left; exact withOperand_ind (P := fun t => t.iv = u.iv) _ _ _ _ _ rfl fun a _ => by rw [hqPush_frame]
  case hqPop =>
    left; exact withOperand_ind (P := fun t => t.iv = u.iv) _ _ _ _ _ rfl fun a _ => by show (hqPop a u).2.iv = _; rw [hqPop_frame]
  case hqOpush =>
    left; exact withOperand_ind (P := fun t => t.iv = u.iv) _ _ _ _ _ rfl fun a _ => by rw [hqOpush_frame]
  case hqReadat =>
    left; exact withOperand_ind (P := fun t => t.iv = u.iv) _ _ _ _ _ rfl fun a _ => by show (hqReadAt a _ u).2.iv = _; rw [hqReadAt_frame]
  case hqInit =>
    left; exact withOperand_ind (P := fun t => t.iv = u.iv) _ _ _ _ _ rfl fun a _ => rfl
  case fbRecompute =>
    left; exact withOperand_ind (P := fun t => t.iv = u.iv) _ _ _ _ _ rfl fun a _ => by rw [fbRecompute_eq]; rfl
  case txSetfreq =>
    left; exact withOperand_ind (P := fun t => t.iv = u.iv) _ _ _ _ _ rfl fun a _ => rfl
  all_goals first
    | exact .inl rfl
    | (simp; done)
    | refine .inl ?_; exact withOperand_ind (P := fun t => t.iv = u.iv) _ _ _ _ _ rfl fun a _ => rfl

/-- Seven Trigger commands and TICK change Trigger. -/
theorem exec_tr {i : Instr} {u t : State} (h : exec i u = .next t) :
    t.tr = u.tr ∨
    i = .trInit ∨ i = .trStart ∨ i = .trTick ∨ i = .trEnable ∨ i = .trDisable ∨ (∃ n, i = .trSetshots n) ∨ i = .trReload ∨ ∃ adc, i = .tick adc := by
  cases i <;> (unfold exec at h; injection h with h; subst h)
  case detInit => left; show (detInit u).tr = _; simp only [detInit, fbInit_eq]
  case srPop => left; show (srPop u).2.tr = _; rw [srPop_frame]
  case ivTick => left; show (ivTick u).tr = _; rw [ivTick_frame]
  case trTick => simp
  case tick => simp
  case hqPush =>
    left; exact withOperand_ind (P := fun t => t.tr = u.tr) _ _ _ _ _ rfl fun a _ => by rw [hqPush_frame]
  case hqPop =>
    left; exact withOperand_ind (P := fun t => t.tr = u.tr) _ _ _ _ _ rfl fun a _ => by show (hqPop a u).2.tr = _; rw [hqPop_frame]
  case hqOpush =>
    left; exact withOperand_ind (P := fun t => t.tr = u.tr) _ _ _ _ _ rfl fun a _ => by rw [hqOpush_frame]
  case hqReadat =>
    left; exact withOperand_ind (P := fun t => t.tr = u.tr) _ _ _ _ _ rfl fun a _ => by show (hqReadAt a _ u).2.tr = _; rw [hqReadAt_frame]
  case hqInit =>
    left; exact withOperand_ind (P := fun t => t.tr = u.tr) _ _ _ _ _ rfl fun a _ => rfl
  case fbRecompute =>
    left; exact withOperand_ind (P := fun t => t.tr = u.tr) _ _ _ _ _ rfl fun a _ => by rw [fbRecompute_eq]; rfl
  case txSetfreq =>
    left; exact withOperand_ind (P := fun t => t.tr = u.tr) _ _ _ _ _ rfl fun a _ => rfl
  all_goals first
    | exact .inl rfl
    | (simp; done)
    | refine .inl ?_; exact withOperand_ind (P := fun t => t.tr = u.tr) _ _ _ _ _ rfl fun a _ => rfl

/-- Five Transmitter commands, TR_TICK and TICK change Transmitter. -/
theorem exec_tx {i : Instr} {u t : State} (h : exec i u = .next t) :
    t.tx = u.tx ∨
    i = .txInit ∨ i = .txStart ∨ i = .txTick ∨ (∃ ch, i = .txSetfreq ch) ∨ (∃ b, i = .txSetcont b) ∨ i = .trTick ∨ ∃ adc, i = .tick adc := by
  cases i <;> (unfold exec at h; injection h with h; subst h)
  case detInit => left; show (detInit u).tx = _; simp only [detInit, fbInit_eq]
  case srPop => left; show (srPop u).2.tx = _; rw [srPop_frame]
  case ivTick => left; show (ivTick u).tx = _; rw [ivTick_frame]
  case trTick => simp
  case tick => simp
  case hqPush =>
    left; exact withOperand_ind (P := fun t => t.tx = u.tx) _ _ _ _ _ rfl fun a _ => by rw [hqPush_frame]
  case hqPop =>
    left; exact withOperand_ind (P := fun t => t.tx = u.tx) _ _ _ _ _ rfl fun a _ => by show (hqPop a u).2.tx = _; rw [hqPop_frame]
  case hqOpush =>
    left; exact withOperand_ind (P := fun t => t.tx = u.tx) _ _ _ _ _ rfl fun a _ => by rw [hqOpush_frame]
  case hqReadat =>
    left; exact withOperand_ind (P := fun t => t.tx = u.tx) _ _ _ _ _ rfl fun a _ => by show (hqReadAt a _ u).2.tx = _; rw [hqReadAt_frame]
  case hqInit =>
    left; exact withOperand_ind (P := fun t => t.tx = u.tx) _ _ _ _ _ rfl fun a _ => rfl
  case fbRecompute =>
    left; exact withOperand_ind (P := fun t => t.tx = u.tx) _ _ _ _ _ rfl fun a _ => by rw [fbRecompute_eq]; rfl
  case txSetfreq => simp
  all_goals first
    | exact .inl rfl
    | (simp; done)
    | refine .inl ?_; exact withOperand_ind (P := fun t => t.tx = u.tx) _ _ _ _ _ rfl fun a _ => rfl

/-- DET_RUN alone writes the sequencer. -/
theorem exec_seq {i : Instr} {u t : State} (h : exec i u = .next t) :
    t.seq = u.seq ∨
    ∃ b, i = .detRun b := by
  cases i <;> (unfold exec at h; injection h with h; subst h)
  case detInit => left; show (detInit u).seq = _; simp only [detInit, fbInit_eq]
  case srPop => left; show (srPop u).2.seq = _; rw [srPop_frame]
  case ivTick => left; show (ivTick u).seq = _; rw [ivTick_frame]
  case trTick => left; show (trTick u).seq = _; rw [trTick_frame]
  case tick => left; show (takeTick _ u).seq = _; rw [takeTick_frame]
  case hqPush =>
    left; exact withOperand_ind (P := fun t => t.seq = u.seq) _ _ _ _ _ rfl fun a _ => by rw [hqPush_frame]
  case hqPop =>
    left; exact withOperand_ind (P := fun t => t.seq = u.seq) _ _ _ _ _ rfl fun a _ => by show (hqPop a u).2.seq = _; rw [hqPop_frame]
  case hqOpush =>
    left; exact withOperand_ind (P := fun t => t.seq = u.seq) _ _ _ _ _ rfl fun a _ => by rw [hqOpush_frame]
  case hqReadat =>
    left; exact withOperand_ind (P := fun t => t.seq = u.seq) _ _ _ _ _ rfl fun a _ => by show (hqReadAt a _ u).2.seq = _; rw [hqReadAt_frame]
  case hqInit =>
    left; exact withOperand_ind (P := fun t => t.seq = u.seq) _ _ _ _ _ rfl fun a _ => rfl
  case fbRecompute =>
    left; exact withOperand_ind (P := fun t => t.seq = u.seq) _ _ _ _ _ rfl fun a _ => by rw [fbRecompute_eq]; rfl
  case txSetfreq =>
    left; exact withOperand_ind (P := fun t => t.seq = u.seq) _ _ _ _ _ rfl fun a _ => rfl
  all_goals first
    | exact .inl rfl
    | (simp; done)
    | refine .inl ?_; exact withOperand_ind (P := fun t => t.seq = u.seq) _ _ _ _ _ rfl fun a _ => rfl

/-- No instruction changes the words on CMD. -/
theorem exec_cmd {i : Instr} {u t : State} (h : exec i u = .next t) :
    t.cmd = u.cmd := by
  cases i <;> (unfold exec at h; injection h with h; subst h)
  case detInit => show (detInit u).cmd = _; simp only [detInit, fbInit_eq]
  case srPop => show (srPop u).2.cmd = _; rw [srPop_frame]
  case ivTick => show (ivTick u).cmd = _; rw [ivTick_frame]
  case trTick => show (trTick u).cmd = _; rw [trTick_frame]
  case tick => show (takeTick _ u).cmd = _; rw [takeTick_frame]
  case hqPush =>
    exact withOperand_ind (P := fun t => t.cmd = u.cmd) _ _ _ _ _ rfl fun a _ => by rw [hqPush_frame]
  case hqPop =>
    exact withOperand_ind (P := fun t => t.cmd = u.cmd) _ _ _ _ _ rfl fun a _ => by show (hqPop a u).2.cmd = _; rw [hqPop_frame]
  case hqOpush =>
    exact withOperand_ind (P := fun t => t.cmd = u.cmd) _ _ _ _ _ rfl fun a _ => by rw [hqOpush_frame]
  case hqReadat =>
    exact withOperand_ind (P := fun t => t.cmd = u.cmd) _ _ _ _ _ rfl fun a _ => by show (hqReadAt a _ u).2.cmd = _; rw [hqReadAt_frame]
  case hqInit =>
    exact withOperand_ind (P := fun t => t.cmd = u.cmd) _ _ _ _ _ rfl fun a _ => rfl
  case fbRecompute =>
    exact withOperand_ind (P := fun t => t.cmd = u.cmd) _ _ _ _ _ rfl fun a _ => by rw [fbRecompute_eq]; rfl
  case txSetfreq =>
    exact withOperand_ind (P := fun t => t.cmd = u.cmd) _ _ _ _ _ rfl fun a _ => rfl
  all_goals first
    | rfl
    | (simp; done)
    | exact withOperand_ind (P := fun t => t.cmd = u.cmd) _ _ _ _ _ rfl fun a _ => rfl

/-- No instruction changes the schedule. -/
theorem exec_schedule {i : Instr} {u t : State} (h : exec i u = .next t) :
    t.schedule = u.schedule := by
  cases i <;> (unfold exec at h; injection h with h; subst h)
  case detInit => show (detInit u).schedule = _; simp only [detInit, fbInit_eq]
  case srPop => show (srPop u).2.schedule = _; rw [srPop_frame]
  case ivTick => show (ivTick u).schedule = _; rw [ivTick_frame]
  case trTick => show (trTick u).schedule = _; rw [trTick_frame]
  case tick => show (takeTick _ u).schedule = _; rw [takeTick_frame]
  case hqPush =>
    exact withOperand_ind (P := fun t => t.schedule = u.schedule) _ _ _ _ _ rfl fun a _ => by rw [hqPush_frame]
  case hqPop =>
    exact withOperand_ind (P := fun t => t.schedule = u.schedule) _ _ _ _ _ rfl fun a _ => by show (hqPop a u).2.schedule = _; rw [hqPop_frame]
  case hqOpush =>
    exact withOperand_ind (P := fun t => t.schedule = u.schedule) _ _ _ _ _ rfl fun a _ => by rw [hqOpush_frame]
  case hqReadat =>
    exact withOperand_ind (P := fun t => t.schedule = u.schedule) _ _ _ _ _ rfl fun a _ => by show (hqReadAt a _ u).2.schedule = _; rw [hqReadAt_frame]
  case hqInit =>
    exact withOperand_ind (P := fun t => t.schedule = u.schedule) _ _ _ _ _ rfl fun a _ => rfl
  case fbRecompute =>
    exact withOperand_ind (P := fun t => t.schedule = u.schedule) _ _ _ _ _ rfl fun a _ => by rw [fbRecompute_eq]; rfl
  case txSetfreq =>
    exact withOperand_ind (P := fun t => t.schedule = u.schedule) _ _ _ _ _ rfl fun a _ => rfl
  all_goals first
    | rfl
    | (simp; done)
    | exact withOperand_ind (P := fun t => t.schedule = u.schedule) _ _ _ _ _ rfl fun a _ => rfl

/-- No instruction changes the pending bit. -/
theorem exec_tickPending {i : Instr} {u t : State} (h : exec i u = .next t) :
    t.tickPending = u.tickPending := by
  cases i <;> (unfold exec at h; injection h with h; subst h)
  case detInit => show (detInit u).tickPending = _; simp only [detInit, fbInit_eq]
  case srPop => show (srPop u).2.tickPending = _; rw [srPop_frame]
  case ivTick => show (ivTick u).tickPending = _; rw [ivTick_frame]
  case trTick => show (trTick u).tickPending = _; rw [trTick_frame]
  case tick => show (takeTick _ u).tickPending = _; rw [takeTick_frame]
  case hqPush =>
    exact withOperand_ind (P := fun t => t.tickPending = u.tickPending) _ _ _ _ _ rfl fun a _ => by rw [hqPush_frame]
  case hqPop =>
    exact withOperand_ind (P := fun t => t.tickPending = u.tickPending) _ _ _ _ _ rfl fun a _ => by show (hqPop a u).2.tickPending = _; rw [hqPop_frame]
  case hqOpush =>
    exact withOperand_ind (P := fun t => t.tickPending = u.tickPending) _ _ _ _ _ rfl fun a _ => by rw [hqOpush_frame]
  case hqReadat =>
    exact withOperand_ind (P := fun t => t.tickPending = u.tickPending) _ _ _ _ _ rfl fun a _ => by show (hqReadAt a _ u).2.tickPending = _; rw [hqReadAt_frame]
  case hqInit =>
    exact withOperand_ind (P := fun t => t.tickPending = u.tickPending) _ _ _ _ _ rfl fun a _ => rfl
  case fbRecompute =>
    exact withOperand_ind (P := fun t => t.tickPending = u.tickPending) _ _ _ _ _ rfl fun a _ => by rw [fbRecompute_eq]; rfl
  case txSetfreq =>
    exact withOperand_ind (P := fun t => t.tickPending = u.tickPending) _ _ _ _ _ rfl fun a _ => rfl
  all_goals first
    | rfl
    | (simp; done)
    | exact withOperand_ind (P := fun t => t.tickPending = u.tickPending) _ _ _ _ _ rfl fun a _ => rfl

/-- No instruction changes the held TICK word. -/
theorem exec_heldTick {i : Instr} {u t : State} (h : exec i u = .next t) :
    t.heldTick = u.heldTick := by
  cases i <;> (unfold exec at h; injection h with h; subst h)
  case detInit => show (detInit u).heldTick = _; simp only [detInit, fbInit_eq]
  case srPop => show (srPop u).2.heldTick = _; rw [srPop_frame]
  case ivTick => show (ivTick u).heldTick = _; rw [ivTick_frame]
  case trTick => show (trTick u).heldTick = _; rw [trTick_frame]
  case tick => show (takeTick _ u).heldTick = _; rw [takeTick_frame]
  case hqPush =>
    exact withOperand_ind (P := fun t => t.heldTick = u.heldTick) _ _ _ _ _ rfl fun a _ => by rw [hqPush_frame]
  case hqPop =>
    exact withOperand_ind (P := fun t => t.heldTick = u.heldTick) _ _ _ _ _ rfl fun a _ => by show (hqPop a u).2.heldTick = _; rw [hqPop_frame]
  case hqOpush =>
    exact withOperand_ind (P := fun t => t.heldTick = u.heldTick) _ _ _ _ _ rfl fun a _ => by rw [hqOpush_frame]
  case hqReadat =>
    exact withOperand_ind (P := fun t => t.heldTick = u.heldTick) _ _ _ _ _ rfl fun a _ => by show (hqReadAt a _ u).2.heldTick = _; rw [hqReadAt_frame]
  case hqInit =>
    exact withOperand_ind (P := fun t => t.heldTick = u.heldTick) _ _ _ _ _ rfl fun a _ => rfl
  case fbRecompute =>
    exact withOperand_ind (P := fun t => t.heldTick = u.heldTick) _ _ _ _ _ rfl fun a _ => by rw [fbRecompute_eq]; rfl
  case txSetfreq =>
    exact withOperand_ind (P := fun t => t.heldTick = u.heldTick) _ _ _ _ _ rfl fun a _ => rfl
  all_goals first
    | rfl
    | (simp; done)
    | exact withOperand_ind (P := fun t => t.heldTick = u.heldTick) _ _ _ _ _ rfl fun a _ => rfl

/-- No instruction changes `trig_in`. -/
theorem exec_trigIn {i : Instr} {u t : State} (h : exec i u = .next t) :
    t.trigIn = u.trigIn := by
  cases i <;> (unfold exec at h; injection h with h; subst h)
  case detInit => show (detInit u).trigIn = _; simp only [detInit, fbInit_eq]
  case srPop => show (srPop u).2.trigIn = _; rw [srPop_frame]
  case ivTick => show (ivTick u).trigIn = _; rw [ivTick_frame]
  case trTick => show (trTick u).trigIn = _; rw [trTick_frame]
  case tick => show (takeTick _ u).trigIn = _; rw [takeTick_frame]
  case hqPush =>
    exact withOperand_ind (P := fun t => t.trigIn = u.trigIn) _ _ _ _ _ rfl fun a _ => by rw [hqPush_frame]
  case hqPop =>
    exact withOperand_ind (P := fun t => t.trigIn = u.trigIn) _ _ _ _ _ rfl fun a _ => by show (hqPop a u).2.trigIn = _; rw [hqPop_frame]
  case hqOpush =>
    exact withOperand_ind (P := fun t => t.trigIn = u.trigIn) _ _ _ _ _ rfl fun a _ => by rw [hqOpush_frame]
  case hqReadat =>
    exact withOperand_ind (P := fun t => t.trigIn = u.trigIn) _ _ _ _ _ rfl fun a _ => by show (hqReadAt a _ u).2.trigIn = _; rw [hqReadAt_frame]
  case hqInit =>
    exact withOperand_ind (P := fun t => t.trigIn = u.trigIn) _ _ _ _ _ rfl fun a _ => rfl
  case fbRecompute =>
    exact withOperand_ind (P := fun t => t.trigIn = u.trigIn) _ _ _ _ _ rfl fun a _ => by rw [fbRecompute_eq]; rfl
  case txSetfreq =>
    exact withOperand_ind (P := fun t => t.trigIn = u.trigIn) _ _ _ _ _ rfl fun a _ => rfl
  all_goals first
    | rfl
    | (simp; done)
    | exact withOperand_ind (P := fun t => t.trigIn = u.trigIn) _ _ _ _ _ rfl fun a _ => rfl

end Sys2Proof.Machine
end

