-- ==== Sys2Proof/Laws/Num.lean ====
section
/-! SUPPORT. The carrier of a NUM record: what its operations yield belongs to it, and a value that
belongs to it is not changed by taking it out and putting it back; a record as tables. -/

namespace Sys2Proof

variable (n : NumSystem)

@[simp] theorem NumSystem.owns_wrap (x : n.Carrier) : n.owns (n.wrap x) = true := by
  cases n <;> simp [NumSystem.wrap, NumSystem.owns]

@[simp] theorem NumSystem.unwrap_wrap (x : n.Carrier) : n.unwrap (n.wrap x) = x := by
  cases n <;> simp [NumSystem.wrap, NumSystem.unwrap]

theorem NumSystem.wrap_unwrap {n : NumSystem} {x : NUM} (h : n.owns x = true) :
    n.wrap (n.unwrap x) = x := by
  cases n <;> cases x <;> simp_all [NumSystem.wrap, NumSystem.unwrap, NumSystem.owns]

/-! ### Every operation yields a value of the carrier -/

@[simp] theorem owns_numZero : n.owns (numZero n) = true := n.owns_wrap _
@[simp] theorem owns_numOne : n.owns (numOne n) = true := n.owns_wrap _
@[simp] theorem owns_numOfNat (k : Nat) : n.owns (numOfNat n k) = true := n.owns_wrap _
@[simp] theorem owns_numAdd (a b : NUM) : n.owns (numAdd n a b) = true := n.owns_wrap _
@[simp] theorem owns_numSub (a b : NUM) : n.owns (numSub n a b) = true := n.owns_wrap _
@[simp] theorem owns_numMul (a b : NUM) : n.owns (numMul n a b) = true := n.owns_wrap _
@[simp] theorem owns_numDiv (a b : NUM) : n.owns (numDiv n a b) = true := n.owns_wrap _

@[simp] theorem owns_numDec (b : BitVec 64) : n.owns (numDec n b) = true := by
  unfold numDec
  split <;> exact n.owns_wrap _

/-- 0 equals 0 in every record. -/
@[simp] theorem numIsZero_numZero : numIsZero n (numZero n) = true := by
  simp [numIsZero, numZero, n.numerics.isZero_zero]

/-! ### Records given by their tables -/

/-- Looking a listed key up in the table of a function gives the function's value. -/
theorem lookup_tabulated {α β : Type} [BEq α] [LawfulBEq α] (f : α → β) {k : α} :
    ∀ {keys : List α}, k ∈ keys → (keys.map fun a => (a, f a)).lookup k = some (f k)
  | a :: keys, h => by
    by_cases hk : k = a
    · subst hk; simp
    · have : k ∈ keys := by simpa [hk] using h
      simpa [List.lookup, beq_eq_false_iff_ne.mpr hk] using lookup_tabulated f this

/-- The tables of a record on numbered values: `ofNat` below `naturals`, `dec` of `patterns`, among which
are the encodings of all values. Further numbers are read as `naturals`, further patterns as 0. -/
def NumTables.ofNumerics {size : Nat} (r : Numerics (Fin size)) (f : BitForm (Fin size))
    (naturals : Nat) (patterns : List (BitVec 64)) (h : ∀ k, f.enc k ∈ patterns) : NumTables where
  size := size
  zero := r.zero
  one := r.one
  ofNat := (List.range naturals).map r.ofNat
  ofNatElse := r.ofNat naturals
  add := Vector.ofFn fun a => Vector.ofFn (r.add a)
  sub := Vector.ofFn fun a => Vector.ofFn (r.sub a)
  mul := Vector.ofFn fun a => Vector.ofFn (r.mul a)
  div := Vector.ofFn fun a => Vector.ofFn (r.div a)
  lt := Vector.ofFn fun a => Vector.ofFn (r.lt a)
  le := Vector.ofFn fun a => Vector.ofFn (r.le a)
  isZero := Vector.ofFn r.isZero
  isZero_zero := by simp [r.isZero_zero]
  enc := Vector.ofFn f.enc
  dec := patterns.map fun b => (b, f.dec b)
  decElse := r.zero
  dec_enc := by simp [lookup_tabulated f.dec (h _), f.dec_enc]

section
variable {α β : Type} {size : Nat} (e : α ≃ Fin size)

/-- Reading the table of a function of one numbered value. -/
theorem read_table (g : α → β) (a : α) : (Vector.ofFn fun i => g (e.symm i))[e a] = g a := by simp

/-- Reading the table of a function of two numbered values. -/
theorem read_table₂ (g : α → α → β) (a b : α) :
    (Vector.ofFn fun i => Vector.ofFn fun j => g (e.symm i) (e.symm j))[e a][e b] = g a b := by simp

/-- Reading the table of a sequence. -/
theorem read_sequence (g : Nat → β) (other : β) {bound n : Nat} (h : n < bound) :
    ((List.range bound).map g).getD n other = g n := by simp [List.getD, h]

end

/-- Every record that has a bit form is given by tables, up to the numbering of its values: all its
fields are those of the tables, `ofNat` below any bound. So `NumSystem` leaves no NUM of 00_scope.md R9
and 92_eei_decisions.md D1 out. -/
theorem NumTables.exists_of_numerics {α : Type} (r : Numerics α) (f : BitForm α) (bound : Nat) :
    ∃ (t : NumTables) (e : α ≃ Fin t.size) (g : BitForm (Fin t.size)),
      t.numerics.bitForm = some g ∧
      (∀ a, g.enc (e a) = f.enc a) ∧ (∀ b, g.dec b = e (f.dec b)) ∧
      t.numerics.zero = e r.zero ∧ t.numerics.one = e r.one ∧
      (∀ n < bound, t.numerics.ofNat n = e (r.ofNat n)) ∧
      (∀ a b, t.numerics.add (e a) (e b) = e (r.add a b)) ∧
      (∀ a b, t.numerics.sub (e a) (e b) = e (r.sub a b)) ∧
      (∀ a b, t.numerics.mul (e a) (e b) = e (r.mul a b)) ∧
      (∀ a b, t.numerics.div (e a) (e b) = e (r.div a b)) ∧
      (∀ a b, t.numerics.lt (e a) (e b) = r.lt a b) ∧
      (∀ a b, t.numerics.le (e a) (e b) = r.le a b) ∧
      (∀ a, t.numerics.isZero (e a) = r.isZero a) := by
  have : Finite α := Finite.of_injective f.enc (Function.LeftInverse.injective f.dec_enc)
  obtain ⟨patterns, all⟩ : ∃ l : List (BitVec 64), ∀ b, b ∈ l :=
    ⟨(Finset.univ : Finset (BitVec 64)).toList, by simp⟩
  have e : α ≃ Fin (Nat.card α) := Finite.equivFin α
  let r' : Numerics (Fin (Nat.card α)) := {
    zero := e r.zero
    one := e r.one
    ofNat := fun n => e (r.ofNat n)
    add := fun a b => e (r.add (e.symm a) (e.symm b))
    sub := fun a b => e (r.sub (e.symm a) (e.symm b))
    mul := fun a b => e (r.mul (e.symm a) (e.symm b))
    div := fun a b => e (r.div (e.symm a) (e.symm b))
    lt := fun a b => r.lt (e.symm a) (e.symm b)
    le := fun a b => r.le (e.symm a) (e.symm b)
    isZero := fun a => r.isZero (e.symm a)
    isZero_zero := by simp [r.isZero_zero]
    bitForm := none }
  let f' : BitForm (Fin (Nat.card α)) := {
    enc := fun k => f.enc (e.symm k)
    dec := fun b => e (f.dec b)
    dec_enc := by simp [f.dec_enc] }
  refine ⟨.ofNumerics r' f' bound patterns fun k => all _, e, _, rfl, fun a => ?_,
    fun b => congrArg (·.getD r'.zero) (lookup_tabulated f'.dec (all b)), rfl, rfl, fun n hn => ?_,
    fun a b => ?_, fun a b => ?_, fun a b => ?_, fun a b => ?_, fun a b => ?_, fun a b => ?_,
    fun a => ?_⟩
  · exact read_table e f.enc a
  · exact read_sequence r'.ofNat _ hn
  · exact read_table₂ e (fun a b => e (r.add a b)) a b
  · exact read_table₂ e (fun a b => e (r.sub a b)) a b
  · exact read_table₂ e (fun a b => e (r.mul a b)) a b
  · exact read_table₂ e (fun a b => e (r.div a b)) a b
  · exact read_table₂ e r.lt a b
  · exact read_table₂ e r.le a b
  · exact read_table e r.isZero a

/-! ### The reference instantiation -/

@[simp] theorem unwrap_exact (q : Rat) : NumSystem.exact.unwrap (.exact q) = q := rfl
@[simp] theorem numZero_exact : numZero .exact = .exact 0 := rfl
@[simp] theorem numOne_exact : numOne .exact = .exact 1 := rfl
@[simp] theorem numOfNat_exact (k : Nat) : numOfNat .exact k = .exact k := rfl

theorem numAdd_exact (a b : NUM) : numAdd .exact a b =
    .exact (NumSystem.exact.unwrap a + NumSystem.exact.unwrap b) := rfl
theorem numSub_exact (a b : NUM) : numSub .exact a b =
    .exact (NumSystem.exact.unwrap a - NumSystem.exact.unwrap b) := rfl
theorem numMul_exact (a b : NUM) : numMul .exact a b =
    .exact (NumSystem.exact.unwrap a * NumSystem.exact.unwrap b) := rfl
theorem numDiv_exact (a b : NUM) : numDiv .exact a b =
    .exact (NumSystem.exact.unwrap a / NumSystem.exact.unwrap b) := rfl
theorem numLt_exact (a b : NUM) : numLt .exact a b =
    decide (NumSystem.exact.unwrap a < NumSystem.exact.unwrap b) := rfl
theorem numLe_exact (a b : NUM) : numLe .exact a b =
    decide (NumSystem.exact.unwrap a ≤ NumSystem.exact.unwrap b) := rfl
theorem numIsZero_exact (a : NUM) : numIsZero .exact a =
    decide (NumSystem.exact.unwrap a = 0) := rfl

end Sys2Proof
end

