-- ==== Sys2Proof/Laws/PerInstr.lean ====
section
/-! SUPPORT. Per instruction: `Instr.wf` says exactly that the operand checks the meanings make succeed
(30_encoding.md R112; 60_exceptions.md R334). -/

namespace Sys2Proof.Machine

theorem operandQueue_isSome (q : BitVec 5) : (operandQueue q).isSome = decide (q.toNat < 22) := by
  unfold operandQueue; split <;> simp [*]

theorem operandChannel_isSome (ch : BitVec 4) :
    (operandChannel ch).isSome = decide (ch.toNat < 10) := by
  unfold operandChannel; split <;> simp [*]

theorem operandFirIndex_isSome (i : BitVec 8) :
    (operandFirIndex i).isSome = decide (i.toNat < 81) := by
  unfold operandFirIndex; split <;> simp [*]

theorem operandIirIndex_isSome (i : BitVec 8) :
    (operandIirIndex i).isSome = decide (i.toNat < 11) := by
  unfold operandIirIndex; split <;> simp [*]

theorem operandCoefficient_isSome (ch : BitVec 4) (i : BitVec 8) :
    (operandCoefficient ch i).isSome = (decide (ch.toNat < 10) && decide (i.toNat < 11)) := by
  rw [← operandChannel_isSome, ← operandIirIndex_isSome]
  unfold operandCoefficient
  cases operandChannel ch <;> cases operandIirIndex i <;> rfl

theorem operandConst_isSome (i : BitVec 8) : (operandConst i).isSome = decide (i.toNat < 5) := by
  rw [Bool.eq_iff_iff, Option.isSome_iff_exists]
  simp [operandConst, List.getElem?_eq_some_iff]

end Sys2Proof.Machine

namespace Sys2Proof.Laws.OperandsNamed

open Sys2Proof Sys2Proof.Machine

/-- The operand check that the meaning of an instruction makes. -/
def check : Instr → Bool
  | .hqInit q => (operandQueue q).isSome
  | .hqPop q => (operandQueue q).isSome
  | .hqReadat q _ => (operandQueue q).isSome
  | .hqSize q => (operandQueue q).isSome
  | .hqCount q => (operandQueue q).isSome
  | .hqUnderflowed q => (operandQueue q).isSome
  | .hqOverflowed q => (operandQueue q).isSome
  | .hqPush q _ => (operandQueue q).isSome
  | .hqOpush q _ => (operandQueue q).isSome
  | .fbPower ch => (operandChannel ch).isSome
  | .fbRecompute ch => (operandChannel ch).isSome
  | .fbFircoef i => (operandFirIndex i).isSome
  | .fbIira ch i => (operandCoefficient ch i).isSome
  | .fbIirb ch i => (operandCoefficient ch i).isSome
  | .fbConst i => (operandConst i).isSome
  | .txSetfreq ch => (operandChannel ch).isSome
  | .srInit | .srPush _ | .srPop | .srCount | .srCap | .fbPowers | .fbNorm | .detInit
  | .detSetign _ | .detRun _ | .detHit | .detLastfreq | .detClearhit | .detIgnall _
  | .detHitcounts | .detSetfudge _ | .detInvoc | .ltInit | .ltStart | .ltRunning | .ltTick
  | .ivInit | .ivStart _ | .ivRunning | .ivTick | .trInit | .trStart | .trRunning | .trTick
  | .trEnable | .trDisable | .trGetshots | .trSetshots _ | .trReload | .txInit | .txStart
  | .txRunning | .txTick | .txGetfreq | .txSetcont _ | .tick _ => true

/-- The operands of `i` are all named exactly when `i` is well formed. -/
def Statement (i : Instr) : Prop := check i = i.wf

theorem srInit : Statement .srInit := rfl
theorem srPush (v : AdcCode) : Statement (.srPush v) := rfl
theorem srPop : Statement .srPop := rfl
theorem srCount : Statement .srCount := rfl
theorem srCap : Statement .srCap := rfl
theorem hqInit (q : BitVec 5) : Statement (.hqInit q) := operandQueue_isSome q
theorem hqPop (q : BitVec 5) : Statement (.hqPop q) := operandQueue_isSome q
theorem hqReadat (q : BitVec 5) (age : BitVec 16) : Statement (.hqReadat q age) :=
  operandQueue_isSome q
theorem hqSize (q : BitVec 5) : Statement (.hqSize q) := operandQueue_isSome q
theorem hqCount (q : BitVec 5) : Statement (.hqCount q) := operandQueue_isSome q
theorem hqUnderflowed (q : BitVec 5) : Statement (.hqUnderflowed q) := operandQueue_isSome q
theorem hqOverflowed (q : BitVec 5) : Statement (.hqOverflowed q) := operandQueue_isSome q
theorem hqPush (q : BitVec 5) (val : NUM) : Statement (.hqPush q val) := operandQueue_isSome q
theorem hqOpush (q : BitVec 5) (val : NUM) : Statement (.hqOpush q val) := operandQueue_isSome q
theorem fbPower (ch : BitVec 4) : Statement (.fbPower ch) := operandChannel_isSome ch
theorem fbPowers : Statement .fbPowers := rfl
theorem fbNorm : Statement .fbNorm := rfl
theorem fbRecompute (ch : BitVec 4) : Statement (.fbRecompute ch) := operandChannel_isSome ch
theorem fbFircoef (i : BitVec 8) : Statement (.fbFircoef i) := operandFirIndex_isSome i
theorem fbIira (ch : BitVec 4) (i : BitVec 8) : Statement (.fbIira ch i) :=
  operandCoefficient_isSome ch i
theorem fbIirb (ch : BitVec 4) (i : BitVec 8) : Statement (.fbIirb ch i) :=
  operandCoefficient_isSome ch i
theorem fbConst (i : BitVec 8) : Statement (.fbConst i) := operandConst_isSome i
theorem detInit : Statement .detInit := rfl
theorem detSetign (m : BitVec 10) : Statement (.detSetign m) := rfl
theorem detRun (b : Bool) : Statement (.detRun b) := rfl
theorem detHit : Statement .detHit := rfl
theorem detLastfreq : Statement .detLastfreq := rfl
theorem detClearhit : Statement .detClearhit := rfl
theorem detIgnall (b : Bool) : Statement (.detIgnall b) := rfl
theorem detHitcounts : Statement .detHitcounts := rfl
theorem detSetfudge (u : BitVec 24) : Statement (.detSetfudge u) := rfl
theorem detInvoc : Statement .detInvoc := rfl
theorem ltInit : Statement .ltInit := rfl
theorem ltStart : Statement .ltStart := rfl
theorem ltRunning : Statement .ltRunning := rfl
theorem ltTick : Statement .ltTick := rfl
theorem ivInit : Statement .ivInit := rfl
theorem ivStart (u : BitVec 16) : Statement (.ivStart u) := rfl
theorem ivRunning : Statement .ivRunning := rfl
theorem ivTick : Statement .ivTick := rfl
theorem trInit : Statement .trInit := rfl
theorem trStart : Statement .trStart := rfl
theorem trRunning : Statement .trRunning := rfl
theorem trTick : Statement .trTick := rfl
theorem trEnable : Statement .trEnable := rfl
theorem trDisable : Statement .trDisable := rfl
theorem trGetshots : Statement .trGetshots := rfl
theorem trSetshots (u : BitVec 16) : Statement (.trSetshots u) := rfl
theorem trReload : Statement .trReload := rfl
theorem txInit : Statement .txInit := rfl
theorem txStart : Statement .txStart := rfl
theorem txRunning : Statement .txRunning := rfl
theorem txTick : Statement .txTick := rfl
theorem txSetfreq (ch : BitVec 4) : Statement (.txSetfreq ch) := operandChannel_isSome ch
theorem txGetfreq : Statement .txGetfreq := rfl
theorem txSetcont (b : Bool) : Statement (.txSetcont b) := rfl
theorem tick (adc : AdcCode) : Statement (.tick adc) := rfl

end Sys2Proof.Laws.OperandsNamed
end

