-- ==== Sys2Proof/Laws/Phases.lean ====
section
/-! SUPPORT. What each phase step of a DET_RUN can change (43_detector.md R233 to R235). -/

namespace Sys2Proof.Machine

/-- A POP step changes the ring and the sequencer only. -/
theorem popStep_frame (s : State) :
    popStep s = { s with sr := (popStep s).sr, seq := (popStep s).seq } := by
  unfold popStep srPop; split <;> rfl

/-- A FILTER step changes the queues, the powers, DIAG, the decimation counter and the phase only. -/
theorem filterStep_form (s : State) : ∃ q fb g d p, filterStep s = { s with
    q := q, fb := fb, diag := g
    det := { s.det with decimationCounter := d }
    seq := { s.seq with phase := p } } := by
  have h1 : fbAccept s.seq.sample s = { s with q := (fbAccept s.seq.sample s).q } :=
    hqOpush_frame _ _ _
  unfold filterStep
  rw [h1]
  generalize (fbAccept s.seq.sample s).q = a
  simp only
  split
  · have h2 := fbWindow_frame { s with q := a, det := { s.det with decimationCounter := 0 } }
    have h3 := fbWindow_cfg { s with q := a, det := { s.det with decimationCounter := 0 } }
    generalize fbWindow { s with q := a, det := { s.det with decimationCounter := 0 } } = b at h2 h3 ⊢
    refine ⟨b.q, b.fb, b.diag, 0, .decide, ?_⟩
    rw [h2, State.embed, h3]
  · exact ⟨_, _, _, _, _, rfl⟩

/-- A DECIDE step changes the Detector, the lockout request, DIAG, NOTIFY and the phase only. -/
theorem decideStep_form (s : State) : ∃ d r g n p, decideStep s = { s with
    det := d
    lt := { s.lt with startRequested := r }
    diag := g, notify := n
    seq := { s.seq with phase := p } } := by
  unfold decideStep detDecide
  simp only
  split
  · split <;> exact ⟨_, _, _, _, _, rfl⟩
  · exact ⟨_, s.lt.startRequested, _, _, _, rfl⟩

end Sys2Proof.Machine
end

