-- ==== Sys2Proof/Laws/Storage.lean ====
section
/-! SUPPORT. Every memory operation keeps the canonical form and the ranges of 10_state.md, and the
FilterBank's procedures keep every queue full. -/

namespace Sys2Proof.Machine

/-! ### One queue replaced -/

theorem queuesWf_congr {s t : State} (hc : t.cfg = s.cfg) (hq : t.q = s.q) (h : queuesWf s) :
    queuesWf t := by
  intro q
  have := h q
  rwa [State.capacity, State.queue, ← hc, ← hq] at this

theorem queuesFull_congr {s t : State} (hc : t.cfg = s.cfg) (hq : t.q = s.q) (h : queuesFull s) :
    queuesFull t := by
  intro q
  have := h q
  rwa [State.capacity, State.queue, ← hc, ← hq] at this

theorem queuesWf_setQueue {s : State} (h : queuesWf s) {q : QueueId} {x : HistoryQueue}
    (hx : x.wf s.cfg.num (s.capacity q)) : queuesWf (s.setQueue q x) := by
  intro q'
  rw [State.queue_setQueue, State.setQueue_capacity]
  split
  · rename_i e; rw [e]; exact hx
  · exact h q'

theorem queuesFull_setQueue {s : State} (h : queuesFull s) {q : QueueId} {x : HistoryQueue}
    (hx : x.count = s.capacity q) : queuesFull (s.setQueue q x) := by
  intro q'
  rw [State.queue_setQueue, State.setQueue_capacity]
  split
  · rename_i e; rw [e]; exact hx
  · exact h q'

/-! ### The queue procedures -/

theorem hqInit_queuesWf {s : State} (h : queuesWf s) (q : QueueId) : queuesWf (hqInit q s) := by
  have hp := State.capacity_pos s q
  exact queuesWf_setQueue h ⟨hp, hp, Nat.zero_le _, by simp, rfl⟩

theorem hqPush_queuesWf {s : State} (h : queuesWf s) (q : QueueId) (v : NUM) :
    queuesWf (hqPush q v s) := by
  have hp := State.capacity_pos s q
  obtain ⟨hr, hw, hc, hl, hm⟩ := h q
  by_cases hf : (s.queue q).count = s.capacity q
  · rw [hqPush_full hf]
    exact queuesWf_setQueue h ⟨hr, hw, hc, hl, hm⟩
  · rw [hqPush_room hf]
    refine queuesWf_setQueue h ⟨hr, Nat.mod_lt _ hp, ?_, ?_, Memory.write_wf hw hm v⟩
    · simp only; omega
    · simp only; rw [hl, Nat.mod_add_mod]; congr 1

theorem hqPop_queuesWf {s : State} (h : queuesWf s) (q : QueueId) : queuesWf (hqPop q s).2 := by
  have hp := State.capacity_pos s q
  obtain ⟨hr, hw, hc, hl, hm⟩ := h q
  by_cases hf : (s.queue q).count = 0
  · rw [hqPop_empty hf]
    exact queuesWf_setQueue h ⟨hr, hw, hc, hl, hm⟩
  · rw [hqPop_some hf]
    refine queuesWf_setQueue h ⟨Nat.mod_lt _ hp, hw, ?_, ?_, hm⟩
    · simp only; omega
    · simp only; rw [hl, Nat.mod_add_mod]; congr 1; omega

theorem hqOpush_queuesWf {s : State} (h : queuesWf s) (q : QueueId) (v : NUM) :
    queuesWf (hqOpush q v s) := by
  rw [hqOpush_eq]
  exact queuesWf_setQueue h (HistoryQueue.overwrite_wf (State.capacity_pos s q) (h q) v)

theorem hqOpush_queuesFull {s : State} (h : queuesFull s) (q : QueueId) (v : NUM) :
    queuesFull (hqOpush q v s) := by
  rw [hqOpush_eq]
  exact queuesFull_setQueue h (HistoryQueue.overwrite_count_full (h q) v)

/-! ### Reads change no queue -/

theorem hqReadAt_q (q : QueueId) (age : Nat) (s : State) : (hqReadAt q age s).2.q = s.q := by
  rw [hqReadAt_frame]

theorem sumProducts_q (q : QueueId) : ∀ (terms : List (NUM × Nat)) (acc : NUM) (s : State),
    (sumProducts q terms acc s).2.q = s.q
  | [], _, _ => rfl
  | (c, age) :: rest, acc, s => by rw [sumProducts, sumProducts_q q rest, hqReadAt_q]

theorem windowOldest_q (c : Channel) (s : State) : (windowOldest c s).2.q = s.q := by
  unfold windowOldest; split
  · exact hqReadAt_q _ _ _
  · rfl

theorem channelOutput_q (c : Channel) (s : State) : (channelOutput c s).2.q = s.q := by
  unfold channelOutput; simp only; rw [sumProducts_q, sumProducts_q]

/-! ### The FilterBank's procedures -/

/-- A property of the queues that every overwrite-push keeps is kept by the FilterBank. -/
theorem channelUpdate_ind {P : State → Prop} (hp : ∀ {s : State}, P s → ∀ q v, P (hqOpush q v s))
    (hc : ∀ {s t : State}, t.cfg = s.cfg → t.q = s.q → P s → P t) {s : State} (h : P s) (c : Channel)
    (z : NUM) : P (channelUpdate c z s) := by
  have h1 : P (windowOldest c s).2 := hc (windowOldest_cfg c s) (windowOldest_q c s) h
  have h2 := hp (hp h1 (queueZ c) z) (queueP c) z
  rw [channelUpdate_eq]
  generalize hqOpush (queueP c) z (hqOpush (queueZ c) z (windowOldest c s).2) = u at h2 ⊢
  exact hc (State.setPower_cfg u c _) (State.setPower_q u c _) h2

theorem channelStep_ind {P : State → Prop} (hp : ∀ {s : State}, P s → ∀ q v, P (hqOpush q v s))
    (hc : ∀ {s t : State}, t.cfg = s.cfg → t.q = s.q → P s → P t) {s : State} (h : P s) (c : Channel) :
    P (channelStep c s) :=
  channelUpdate_ind hp hc (hc (channelOutput_cfg c s) (channelOutput_q c s) h) c _

theorem fbWindow_ind {P : State → Prop} (hp : ∀ {s : State}, P s → ∀ q v, P (hqOpush q v s))
    (hc : ∀ {s t : State}, t.cfg = s.cfg → t.q = s.q → P s → P t) {s : State} (h : P s) :
    P (fbWindow s) := by
  have hf : ∀ (l : List Channel) (s : State), P s → P (l.foldl (fun s c => channelStep c s) s) := by
    intro l
    induction l with
    | nil => exact fun s h => h
    | cons c rest ih =>
      intro s h
      rw [List.foldl_cons]
      exact ih (channelStep c s) (channelStep_ind hp hc h c)
  have h1 : P (sumProducts queueX (firTerms s.cfg) (numZero s.cfg.num) s).2 :=
    hc (sumProducts_cfg ..) (sumProducts_q ..) h
  unfold fbWindow
  exact hf channels _ (hp h1 queueY _)

theorem fbAccept_queuesWf {s : State} (h : queuesWf s) (v : AdcCode) : queuesWf (fbAccept v s) :=
  hqOpush_queuesWf h _ _

theorem fbAccept_queuesFull {s : State} (h : queuesFull s) (v : AdcCode) :
    queuesFull (fbAccept v s) := hqOpush_queuesFull h _ _

theorem fbWindow_queuesWf {s : State} (h : queuesWf s) : queuesWf (fbWindow s) :=
  fbWindow_ind (fun h => hqOpush_queuesWf h) queuesWf_congr h

theorem fbWindow_queuesFull {s : State} (h : queuesFull s) : queuesFull (fbWindow s) :=
  fbWindow_ind (fun h => hqOpush_queuesFull h) queuesFull_congr h

theorem fbRecompute_q (c : Channel) (s : State) : (fbRecompute c s).q = s.q := by
  rw [fbRecompute_eq]; rfl

theorem fbInit_queuesWf (s : State) : queuesWf (fbInit s) := by
  intro q
  rw [fbInit_eq]
  have : (HistoryQueue.reset (s.capacity q)).wf s.cfg.num (s.capacity q) :=
    HistoryQueue.reset_wf (State.capacity_pos s q)
  simpa [State.queue, State.capacity] using this

theorem fbInit_queuesFull (s : State) : queuesFull (fbInit s) := by
  intro q
  rw [fbInit_eq]
  simp [State.queue, State.capacity, HistoryQueue.reset]

/-! ### SampleRing -/

theorem ringInRange_congr {s t : State} (hc : t.cfg = s.cfg) (hr : t.sr = s.sr) (h : ringInRange s) :
    ringInRange t := by unfold ringInRange at *; rwa [hc, hr]

theorem ringLinked_congr {s t : State} (hc : t.cfg = s.cfg) (hr : t.sr = s.sr) (h : ringLinked s) :
    ringLinked t := by unfold ringLinked at *; rwa [hc, hr]

theorem srInit_inRange (s : State) : ringInRange (srInit s) := by
  have hp := Config.ringCapacity_pos s.cfg
  exact ⟨hp, hp, Nat.zero_le _, rfl⟩

theorem tickPush_inRange {s : State} (h : ringInRange s) (adc : AdcCode) :
    ringInRange (tickPush adc s) := by
  unfold tickPush
  split
  · exact freeRing_inRange s.cfg s.freeDraws _ rfl rfl
  · exact srPush_inRange h adc

/-! ### Reset -/

theorem resetWith_queuesWf (cfg : Config) (pin : Bool) : queuesWf (State.resetWith cfg pin) := by
  intro q
  have : (HistoryQueue.reset (cfg.queueCapacity q)).wf cfg.num (cfg.queueCapacity q) :=
    HistoryQueue.reset_wf (Config.queueCapacity_pos cfg q)
  simpa [State.queue, State.capacity, State.resetWith] using this

theorem resetWith_inRange (cfg : Config) (pin : Bool) : ringInRange (State.resetWith cfg pin) := by
  have hp := Config.ringCapacity_pos cfg
  exact ⟨hp, hp, Nat.zero_le _, rfl⟩

end Sys2Proof.Machine
end

