-- ==== Sys2Proof/Tests/Slice0.lean ====
section
/-! SUPPORT. Tests of one step or one function each, with expected results from 95_test_vectors.md or
from its rules by hand; and a witness for the hypotheses of each statement. -/

set_option Elab.async false

namespace Sys2Proof.Tests

open Sys2Proof Sys2Proof.Machine

/-! ### Decoding: one word of each row of 30_encoding.md R103, written out from its format -/

theorem test_decode_srInit : decodeTableWord 32 0x01000000 = some (.srInit) := by decide +kernel
theorem test_decode_srPush :
    decodeTableWord 32 0x02000ABC = some (.srPush 0xABC) := by decide +kernel
theorem test_decode_srPop : decodeTableWord 32 0x03000000 = some (.srPop) := by decide +kernel
theorem test_decode_srCount : decodeTableWord 32 0x04000000 = some (.srCount) := by decide +kernel
theorem test_decode_srCap : decodeTableWord 32 0x05000000 = some (.srCap) := by decide +kernel
theorem test_decode_hqInit : decodeTableWord 32 0x10010000 = some (.hqInit 1) := by decide +kernel
theorem test_decode_hqPop : decodeTableWord 32 0x11150000 = some (.hqPop 21) := by decide +kernel
theorem test_decode_hqReadat :
    decodeTableWord 32 0x12150103 = some (.hqReadat 21 259) := by decide +kernel
theorem test_decode_hqSize : decodeTableWord 32 0x130C0000 = some (.hqSize 12) := by decide +kernel
theorem test_decode_hqCount :
    decodeTableWord 32 0x14160000 = some (.hqCount 22) := by decide +kernel
theorem test_decode_hqUnderflowed :
    decodeTableWord 32 0x15020000 = some (.hqUnderflowed 2) := by decide +kernel
theorem test_decode_hqOverflowed :
    decodeTableWord 32 0x16010000 = some (.hqOverflowed 1) := by decide +kernel
theorem test_decode_hqPush :
    decodeTableWord 96 0x401400000000000090010000 = some (.hqPush 1 (.exact 5)) := by decide +kernel
theorem test_decode_hqOpush :
    decodeTableWord 96 0x401800000000000091140000 = some (.hqOpush 20 (.exact 6)) := by decide +kernel
theorem test_decode_fbPower : decodeTableWord 32 0x20000009 = some (.fbPower 9) := by decide +kernel
theorem test_decode_fbPowers : decodeTableWord 32 0x21000000 = some (.fbPowers) := by decide +kernel
theorem test_decode_fbNorm : decodeTableWord 32 0x22000000 = some (.fbNorm) := by decide +kernel
theorem test_decode_fbRecompute :
    decodeTableWord 32 0x23000003 = some (.fbRecompute 3) := by decide +kernel
theorem test_decode_fbFircoef :
    decodeTableWord 32 0x24000050 = some (.fbFircoef 80) := by decide +kernel
theorem test_decode_fbIira :
    decodeTableWord 32 0x2500090A = some (.fbIira 9 10) := by decide +kernel
theorem test_decode_fbIirb :
    decodeTableWord 32 0x26000A00 = some (.fbIirb 10 0) := by decide +kernel
theorem test_decode_fbConst : decodeTableWord 32 0x27000005 = some (.fbConst 5) := by decide +kernel
theorem test_decode_detInit : decodeTableWord 32 0x30000000 = some (.detInit) := by decide +kernel
theorem test_decode_detSetign :
    decodeTableWord 32 0x31000201 = some (.detSetign 0x201) := by decide +kernel
theorem test_decode_detRun :
    decodeTableWord 32 0x32000001 = some (.detRun true) := by decide +kernel
theorem test_decode_detHit : decodeTableWord 32 0x33000000 = some (.detHit) := by decide +kernel
theorem test_decode_detLastfreq :
    decodeTableWord 32 0x34000000 = some (.detLastfreq) := by decide +kernel
theorem test_decode_detClearhit :
    decodeTableWord 32 0x35000000 = some (.detClearhit) := by decide +kernel
theorem test_decode_detIgnall :
    decodeTableWord 32 0x36000001 = some (.detIgnall true) := by decide +kernel
theorem test_decode_detHitcounts :
    decodeTableWord 32 0x37000000 = some (.detHitcounts) := by decide +kernel
theorem test_decode_detSetfudge :
    decodeTableWord 32 0x380002EE = some (.detSetfudge 750) := by decide +kernel
theorem test_decode_detInvoc : decodeTableWord 32 0x39000000 = some (.detInvoc) := by decide +kernel
theorem test_decode_ltInit : decodeTableWord 32 0x40000000 = some (.ltInit) := by decide +kernel
theorem test_decode_ltStart : decodeTableWord 32 0x41000000 = some (.ltStart) := by decide +kernel
theorem test_decode_ltRunning :
    decodeTableWord 32 0x42000000 = some (.ltRunning) := by decide +kernel
theorem test_decode_ltTick : decodeTableWord 32 0x43000000 = some (.ltTick) := by decide +kernel
theorem test_decode_ivInit : decodeTableWord 32 0x50000000 = some (.ivInit) := by decide +kernel
theorem test_decode_ivStart : decodeTableWord 32 0x51000002 = some (.ivStart 2) := by decide +kernel
theorem test_decode_ivRunning :
    decodeTableWord 32 0x52000000 = some (.ivRunning) := by decide +kernel
theorem test_decode_ivTick : decodeTableWord 32 0x53000000 = some (.ivTick) := by decide +kernel
theorem test_decode_trInit : decodeTableWord 32 0x60000000 = some (.trInit) := by decide +kernel
theorem test_decode_trStart : decodeTableWord 32 0x61000000 = some (.trStart) := by decide +kernel
theorem test_decode_trRunning :
    decodeTableWord 32 0x62000000 = some (.trRunning) := by decide +kernel
theorem test_decode_trTick : decodeTableWord 32 0x63000000 = some (.trTick) := by decide +kernel
theorem test_decode_trEnable : decodeTableWord 32 0x64000000 = some (.trEnable) := by decide +kernel
theorem test_decode_trDisable :
    decodeTableWord 32 0x65000000 = some (.trDisable) := by decide +kernel
theorem test_decode_trGetshots :
    decodeTableWord 32 0x66000000 = some (.trGetshots) := by decide +kernel
theorem test_decode_trSetshots :
    decodeTableWord 32 0x6700FFFF = some (.trSetshots 0xFFFF) := by decide +kernel
theorem test_decode_trReload : decodeTableWord 32 0x68000000 = some (.trReload) := by decide +kernel
theorem test_decode_txInit : decodeTableWord 32 0x70000000 = some (.txInit) := by decide +kernel
theorem test_decode_txStart : decodeTableWord 32 0x71000000 = some (.txStart) := by decide +kernel
theorem test_decode_txRunning :
    decodeTableWord 32 0x72000000 = some (.txRunning) := by decide +kernel
theorem test_decode_txTick : decodeTableWord 32 0x73000000 = some (.txTick) := by decide +kernel
theorem test_decode_txSetfreq :
    decodeTableWord 32 0x7400000A = some (.txSetfreq 10) := by decide +kernel
theorem test_decode_txGetfreq :
    decodeTableWord 32 0x75000000 = some (.txGetfreq) := by decide +kernel
theorem test_decode_txSetcont :
    decodeTableWord 32 0x76000001 = some (.txSetcont true) := by decide +kernel
theorem test_decode_tick : decodeTableWord 16 0xF123 = some (.tick 0x123) := by decide +kernel
/-- A payload the table gives no bits is zeros. -/
theorem test_decode_hqPush_without_payload_bits :
    decodeTableWord 32 0x90010000 = some (.hqPush 1 (.exact 0)) := by decide +kernel

/-! Illegal heads (95_test_vectors.md V-ENC). -/

theorem test_illegal_reserved_opcode : decodeTableWord 32 0x06000000 = none := by decide +kernel
theorem test_illegal_zero_head : decodeTableWord 32 0x00000000 = none := by decide +kernel
theorem test_illegal_reserved_bit_srInit : decodeTableWord 32 0x01000001 = none := by decide +kernel
theorem test_illegal_payload_opcode : decodeTableWord 96 0x92000000 = none := by decide +kernel
theorem test_illegal_reserved_bit_detRun : decodeTableWord 32 0x32000002 = none := by decide +kernel
theorem test_illegal_reserved_bit_detSetign : decodeTableWord 32 0x31000400 = none := by
  decide +kernel

/-! ### WellFormed: an ill-formed term for each check (30_encoding.md R112) -/

theorem test_wf_refuses_hqInit : Instr.wf (.hqInit 22) = false := by decide
theorem test_wf_refuses_hqPop : Instr.wf (.hqPop 31) = false := by decide
theorem test_wf_refuses_hqReadat : Instr.wf (.hqReadat 22 0) = false := by decide
theorem test_wf_refuses_hqSize : Instr.wf (.hqSize 22) = false := by decide
theorem test_wf_refuses_hqCount : Instr.wf (.hqCount 22) = false := by decide
theorem test_wf_refuses_hqUnderflowed : Instr.wf (.hqUnderflowed 22) = false := by decide
theorem test_wf_refuses_hqOverflowed : Instr.wf (.hqOverflowed 22) = false := by decide
theorem test_wf_refuses_hqPush : Instr.wf (.hqPush 22 (.exact 0)) = false := by decide
theorem test_wf_refuses_hqOpush : Instr.wf (.hqOpush 22 (.exact 0)) = false := by decide
theorem test_wf_refuses_fbPower : Instr.wf (.fbPower 10) = false := by decide
theorem test_wf_refuses_fbRecompute : Instr.wf (.fbRecompute 15) = false := by decide
theorem test_wf_refuses_fbFircoef : Instr.wf (.fbFircoef 81) = false := by decide
theorem test_wf_refuses_fbIira_channel : Instr.wf (.fbIira 10 0) = false := by decide
theorem test_wf_refuses_fbIira_index : Instr.wf (.fbIira 0 11) = false := by decide
theorem test_wf_refuses_fbIirb_channel : Instr.wf (.fbIirb 10 10) = false := by decide
theorem test_wf_refuses_fbIirb_index : Instr.wf (.fbIirb 9 11) = false := by decide
theorem test_wf_refuses_fbConst : Instr.wf (.fbConst 5) = false := by decide
theorem test_wf_refuses_txSetfreq : Instr.wf (.txSetfreq 10) = false := by decide

/-! ### NUM: binary64 bit for bit (IEEE 754, general knowledge; worked by hand) -/

/-- -1/2; the least positive subnormal. -/
theorem test_b64_value : b64Value 0xBFE0000000000000 = -1 / 2 ∧
    b64Value 0x0000000000000001 = 1 / 2 ^ 1074 := by decide +kernel
/-- 1/3 is 0x3FD5555555555555; 2^53 + 1 lies halfway, and the even neighbour is 2^53. -/
theorem test_b64_rounds : b64Div 0x3FF0000000000000 0x4008000000000000 = 0x3FD5555555555555 ∧
    b64OfNat (2 ^ 53 + 1) = 0x4340000000000000 := by decide +kernel
/-- A significand of 53 ones and a half rounds up into the exponent. -/
theorem test_b64_carry : b64OfNat (2 ^ 54 - 1) = 0x4350000000000000 := by decide +kernel
/-- -0 * 1 = -0; 1 - 1 = +0; -0 + -0 = -0; -0 + 0 = +0. -/
theorem test_b64_zero_signs :
    b64Mul 0x8000000000000000 0x3FF0000000000000 = 0x8000000000000000 ∧
    b64Sub 0x3FF0000000000000 0x3FF0000000000000 = 0 ∧
    b64Add 0x8000000000000000 0x8000000000000000 = 0x8000000000000000 ∧
    b64Add 0x8000000000000000 0 = 0 := by decide +kernel
/-- The least subnormal, negated and halved, is halfway to 0 and underflows to -0. -/
theorem test_b64_underflow_sign : b64Div 0x8000000000000001 0x4000000000000000 = 0x8000000000000000 := by
  decide +kernel
/-- The two zeros compare equal, and both equal 0. -/
theorem test_b64_zeros_equal : b64Lt 0x8000000000000000 0 = false ∧
    b64Le 0 0x8000000000000000 = true ∧ b64IsZero 0x8000000000000000 = true := by decide +kernel
theorem test_numBits : (Beat.num (.binary64 0x8000000000000000)).toBits .binary64 =
      some 0x8000000000000000 ∧
    (Beat.num (.exact 6)).toBits .exact = none ∧
    numDec .exact 0x4018000000000000 = .exact 6 := by decide +kernel

/-! ### One step each -/

/-- A small configuration: C = 4, W = 2, coefficients of program P2, timers of program P4. -/
def cfg : Config := { Config.reference with
  ringCapacity := 4
  powerWindow := 2
  ringCapacity_range := by decide
  powerWindow_range := by decide }

def start : State := State.resetWith cfg false

/-- The state after one instruction. -/
def after (i : Instr) (s : State) : State :=
  match exec i s with
  | .next t => t
  | _ => s

/-- The state after one step. -/
def stepped (s : State) : State :=
  match step s with
  | .next t => t
  | _ => s

/-! A NUM given by its tables: signed fixed point of 4 bits, 2 of them fraction, saturating; its value
number k stands for (k - 8) / 4, its bit form is the sign-extended integer k - 8. Worked by hand. -/

def fixedInt (k : Fin 16) : Int := (k.val : Int) - 8
def saturate (x : Int) : Fin 16 := Fin.ofNat 16 (min (max x (-8)) 7 + 8).toNat

def fixedPoint : Numerics (Fin 16) where
  zero := saturate 0
  one := saturate 4
  ofNat n := saturate (4 * n)
  add a b := saturate (fixedInt a + fixedInt b)
  sub a b := saturate (fixedInt a - fixedInt b)
  mul a b := saturate (fixedInt a * fixedInt b / 4)
  div a b := saturate (4 * fixedInt a / fixedInt b)
  lt a b := decide (fixedInt a < fixedInt b)
  le a b := decide (fixedInt a ≤ fixedInt b)
  isZero a := decide (fixedInt a = 0)
  isZero_zero := by decide +kernel
  bitForm := none

def fixedBits : BitForm (Fin 16) where
  enc k := BitVec.ofInt 64 (fixedInt k)
  dec b := saturate b.toInt
  dec_enc := by decide +kernel

def fixedTables : NumTables :=
  .ofNumerics fixedPoint fixedBits 2 ((List.finRange 16).map fixedBits.enc)
    fun k => List.mem_map_of_mem (List.mem_finRange k)

def fixedCfg : Config := { cfg with
  num := .tables fixedTables
  firCoef := Vector.replicate 81 (.value 8)
  iirA := Vector.replicate 10 (Vector.replicate 11 (.value 8))
  iirB := Vector.replicate 10 (Vector.replicate 11 (.value 12))
  fudgeReset := .value 12
  firCoef_owned := by decide +kernel
  iirA_owned := by decide +kernel
  iirB_owned := by decide +kernel
  fudgeReset_owned := by decide +kernel }

def fixedStart : State := State.resetWith fixedCfg false

/-- 1/2 * 1/2 = 1/4; 7/4 + 7/4 saturates at 7/4; -2 < 7/4; -1/2 goes out as its bits and comes back. -/
theorem test_fixedPoint : let n := NumSystem.tables fixedTables
    numMul n (.value 10) (.value 10) = .value 9 ∧ numAdd n (.value 15) (.value 15) = .value 15 ∧
    numLt n (.value 0) (.value 15) = true ∧
    (Beat.num (.value 6)).toBits n = some 0xFFFFFFFFFFFFFFFE ∧
    numDec n 0xFFFFFFFFFFFFFFFE = .value 6 := by decide +kernel

/-- HQ_PUSH on queue 1, emptied by HQ_INIT, with the payload bits of -1/2; HQ_POP answers those bits;
DET_SETFUDGE 750 saturates. -/
theorem test_fixedPoint_steps :
    let pushed := stepped ((after (.hqInit 1) fixedStart).withFetchWord 96
      0xFFFFFFFFFFFFFFFE90010000)
    ((after (.hqPop 1) pushed).resp.map (Beat.toBits fixedCfg.num)) = [some 0xFFFFFFFFFFFFFFFE] ∧
    (after (.detSetfudge 750) fixedStart).det.fudgeFactor = .value 15 := by decide +kernel

/-! SampleRing (V-SR). -/

def fullRing : State := { start with
  sr := ⟨[(0, 4095), (1, 4095), (2, 4095), (3, 4095)], 1, 1, 4⟩ }
def oneSample : State := { start with sr := ⟨[(0, 7)], 1, 0, 1⟩ }

theorem test_srPush_empty : (after (.srPush 7) start).sr = oneSample.sr := by decide +kernel
theorem test_srPush_full :
    (after (.srPush 1) fullRing).sr = ⟨[(0, 4095), (1, 1), (2, 4095), (3, 4095)], 2, 2, 4⟩ := by
  decide +kernel
theorem test_srPop_one : (after .srPop oneSample).sr = ⟨[(0, 7)], 1, 1, 0⟩ ∧
    (after .srPop oneSample).resp = [.int 7] := by decide +kernel
theorem test_srPop_empty : (after .srPop start).sr = start.sr ∧
    (after .srPop start).resp = [.int 0] := by decide +kernel
theorem test_srCount : (after .srCount fullRing).resp = [.int 4] := by decide +kernel
theorem test_srCap : (after .srCap start).resp = [.int 4] := by decide +kernel
theorem test_srInit : (after .srInit fullRing).sr = ⟨[], 0, 0, 0⟩ := by decide +kernel

/-! HistoryQueue (V-HQ), queue 1. -/

/-- `start` with queue 1 as given. -/
def withY (x : HistoryQueue) : State := start.setQueue 1 x

theorem test_hqPush_full : (after (.hqPush 1 (.exact 5)) start).queue 1 = ⟨[], 0, 0, 11, false, true⟩ ∧
    (after (.hqPush 1 (.exact 5)) start).diag = [⟨.overflow, 1⟩] := by decide +kernel
theorem test_hqPush : (after (.hqPush 1 (.exact 5)) (withY ⟨[], 0, 1, 10, true, false⟩)).queue 1 =
    ⟨[(0, .exact 5)], 1, 1, 11, false, false⟩ := by decide +kernel
theorem test_hqPop : (after (.hqPop 1) (withY ⟨[], 0, 0, 11, false, true⟩)).queue 1 =
    ⟨[], 0, 1, 10, false, false⟩ := by decide +kernel
theorem test_hqPop_empty :
    (after (.hqPop 1) (withY ⟨[], 0, 0, 0, false, false⟩)).queue 1 = ⟨[], 0, 0, 0, true, false⟩ ∧
    (after (.hqPop 1) (withY ⟨[], 0, 0, 0, false, false⟩)).diag = [⟨.underflow, 1⟩] ∧
    (after (.hqPop 1) (withY ⟨[], 0, 0, 0, false, false⟩)).resp = [.num (.exact 0)] := by decide +kernel
theorem test_hqOpush_full : (after (.hqOpush 1 (.exact 6)) (withY ⟨[(0, .exact 5)], 1, 1, 11, false, true⟩)).queue 1 =
    ⟨[(0, .exact 5), (1, .exact 6)], 2, 2, 11, false, false⟩ := by decide +kernel
theorem test_hqOpush : (after (.hqOpush 1 (.exact 8)) (withY ⟨[(0, .exact 7)], 1, 0, 1, true, false⟩)).queue 1 =
    ⟨[(0, .exact 7), (1, .exact 8)], 2, 0, 2, false, false⟩ := by decide +kernel
theorem test_hqInit : (after (.hqInit 1) (withY ⟨[(0, .exact 5), (1, .exact 6)], 2, 2, 11, true, true⟩)).queue 1 =
    ⟨[], 0, 0, 0, false, false⟩ := by decide +kernel
theorem test_hqReadat :
    (after (.hqReadat 1 0) (withY ⟨[(0, .exact 7)], 1, 0, 1, false, false⟩)).resp = [.num (.exact 7)] := by
  decide +kernel
theorem test_hqReadat_past :
    (after (.hqReadat 1 1) (withY ⟨[(0, .exact 7)], 1, 0, 1, false, false⟩)).diag =
      [⟨.invalidIndex, 0x00010001⟩] := by decide +kernel
theorem test_hqSize_x : (after (.hqSize 0) start).resp = [.int 81] := by decide +kernel
theorem test_hqSize_p : (after (.hqSize 12) start).resp = [.int 2] := by decide +kernel
theorem test_hqCount : (after (.hqCount 1) (withY ⟨[(0, .exact 7), (1, .exact 8)], 2, 0, 2, false, false⟩)).resp =
    [.int 2] := by decide +kernel
theorem test_hqCount_operand : (after (.hqCount 22) start).diag = [⟨.invalidIndex, 0x14160000⟩] ∧
    (after (.hqCount 22) start).resp = [.int 0] := by decide +kernel
theorem test_hqUnderflowed : (after (.hqUnderflowed 1) (withY ⟨[], 0, 0, 0, true, false⟩)).resp =
    [.int 1] := by decide +kernel
theorem test_hqOverflowed : (after (.hqOverflowed 1) (withY ⟨[], 0, 0, 11, false, true⟩)).resp =
    [.int 1] := by decide +kernel

/-! FilterBank (V-FB1, V-FB5, V-FB6, program P2). -/

theorem test_scale_lowest : scaleSample .exact 0 = .exact (-1) := by decide +kernel
theorem test_scale_middle : scaleSample .exact 2048 = .exact (1 / 4095) := by decide +kernel

def powersS1 : Vector NUM 10 := #v[150, 20, 40, 10, 15, 30, 35, 15, 25, 80].map .exact
def loud : State := { start with fb := ⟨powersS1⟩ }

theorem test_fbPower : (after (.fbPower 9) loud).resp = [.num (.exact 80)] := by decide +kernel
theorem test_fbPower_operand : (after (.fbPower 10) loud).resp = [.num (.exact 0)] := by decide +kernel
theorem test_fbPowers : (after .fbPowers loud).resp =
    [.num (.exact 150), .num (.exact 20), .num (.exact 40), .num (.exact 10), .num (.exact 15), .num (.exact 30), .num (.exact 35), .num (.exact 15), .num (.exact 25), .num (.exact 80)] := by
  decide +kernel
theorem test_fbNorm : (after .fbNorm loud).resp =
    [.num (.exact 1), .num (.exact (2 / 15)), .num (.exact (4 / 15)), .num (.exact (1 / 15)), .num (.exact (1 / 10)), .num (.exact (1 / 5)), .num (.exact (7 / 30)),
      .num (.exact (1 / 10)), .num (.exact (1 / 6)), .num (.exact (8 / 15)), .int 0] := by decide +kernel
theorem test_fbNorm_ties : (after .fbNorm { start with fb := ⟨Vector.replicate 10 (.exact 7)⟩ }).resp =
    List.replicate 10 (.num (.exact 1)) ++ [.int 0] := by decide +kernel
/-- Row V-FB5: the window of channel 0 holds 3 and 4. -/
theorem test_fbRecompute :
    (after (.fbRecompute 0) (start.setQueue 12 ⟨[(0, .exact 3), (1, .exact 4)], 0, 0, 2, false, false⟩)).fb.power[0] =
      .exact 25 := by decide +kernel
theorem test_fbFircoef : (after (.fbFircoef 80) start).resp = [.num (.exact 1)] := by decide +kernel
theorem test_fbIira : (after (.fbIira 0 1) start).resp = [.num (.exact (-1 / 2))] := by decide +kernel
theorem test_fbIira_operand : (after (.fbIira 10 0) start).diag = [⟨.invalidIndex, 0x25000A00⟩] := by
  decide +kernel
theorem test_fbIirb : (after (.fbIirb 9 0) start).resp = [.num (.exact 10)] := by decide +kernel
theorem test_fbConst : (after (.fbConst 4) start).resp = [.int 10] := by decide +kernel
theorem test_fbConst_operand : (after (.fbConst 5) start).diag = [⟨.invalidIndex, 0x27000005⟩] ∧
    (after (.fbConst 5) start).resp = [.int 0] := by decide +kernel

/-- The tenth FILTER step of program P2, line 4: power (c + 1)². -/
theorem test_filter_window :
    (stepped { start with
      seq := ⟨.filter, 0, true, 4095⟩
      det := { start.det with decimationCounter := 9 } }).fb.power =
      #v[1, 4, 9, 16, 25, 36, 49, 64, 81, 100].map .exact := by decide +kernel
/-- Program P2, line 14: with 1 as the output of the window before, channel 0 gives -1/2. -/
theorem test_filter_feedback :
    ((stepped ({ start.setQueue 2 ⟨[(0, .exact 1)], 1, 1, 11, false, false⟩ with
      seq := ⟨.filter, 0, true, 0⟩
      det := { start.det with decimationCounter := 9 } })).queue 2).mem = [(0, .exact 1), (1, .exact (-1 / 2))] := by
  decide +kernel

/-! Detector (S1, V-DET; 43_detector.md R242). -/

theorem test_rank : rankChannels .exact powersS1 = [3, 4, 7, 1, 8, 5, 6, 2, 9, 0] := by decide +kernel
theorem test_decision_rows_1_to_3 :
    hitDecision .exact powersS1 0 (.exact 750) = .noHit ∧ hitDecision .exact powersS1 0 (.exact 6) = .hit 0 ∧
    hitDecision .exact powersS1 0 (.exact 7) = .noHit := by decide +kernel
theorem test_decision_rows_4_to_7 :
    hitDecision .exact powersS1 1 (.exact 3) = .hit 9 ∧ hitDecision .exact powersS1 1 (.exact 4) = .noHit ∧
    hitDecision .exact powersS1 0x201 (.exact 1) = .hit 2 ∧
    hitDecision .exact powersS1 0x201 (.exact 2) = .noHit := by decide +kernel
theorem test_decision_rows_8_to_10 :
    hitDecision .exact powersS1 0x3FF (.exact 1) = .allIgnored ∧ hitDecision .exact powersS1 0 (.exact 0) = .hit 0 ∧
    hitDecision .exact (Vector.replicate 10 (.exact 0)) 0 (.exact 750) = .hit 9 := by decide +kernel
theorem test_decision_rows_11_to_13 :
    hitDecision .exact (Vector.replicate 10 (.exact 0)) 0x200 (.exact 750) = .hit 8 ∧
    hitDecision .exact (Vector.replicate 10 (.exact 5)) 0 (.exact 1) = .hit 9 ∧
    hitDecision .exact (Vector.replicate 10 (.exact 5)) 0 (.exact 2) = .noHit := by decide +kernel

/-- A Detector with every field away from its reset value. -/
def busyDetector : Detector where
  ignored := 0x3FF
  savedIgnored := 0x005
  hitCounts := #v[0, 0, 0, 0, 0, 0, 0, 0, 0, 0xFFFFFFFF]
  lastHitFrequency := 9
  hitDetectedFlag := true
  invocationCount := 2
  fudgeFactor := .exact 4
  decimationCounter := 5
def busy : State := { loud with det := busyDetector }

theorem test_detInit : (after .detInit busy).det = start.det ∧
    (after .detInit busy).fb = start.fb := by decide +kernel
theorem test_detInit_fills : (after .detInit (start.setQueue 21 ⟨[(1, .exact 3)], 0, 1, 1, true, true⟩)).q =
    start.q := by decide +kernel
theorem test_detSetign : (after (.detSetign 0x201) busy).det.ignored = 0x201 ∧
    (after (.detSetign 0x201) busy).det.savedIgnored = 0x201 := by decide +kernel
theorem test_detIgnall_on : (after (.detIgnall true) start).det.ignored = 0x3FF ∧
    (after (.detIgnall true) start).det.savedIgnored = 0 := by decide +kernel
theorem test_detIgnall_off : (after (.detIgnall false) busy).det.ignored = 0x005 := by decide +kernel
theorem test_detHit : (after .detHit busy).resp = [.int 1] := by decide +kernel
theorem test_detLastfreq : (after .detLastfreq busy).resp = [.int 9] := by decide +kernel
theorem test_detClearhit : (after .detClearhit busy).det.hitDetectedFlag = false := by decide +kernel
theorem test_detHitcounts : (after .detHitcounts busy).resp =
    [.int 0, .int 0, .int 0, .int 0, .int 0, .int 0, .int 0, .int 0, .int 0, .int 0xFFFFFFFF] := by
  decide +kernel
theorem test_detSetfudge : (after (.detSetfudge 750) start).det.fudgeFactor = .exact 750 := by decide +kernel
theorem test_detInvoc : (after .detInvoc busy).resp = [.int 2] := by decide +kernel
/-- An empty ring: only the invocation is counted. -/
theorem test_detRun_empty :
    after (.detRun true) start = { start with
      det := { start.det with invocationCount := 1 }
      seq := ⟨.idle, 0, true, 0⟩ } := by decide +kernel
theorem test_detRun : (after (.detRun false) fullRing).seq = ⟨.pop, 4, false, 0⟩ := by decide +kernel

/-- The DECIDE step of vector row 4: channel 0 ignored, fudge 3, a hit on channel 9, whose counter is
saturated (43_detector.md R241; 00_scope.md R15 (iii)). -/
theorem test_decide_hit :
    let t := stepped { busy with
      seq := ⟨.decide, 0, true, 0⟩
      det := { busyDetector with ignored := 1, fudgeFactor := .exact 3, hitDetectedFlag := false } }
    t.det.hitDetectedFlag = true ∧ t.det.hitCounts[9] = 0xFFFFFFFF ∧ t.lt.startRequested = true ∧
    t.notify = [⟨.hit, 9⟩] ∧ t.seq.phase = .idle := by decide +kernel
theorem test_decide_allIgnored :
    let t := stepped { busy with seq := ⟨.decide, 3, true, 0⟩ }
    t.det.hitDetectedFlag = false ∧ t.diag = [⟨.allIgnored, 0⟩] ∧ t.seq.phase = .pop := by
  decide +kernel

/-! LockoutTimer (V-LT, LOCKOUT_TICKS = 3). -/

theorem test_ltInit : (after .ltInit { start with lt := ⟨.active, 2, true⟩ }).lt = ⟨.idle, 0, false⟩ := by
  decide +kernel
theorem test_ltStart : (after .ltStart start).lt = ⟨.idle, 0, true⟩ := by decide +kernel
theorem test_ltRunning : (after .ltRunning { start with lt := ⟨.active, 1, false⟩ }).resp = [.int 1] := by
  decide +kernel
theorem test_ltTick_starts : (after .ltTick { start with lt := ⟨.idle, 3, true⟩ }).lt =
    ⟨.active, 1, false⟩ := by decide +kernel
theorem test_ltTick_ends : (after .ltTick { start with lt := ⟨.active, 3, true⟩ }).lt =
    ⟨.idle, 3, false⟩ := by decide +kernel

/-! InvincibilityTimer (V-IV; TICK_RATE_HZ = 40 here, so `IV_START 2` asks for 80 ticks). -/

theorem test_ivInit : (after .ivInit { start with iv := ⟨.active, 2, true, 8⟩ }).iv =
    ⟨.idle, 0, false, 0⟩ := by decide +kernel
theorem test_ivStart : (after (.ivStart 2) start).iv = ⟨.idle, 0, true, 80⟩ := by decide +kernel
theorem test_ivStart_saturates :
    (after (.ivStart 65535) { start with cfg := { cfg with
      tickRateHz := 100000
      tickRateHz_range := by decide } }).iv.durationTicks = 4294967295 := by decide +kernel
theorem test_ivRunning : (after .ivRunning { start with iv := ⟨.active, 1, false, 8⟩ }).resp =
    [.int 1] := by decide +kernel
theorem test_ivTick_starts : (after .ivTick { start with iv := ⟨.idle, 0, true, 8⟩ }).iv =
      ⟨.active, 1, false, 8⟩ ∧
    (after .ivTick { start with iv := ⟨.idle, 0, true, 8⟩ }).det.ignored = 0x3FF := by decide +kernel
/-- Tick 5 of the vector: shortened to 4 while ACTIVE. -/
theorem test_ivTick_ends : (after .ivTick { busy with iv := ⟨.active, 4, false, 4⟩ }).iv.state = .idle ∧
    (after .ivTick { busy with iv := ⟨.active, 4, false, 4⟩ }).det.ignored = 0x005 := by decide +kernel

/-! Trigger (V-TR: DEBOUNCE_TICKS = 2, RELOAD_HOLD_TICKS = 4, CLIP_SIZE = 3). -/

/-- `start` with an enabled Trigger in a state, its counters and shots, and the level of `trig_in`. -/
def armed (st : TriggerState) (elapsed hold : BitVec 32) (shots : BitVec 16) (pin : Bool) : State :=
  { start with tr := ⟨st, elapsed, hold, false, true, false, shots⟩, trigIn := pin }

theorem test_trInit : (after .trInit (armed .releaseDebounce 1 2 3 true)).tr =
    ⟨.idle, 0, 0, false, false, true, 0⟩ := by decide +kernel
theorem test_trStart : (after .trStart start).tr = { start.tr with startRequested := true } := by
  decide +kernel
theorem test_trRunning : (after .trRunning (armed .pressDebounce 1 0 0 true)).resp = [.int 1] := by
  decide +kernel
/-- Tick 6 of the disabled-freeze vector: the shot. -/
theorem test_trTick_fires : (after .trTick (armed .pressDebounce 2 0 3 true)).tr =
      ⟨.releaseDebounce, 0, 1, false, true, false, 2⟩ ∧
    (after .trTick (armed .pressDebounce 2 0 3 true)).tx.startRequested = true := by decide +kernel
/-- Tick 3 of the vector: a bounce. -/
theorem test_trTick_bounce : (after .trTick (armed .pressDebounce 2 0 3 false)).tr =
    ⟨.idle, 2, 0, false, true, false, 3⟩ := by decide +kernel
theorem test_trEnable : (after .trEnable start).tr.enabled = true := by decide +kernel
theorem test_trDisable : (after .trDisable (armed .pressDebounce 1 0 3 true)).tr =
    ⟨.pressDebounce, 1, 0, false, false, false, 3⟩ := by decide +kernel
theorem test_trGetshots : (after .trGetshots (armed .idle 0 0 65535 false)).resp = [.int 65535] := by
  decide +kernel
theorem test_trSetshots : (after (.trSetshots 65535) start).tr.remainingShotCount = 65535 := by
  decide +kernel
theorem test_trReload : (after .trReload start).tr.remainingShotCount = 3 ∧
    (after .trReload start).notify = [⟨.reload, 0⟩] := by decide +kernel

/-! Transmitter (V-TX (a): TX_PERIOD_TICKS[0] = 4, TX_BURST_TICKS = 8). -/

theorem test_txInit :
    (after .txInit { start with tx := ⟨.transmit, 5, 1, true, 3, 2, true, true⟩ }).tx =
      ⟨.low, 0, 0, false, 0, 0, false, false⟩ := by decide +kernel
theorem test_txStart : (after .txStart start).tx = { start.tx with startRequested := true } := by
  decide +kernel
theorem test_txRunning :
    (after .txRunning { start with tx := ⟨.transmit, 1, 1, false, 0, 0, false, true⟩ }).resp =
      [.int 1] := by decide +kernel
/-- After tick 2 the pin has been high for HALF = 2 ticks: it toggles on tick 3. -/
theorem test_txTick_toggles :
    (after .txTick { start with tx := ⟨.transmit, 2, 2, false, 0, 0, false, true⟩ }).tx =
      ⟨.transmit, 3, 1, false, 0, 0, false, false⟩ := by decide +kernel
/-- Tick 9: the burst is over. -/
theorem test_txTick_ends :
    (after .txTick { start with tx := ⟨.transmit, 8, 2, false, 0, 0, false, false⟩ }).tx =
      ⟨.low, 8, 2, false, 0, 0, false, false⟩ := by decide +kernel
theorem test_txSetfreq : (after (.txSetfreq 2) start).tx.frequencyNumber = 2 := by decide +kernel
theorem test_txSetfreq_operand : (after (.txSetfreq 10) start).tx = start.tx ∧
    (after (.txSetfreq 10) start).diag = [⟨.invalidIndex, 0x7400000A⟩] := by decide +kernel
theorem test_txGetfreq :
    (after .txGetfreq { start with tx := ⟨.low, 0, 0, false, 2, 0, false, false⟩ }).resp = [.int 2] := by
  decide +kernel
theorem test_txSetcont : (after (.txSetcont true) start).tx.continuousMode = true := by decide +kernel

/-! TICK and the step (program P1). -/

/-- Program P1, line 7. -/
theorem test_tick : (after (.tick 14)
      { start with sr := ⟨[(0, 10), (1, 11), (2, 12), (3, 13)], 0, 0, 4⟩ }).sr =
    ⟨[(0, 14), (1, 11), (2, 12), (3, 13)], 1, 1, 4⟩ := by decide +kernel
/-- V-TR: a shot starts the Transmitter's burst on the same tick. -/
theorem test_tick_order : (after (.tick 0) (armed .pressDebounce 2 0 3 true)).tx =
    ⟨.transmit, 1, 1, false, 0, 0, false, true⟩ := by decide +kernel
theorem test_step_fetches_command :
    (stepped (State.reset.withFetchWord 32 0x02000007)).sr = oneSample.sr := by decide +kernel
theorem test_step_fetches_tick :
    (stepped (State.reset.withFetchWord 16 0xF007)).sr = oneSample.sr := by decide +kernel
theorem test_step_illegal : (stepped { start with cfg := cfg, cmd := [.head 0x06000000] }).diag =
    [⟨.illegalCommand, 0x06000000⟩] := by decide +kernel
theorem test_step_reset : stepped { busy with schedule := [.reset], trigIn := true } =
    State.resetWith cfg true := by decide +kernel

/-! ### Witnesses: states and operands that meet the hypotheses of each statement, clause by clause -/

/-- The outcome is a next state, as a Bool. -/
def isNext (o : Host.Outcome State Fault Refusal) : Bool :=
  match o with
  | .next _ => true
  | _ => false

theorem exists_next {o : Host.Outcome State Fault Refusal} (h : isNext o = true) :
    ∃ t, o = .next t := by
  cases o with
  | next t => exact ⟨t, rfl⟩
  | fault r => cases h
  | refused r => cases h

theorem start_queuesWf : queuesWf start := resetWith_queuesWf cfg false

theorem start_queuesFull : queuesFull start := by
  intro q
  simp [start, State.queue, State.capacity, State.resetWith, HistoryQueue.reset]

/-- `start` with an SR_PUSH on CMD. -/
def pushing : State := { start with cmd := [.head 0x02000007] }

theorem pushing_steps : ∃ t, step pushing = .next t := exists_next (by decide +kernel)

theorem witness_DecodedHeadEncodesBack :
    decodeHead 0x02000ABC noPayload = .ok (.srPush 0xABC) ∧ decodeHead 0x91140000 (.exact 6) = .ok (.hqOpush 20 (.exact 6)) := by
  decide +kernel

theorem witness_StepRunsDecodedInstruction_command : ∃ (s : State) (h : Head) (payload : NUM)
    (rest : List CmdWord) (i : Instr), foregroundIsNext s ∧ s.seq.phase = .idle ∧
    s.cmd = issuedWords h payload ++ rest ∧ decodeHead h payload = .ok i :=
  ⟨pushing, 0x02000007, noPayload, [], .srPush 7, ⟨rfl, .inl rfl⟩, rfl, by decide +kernel, by decide +kernel⟩

theorem witness_StepRunsDecodedInstruction_payload : ∃ (s : State) (h : Head) (payload : NUM)
    (rest : List CmdWord) (i : Instr), foregroundIsNext s ∧ s.seq.phase = .idle ∧
    s.cmd = issuedWords h payload ++ rest ∧ decodeHead h payload = .ok i :=
  ⟨{ start with cmd := [.head 0x90010000, .payload (.exact 5)], schedule := [.foreground] }, 0x90010000,
    .exact 5, [],
    .hqPush 1 (.exact 5), ⟨rfl, .inr ⟨[], rfl⟩⟩, rfl, by decide +kernel, by decide +kernel⟩

theorem witness_StepRunsDecodedInstruction_tick : ∃ (s : State) (w : TickWord) (rest : List Event),
    s.tickPending = false ∧ s.schedule = .tick w :: rest :=
  ⟨{ start with schedule := [.tick 0xF123] }, 0xF123, [], rfl, rfl⟩

theorem witness_StepRunsDecodedInstruction_held : ∃ s : State, s.tickPending = true :=
  ⟨{ start with tickPending := true, heldTick := 5 }, rfl⟩

theorem witness_IllegalCommandStep : ∃ (s : State) (h : Head) (payload : NUM) (rest : List CmdWord),
    foregroundIsNext s ∧ s.seq.phase = .idle ∧ s.cmd = issuedWords h payload ++ rest ∧
    ∀ r ∈ opcodeRows, h &&& r.mask ≠ r.pattern :=
  ⟨{ start with cmd := [.head 0x31000400] }, 0x31000400, noPayload, [], ⟨rfl, .inl rfl⟩, rfl,
    by decide +kernel, by decide +kernel⟩

theorem witness_IllegalCommandStep_payload : ∃ (s : State) (h : Head) (payload : NUM)
    (rest : List CmdWord), foregroundIsNext s ∧ s.seq.phase = .idle ∧
    s.cmd = issuedWords h payload ++ rest ∧ ∀ r ∈ opcodeRows, h &&& r.mask ≠ r.pattern :=
  ⟨{ start with cmd := [.head 0x92000000, .payload (.exact 3)] }, 0x92000000, .exact 3, [], ⟨rfl, .inl rfl⟩, rfl,
    by decide +kernel, by decide +kernel⟩

theorem witness_OperandErrorStep : ∃ (s : State) (h : Head) (payload : NUM) (rest : List CmdWord)
    (i : Instr), foregroundIsNext s ∧ s.seq.phase = .idle ∧ s.cmd = issuedWords h payload ++ rest ∧
    decodeHead h payload = .ok i ∧ i.wf = false :=
  ⟨{ start with cmd := [.head 0x90160000, .payload (.exact 5)] }, 0x90160000, .exact 5, [],
    .hqPush 22 (.exact 5),
    ⟨rfl, .inl rfl⟩, rfl, by decide +kernel, by decide +kernel, rfl⟩

theorem witness_CommandsWaitForTheRun : ∃ s : State, s.seq.phase ≠ .idle :=
  ⟨{ pushing with seq := ⟨.pop, 1, true, 0⟩ }, by decide⟩

theorem witness_MaskedStepHoldsTick_masked : ∃ (s : State) (w : TickWord) (rest : List Event),
    s.tickPending = false ∧ s.schedule = .foregroundAndTick w :: rest ∧ irqMask s = true :=
  ⟨{ pushing with schedule := [.foregroundAndTick 9] }, 9, [], rfl, rfl, by decide +kernel⟩

theorem witness_MaskedStepHoldsTick_pop : ∃ (s : State) (w : TickWord) (rest : List Event),
    s.tickPending = false ∧ s.schedule = .foregroundAndTick w :: rest ∧ irqMask s = true :=
  ⟨{ oneSample with seq := ⟨.pop, 1, true, 0⟩, schedule := [.foregroundAndTick 9] }, 9, [], rfl, rfl,
    rfl⟩

theorem witness_MaskedStepHoldsTick_unmasked : ∃ (s : State) (w : TickWord) (rest : List Event),
    s.tickPending = false ∧ s.schedule = .foregroundAndTick w :: rest ∧ irqMask s = false :=
  ⟨{ oneSample with seq := ⟨.pop, 1, false, 0⟩, schedule := [.foregroundAndTick 9] }, 9, [], rfl, rfl,
    rfl⟩

/-- CMD empty; a head whose payload has not come; a payload where a head is due; a head where a payload
is due. -/
theorem witness_StepStopsOnlyOutOfStep (cmd : List CmdWord)
    (h : cmd ∈ [[], [.head 0x90010000], [.payload (.exact 5)], [.head 0x90010000, .head 0x01000000]]) :
    let s := { start with cmd := cmd }
    foregroundIsNext s ∧ s.seq.phase = .idle ∧
      (((s.cmd = [] ∨ ∃ h : Head, h.getLsbD 31 = true ∧ s.cmd = [.head h])) ∨
        (∃ v rest, s.cmd = .payload v :: rest) ∨
        ∃ (h h' : Head) (rest : List CmdWord), h.getLsbD 31 = true ∧ s.cmd = .head h :: .head h' :: rest) := by
  refine ⟨⟨rfl, .inl rfl⟩, rfl, ?_⟩
  simp only [List.mem_cons, List.not_mem_nil, or_false] at h
  rcases h with rfl | rfl | rfl | rfl
  · exact .inl (.inl rfl)
  · exact .inl (.inr ⟨_, by decide, rfl⟩)
  · exact .inr (.inl ⟨_, _, rfl⟩)
  · exact .inr (.inr ⟨_, _, _, by decide, rfl⟩)

theorem witness_ConfigurationNeverChanges : ∃ s t : State, step s = .next t :=
  ⟨pushing, pushing_steps⟩

theorem witness_OutputsAppendOnly : ∃ s t : State, step s = .next t ∧
    (s.tickPending = true ∨ ∀ rest, s.schedule ≠ .reset :: rest) := by
  obtain ⟨t, h⟩ := pushing_steps
  exact ⟨pushing, t, h, .inr fun _ e => by cases e⟩

theorem witness_ResetEventReachesResetState : ∃ (s : State) (rest : List Event),
    s.tickPending = false ∧ s.schedule = .reset :: rest :=
  ⟨{ busy with schedule := [.reset, .foreground] }, [.foreground], rfl, rfl⟩

theorem witness_StepKeepsStorageForm : ∃ s t : State, storageWf s ∧ numbersOwned s ∧
    step s = .next t := by
  obtain ⟨t, h⟩ := pushing_steps
  refine ⟨pushing, t, ⟨resetWith_inRange cfg false, start_queuesWf⟩, ⟨?_, ?_, rfl, ?_, ?_⟩, h⟩
  · decide +kernel
  · decide +kernel
  · intro v e; cases e
  · intro v e; simp [pushing] at e

theorem witness_StepKeepsRingOrder : ∃ s t : State, storageWf s ∧ ringLinked s ∧
    ticksUnprotectedRun s = false ∧ step s = .next t := by
  obtain ⟨t, h⟩ := pushing_steps
  exact ⟨pushing, t, ⟨resetWith_inRange cfg false, start_queuesWf⟩, by unfold ringLinked; decide,
    by decide +kernel, h⟩

/-- Every counter at its bound: LOCKOUT_TICKS = 3, DEBOUNCE_TICKS = 2, RELOAD_HOLD_TICKS = 4,
BURST = 8, HALF = 2. -/
def atBounds : State := { start with
  lt := ⟨.active, 3, false⟩
  iv := ⟨.active, 7, false, 8⟩
  tr := ⟨.releaseDebounce, 2, 4, false, true, false, 0⟩
  tx := ⟨.transmit, 8, 2, false, 0, 0, false, true⟩
  schedule := [.tick 0] }

theorem witness_StepKeepsTimerBounds : ∃ s t : State, timersBounded s ∧ step s = .next t := by
  obtain ⟨t, h⟩ : ∃ t, step atBounds = .next t := exists_next (by decide +kernel)
  exact ⟨atBounds, t, by unfold timersBounded; decide +kernel, h⟩

/-- Bounds of 2^32 - 1, but for BURST = 2^32 and HALF = 2^32, which R8 admits. -/
def wideCfg : Config := { cfg with
  tickRateHz := 5 * 2 ^ 32
  lockoutTicks := 2 ^ 32 - 1
  debounceTicks := 2 ^ 32 - 1
  reloadHoldTicks := 2 ^ 32 - 1
  txPeriodTicks := Vector.replicate 10 (2 ^ 33)
  tickRateHz_range := by decide +kernel
  lockoutTicks_range := by decide +kernel
  debounceTicks_range := by decide +kernel
  reloadHoldTicks_range := by decide +kernel
  txPeriodTicks_range := by decide +kernel }

/-- Every counter one tick below its bound in `wideCfg`. -/
def belowWideBounds : State := { start with
  cfg := wideCfg
  lt := ⟨.active, 0xFFFFFFFE, false⟩
  iv := ⟨.active, 0xFFFFFFFE, false, 0xFFFFFFFF⟩
  tr := ⟨.pressDebounce, 0xFFFFFFFE, 0xFFFFFFFE, false, true, false, 0⟩
  tx := ⟨.transmit, 0xFFFFFFFF, 0xFFFFFFFF, false, 0, 0, false, true⟩
  trigIn := true
  schedule := [.tick 0] }

theorem witness_StepKeepsTimerBounds_wide : ∃ s t : State, timersBounded s ∧ step s = .next t := by
  obtain ⟨t, h⟩ : ∃ t, step belowWideBounds = .next t := exists_next (by decide +kernel)
  exact ⟨belowWideBounds, t, by unfold timersBounded; decide +kernel, h⟩

/-- A burst of 2^32 ticks ends after its last one, and before a toggle. -/
theorem test_wideBounds : (stepped belowWideBounds).tx.elapsedTicks = 2 ^ 32 ∧
    (stepped (stepped { belowWideBounds with schedule := [.tick 0, .tick 0] })).tx =
      ⟨.low, 2 ^ 32, 2 ^ 32, false, 0, 0, false, false⟩ := by decide +kernel

theorem witness_StepKeepsSequencerForm : ∃ s t : State, sequencerWf s ∧ step s = .next t := by
  let s : State := { fullRing with seq := ⟨.pop, 4, true, 0⟩ }
  obtain ⟨t, h⟩ : ∃ t, step s = .next t := exists_next (by decide +kernel)
  exact ⟨s, t, by unfold sequencerWf; decide +kernel, h⟩

theorem start_powersExact : powersExact start := by unfold powersExact; decide +kernel

/-- The FILTER step that completes a window. -/
def filtering : State := { start with
  seq := ⟨.filter, 0, true, 4095⟩
  det := { start.det with decimationCounter := 9 } }

theorem witness_StepKeepsFilterReady : ∃ s t : State, queuesWf s ∧ queuesFull s ∧
    s.cfg.num = .exact ∧ powersExact s ∧ runsQueueMutator s = false ∧ step s = .next t := by
  obtain ⟨t, h⟩ : ∃ t, step filtering = .next t := exists_next (by decide +kernel)
  exact ⟨filtering, t, start_queuesWf, start_queuesFull, rfl, start_powersExact, by decide +kernel, h⟩

theorem witness_SrPushResult_full : Memory.wf unlistedSample fullRing.cfg.ringCapacity
    fullRing.sr.mem = true ∧ fullRing.sr.count = fullRing.cfg.ringCapacity := by decide +kernel

theorem witness_SrPushResult_room : Memory.wf unlistedSample start.cfg.ringCapacity
    start.sr.mem = true ∧ start.sr.count ≠ start.cfg.ringCapacity := by decide +kernel

theorem witness_SrPopInitAndAccessors : start.sr.count = 0 ∧ oneSample.sr.count ≠ 0 := by decide

theorem witness_RingIsFirstInFirstOut : ringInRange fullRing ∧ ringLinked fullRing := by
  unfold ringInRange ringLinked; decide +kernel

theorem witness_OverwriteKeepsNewest_ring : ringInRange start ∧ ringLinked start ∧
    ([10, 11, 12, 13] : List AdcCode).length = start.cfg.ringCapacity := by
  unfold ringInRange ringLinked; decide +kernel

theorem witness_OverwriteKeepsNewest_queue : ∃ hq : (21#5).toNat < 22,
    (start.queue ⟨(21#5).toNat, hq⟩).wf start.cfg.num (start.capacity ⟨(21#5).toNat, hq⟩) ∧
    ([.exact 10, .exact 11] : List NUM).length = start.capacity ⟨(21#5).toNat, hq⟩ :=
  ⟨by decide, start_queuesWf _, rfl⟩

/-- Queue 21 full, then with room, empty, and holding one element. -/
theorem witness_HqPushAndPopResult : ∃ hq : (21#5).toNat < 22,
    let id : QueueId := ⟨(21#5).toNat, hq⟩
    let room := start.setQueue 21 ⟨[], 0, 1, 1, false, false⟩
    let empty := start.setQueue 21 ⟨[], 0, 0, 0, false, false⟩
    (start.queue id).count = start.capacity id ∧
    ((room.queue id).count ≠ room.capacity id ∧
      Memory.wf (unlistedNum room.cfg.num) (room.capacity id) (room.queue id).mem = true) ∧
    (empty.queue id).count = 0 ∧ (room.queue id).count ≠ 0 := by decide +kernel

theorem witness_HqOpushResult : ∃ hq : (0#5).toNat < 22,
    (start.queue ⟨(0#5).toNat, hq⟩).wf start.cfg.num (start.capacity ⟨(0#5).toNat, hq⟩) :=
  ⟨by decide, start_queuesWf _⟩

/-- Ages 1 and 2 of a full queue of capacity 2. -/
theorem witness_HqReadatResult : ∃ hq : (21#5).toNat < 22,
    let x := start.queue ⟨(21#5).toNat, hq⟩
    (1#16).toNat < x.count ∧ x.count ≤ (2#16).toNat := by decide +kernel

theorem witness_HqInitAndAccessors : (21#5).toNat < 22 := by decide

theorem witness_FilterStepAcceptsSample : ∃ s : State, foregroundIsNext s ∧ s.seq.phase = .filter ∧
    (s.queue queueX).wf s.cfg.num 81 ∧ s.det.decimationCounter.val = 8 :=
  ⟨{ filtering with det := { start.det with decimationCounter := 8 } }, ⟨rfl, .inl rfl⟩, rfl,
    start_queuesWf queueX, rfl⟩

/-- The FILTER step that completes a window, over full queues and over queues that software emptied:
queue Y, and the power window of channel 9. -/
def filteringShort : State :=
  (filtering.setQueue 1 ⟨[], 0, 0, 0, true, false⟩).setQueue 21 ⟨[], 1, 0, 1, false, true⟩

theorem filteringShort_queuesWf : queuesWf filteringShort :=
  queuesWf_setQueue (queuesWf_setQueue (start_queuesWf) (q := 1) (by unfold HistoryQueue.wf; decide))
    (q := 21) (by unfold HistoryQueue.wf; decide)

theorem witness_FilterStepComputesWindow :
    (foregroundIsNext filtering ∧ filtering.seq.phase = .filter ∧
      filtering.det.decimationCounter = 9 ∧ queuesWf filtering ∧ queuesFull filtering) ∧
    (foregroundIsNext filteringShort ∧ filteringShort.seq.phase = .filter ∧
      filteringShort.det.decimationCounter = 9 ∧ queuesWf filteringShort ∧
      ¬ queuesFull filteringShort) :=
  ⟨⟨⟨rfl, .inl rfl⟩, rfl, rfl, start_queuesWf, start_queuesFull⟩,
    ⟨rfl, .inl rfl⟩, rfl, rfl, filteringShort_queuesWf, fun h => by
      have := h 21; revert this; decide⟩

theorem witness_RunRaisesOnlyAllIgnored : ∃ s t : State, s.seq.phase ≠ .idle ∧ queuesWf s ∧
    queuesFull s ∧ foregroundIsNext s ∧ step s = .next t := by
  obtain ⟨t, h⟩ : ∃ t, step filtering = .next t := exists_next (by decide +kernel)
  exact ⟨filtering, t, by decide, start_queuesWf, start_queuesFull, ⟨rfl, .inl rfl⟩, h⟩

theorem witness_FbRecomputeResult : (9#4).toNat < 10 ∧ start.cfg.num = .exact ∧ powersExact start :=
  ⟨by decide, rfl, start_powersExact⟩

theorem witness_FbReadouts : (9#4).toNat < 10 ∧ (80#8).toNat < 81 ∧ (10#8).toNat < 11 ∧
    (4#8).toNat < 5 := by decide

/-- The exact NUM orders the powers; the maximum is 0 in the first state and not in the second. -/
theorem witness_FbNormResult :
    (ordersPowers start.cfg.num start.fb.power ∧
      ∀ c : Channel, numIsZero start.cfg.num start.fb.power[c] = true) ∧
    (ordersPowers loud.cfg.num loud.fb.power ∧
      ∀ c : Channel, numIsZero loud.cfg.num loud.fb.power[c] = false) := by
  unfold ordersPowers; decide +kernel

theorem witness_NumBitForm : (∃ f, NumSystem.binary64.numerics.bitForm = some f) ∧
    NumSystem.binary64.owns (.binary64 0x8000000000000000) = true ∧
    (BitVec.ofNat 32 0x90010000).getLsbD 31 = true ∧ b64Finite 0x8000000000000000 = true ∧
    b64Finite 0x7FEFFFFFFFFFFFFF = true ∧
    (∃ f, (NumSystem.tables fixedTables).numerics.bitForm = some f) ∧
    (NumSystem.tables fixedTables).owns (.value 15) = true := by
  refine ⟨⟨_, rfl⟩, ?_, ?_, ?_, ?_, ⟨_, rfl⟩, ?_⟩ <;> decide +kernel

theorem witness_PinEventSetsTrigIn : ∃ s t u : State,
    (s.tickPending = false ∧ s.schedule = .pin true :: []) ∧ step t = .next u ∧
    ∀ level rest, t.schedule ≠ .pin level :: rest := by
  obtain ⟨u, h⟩ := pushing_steps
  exact ⟨{ start with schedule := [.pin true] }, pushing, u, ⟨rfl, rfl⟩, h, fun _ _ e => by cases e⟩

/-- Two equal powers among ten, and ten binary64 powers with both zeros. -/
theorem witness_RankingIsTheStableSort :
    ordersPowers .exact powersS1 ∧
    (let p : Vector NUM 10 := Vector.ofFn fun c =>
      .binary64 (if c.val = 3 then 0x8000000000000000 else 0)
    ∀ c : Channel, ∃ b, p[c] = .binary64 b ∧ b64Finite b = true) := by
  refine ⟨by unfold ordersPowers; decide +kernel, fun c => ?_⟩
  exact ⟨if c.val = 3 then 0x8000000000000000 else 0, by revert c; decide +kernel,
    by revert c; decide +kernel⟩

theorem witness_CandidateIsHighestNotIgnored : ordersPowers .exact powersS1 := by
  unfold ordersPowers; decide +kernel

/-- A DECIDE step over the powers of 95_test_vectors.md S1. -/
def deciding (ignored : BitVec 10) (fudge : Rat) (lockout : TimerState) : State := { loud with
  seq := ⟨.decide, 0, true, 0⟩
  det := { start.det with ignored := ignored, fudgeFactor := .exact fudge }
  lt := ⟨lockout, 0, false⟩ }

theorem witness_DecideStepResult : foregroundIsNext (deciding 1 3 .idle) ∧
    (deciding 1 3 .idle).seq.phase = .decide := ⟨⟨rfl, .inl rfl⟩, rfl⟩

theorem witness_DecideStepResult_gateClosed :
    ¬ ((deciding 1 3 .active).lt.state = .idle ∧ (deciding 1 3 .active).iv.state = .idle) := by decide

theorem witness_DecideStepResult_clauses :
    let cand := fun s : State =>
      (rankChannels s.cfg.num s.fb.power).reverse.find? fun c => !s.det.ignored.getLsbD c.val
    let threshold := fun s : State =>
      numMul s.cfg.num s.fb.power[(rankChannels s.cfg.num s.fb.power).getD 4 0] s.det.fudgeFactor
    cand (deciding 0x3FF 3 .idle) = none ∧
    (cand (deciding 0 6 .idle) = some 0 ∧
      numLe .exact (threshold (deciding 0 6 .idle)) (deciding 0 6 .idle).fb.power[(0 : Channel)] =
        true) ∧
    (cand (deciding 1 4 .idle) = some 9 ∧
      numLe .exact (threshold (deciding 1 4 .idle)) (deciding 1 4 .idle).fb.power[(9 : Channel)] =
        false) := by
  decide +kernel

/-- The POP step of a ring that holds a sample, and of an empty one. -/
theorem witness_DetRunEntryAndPop : ∃ s u : State,
    (foregroundIsNext s ∧ s.seq.phase = .pop ∧ s.sr.count ≠ 0) ∧
    (foregroundIsNext u ∧ u.seq.phase = .pop ∧ u.sr.count = 0) :=
  ⟨{ oneSample with seq := ⟨.pop, 1, true, 0⟩ }, { start with seq := ⟨.pop, 1, false, 0⟩ },
    ⟨⟨rfl, .inl rfl⟩, rfl, by decide⟩, ⟨rfl, .inl rfl⟩, rfl, rfl⟩

theorem witness_RunStepsCountDown_foreground : ∃ s : State, sequencerWf s ∧ foregroundIsNext s ∧
    s.seq.phase ≠ .idle :=
  ⟨{ fullRing with seq := ⟨.pop, 4, true, 0⟩ }, by unfold sequencerWf; decide +kernel,
    ⟨rfl, .inl rfl⟩, by decide⟩

/-- A TICK that arrives with a masked POP step, and one with a FILTER step. -/
theorem witness_RunStepsCountDown_arrival : ∃ (s u : State) (w : TickWord),
    (sequencerWf s ∧ s.seq.phase ≠ .idle ∧ s.tickPending = false ∧
      s.schedule = .foregroundAndTick w :: [] ∧ irqMask s = true) ∧
    (sequencerWf u ∧ u.seq.phase ≠ .idle ∧ u.tickPending = false ∧
      u.schedule = .foregroundAndTick w :: [] ∧ irqMask u = false) :=
  ⟨{ fullRing with seq := ⟨.pop, 4, true, 0⟩, schedule := [.foregroundAndTick 3] },
    { fullRing with seq := ⟨.filter, 3, true, 0⟩, schedule := [.foregroundAndTick 3] }, 3,
    ⟨by unfold sequencerWf; decide +kernel, by decide, rfl, rfl, rfl⟩,
    by unfold sequencerWf; decide +kernel, by decide, rfl, rfl, rfl⟩

theorem witness_RunStepsCountDown_pending : ∃ s : State, s.tickPending = true ∧
    s.seq.phase = .filter :=
  ⟨{ fullRing with seq := ⟨.filter, 3, true, 0⟩, tickPending := true, heldTick := 3 }, rfl, rfl⟩

theorem witness_RunStepsCountDown_events : ∃ (s u : State) (w : TickWord),
    s.schedule = .tick w :: [] ∧ u.tickPending = false ∧ u.schedule = .pin true :: [] :=
  ⟨{ start with schedule := [.tick 3] }, { start with schedule := [.pin true] }, 3, rfl, rfl, rfl⟩

/-- With four samples in the ring, and with none; k = 1 lies before the end of the first only. -/
theorem witness_DetRunCompletes : ∃ (s u : State) (b : Bool) (rest : List CmdWord),
    (s.tickPending = false ∧ s.schedule = [] ∧ s.seq.phase = .idle ∧
      s.cmd = .head (encodeHead (.detRun b)) :: rest ∧ s.sr.count = 4) ∧
    (u.tickPending = false ∧ u.schedule = [] ∧ u.seq.phase = .idle ∧
      u.cmd = .head (encodeHead (.detRun b)) :: rest ∧ u.sr.count = 0) :=
  ⟨{ fullRing with cmd := [.head 0x32000001] }, { start with cmd := [.head 0x32000001] }, true, [],
    ⟨rfl, rfl, rfl, by decide +kernel, rfl⟩, rfl, rfl, rfl, by decide +kernel, rfl⟩

theorem witness_HitCountsNeverDecrease : ∃ s t : State, step s = .next t ∧
    (∀ s', nextWork s ≠ .run .detInit s') ∧
    (s.tickPending = true ∨ ∀ rest, s.schedule ≠ .reset :: rest) := by
  obtain ⟨t, h⟩ : ∃ t, step (deciding 0 6 .idle) = .next t := exists_next (by decide +kernel)
  exact ⟨_, t, h, fun _ => Work.noConfusion, .inr fun _ e => by cases e⟩

theorem witness_TickResult : unprotectedRun start = false := by decide

theorem witness_TickFrame : ∃ s u t : State, exec (.tick 0) s = .next t ∧ t.iv.state = s.iv.state ∧
    unprotectedRun s = false ∧ unprotectedRun u = true :=
  ⟨start, { start with seq := ⟨.pop, 1, false, 0⟩ }, _, rfl, by decide +kernel, by decide, by decide⟩

theorem witness_TickCommutesWithFilter : filtering.tickPending = false ∧
    filtering.seq.phase = .filter ∧ filtering.seq.irqEn = true := ⟨rfl, rfl, rfl⟩

/-- LOCKOUT_TICKS = 3: the last tick that stays ACTIVE, and the one that ends. -/
theorem witness_LockoutCommands :
    (start.lt.state = .idle ∧ start.lt.startRequested = false) ∧
    (let s : State := { start with lt := ⟨.idle, 0, true⟩ };
      s.lt.state = .idle ∧ s.lt.startRequested = true) ∧
    (let s : State := { start with lt := ⟨.active, 3, false⟩ };
      s.lt.state = .active ∧ s.cfg.lockoutTicks ≤ s.lt.elapsedTicks.toNat) ∧
    (let s : State := { start with lt := ⟨.active, 2, false⟩ };
      s.lt.state = .active ∧ s.lt.elapsedTicks.toNat < s.cfg.lockoutTicks) := by decide +kernel

theorem witness_InvincibilityCommands :
    (let s : State := { start with iv := ⟨.idle, 0, true, 0⟩ };
      s.iv.state = .idle ∧ (s.iv.startRequested = false ∨ s.iv.durationTicks = 0)) ∧
    (let s : State := { start with iv := ⟨.idle, 0, true, 1⟩ };
      s.iv.state = .idle ∧ s.iv.startRequested = true ∧ s.iv.durationTicks ≠ 0) ∧
    (let s : State := { start with iv := ⟨.active, 8, false, 8⟩ };
      s.iv.state = .active ∧ s.iv.durationTicks ≤ s.iv.elapsedTicks) ∧
    (let s : State := { start with iv := ⟨.active, 7, false, 8⟩ };
      s.iv.state = .active ∧ s.iv.elapsedTicks < s.iv.durationTicks) := by decide +kernel

theorem witness_TriggerTick_idle :
    start.tr.enabled = false ∧
    (let s := armed .idle 0 0 3 false;
      s.tr.enabled = true ∧ s.tr.state = .idle ∧
        ¬ (s.trigIn = true ∧ s.tr.ignoreInput = false)) ∧
    (let s := armed .idle 0 0 3 true;
      s.tr.enabled = true ∧ s.tr.state = .idle ∧ s.trigIn = true ∧ s.tr.ignoreInput = false) := by
  decide +kernel

theorem witness_TriggerTick_press :
    (let s := armed .pressDebounce 1 0 3 false;
      s.tr.enabled = true ∧ s.tr.state = .pressDebounce ∧
        ¬ (s.trigIn = true ∧ s.tr.ignoreInput = false)) ∧
    (let s := armed .pressDebounce 1 0 3 true;
      s.trigIn = true ∧ s.tr.ignoreInput = false ∧
        s.tr.elapsedTicks.toNat < s.cfg.debounceTicks) ∧
    (let s := armed .pressDebounce 2 0 3 true;
      s.cfg.debounceTicks ≤ s.tr.elapsedTicks.toNat ∧ s.tr.remainingShotCount ≠ 0) ∧
    (let s := armed .pressDebounce 2 0 0 true;
      s.cfg.debounceTicks ≤ s.tr.elapsedTicks.toNat ∧ s.tr.remainingShotCount = 0) := by
  decide +kernel

theorem witness_TriggerTick_release :
    (let s := armed .releaseDebounce 0 3 3 true;
      s.tr.enabled = true ∧ s.tr.state = .releaseDebounce ∧ s.trigIn = true ∧
        s.tr.ignoreInput = false ∧ s.tr.holdTicks.toNat < s.cfg.reloadHoldTicks) ∧
    (let s := armed .releaseDebounce 0 4 3 true;
      s.trigIn = true ∧ s.tr.ignoreInput = false ∧
        s.cfg.reloadHoldTicks ≤ s.tr.holdTicks.toNat) ∧
    (let s := armed .releaseDebounce 1 1 3 false;
      ¬ (s.trigIn = true ∧ s.tr.ignoreInput = false) ∧
        s.tr.elapsedTicks.toNat < s.cfg.debounceTicks) ∧
    (let s := armed .releaseDebounce 2 0 3 false;
      ¬ (s.trigIn = true ∧ s.tr.ignoreInput = false) ∧
        s.cfg.debounceTicks ≤ s.tr.elapsedTicks.toNat) := by decide +kernel

theorem witness_InputLatchIsPermanent : ∃ s t : State, step s = .next t ∧
    (∀ s', nextWork s ≠ .run .trInit s') ∧
    (s.tickPending = true ∨ ∀ rest, s.schedule ≠ .reset :: rest) ∧
    s.tr.ignoreInput = true ∧ s.tr.state = .idle ∧
    (∀ u s', nextWork s ≠ .run (.trSetshots u) s') ∧ (∀ s', nextWork s ≠ .run .trReload s') := by
  let s : State := { start with
    tr := ⟨.idle, 0, 0, false, true, true, 3⟩
    trigIn := true
    schedule := [.tick 0] }
  obtain ⟨t, h⟩ : ∃ t, step s = .next t := exists_next (by decide +kernel)
  have hw : nextWork s = .run (.tick 0) { s with schedule := [] } := rfl
  refine ⟨s, t, h, ?_, .inr ?_, rfl, rfl, ?_, ?_⟩
  · intro s' e; rw [hw] at e; cases e
  · intro rest e; cases e
  · intro u s' e; rw [hw] at e; cases e
  · intro s' e; rw [hw] at e; cases e

/-- DEBOUNCE_TICKS = 2, RELOAD_HOLD_TICKS = 4: the lists of 1, 2, 3 and 7 ticks are the clauses'
boundaries. -/
theorem witness_PressFiresAndReloads :
    let s := armed .idle 0 0 3 true
    s.tr.enabled = true ∧ s.tr.state = .idle ∧ s.trigIn = true ∧ s.tr.ignoreInput = false ∧
    (1 ≤ (List.replicate 1 (0 : AdcCode)).length ∧
      (List.replicate 1 (0 : AdcCode)).length ≤ s.cfg.debounceTicks) ∧
    (1 ≤ (List.replicate 2 (0 : AdcCode)).length ∧
      (List.replicate 2 (0 : AdcCode)).length ≤ s.cfg.debounceTicks) ∧
    (List.replicate 3 (0 : AdcCode)).length = s.cfg.debounceTicks + 1 ∧
    s.tr.remainingShotCount ≠ 0 ∧ s.tx.state = .low ∧ s.tx.startRequested = false ∧
    (List.replicate 7 (0 : AdcCode)).length = s.cfg.debounceTicks + 1 + s.cfg.reloadHoldTicks := by
  decide +kernel

theorem witness_TransmitterCommands : (9#4).toNat < 10 := by decide

/-- `start` with the Transmitter at these counters; BURST = 8, HALF = 2. -/
def sending (elapsed half : Nat) (continuous : Bool) : State :=
  { start with tx := ⟨.transmit, elapsed, half, false, 0, 0, continuous, true⟩ }

theorem witness_TransmitterTick :
    let burst := fun s : State =>
      if s.cfg.txTestMode then s.cfg.txBurstTicksTest else max 1 (s.cfg.tickRateHz / 5)
    let half := fun s : State => s.cfg.txPeriodTicks[s.tx.activeFrequency] / 2
    (start.tx.state = .low ∧ start.tx.startRequested = false) ∧
    (let s : State := { start with tx := { start.tx with startRequested := true } };
      s.tx.state = .low ∧ s.tx.startRequested = true) ∧
    (let s := sending 8 2 true;
      burst s ≤ s.tx.elapsedTicks ∧ s.tx.continuousMode = true) ∧
    (let s := sending 8 2 false;
      burst s ≤ s.tx.elapsedTicks ∧ s.tx.continuousMode = false) ∧
    (let s := sending 7 2 false;
      s.tx.elapsedTicks < burst s ∧ half s ≤ s.tx.halfTicks) ∧
    (let s := sending 7 1 false;
      s.tx.elapsedTicks < burst s ∧ s.tx.halfTicks < half s) := by decide +kernel

/-- D = 3, 40 and 8 in this configuration: 1, D and D + 1 ticks of each. -/
theorem witness_TimerLifecycle :
    let ticks := fun k : Nat => List.replicate k (0 : AdcCode)
    let d := min ((1#16).toNat * start.cfg.tickRateHz) (2 ^ 32 - 1)
    start.lt.state = .idle ∧ (start.iv.state = .idle ∧ (1#16) ≠ 0) ∧
    (start.tx.state = .low ∧ start.tx.continuousMode = false) ∧
    1 ≤ (ticks 1).length ∧
    (1 ≤ (ticks 3).length ∧ (ticks 3).length ≤ start.cfg.lockoutTicks ∧
      (ticks 4).length = start.cfg.lockoutTicks + 1) ∧
    (1 ≤ (ticks 40).length ∧ (ticks 40).length ≤ d ∧ (ticks 41).length = d + 1) ∧
    (1 ≤ (ticks 8).length ∧ (ticks 8).length ≤ start.cfg.burst ∧
      (ticks 9).length = start.cfg.burst + 1) := by decide +kernel

theorem witness_BurstWaveform : start.tx.state = .low ∧
    1 ≤ (List.replicate 1 (0 : AdcCode)).length ∧
    (List.replicate 1 (0 : AdcCode)).length ≤ start.cfg.burst ∧
    1 ≤ (List.replicate 8 (0 : AdcCode)).length ∧
    (List.replicate 8 (0 : AdcCode)).length ≤ start.cfg.burst := by decide +kernel

end Sys2Proof.Tests
end

/-! SUPPORT. What a step does, what RESET leads to, and that no step changes the configuration. -/

namespace Sys2Proof.Machine

/-! ### The step, as every invariant reads it -/

/-- What the next step is, with the words on CMD still in place: a step of the foreground, a TICK, a
change of `trig_in`, or RESET. -/
theorem nextWork_cases (s : State) : ∃ u, SameBlock s u ∧ u.cmd = s.cmd ∧
    (nextWork s = foregroundStep u ∨ (∃ adc, nextWork s = .run (.tick adc) u) ∨
      (∃ level, nextWork s = .done { u with trigIn := level }) ∨
      nextWork s = .done (hardwareReset u)) := by
  by_cases ht : s.tickPending = true
  · refine ⟨_, ?_, ?_, .inr (.inl ⟨_, nextWork_pending ht⟩)⟩ <;> exact rfl
  have ht : s.tickPending = false := by simpa using ht
  cases hs : s.schedule with
  | nil => refine ⟨_, ?_, ?_, .inl (nextWork_foreground ⟨ht, .inl hs⟩)⟩ <;> exact rfl
  | cons e rest =>
    cases e with
    | tick w => refine ⟨_, ?_, ?_, .inr (.inl ⟨_, nextWork_tick ht hs⟩)⟩ <;> exact rfl
    | pin level =>
      exact ⟨{ s with schedule := rest }, rfl, rfl, .inr (.inr (.inl ⟨level, nextWork_pin ht hs⟩))⟩
    | reset => refine ⟨_, ?_, ?_, .inr (.inr (.inr (nextWork_reset ht hs)))⟩ <;> exact rfl
    | foreground =>
      refine ⟨_, ?_, ?_, .inl (nextWork_foreground ⟨ht, .inr ⟨rest, hs⟩⟩)⟩ <;> exact rfl
    | foregroundAndTick w =>
      cases hm : irqMask s with
      | true => refine ⟨_, ?_, ?_, .inl (nextWork_masked ht hs hm)⟩ <;> exact rfl
      | false => refine ⟨_, ?_, ?_, .inr (.inl ⟨_, nextWork_unmasked ht hs hm⟩)⟩ <;> exact rfl

/-- RESET leads to the state after reset; the words on CMD, the schedule and the count of free draws
stay (log 16). -/
theorem hardwareReset_eq (s : State) : hardwareReset s = { State.resetWith s.cfg s.trigIn with
    cmd := s.cmd, schedule := s.schedule, freeDraws := s.freeDraws } := by
  unfold hardwareReset detInit
  simp only [fbInit_eq]
  rfl

/-- No step changes the configuration. -/
theorem step_cfg_eq {s t : State} (h : step s = .next t) : t.cfg = s.cfg := by
  cases step_cases h with
  | run u i block _ result _ => rw [exec_cfg result, block.cfg]
  | pop u block _ result => rw [result, popStep_frame, block.cfg]
  | filter u block _ result =>
    obtain ⟨q, fb, g, d, p, e⟩ := filterStep_form u
    rw [result, e, block.cfg]
  | decide u block _ result =>
    obtain ⟨d, r, g, n, p, e⟩ := decideStep_form u
    rw [result, e, block.cfg]
  | wait block _ => exact block.cfg
  | illegal u h block _ result => rw [result, State.raise_cfg, block.cfg]
  | pin u level block result => rw [result, block.cfg]
  | reset u rest block _ _ result => rw [result, hardwareReset_eq, ← block.cfg]; rfl

end Sys2Proof.Machine

/-! SUPPORT. The invariants hold in the state after reset. -/

namespace Sys2Proof.Machine

/-! ### The state after reset -/

theorem resetWith_queue (cfg : Config) (pin : Bool) (q : QueueId) :
    (State.resetWith cfg pin).queue q = .reset (cfg.queueCapacity q) := by
  simp [State.queue, State.resetWith]

theorem resetWith_queuesFull (cfg : Config) (pin : Bool) :
    queuesFull (State.resetWith cfg pin) := by
  intro q
  rw [resetWith_queue]
  rfl

theorem resetWith_storageWf (cfg : Config) (pin : Bool) : storageWf (State.resetWith cfg pin) :=
  ⟨resetWith_inRange cfg pin, resetWith_queuesWf cfg pin⟩

theorem resetWith_linked (cfg : Config) (pin : Bool) : ringLinked (State.resetWith cfg pin) :=
  (Nat.zero_mod _).symm

theorem resetWith_timersBounded (cfg : Config) (pin : Bool) :
    timersBounded (State.resetWith cfg pin) := by
  simp [timersBounded, State.resetWith, LockoutTimer.reset, Trigger.reset, Transmitter.reset]

theorem resetWith_sequencerWf (cfg : Config) (pin : Bool) :
    sequencerWf (State.resetWith cfg pin) := by
  simp [sequencerWf, State.resetWith, Sequencer.reset]

theorem resetWith_power (cfg : Config) (pin : Bool) (c : Channel) :
    (State.resetWith cfg pin).fb.power[c] = numZero cfg.num := by
  simp [State.resetWith, FilterBank.reset]

theorem resetWith_numbersOwned (cfg : Config) (pin : Bool) :
    numbersOwned (State.resetWith cfg pin) := by
  refine ⟨fun q e he => ?_, fun c => ?_, cfg.fudgeReset_owned,
    fun v hv => absurd hv List.not_mem_nil, fun v hv => absurd hv List.not_mem_nil⟩
  · rw [resetWith_queue] at he
    exact absurd he List.not_mem_nil
  · rw [resetWith_power]
    exact owns_numZero _

/-- A window of zeros has the power 0. -/
theorem sumOfSquares_zeros (k : Nat) : sumOfSquares (List.replicate k (.exact 0)) = .exact 0 := by
  simp [sumOfSquares]

theorem resetWith_powersExact {cfg : Config} (hn : cfg.num = .exact) (pin : Bool) :
    powersExact (State.resetWith cfg pin) := by
  intro c
  have hz : numZero cfg.num = .exact 0 := by rw [hn, numZero_exact]
  rw [resetWith_power, queueContents_eq, resetWith_queue, HistoryQueue.contents_reset]
  show numZero cfg.num = sumOfSquares (List.replicate _ (numZero cfg.num))
  rw [hz, sumOfSquares_zeros]

/-- Settles O16. -/
theorem resetStateHasInvariants : Obligations.ResetStateHasInvariants := fun cfg pin =>
  ⟨resetWith_storageWf cfg pin, resetWith_linked cfg pin, resetWith_timersBounded cfg pin,
    resetWith_sequencerWf cfg pin, resetWith_queuesFull cfg pin, resetWith_numbersOwned cfg pin,
    fun hn => resetWith_powersExact hn pin⟩

end Sys2Proof.Machine

/-! SUPPORT. Every step keeps SampleRing and the queues in form. -/

namespace Sys2Proof.Machine

/-! ### The FILTER step, by way of the FilterBank -/

/-- A property of the configuration, the queues and the powers that accepting a sample and computing a
window keep is kept by a FILTER step. -/
theorem filterStep_ind {P : State → Prop}
    (congr : ∀ {s t : State}, t.cfg = s.cfg → t.q = s.q → t.fb = s.fb → P s → P t)
    (accept : ∀ {s : State}, P s → ∀ v, P (fbAccept v s))
    (window : ∀ {s : State}, P s → P (fbWindow s))
    {s : State} (h : P s) : P (filterStep s) := by
  have ha : P (fbAccept s.seq.sample s) := accept h _
  unfold filterStep
  generalize fbAccept s.seq.sample s = a at ha ⊢
  simp only
  split
  · have hw : P (fbWindow { a with det := { a.det with decimationCounter := 0 } }) :=
      window (congr (s := a) rfl rfl rfl ha)
    generalize fbWindow { a with det := { a.det with decimationCounter := 0 } } = w at hw ⊢
    exact congr (s := w) rfl rfl rfl hw
  · exact congr (s := a) rfl rfl rfl ha

/-! ### Storage stays in form -/

theorem storageWf_congr {s t : State} (hc : t.cfg = s.cfg) (hr : t.sr = s.sr) (hq : t.q = s.q)
    (h : storageWf s) : storageWf t :=
  ⟨ringInRange_congr hc hr h.1, queuesWf_congr hc hq h.2⟩

theorem detInit_queuesWf (s : State) : queuesWf (detInit s) := fbInit_queuesWf _

theorem takeTick_inRange {s : State} (h : ringInRange s) (adc : AdcCode) :
    ringInRange (takeTick adc s) :=
  ringInRange_congr (s := tickPush adc s) (by rw [takeTick_frame, tickPush_frame])
    (by rw [takeTick_frame]) (tickPush_inRange h adc)

/-- Every instruction keeps SampleRing within its ranges. -/
theorem exec_ringInRange {i : Instr} {u t : State} (h : exec i u = .next t) (hu : ringInRange u) :
    ringInRange t := by
  rcases exec_sr h with hr | rfl | ⟨v, rfl⟩ | rfl | ⟨adc, rfl⟩
  · exact ringInRange_congr (exec_cfg h) hr hu
  · cases h; exact srInit_inRange u
  · cases h; exact srPush_inRange hu v
  · cases h; exact ringInRange_congr (s := (srPop u).2) rfl rfl (srPop_inRange hu)
  · cases h; exact takeTick_inRange hu adc

/-- Every instruction keeps the queues well formed. -/
theorem exec_queuesWf {i : Instr} {u t : State} (h : exec i u = .next t) (hu : queuesWf u) :
    queuesWf t := by
  rcases exec_q h with hq | ⟨q, rfl⟩ | ⟨q, v, rfl⟩ | ⟨q, rfl⟩ | ⟨q, v, rfl⟩ | rfl
  · exact queuesWf_congr (exec_cfg h) hq hu
  · cases h; exact withOperand_ind _ _ _ _ _ hu fun q _ => hqInit_queuesWf hu q
  · cases h; exact withOperand_ind _ _ _ _ _ hu fun q _ => hqPush_queuesWf hu q v
  · cases h; exact withOperand_ind _ _ _ _ _ hu fun q _ => hqPop_queuesWf hu q
  · cases h; exact withOperand_ind _ _ _ _ _ hu fun q _ => hqOpush_queuesWf hu q v
  · injection h with h; rw [← h]; exact detInit_queuesWf u

theorem popStep_storageWf {s : State} (h : storageWf s) : storageWf (popStep s) :=
  ⟨ringInRange_congr (s := (srPop s).2) rfl rfl (srPop_inRange h.1),
    queuesWf_congr (by rw [popStep_frame]) (by rw [popStep_frame]) h.2⟩

theorem filterStep_storageWf {s : State} (h : storageWf s) : storageWf (filterStep s) := by
  have hq : queuesWf (filterStep s) := filterStep_ind (fun hc hq _ => queuesWf_congr hc hq)
    (fun h v => fbAccept_queuesWf h v) (fun h => fbWindow_queuesWf h) h.2
  obtain ⟨q, fb, g, d, p, e⟩ := filterStep_form s
  exact ⟨ringInRange_congr (by rw [e]) (by rw [e]) h.1, hq⟩

theorem decideStep_storageWf {s : State} (h : storageWf s) : storageWf (decideStep s) := by
  obtain ⟨d, r, g, n, p, e⟩ := decideStep_form s
  rw [e]
  exact storageWf_congr (s := s) rfl rfl rfl h

theorem step_storageWf {s t : State} (h : step s = .next t) (hs : storageWf s) : storageWf t := by
  have block {u : State} (b : SameBlock s u) : storageWf u := storageWf_congr b.cfg b.sr b.q hs
  cases step_cases h with
  | run u i b _ result _ =>
    exact ⟨exec_ringInRange result (block b).1, exec_queuesWf result (block b).2⟩
  | pop u b _ result => rw [result]; exact popStep_storageWf (block b)
  | filter u b _ result => rw [result]; exact filterStep_storageWf (block b)
  | decide u b _ result => rw [result]; exact decideStep_storageWf (block b)
  | wait b _ => exact block b
  | illegal u w b _ result => rw [result]; exact block (u := u) b
  | pin u level b result => rw [result]; exact block (u := u) b
  | reset u rest b _ _ result =>
    rw [result, hardwareReset_eq]
    exact resetWith_storageWf u.cfg u.trigIn

end Sys2Proof.Machine

/-! SUPPORT. Every step keeps every NUM a value of the configured record: the values that storage, the
FilterBank, RESP and CMD hold, one after the other, then instructions and steps. -/

namespace Sys2Proof.Machine

/-! ### Values of the carrier, component by component -/

/-- The elements of every queue are values of the configured record. -/
def queuesOwned (s : State) : Prop :=
  ∀ q : QueueId, ∀ e ∈ (s.queue q).mem, s.cfg.num.owns e.2 = true

/-- The powers are values of the configured record. -/
def powersOwned (s : State) : Prop := ∀ c : Channel, s.cfg.num.owns s.fb.power[c] = true

/-- The NUMs among the beats are values of the record. -/
def beatsOwned (n : NumSystem) (beats : List Beat) : Prop := ∀ v, .num v ∈ beats → n.owns v = true

/-- The payload words are values of the record. -/
def wordsOwned (n : NumSystem) (words : List CmdWord) : Prop :=
  ∀ v, .payload v ∈ words → n.owns v = true

/-- The payload that an instruction was decoded with, if any, is a value of the record. -/
def payloadOwned (n : NumSystem) (i : Instr) : Prop :=
  ∀ v, encodePayload i = some v → n.owns v = true

theorem numbersOwned_iff (s : State) : numbersOwned s ↔ queuesOwned s ∧ powersOwned s ∧
    s.cfg.num.owns s.det.fudgeFactor = true ∧ beatsOwned s.cfg.num s.resp ∧
    wordsOwned s.cfg.num s.cmd := Iff.rfl

theorem queuesOwned_congr {s t : State} (hc : t.cfg = s.cfg) (hq : t.q = s.q) (h : queuesOwned s) :
    queuesOwned t := by
  intro q
  rw [State.queue, hc, hq]
  exact h q

theorem powersOwned_congr {s t : State} (hc : t.cfg = s.cfg) (hf : t.fb = s.fb)
    (h : powersOwned s) : powersOwned t := by
  intro c
  rw [hc, hf]
  exact h c

theorem beatsOwned_append {n : NumSystem} {a b : List Beat} (ha : beatsOwned n a)
    (hb : beatsOwned n b) : beatsOwned n (a ++ b) := fun v hv =>
  (List.mem_append.mp hv).elim (ha v) (hb v)

theorem beatsOwned_num {n : NumSystem} {v : NUM} (h : n.owns v = true) : beatsOwned n [.num v] := by
  simpa [beatsOwned] using h

theorem beatsOwned_nat (n : NumSystem) (k : Nat) : beatsOwned n [natBeat k] := by
  simp [beatsOwned, natBeat]

theorem beatsOwned_flag (n : NumSystem) (b : Bool) : beatsOwned n [flagBeat b] := by
  simp [beatsOwned, flagBeat]

theorem beatsOwned_map {α : Type} {n : NumSystem} {f : α → NUM} (h : ∀ a, n.owns (f a) = true)
    (l : List α) : beatsOwned n (l.map fun a => .num (f a)) := by
  intro v hv
  obtain ⟨a, -, e⟩ := List.mem_map.mp hv
  cases e
  exact h a

theorem wordsOwned_right {n : NumSystem} {a b : List CmdWord} (h : wordsOwned n (a ++ b)) :
    wordsOwned n b := fun v hv => h v (List.mem_append_right a hv)

theorem beatsOwned_sentinel (n : NumSystem) (i : Instr) : beatsOwned n (sentinelBeats n i) := by
  unfold sentinelBeats
  split
  all_goals simp [beatsOwned]

/-! ### Storage -/

/-- A write brings in no value but the written one. -/
theorem Memory.mem_of_mem_write {α : Type} [DecidableEq α] {z v : α} {i : Nat} {e : Nat × α} :
    ∀ {m : Memory α}, e ∈ Memory.write z m i v → e ∈ m ∨ e.2 = v
  | [], h => by
    simp only [Memory.write] at h
    split at h <;> simp_all
  | (k, w) :: rest, h => by
    simp only [Memory.write] at h
    split at h
    · split at h
      · exact .inl h
      · rcases List.mem_cons.mp h with rfl | h
        · exact .inr rfl
        · exact .inl h
    · split at h
      · split at h
        · exact .inl (List.mem_cons_of_mem _ h)
        · rcases List.mem_cons.mp h with rfl | h
          · exact .inr rfl
          · exact .inl (List.mem_cons_of_mem _ h)
      · rcases List.mem_cons.mp h with rfl | h
        · exact .inl List.mem_cons_self
        · exact (Memory.mem_of_mem_write h).imp_left (List.mem_cons_of_mem _)

/-- A read answers the unlisted value or a listed one. -/
theorem Memory.read_eq_or_mem {α : Type} (z : α) (i : Nat) :
    ∀ m : Memory α, Memory.read z m i = z ∨ ∃ e ∈ m, e.2 = Memory.read z m i
  | [] => .inl rfl
  | (k, v) :: rest => by
    simp only [Memory.read]
    split
    · exact .inr ⟨(k, v), List.mem_cons_self, rfl⟩
    · exact (Memory.read_eq_or_mem z i rest).imp_right fun ⟨e, he, hv⟩ =>
        ⟨e, List.mem_cons_of_mem _ he, hv⟩

theorem owns_read {s : State} (h : queuesOwned s) (q : QueueId) (i : Nat) :
    s.cfg.num.owns (Memory.read (unlistedNum s.cfg.num) (s.queue q).mem i) = true := by
  rcases Memory.read_eq_or_mem (unlistedNum s.cfg.num) i (s.queue q).mem with e | ⟨e, he, hv⟩
  · rw [e]; exact owns_numZero _
  · rw [← hv]; exact h q e he

theorem queuesOwned_setQueue {s : State} (h : queuesOwned s) {q : QueueId} {x : HistoryQueue}
    (hx : ∀ e ∈ x.mem, s.cfg.num.owns e.2 = true) : queuesOwned (s.setQueue q x) := by
  intro q'
  rw [State.queue_setQueue, State.setQueue_cfg]
  split
  · exact hx
  · exact h q'

theorem owns_write {s : State} (h : queuesOwned s) (q : QueueId) (i : Nat) {v : NUM}
    (hv : s.cfg.num.owns v = true) :
    ∀ e ∈ Memory.write (unlistedNum s.cfg.num) (s.queue q).mem i v, s.cfg.num.owns e.2 = true := by
  intro e he
  rcases Memory.mem_of_mem_write he with he | he
  · exact h q e he
  · rw [he]; exact hv

theorem powersOwned_setPower {s : State} (h : powersOwned s) (c : Channel) {x : NUM}
    (hx : s.cfg.num.owns x = true) : powersOwned (s.setPower c x) := by
  intro d
  rw [State.power_setPower, State.setPower_cfg]
  split
  · exact hx
  · exact h d

/-! ### The queue procedures -/

theorem hqInit_queuesOwned {s : State} (h : queuesOwned s) (q : QueueId) :
    queuesOwned (hqInit q s) :=
  queuesOwned_setQueue h fun _ he => absurd he List.not_mem_nil

theorem hqPush_queuesOwned {s : State} (h : queuesOwned s) (q : QueueId) {v : NUM}
    (hv : s.cfg.num.owns v = true) : queuesOwned (hqPush q v s) := by
  by_cases hf : (s.queue q).count = s.capacity q
  · rw [hqPush_full hf]
    exact queuesOwned_setQueue h (h q)
  · rw [hqPush_room hf]
    exact queuesOwned_setQueue h (owns_write h q _ hv)

theorem hqPop_queuesOwned {s : State} (h : queuesOwned s) (q : QueueId) :
    queuesOwned (hqPop q s).2 := by
  by_cases hf : (s.queue q).count = 0
  · rw [hqPop_empty hf]
    exact queuesOwned_setQueue h (h q)
  · rw [hqPop_some hf]
    exact queuesOwned_setQueue h (h q)

theorem hqOpush_queuesOwned {s : State} (h : queuesOwned s) (q : QueueId) {v : NUM}
    (hv : s.cfg.num.owns v = true) : queuesOwned (hqOpush q v s) := by
  rw [hqOpush_eq]
  exact queuesOwned_setQueue h (owns_write h q _ hv)

theorem owns_hqPop {s : State} (h : queuesOwned s) (q : QueueId) :
    s.cfg.num.owns (hqPop q s).1 = true := by
  by_cases hf : (s.queue q).count = 0
  · rw [hqPop_empty hf]; exact owns_numZero _
  · rw [hqPop_some hf]; exact owns_read h q _

theorem owns_hqReadAt {s : State} (h : queuesOwned s) (q : QueueId) (age : Nat) :
    s.cfg.num.owns (hqReadAt q age s).1 = true := by
  by_cases ha : age < (s.queue q).count
  · rw [hqReadAt_some ha]; exact owns_read h q _
  · rw [hqReadAt_none (Nat.not_lt.mp ha)]; exact owns_numZero _

/-! ### The FilterBank's procedures -/

/-- The queues and the powers hold values of the configured record. -/
def bankOwned (s : State) : Prop := queuesOwned s ∧ powersOwned s

theorem bankOwned_congr {s t : State} (hc : t.cfg = s.cfg) (hq : t.q = s.q) (hf : t.fb = s.fb)
    (h : bankOwned s) : bankOwned t := ⟨queuesOwned_congr hc hq h.1, powersOwned_congr hc hf h.2⟩

theorem hqOpush_bankOwned {s : State} (h : bankOwned s) (q : QueueId) {v : NUM}
    (hv : s.cfg.num.owns v = true) : bankOwned (hqOpush q v s) :=
  ⟨hqOpush_queuesOwned h.1 q hv, powersOwned_congr (hqOpush_cfg q v s) (by rw [hqOpush_frame]) h.2⟩

theorem setPower_bankOwned {s : State} (h : bankOwned s) (c : Channel) {x : NUM}
    (hx : s.cfg.num.owns x = true) : bankOwned (s.setPower c x) :=
  ⟨queuesOwned_congr rfl rfl h.1, powersOwned_setPower h.2 c hx⟩

/-- A sum of products changes DIAG only. -/
theorem sumProducts_frame (q : QueueId) : ∀ (terms : List (NUM × Nat)) (acc : NUM) (s : State),
    (sumProducts q terms acc s).2 = { s with diag := (sumProducts q terms acc s).2.diag }
  | [], _, _ => rfl
  | (c, age) :: rest, acc, s => by
    rw [sumProducts, sumProducts_frame q rest, hqReadAt_frame]

/-- The element about to leave a window is read, and only DIAG can change. -/
theorem windowOldest_frame (c : Channel) (s : State) :
    (windowOldest c s).2 = { s with diag := (windowOldest c s).2.diag } := by
  unfold windowOldest
  split
  · exact hqReadAt_frame _ _ _
  · rfl

/-- A sum of products is a value of the record. -/
theorem owns_sumProducts (q : QueueId) : ∀ (terms : List (NUM × Nat)) (acc : NUM) (s : State),
    s.cfg.num.owns acc = true → s.cfg.num.owns (sumProducts q terms acc s).1 = true
  | [], _, _, h => h
  | (c, age) :: rest, acc, s, _ => by
    rw [sumProducts, ← hqReadAt_cfg q age s]
    exact owns_sumProducts q rest _ _ (owns_numAdd _ _ _)

theorem sumProducts_bankOwned {s : State} (h : bankOwned s) (q : QueueId) (terms : List (NUM × Nat))
    (acc : NUM) : bankOwned (sumProducts q terms acc s).2 := by
  rw [sumProducts_frame]
  exact bankOwned_congr (s := s) rfl rfl rfl h

theorem windowOldest_bankOwned {s : State} (h : bankOwned s) (c : Channel) :
    bankOwned (windowOldest c s).2 := by
  rw [windowOldest_frame]
  exact bankOwned_congr (s := s) rfl rfl rfl h

theorem channelUpdate_bankOwned {s : State} (h : bankOwned s) (c : Channel) {z : NUM}
    (hz : s.cfg.num.owns z = true) : bankOwned (channelUpdate c z s) := by
  have hw := windowOldest_bankOwned h c
  have h1 := hqOpush_bankOwned hw (queueZ c) (v := z) (by rwa [windowOldest_cfg])
  have h2 := hqOpush_bankOwned h1 (queueP c) (v := z) (by rwa [hqOpush_cfg, windowOldest_cfg])
  rw [channelUpdate_eq]
  refine setPower_bankOwned h2 c ?_
  rw [hqOpush_cfg, hqOpush_cfg, windowOldest_cfg]
  exact owns_numAdd _ _ _

theorem channelStep_bankOwned {s : State} (h : bankOwned s) (c : Channel) :
    bankOwned (channelStep c s) := by
  have ho : bankOwned (channelOutput c s).2 :=
    sumProducts_bankOwned (sumProducts_bankOwned h _ _ _) _ _ _
  exact channelUpdate_bankOwned ho c (by rw [channelOutput_cfg]; exact owns_numSub _ _ _)

theorem foldl_channelStep_bankOwned (l : List Channel) {s : State} (h : bankOwned s) :
    bankOwned (l.foldl (fun s c => channelStep c s) s) := by
  induction l generalizing s with
  | nil => exact h
  | cons c rest ih =>
    rw [List.foldl_cons]
    exact ih (channelStep_bankOwned h c)

theorem fbWindow_bankOwned {s : State} (h : bankOwned s) : bankOwned (fbWindow s) := by
  have hy := sumProducts_bankOwned h queueX (firTerms s.cfg) (numZero s.cfg.num)
  unfold fbWindow
  refine foldl_channelStep_bankOwned channels (hqOpush_bankOwned hy queueY ?_)
  rw [sumProducts_cfg]
  exact owns_sumProducts _ _ _ _ (owns_numZero _)

theorem fbAccept_bankOwned {s : State} (h : bankOwned s) (v : AdcCode) : bankOwned (fbAccept v s) :=
  hqOpush_bankOwned h queueX (owns_numSub _ _ _)

theorem fbInit_bankOwned (s : State) : bankOwned (fbInit s) := by
  rw [fbInit_eq]
  refine ⟨fun q e he => ?_, fun c => ?_⟩
  · simp [State.queue, HistoryQueue.reset] at he
  · simp [FilterBank.reset]

theorem owns_foldl {α : Type} {n : NumSystem} {f : NUM → α → NUM}
    (hf : ∀ acc a, n.owns (f acc a) = true) :
    ∀ (l : List α) {acc : NUM}, n.owns acc = true → n.owns (l.foldl f acc) = true
  | [], _, h => h
  | a :: rest, acc, _ => owns_foldl hf rest (hf acc a)

theorem fbRecompute_bankOwned {s : State} (h : bankOwned s) (c : Channel) :
    bankOwned (fbRecompute c s) := by
  rw [fbRecompute_eq]
  exact setPower_bankOwned h c (owns_foldl (fun _ _ => owns_numAdd _ _ _) _ (owns_numZero _))

/-! ### What each instruction answers on RESP -/

/-- The beats of a command with an operand: those of what the operand names, else the sentinels. -/
def operandBeats {α : Type} (o : Option α) (sentinel : List Beat) (f : α → List Beat) : List Beat :=
  o.elim sentinel f

/-- The beats that an instruction answers (30_encoding.md R104). -/
def responseBeats (s : State) (i : Instr) : List Beat :=
  let sentinel := sentinelBeats s.cfg.num i
  match i with
  | .srPop => [natBeat (srPop s).1.toNat]
  | .srCount => [natBeat s.sr.count]
  | .srCap => [natBeat s.cfg.ringCapacity]
  | .hqPop q => operandBeats (operandQueue q) sentinel fun q => [.num (hqPop q s).1]
  | .hqReadat q age =>
    operandBeats (operandQueue q) sentinel fun q => [.num (hqReadAt q age.toNat s).1]
  | .hqSize q => operandBeats (operandQueue q) sentinel fun q => [natBeat (s.capacity q)]
  | .hqCount q => operandBeats (operandQueue q) sentinel fun q => [natBeat (s.queue q).count]
  | .hqUnderflowed q =>
    operandBeats (operandQueue q) sentinel fun q => [flagBeat (s.queue q).underflowed]
  | .hqOverflowed q =>
    operandBeats (operandQueue q) sentinel fun q => [flagBeat (s.queue q).overflowed]
  | .fbPower ch => operandBeats (operandChannel ch) sentinel fun c => [.num s.fb.power[c]]
  | .fbPowers => channels.map fun c => .num s.fb.power[c]
  | .fbNorm => normBeats s.cfg.num s.fb.power
  | .fbFircoef k => operandBeats (operandFirIndex k) sentinel fun k => [.num s.cfg.firCoef[k]]
  | .fbIira ch k =>
    operandBeats (operandCoefficient ch k) sentinel fun k => [.num s.cfg.iirA[k.1][k.2]]
  | .fbIirb ch k =>
    operandBeats (operandCoefficient ch k) sentinel fun k => [.num s.cfg.iirB[k.1][k.2]]
  | .fbConst k => operandBeats (operandConst k) sentinel fun k => [natBeat k]
  | .detHit => [flagBeat s.det.hitDetectedFlag]
  | .detLastfreq => [natBeat s.det.lastHitFrequency.val]
  | .detHitcounts => channels.map fun c => natBeat s.det.hitCounts[c].toNat
  | .detInvoc => [natBeat s.det.invocationCount.toNat]
  | .ltRunning => [flagBeat (ltRunning s)]
  | .ivRunning => [flagBeat (ivRunning s)]
  | .trRunning => [flagBeat (trRunning s)]
  | .trGetshots => [natBeat s.tr.remainingShotCount.toNat]
  | .txRunning => [flagBeat (txRunning s)]
  | .txGetfreq => [natBeat s.tx.frequencyNumber.val]
  | _ => []

/-- A command with an operand answers what `k` answers, or the sentinels. -/
theorem withOperand_resp {α : Type} {o : Option α} {i : Instr} {l : List Beat}
    {k : α → State → State} {s : State} {f : α → List Beat}
    (hk : ∀ a, (k a s).resp = s.resp ++ f a) :
    (withOperand o i l k s).resp = s.resp ++ operandBeats o l f := by
  cases o with
  | none => rfl
  | some a => exact hk a

/-- A command with an operand that answers nothing. -/
theorem withOperand_silent {α : Type} {o : Option α} {i : Instr} {k : α → State → State}
    {s : State} (hk : ∀ a, (k a s).resp = s.resp) :
    (withOperand o i [] k s).resp = s.resp ++ [] := by
  rw [withOperand_resp (f := fun _ => []) fun a => by rw [hk, List.append_nil]]
  cases o <;> rfl

/-- Every instruction appends its beats to RESP. -/
theorem exec_resp {i : Instr} {u t : State} (h : exec i u = .next t) :
    t.resp = u.resp ++ responseBeats u i := by
  cases i <;> (unfold exec at h; injection h with h; subst h)
  case hqInit => exact withOperand_silent fun a => rfl
  case hqPush => exact withOperand_silent fun a => by rw [hqPush_frame]
  case hqOpush => exact withOperand_silent fun a => by rw [hqOpush_frame]
  case fbRecompute => exact withOperand_silent fun a => by rw [fbRecompute_eq]; rfl
  case txSetfreq => exact withOperand_silent fun a => rfl
  case detInit =>
    show (detInit u).resp = u.resp ++ []
    simp only [detInit, fbInit_eq, List.append_nil]
  case ivTick => show (ivTick u).resp = u.resp ++ []; rw [ivTick_frame, List.append_nil]
  case trTick => show (trTick u).resp = u.resp ++ []; rw [trTick_frame, List.append_nil]
  case tick => show (takeTick _ u).resp = u.resp ++ []; rw [takeTick_frame, List.append_nil]
  case srPop => show (srPop u).2.resp ++ _ = _; rw [srPop_frame]; rfl
  case hqPop =>
    exact withOperand_resp fun a => by show (hqPop a u).2.resp ++ _ = _; rw [hqPop_frame]
  case hqReadat =>
    exact withOperand_resp fun a => by show (hqReadAt a _ u).2.resp ++ _ = _; rw [hqReadAt_frame]
  case hqSize | hqCount | hqUnderflowed | hqOverflowed | fbPower | fbFircoef | fbIira | fbIirb |
      fbConst =>
    exact withOperand_resp fun a => rfl
  case srCount | srCap | fbPowers | fbNorm | detHit | detLastfreq | detHitcounts | detInvoc |
      ltRunning | ivRunning | trRunning | trGetshots | txRunning | txGetfreq => rfl
  all_goals exact (List.append_nil u.resp).symm

/-! ### Every beat is a value of the record -/

theorem operandBeats_owned {α : Type} {n : NumSystem} {o : Option α} {i : Instr} {f : α → List Beat}
    (h : ∀ a, beatsOwned n (f a)) : beatsOwned n (operandBeats o (sentinelBeats n i) f) := by
  cases o with
  | none => exact beatsOwned_sentinel n i
  | some a => exact h a

theorem owns_firCoef (cfg : Config) (k : Fin 81) : cfg.num.owns cfg.firCoef[k] = true :=
  List.all_eq_true.mp cfg.firCoef_owned _ (by simp)

/-- An element of a table whose every row is all values of the record. -/
theorem owns_of_rows {n : NumSystem} {table : Vector (Vector NUM 11) 10}
    (h : table.toList.all (fun row => row.toList.all n.owns) = true) (c : Channel) (k : Fin 11) :
    n.owns table[c][k] = true :=
  List.all_eq_true.mp (List.all_eq_true.mp h table[c] (by simp)) _ (by simp)

theorem normBeats_owned (n : NumSystem) (power : Vector NUM 10) :
    beatsOwned n (normBeats n power) := by
  unfold normBeats
  simp only
  split
  · exact beatsOwned_append (beatsOwned_map (f := fun _ => numZero n) (fun _ => owns_numZero n) _)
      (beatsOwned_nat n _)
  · exact beatsOwned_append
      (beatsOwned_map (f := fun c : Channel => numDiv n power[c] power[maxChannel n power])
        (fun _ => owns_numDiv n _ _) _) (beatsOwned_nat n _)

/-- What an instruction answers are values of the record. -/
theorem responseBeats_owned {s : State} (h : bankOwned s) (i : Instr) :
    beatsOwned s.cfg.num (responseBeats s i) := by
  obtain ⟨hq, hp⟩ := h
  cases i
  case srPop | srCount | srCap | detLastfreq | detInvoc | trGetshots | txGetfreq =>
    exact beatsOwned_nat _ _
  case detHit | ltRunning | ivRunning | trRunning | txRunning => exact beatsOwned_flag _ _
  case hqPop => exact operandBeats_owned fun q => beatsOwned_num (owns_hqPop hq q)
  case hqReadat => exact operandBeats_owned fun q => beatsOwned_num (owns_hqReadAt hq q _)
  case hqSize | hqCount | fbConst => exact operandBeats_owned fun _ => beatsOwned_nat _ _
  case hqUnderflowed | hqOverflowed => exact operandBeats_owned fun _ => beatsOwned_flag _ _
  case fbPower => exact operandBeats_owned fun c => beatsOwned_num (hp c)
  case fbPowers => exact beatsOwned_map (f := fun c : Channel => s.fb.power[c]) hp channels
  case fbNorm => exact normBeats_owned _ _
  case fbFircoef => exact operandBeats_owned fun k => beatsOwned_num (owns_firCoef s.cfg k)
  case fbIira =>
    exact operandBeats_owned fun k => beatsOwned_num (owns_of_rows s.cfg.iirA_owned k.1 k.2)
  case fbIirb =>
    exact operandBeats_owned fun k => beatsOwned_num (owns_of_rows s.cfg.iirB_owned k.1 k.2)
  case detHitcounts =>
    intro v hv
    obtain ⟨c, -, e⟩ := List.mem_map.mp hv
    cases e
  all_goals exact fun v hv => absurd hv List.not_mem_nil

/-! ### Every instruction keeps the NUMs in the carrier -/

theorem exec_queuesOwned {i : Instr} {u t : State} (h : exec i u = .next t) (hu : queuesOwned u)
    (hi : payloadOwned u.cfg.num i) : queuesOwned t := by
  rcases exec_q h with hq | ⟨q, rfl⟩ | ⟨q, v, rfl⟩ | ⟨q, rfl⟩ | ⟨q, v, rfl⟩ | rfl
  · exact queuesOwned_congr (exec_cfg h) hq hu
  · cases h; exact withOperand_ind _ _ _ _ _ hu fun q _ => hqInit_queuesOwned hu q
  · cases h; exact withOperand_ind _ _ _ _ _ hu fun q _ => hqPush_queuesOwned hu q (hi v rfl)
  · cases h; exact withOperand_ind _ _ _ _ _ hu fun q _ => hqPop_queuesOwned hu q
  · cases h; exact withOperand_ind _ _ _ _ _ hu fun q _ => hqOpush_queuesOwned hu q (hi v rfl)
  · injection h with h; rw [← h]; exact (fbInit_bankOwned _).1

theorem exec_powersOwned {i : Instr} {u t : State} (h : exec i u = .next t) (hu : bankOwned u) :
    powersOwned t := by
  rcases exec_fb h with hf | ⟨ch, rfl⟩ | rfl
  · exact powersOwned_congr (exec_cfg h) hf hu.2
  · cases h; exact withOperand_ind _ _ _ _ _ hu.2 fun c _ => (fbRecompute_bankOwned hu c).2
  · injection h with h; rw [← h]; exact (fbInit_bankOwned _).2

theorem detInit_fudgeFactor (s : State) : (detInit s).det.fudgeFactor = s.cfg.fudgeReset := by
  unfold detInit
  rw [fbInit_eq]

theorem exec_fudgeOwned {i : Instr} {u t : State} (h : exec i u = .next t)
    (hu : u.cfg.num.owns u.det.fudgeFactor = true) : u.cfg.num.owns t.det.fudgeFactor = true := by
  rcases exec_det h with hd | rfl | ⟨m, rfl⟩ | ⟨b, rfl⟩ | rfl | ⟨b, rfl⟩ | ⟨f, rfl⟩ | rfl |
    ⟨adc, rfl⟩
  · rwa [hd]
  · injection h with h
    rw [← h, detInit_fudgeFactor]
    exact u.cfg.fudgeReset_owned
  · cases h; exact hu
  · cases h; exact hu
  · cases h; exact hu
  · cases h; exact hu
  · cases h; exact owns_numOfNat _ _
  · injection h with h; rwa [← h, ivTick_frame]
  · injection h with h; rwa [← h, takeTick_frame]

theorem exec_numbersOwned {i : Instr} {u t : State} (h : exec i u = .next t) (hu : numbersOwned u)
    (hi : payloadOwned u.cfg.num i) : numbersOwned t := by
  obtain ⟨hq, hp, hf, hr, hc⟩ := (numbersOwned_iff u).mp hu
  have hcfg := exec_cfg h
  refine (numbersOwned_iff t).mpr
    ⟨exec_queuesOwned h hq hi, exec_powersOwned h ⟨hq, hp⟩, ?_, ?_, ?_⟩
  · rw [hcfg]; exact exec_fudgeOwned h hf
  · rw [hcfg, exec_resp h]; exact beatsOwned_append hr (responseBeats_owned ⟨hq, hp⟩ i)
  · rw [hcfg, exec_cmd h]; exact hc

/-! ### So does every step -/

theorem numbersOwned_of_bank {s t : State} (h : numbersOwned s) (hb : bankOwned t)
    (hcfg : t.cfg = s.cfg) (hf : t.det.fudgeFactor = s.det.fudgeFactor) (hr : t.resp = s.resp)
    (hc : t.cmd = s.cmd) : numbersOwned t := by
  obtain ⟨-, -, hsf, hsr, hsc⟩ := (numbersOwned_iff s).mp h
  refine (numbersOwned_iff t).mpr ⟨hb.1, hb.2, ?_, ?_, ?_⟩
  · rwa [hcfg, hf]
  · rwa [hcfg, hr]
  · rwa [hcfg, hc]

theorem numbersOwned.bank {s : State} (h : numbersOwned s) : bankOwned s := ⟨h.1, h.2.1⟩

theorem numbersOwned.words {s : State} (h : numbersOwned s) : wordsOwned s.cfg.num s.cmd := by
  obtain ⟨-, -, -, -, hc⟩ := h
  exact hc

theorem SameBlock.numbersOwned {s u : State} (b : SameBlock s u) (h : numbersOwned s)
    (hc : wordsOwned s.cfg.num u.cmd) : numbersOwned u := by
  obtain ⟨hq, hp, hf, hr, -⟩ := (numbersOwned_iff s).mp h
  rw [b]
  exact (numbersOwned_iff _).mpr ⟨queuesOwned_congr (s := s) rfl rfl hq,
    powersOwned_congr (s := s) rfl rfl hp, hf, hr, hc⟩

theorem popStep_numbersOwned {s : State} (h : numbersOwned s) : numbersOwned (popStep s) := by
  rw [popStep_frame]
  exact numbersOwned_of_bank h (bankOwned_congr (s := s) rfl rfl rfl h.bank) rfl rfl rfl rfl

theorem filterStep_numbersOwned {s : State} (h : numbersOwned s) : numbersOwned (filterStep s) := by
  have hb : bankOwned (filterStep s) :=
    filterStep_ind bankOwned_congr (fun h v => fbAccept_bankOwned h v) fbWindow_bankOwned h.bank
  obtain ⟨q, fb, g, d, p, e⟩ := filterStep_form s
  rw [e] at hb ⊢
  exact numbersOwned_of_bank h hb rfl rfl rfl rfl

/-- No DECIDE step changes the fudge factor. -/
theorem decideStep_fudgeFactor (s : State) :
    (decideStep s).det.fudgeFactor = s.det.fudgeFactor := by
  unfold decideStep detDecide
  simp only
  split
  · split <;> rfl
  · rfl

theorem decideStep_numbersOwned {s : State} (h : numbersOwned s) : numbersOwned (decideStep s) := by
  have hf := decideStep_fudgeFactor s
  obtain ⟨d, r, g, n, p, e⟩ := decideStep_form s
  rw [e] at hf ⊢
  exact numbersOwned_of_bank h (bankOwned_congr (s := s) rfl rfl rfl h.bank) rfl hf rfl rfl

theorem checkReserved_eq_ok {b : Bool} {i j : Instr} (h : checkReserved b i = .ok j) : i = j := by
  unfold checkReserved at h
  split at h
  · exact Except.ok.inj h
  · cases h

/-- A decoded instruction has no payload but the one that stands after its head. -/
theorem encodePayload_of_decodeHead {h : Head} {v w : NUM} {i : Instr} (hd : decodeHead h v = .ok i)
    (hw : encodePayload i = some w) : w = v := by
  unfold decodeHead at hd
  split at hd
  rotate_right
  · cases hd
  all_goals
    cases checkReserved_eq_ok hd
    cases hw <;> rfl

/-- An instruction with a payload was decoded from a head that announces it. -/
theorem announcesPayload_of_decodeHead {h : Head} {v w : NUM} {i : Instr}
    (hd : decodeHead h v = .ok i) (hw : encodePayload i = some w) : announcesPayload h = true := by
  by_contra hp
  have he (v' : NUM) : w = v' := encodePayload_of_decodeHead
    (by rwa [← decodeHead_noPayload (by simpa using hp) v v']) hw
  exact absurd ((he (.value 0)).symm.trans (he (.value 1))) (by decide)

/-- The payload of the instruction at the front of CMD is one of the words there. -/
theorem payloadOwned_of_issued {n : NumSystem} {h : Head} {v : NUM} {rest : List CmdWord}
    {i : Instr} (hw : wordsOwned n (issuedWords h v ++ rest)) (hd : decodeHead h v = .ok i) :
    payloadOwned n i := by
  intro w he
  have hp := announcesPayload_of_decodeHead hd he
  rw [encodePayload_of_decodeHead hd he]
  exact hw v (by simp [issuedWords, hp])

theorem foregroundStep_done_numbersOwned {u t : State} (hu : numbersOwned u)
    (h : foregroundStep u = .done t) : numbersOwned t := by
  rcases foregroundStep_cases u with ⟨-, -, e⟩ | ⟨-, e⟩ | ⟨-, w, v, rest, er, hc, -, e⟩ |
    ⟨-, w, v, rest, i, -, -, e⟩ | ⟨-, e⟩ | ⟨-, e⟩ | ⟨-, e⟩ <;> rw [e] at h <;> cases h
  · exact hu
  · have hr : wordsOwned u.cfg.num rest := wordsOwned_right (hc ▸ hu.words)
    have b : SameBlock u { u with cmd := rest } := rfl
    exact b.numbersOwned hu hr
  · exact popStep_numbersOwned hu
  · exact filterStep_numbersOwned hu
  · exact decideStep_numbersOwned hu

theorem foregroundStep_run_numbersOwned {u v : State} {i : Instr} (hu : numbersOwned u)
    (h : foregroundStep u = .run i v) : numbersOwned v ∧ payloadOwned v.cfg.num i := by
  rcases foregroundStep_cases u with ⟨-, -, e⟩ | ⟨-, e⟩ | ⟨-, w, x, rest, er, -, -, e⟩ |
    ⟨-, w, x, rest, j, hc, hd, e⟩ | ⟨-, e⟩ | ⟨-, e⟩ | ⟨-, e⟩ <;> rw [e] at h <;> cases h
  have hw : wordsOwned u.cfg.num (issuedWords w x ++ rest) := hc ▸ hu.words
  have b : SameBlock u { u with cmd := rest } := rfl
  exact ⟨b.numbersOwned hu (wordsOwned_right hw), payloadOwned_of_issued hw hd⟩

theorem hardwareReset_numbersOwned {s : State} (h : numbersOwned s) :
    numbersOwned (hardwareReset s) := by
  rw [hardwareReset_eq]
  have b : SameBlock { State.resetWith s.cfg s.trigIn with freeDraws := s.freeDraws }
    { State.resetWith s.cfg s.trigIn with
      cmd := s.cmd, schedule := s.schedule, freeDraws := s.freeDraws } := rfl
  exact b.numbersOwned (resetWith_numbersOwned s.cfg s.trigIn) h.words

theorem step_numbersOwned {s t : State} (h : step s = .next t) (hs : numbersOwned s) :
    numbersOwned t := by
  obtain ⟨u, b, hc, hw⟩ := nextWork_cases s
  have hu : numbersOwned u := b.numbersOwned hs (hc ▸ hs.words)
  unfold step at h
  rcases hw with e | ⟨adc, e⟩ | ⟨level, e⟩ | e <;> rw [e] at h
  · cases hf : foregroundStep u with
    | run i v =>
      rw [hf] at h
      obtain ⟨hv, hi⟩ := foregroundStep_run_numbersOwned hu hf
      exact exec_numbersOwned h hv hi
    | done v =>
      rw [hf] at h
      cases h
      exact foregroundStep_done_numbersOwned hu hf
    | stop r => rw [hf] at h; cases h
  · exact exec_numbersOwned h hu fun v hv => nomatch hv
  · cases h; exact hu
  · injection h with h; rw [← h]; exact hardwareReset_numbersOwned hu

/-- Settles O17. -/
theorem stepKeepsStorageForm : Obligations.StepKeepsStorageForm :=
  ⟨fun _ _ hs h => step_storageWf h hs, fun _ _ hs h => step_numbersOwned h hs⟩

end Sys2Proof.Machine

/-! SUPPORT. No tick counter wraps: what a tick makes of the counters of each timer, then
what a step does. -/

namespace Sys2Proof.Machine

/-! ### Counting without a wrap -/

theorem countsUp_of_eq {cleared : Prop} {bound old new : Nat} (h : new = old) :
    countsUp cleared bound old new := .inl h

/-- A counter within its bound stays within it. -/
theorem countsUp.le {cleared : Prop} {bound old new : Nat} (h : countsUp cleared bound old new)
    (hb : 1 ≤ bound) (ho : old ≤ bound) : new ≤ bound := by
  rcases h with h | ⟨-, h⟩ | h | ⟨hlt, h⟩ <;> omega

/-- A 32-bit counter below a bound that fits in 32 bits counts on without a wrap. -/
theorem countsUp_succ {cleared : Prop} {bound : Nat} {x : BitVec 32} (hx : ¬ bound ≤ x.toNat)
    (hb : bound < 2 ^ 32) : countsUp cleared bound x.toNat (x + 1).toNat := by
  have : (x + 1).toNat = x.toNat + 1 := by
    rw [BitVec.toNat_add_of_lt] <;> simp; omega
  exact .inr (.inr (.inr ⟨by omega, this⟩))

/-! ### LockoutTimer -/

/-- LT_tick lets its counter count up to LOCKOUT_TICKS (44_timers.md R264). -/
theorem ltTick_countsUp (s : State) (cleared : Prop) : countsUp cleared s.cfg.lockoutTicks
    s.lt.elapsedTicks.toNat (ltTick s).lt.elapsedTicks.toNat := by
  cases hs : s.lt.state with
  | idle =>
    cases hr : s.lt.startRequested with
    | false => exact countsUp_of_eq (by simp [ltTick, hs, hr])
    | true => exact .inr (.inr (.inl (by simp [ltTick, hs, hr])))
  | active =>
    by_cases hb : s.cfg.lockoutTicks ≤ s.lt.elapsedTicks.toNat
    · exact countsUp_of_eq (by simp [ltTick, hs, hb])
    · simpa [ltTick, hb, hs] using countsUp_succ hb s.cfg.lockoutTicks_range.2

theorem exec_lt_countsUp {i : Instr} {u t : State} (h : exec i u = .next t) :
    countsUp (t.lt = .reset) u.cfg.lockoutTicks u.lt.elapsedTicks.toNat
      t.lt.elapsedTicks.toNat := by
  rcases exec_lt h with hl | rfl | rfl | rfl | ⟨adc, rfl⟩
  · exact countsUp_of_eq (by rw [hl])
  · cases h; exact .inr (.inl ⟨rfl, rfl⟩)
  · cases h; exact countsUp_of_eq rfl
  · injection h with h; rw [← h]; exact ltTick_countsUp u _
  · injection h with h; rw [← h, takeTick_frame]; exact ltTick_countsUp u _

/-! ### InvincibilityTimer -/

/-- IV_tick lets its counter count up to the duration (44_timers.md R273). -/
theorem ivTick_countsUp (s : State) (cleared : Prop) : countsUp cleared s.iv.durationTicks.toNat
    s.iv.elapsedTicks.toNat (ivTick s).iv.elapsedTicks.toNat := by
  unfold ivTick ivTransition
  cases hs : s.iv.state with
  | idle =>
    by_cases hr : s.iv.startRequested = true ∧ 1 ≤ s.iv.durationTicks.toNat
    · exact .inr (.inr (.inl (by simp [hr, ivAction, detIgnoreAll])))
    · exact countsUp_of_eq (by simp [hr, ivAction, hs])
  | active =>
    by_cases hb : s.iv.durationTicks.toNat ≤ s.iv.elapsedTicks.toNat
    · exact countsUp_of_eq (by simp [hb, ivAction, detIgnoreAll])
    · simpa [hb, ivAction, hs] using countsUp_succ hb s.iv.durationTicks.isLt

theorem exec_iv_countsUp {i : Instr} {u t : State} (h : exec i u = .next t) :
    countsUp (t.iv = .reset) u.iv.durationTicks.toNat u.iv.elapsedTicks.toNat
      t.iv.elapsedTicks.toNat := by
  rcases exec_iv h with hv | rfl | ⟨d, rfl⟩ | rfl | ⟨adc, rfl⟩
  · exact countsUp_of_eq (by rw [hv])
  · cases h; exact .inr (.inl ⟨rfl, rfl⟩)
  · cases h; exact countsUp_of_eq rfl
  · injection h with h; rw [← h]; exact ivTick_countsUp u _
  · injection h with h; rw [← h, takeTick_frame]; exact ivTick_countsUp u _

/-! ### Trigger -/

/-! TR_fire leaves the state and the counters of Trigger. -/

@[simp] theorem trFire_state (s : State) : (trFire s).tr.state = s.tr.state := by
  unfold trFire; split <;> rfl

@[simp] theorem trFire_elapsedTicks (s : State) :
    (trFire s).tr.elapsedTicks = s.tr.elapsedTicks := by
  unfold trFire; split <;> rfl

@[simp] theorem trFire_holdTicks (s : State) : (trFire s).tr.holdTicks = s.tr.holdTicks := by
  unfold trFire; split <;> rfl

/-- What both counters of Trigger may do from `x` to `y`, `pressed` being the believed level. -/
def triggerCountsUp (cfg : Config) (cleared : Prop) (pressed : Bool) (x y : Trigger) : Prop :=
  countsUp (cleared ∨ (y.state = .releaseDebounce ∧ pressed = true)) cfg.debounceTicks
    x.elapsedTicks.toNat y.elapsedTicks.toNat ∧
  countsUp (cleared ∨ pressed = false) cfg.reloadHoldTicks x.holdTicks.toNat y.holdTicks.toNat

theorem triggerCountsUp_of_eq {cfg : Config} {cleared : Prop} {pressed : Bool} {x y : Trigger}
    (he : y.elapsedTicks = x.elapsedTicks) (hh : y.holdTicks = x.holdTicks) :
    triggerCountsUp cfg cleared pressed x y :=
  ⟨countsUp_of_eq (by rw [he]), countsUp_of_eq (by rw [hh])⟩

/-- TR_tick lets its counters count up to DEBOUNCE_TICKS and RELOAD_HOLD_TICKS (44_timers.md
R283). -/
theorem trTick_countsUp (s : State) (cleared : Prop) :
    triggerCountsUp s.cfg cleared (triggerPressed s) s.tr (trTick s).tr := by
  have hd := s.cfg.debounceTicks_range.2
  have hr := s.cfg.reloadHoldTicks_range.2
  unfold trTick
  split
  case isFalse => exact triggerCountsUp_of_eq rfl rfl
  generalize triggerPressed s = p
  simp only [trTransition]
  cases hs : s.tr.state with
  | idle =>
    cases p with
    | false => exact triggerCountsUp_of_eq (by simp [trAction, hs]) (by simp [trAction, hs])
    | true => exact ⟨.inr (.inr (.inl (by simp [trAction]))), countsUp_of_eq (by simp [trAction])⟩
  | pressDebounce =>
    cases p with
    | false => exact triggerCountsUp_of_eq (by simp [trAction]) (by simp [trAction])
    | true =>
      by_cases hb : s.cfg.debounceTicks ≤ s.tr.elapsedTicks.toNat
      · refine ⟨.inr (.inl ⟨.inr ⟨?_, rfl⟩, ?_⟩), .inr (.inr (.inl ?_))⟩
        all_goals simp [hb, trAction]
      · exact ⟨by simpa [hb, trAction, hs] using countsUp_succ hb hd,
          countsUp_of_eq (by simp [hb, trAction, hs])⟩
  | releaseDebounce =>
    cases p with
    | true =>
      by_cases hb : s.cfg.reloadHoldTicks ≤ s.tr.holdTicks.toNat
      · exact ⟨.inr (.inl (by simp [hb, trAction, trReload])),
          .inr (.inr (.inl (by simp [hb, trAction, trReload])))⟩
      · exact ⟨.inr (.inl (by simp [hb, trAction])),
          by simpa [hb, trAction, hs] using countsUp_succ hb hr⟩
    | false =>
      by_cases hb : s.cfg.debounceTicks ≤ s.tr.elapsedTicks.toNat
      · exact ⟨countsUp_of_eq (by simp [hb, trAction]), .inr (.inl (by simp [hb, trAction]))⟩
      · exact ⟨by simpa [hb, trAction, hs] using countsUp_succ hb hd,
          .inr (.inl (by simp [hb, trAction]))⟩

theorem exec_tr_countsUp {i : Instr} {u t : State} (h : exec i u = .next t) :
    triggerCountsUp u.cfg (t.tr = .reset u.trigIn) (triggerPressed u) u.tr t.tr := by
  rcases exec_tr h with ht | rfl | rfl | rfl | rfl | rfl | ⟨n, rfl⟩ | rfl | ⟨adc, rfl⟩
  · rw [ht]; exact triggerCountsUp_of_eq rfl rfl
  · cases h; exact ⟨.inr (.inl ⟨.inl rfl, rfl⟩), .inr (.inl ⟨.inl rfl, rfl⟩)⟩
  · cases h; exact triggerCountsUp_of_eq rfl rfl
  · injection h with h; rw [← h]; exact trTick_countsUp u _
  · cases h; exact triggerCountsUp_of_eq rfl rfl
  · cases h; exact triggerCountsUp_of_eq rfl rfl
  · cases h; exact triggerCountsUp_of_eq rfl rfl
  · cases h; exact triggerCountsUp_of_eq rfl rfl
  · injection h with h; rw [← h, takeTick_frame]; exact trTick_countsUp u _

/-! ### Transmitter -/

/-- The transmitter after a TX_tick (44_timers.md R303). -/
def transmitterTick (cfg : Config) (x : Transmitter) : Transmitter := txAction (txTransition cfg x)

theorem txTick_tx (s : State) : (txTick s).tx = transmitterTick s.cfg s.tx := rfl

/-- A new burst latches the frequency and counts from 1 (begin_burst, R303). -/
def burstStarted (x : Transmitter) : Transmitter :=
  { x with
    state := .transmit
    elapsedTicks := 1
    halfTicks := 1
    startRequested := false
    activeFrequency := x.frequencyNumber
    pin := true }

/-- Everything a TX_tick can do: wait, begin a burst, end it, toggle the pin, or count on. -/
theorem transmitterTick_cases (cfg : Config) (x : Transmitter) :
    (x.state = .low ∧ transmitterTick cfg x = { x with startRequested := false }) ∨
    transmitterTick cfg x = burstStarted x ∨
    transmitterTick cfg x = { x with state := .low, pin := false, startRequested := false } ∨
    (x.state = .transmit ∧ x.elapsedTicks < cfg.burst ∧ transmitterTick cfg x =
      { x with
        startRequested := false
        pin := !x.pin
        elapsedTicks := x.elapsedTicks + 1
        halfTicks := 1 }) ∨
    (x.state = .transmit ∧ x.elapsedTicks < cfg.burst ∧
      x.halfTicks < cfg.halfPeriod x.activeFrequency ∧ transmitterTick cfg x =
        { x with
          startRequested := false
          elapsedTicks := x.elapsedTicks + 1
          halfTicks := x.halfTicks + 1 }) := by
  unfold transmitterTick txTransition
  cases hs : x.state with
  | low =>
    cases hr : x.startRequested with
    | false => exact .inl ⟨rfl, by simp [txAction, hs]⟩
    | true => exact .inr (.inl (by simp [txAction, beginBurst, burstStarted]))
  | transmit =>
    by_cases hb : cfg.burst ≤ x.elapsedTicks
    · cases hc : x.continuousMode with
      | true => exact .inr (.inl (by simp [hb, hc, txAction, beginBurst, burstStarted]))
      | false => exact .inr (.inr (.inl (by simp [hb, txAction])))
    · by_cases hh : cfg.halfPeriod x.activeFrequency ≤ x.halfTicks
      · exact .inr (.inr (.inr (.inl ⟨rfl, Nat.not_le.mp hb, by simp [hb, hh, txAction]⟩)))
      · exact .inr (.inr (.inr (.inr
          ⟨rfl, Nat.not_le.mp hb, Nat.not_le.mp hh, by simp [hb, hh, txAction, hs]⟩)))

/-- What both counters of Transmitter may do from `x` to `y`. -/
def transmitterCountsUp (cfg : Config) (cleared : Prop) (x y : Transmitter) : Prop :=
  countsUp cleared cfg.burst x.elapsedTicks y.elapsedTicks ∧
  countsUp cleared (cfg.halfPeriod x.activeFrequency) x.halfTicks y.halfTicks

/-- TX_tick lets its counters count up to BURST and HALF (44_timers.md R303). -/
theorem transmitterTick_countsUp (cfg : Config) (x : Transmitter) (cleared : Prop) :
    transmitterCountsUp cfg cleared x (transmitterTick cfg x) := by
  rcases transmitterTick_cases cfg x with ⟨-, e⟩ | e | e | ⟨-, hb, e⟩ | ⟨-, hb, hh, e⟩ <;>
    rw [e]
  · exact ⟨countsUp_of_eq rfl, countsUp_of_eq rfl⟩
  · exact ⟨.inr (.inr (.inl rfl)), .inr (.inr (.inl rfl))⟩
  · exact ⟨countsUp_of_eq rfl, countsUp_of_eq rfl⟩
  · exact ⟨.inr (.inr (.inr ⟨hb, rfl⟩)), .inr (.inr (.inl rfl))⟩
  · exact ⟨.inr (.inr (.inr ⟨hb, rfl⟩)), .inr (.inr (.inr ⟨hh, rfl⟩))⟩

/-- The Transmitter's part of `timersBounded`. -/
def transmitterBounded (cfg : Config) (x : Transmitter) : Prop :=
  x.elapsedTicks ≤ cfg.burst ∧ x.halfTicks ≤ cfg.halfPeriod x.activeFrequency ∧
  x.halfTicks ≤ x.elapsedTicks ∧ (x.state = .low → x.pin = false)

theorem Config.burst_pos (cfg : Config) : 1 ≤ cfg.burst := by
  unfold Config.burst
  split
  · exact cfg.txBurstTicksTest_range.1
  · exact Nat.le_max_left _ _

theorem Config.halfPeriod_pos (cfg : Config) (f : Channel) : 1 ≤ cfg.halfPeriod f := by
  have h : 2 ≤ cfg.txPeriodTicks[f] :=
    of_decide_eq_true (List.all_eq_true.mp cfg.txPeriodTicks_range _ (by simp))
  unfold Config.halfPeriod
  omega

theorem transmitterTick_bounded {cfg : Config} {x : Transmitter} (h : transmitterBounded cfg x) :
    transmitterBounded cfg (transmitterTick cfg x) := by
  obtain ⟨hb, hh, hl, hp⟩ := h
  have hhalf := Config.halfPeriod_pos cfg
  rcases transmitterTick_cases cfg x with ⟨-, e⟩ | e | e | ⟨hs, hlt, e⟩ | ⟨hs, hlt, hhlt, e⟩ <;>
    rw [e]
  · exact ⟨hb, hh, hl, hp⟩
  · exact ⟨Config.burst_pos cfg, hhalf _, le_refl _, fun h => nomatch h⟩
  · exact ⟨hb, hh, hl, fun _ => rfl⟩
  · exact ⟨hlt, hhalf _, Nat.le_add_left _ _, fun h => nomatch hs.symm.trans h⟩
  · exact ⟨hlt, hhlt, Nat.succ_le_succ hl, fun h => nomatch hs.symm.trans h⟩

/-- TR_tick changes only the Transmitter's request, which neither property reads. -/
theorem txTick_trTick (s : State) : ∃ r, (txTick (trTick s)).tx =
    transmitterTick s.cfg { s.tx with startRequested := r } := by
  rw [txTick_tx, trTick_frame]
  exact ⟨_, rfl⟩

/-- What an instruction does to the Transmitter: it writes a request or a setting, resets it, or is a
TX_tick. -/
theorem exec_tx_cases {i : Instr} {u t : State} (h : exec i u = .next t) :
    (∃ r f b, t.tx = { u.tx with startRequested := r, frequencyNumber := f, continuousMode := b }) ∨
    t.tx = .reset ∨
    ∃ r, t.tx = transmitterTick u.cfg { u.tx with startRequested := r } := by
  rcases exec_tx h with hx | rfl | rfl | rfl | ⟨ch, rfl⟩ | ⟨b, rfl⟩ | rfl | ⟨adc, rfl⟩
  · exact .inl ⟨_, _, _, hx⟩
  · cases h; exact .inr (.inl rfl)
  · cases h; exact .inl ⟨_, _, _, rfl⟩
  · cases h; exact .inr (.inr ⟨_, rfl⟩)
  · cases h
    exact withOperand_ind (P := fun t => (∃ r f b, t.tx =
      { u.tx with startRequested := r, frequencyNumber := f, continuousMode := b }) ∨ _) _ _ _ _ _
      (.inl ⟨_, _, _, rfl⟩) fun c _ => .inl ⟨_, _, _, rfl⟩
  · cases h; exact .inl ⟨_, _, _, rfl⟩
  · injection h with h; rw [← h, trTick_frame]; exact .inl ⟨_, _, _, rfl⟩
  · injection h with h; rw [← h, takeTick_frame]; exact .inr (.inr (txTick_trTick u))

theorem exec_tx_countsUp {i : Instr} {u t : State} (h : exec i u = .next t) :
    transmitterCountsUp u.cfg (t.tx = .reset) u.tx t.tx := by
  rcases exec_tx_cases h with ⟨r, f, b, e⟩ | e | ⟨r, e⟩ <;> rw [e]
  · exact ⟨countsUp_of_eq rfl, countsUp_of_eq rfl⟩
  · exact ⟨.inr (.inl ⟨rfl, rfl⟩), .inr (.inl ⟨rfl, rfl⟩)⟩
  · exact transmitterTick_countsUp u.cfg { u.tx with startRequested := r } _

theorem transmitterBounded_reset (cfg : Config) : transmitterBounded cfg .reset :=
  ⟨Nat.zero_le _, Nat.zero_le _, le_refl _, fun _ => rfl⟩

theorem exec_transmitterBounded {i : Instr} {u t : State} (h : exec i u = .next t)
    (hu : transmitterBounded u.cfg u.tx) : transmitterBounded u.cfg t.tx := by
  rcases exec_tx_cases h with ⟨r, f, b, e⟩ | e | ⟨r, e⟩ <;> rw [e]
  · exact hu
  · exact transmitterBounded_reset u.cfg
  · exact transmitterTick_bounded (x := { u.tx with startRequested := r }) hu

/-! ### Every step -/

/-- What a step does to the timers: what one instruction does, a reset, or nothing but the lockout
request of a hit. -/
theorem step_timers_cases {s t : State} (h : step s = .next t) :
    (∃ u i, SameBlock s u ∧ exec i u = .next t) ∨
    (t.lt = .reset ∧ t.iv = .reset ∧ t.tr = .reset s.trigIn ∧ t.tx = .reset) ∨
    (t.lt.elapsedTicks = s.lt.elapsedTicks ∧ t.iv = s.iv ∧ t.tr = s.tr ∧ t.tx = s.tx) := by
  cases step_cases h with
  | run u i b _ result _ => exact .inl ⟨u, i, b, result⟩
  | pop u b _ result =>
    rw [result, popStep_frame]
    exact .inr (.inr ⟨by rw [b.lt], b.iv, b.tr, b.tx⟩)
  | filter u b _ result =>
    obtain ⟨q, fb, g, d, p, e⟩ := filterStep_form u
    rw [result, e]
    exact .inr (.inr ⟨by rw [b.lt], b.iv, b.tr, b.tx⟩)
  | decide u b _ result =>
    obtain ⟨d, r, g, n, p, e⟩ := decideStep_form u
    rw [result, e]
    exact .inr (.inr ⟨by rw [b.lt], b.iv, b.tr, b.tx⟩)
  | wait b _ => exact .inr (.inr ⟨by rw [b.lt], b.iv, b.tr, b.tx⟩)
  | illegal u w b _ result =>
    rw [result]
    exact .inr (.inr ⟨by rw [State.raise_lt, b.lt], b.iv, b.tr, b.tx⟩)
  | pin u level b result =>
    rw [result]
    exact .inr (.inr ⟨by rw [b.lt], b.iv, b.tr, b.tx⟩)
  | reset u rest b _ _ result =>
    rw [result, hardwareReset_eq, b.trigIn]
    exact .inr (.inl ⟨rfl, rfl, rfl, rfl⟩)

/-- How a step may move each of the six tick counters. -/
def timersCountUp (s t : State) : Prop :=
  countsUp (t.lt = .reset) s.cfg.lockoutTicks s.lt.elapsedTicks.toNat t.lt.elapsedTicks.toNat ∧
  countsUp (t.iv = .reset) s.iv.durationTicks.toNat s.iv.elapsedTicks.toNat
    t.iv.elapsedTicks.toNat ∧
  triggerCountsUp s.cfg (t.tr = .reset s.trigIn) (triggerPressed s) s.tr t.tr ∧
  transmitterCountsUp s.cfg (t.tx = .reset) s.tx t.tx

theorem exec_timersCountUp {i : Instr} {u t : State} (h : exec i u = .next t) : timersCountUp u t :=
  ⟨exec_lt_countsUp h, exec_iv_countsUp h, exec_tr_countsUp h, exec_tx_countsUp h⟩

theorem step_timersCountUp {s t : State} (h : step s = .next t) : timersCountUp s t := by
  rcases step_timers_cases h with ⟨u, i, b, e⟩ | ⟨hl, hv, ht, hx⟩ | ⟨hl, hv, ht, hx⟩
  · have := exec_timersCountUp e
    rw [b] at this
    exact this
  · simp [timersCountUp, triggerCountsUp, transmitterCountsUp, countsUp, hl, hv, ht, hx,
      LockoutTimer.reset, InvincibilityTimer.reset, Trigger.reset, Transmitter.reset]
  · rw [timersCountUp, hl, hv, ht, hx]
    exact ⟨countsUp_of_eq rfl, countsUp_of_eq rfl, triggerCountsUp_of_eq rfl rfl,
      countsUp_of_eq rfl, countsUp_of_eq rfl⟩

theorem step_transmitterBounded {s t : State} (h : step s = .next t)
    (hs : transmitterBounded s.cfg s.tx) : transmitterBounded s.cfg t.tx := by
  rcases step_timers_cases h with ⟨u, i, b, e⟩ | ⟨-, -, -, hx⟩ | ⟨-, -, -, hx⟩
  · rw [← b.cfg, ← b.tx] at hs
    rw [← b.cfg]
    exact exec_transmitterBounded e hs
  · rw [hx]; exact transmitterBounded_reset s.cfg
  · rwa [hx]

/-- The counters that count up to a bound stay within it, whatever the step. -/
theorem step_timersBounded {s t : State} (h : step s = .next t) (hs : timersBounded s) :
    timersBounded t := by
  obtain ⟨hlt, htr, hhold, htx⟩ := hs
  obtain ⟨hl, -, ⟨he, hh⟩, -⟩ := step_timersCountUp h
  have hx := step_transmitterBounded h htx
  rw [← step_cfg_eq h] at *
  exact ⟨hl.le t.cfg.lockoutTicks_range.1 hlt, he.le t.cfg.debounceTicks_range.1 htr,
    hh.le t.cfg.reloadHoldTicks_range.1 hhold, hx⟩

/-- Settles O19. -/
theorem stepKeepsTimerBounds : Obligations.StepKeepsTimerBounds := by
  refine ⟨fun s t hs h => step_timersBounded h hs, fun s t h => ?_⟩
  obtain ⟨hl, hv, ⟨he, hh⟩, hx⟩ := step_timersCountUp h
  exact ⟨hl, hv, he, hh, hx⟩

end Sys2Proof.Machine

/-! SUPPORT. The 64-bit form of a NUM, and rounding: a finite binary64 pattern is what its value
rounds to. -/

namespace Sys2Proof

/-! ### Scaling a fraction by a power of two -/

theorem scaled_eq_zpow (m : Nat) (e : Int) : scaled m e = (m : ℚ) * 2 ^ e := by
  cases e with
  | ofNat k => simp [scaled]
  | negSucc k => simp [scaled, Rat.mkRat_eq_div, zpow_negSucc, div_eq_mul_inv]

/-- A fraction lies between the powers of two that the lengths of its two terms give. -/
theorem zpow_log2_bounds {n d : Nat} (hn : n ≠ 0) (hd : d ≠ 0) :
    (2 : ℚ) ^ ((Nat.log2 n : Int) - Nat.log2 d - 1) < (n : ℚ) / d ∧
    (n : ℚ) / d < 2 ^ ((Nat.log2 n : Int) - Nat.log2 d + 1) := by
  have hd' : (0 : ℚ) < d := by exact_mod_cast Nat.pos_of_ne_zero hd
  have n1 : (2 : ℚ) ^ Nat.log2 n ≤ n := by exact_mod_cast Nat.log2_self_le hn
  have n2 : (n : ℚ) < 2 ^ (Nat.log2 n + 1) := by exact_mod_cast Nat.lt_log2_self
  have d1 : (2 : ℚ) ^ Nat.log2 d ≤ d := by exact_mod_cast Nat.log2_self_le hd
  have d2 : (d : ℚ) < 2 ^ (Nat.log2 d + 1) := by exact_mod_cast Nat.lt_log2_self
  constructor
  · rw [lt_div_iff₀ hd']
    calc (2 : ℚ) ^ ((Nat.log2 n : Int) - Nat.log2 d - 1) * d
        < 2 ^ ((Nat.log2 n : Int) - Nat.log2 d - 1) * 2 ^ (Nat.log2 d + 1) := by gcongr
      _ = 2 ^ Nat.log2 n := by
        rw [← zpow_natCast, ← zpow_natCast, ← zpow_add₀ (by norm_num)]; congr 1; push_cast; ring
      _ ≤ n := n1
  · rw [div_lt_iff₀ hd']
    calc (n : ℚ) < 2 ^ (Nat.log2 n + 1) := n2
      _ = 2 ^ ((Nat.log2 n : Int) - Nat.log2 d + 1) * 2 ^ Nat.log2 d := by
        rw [← zpow_natCast, ← zpow_natCast, ← zpow_add₀ (by norm_num)]; congr 1; push_cast; ring
      _ ≤ _ := by gcongr

/-- The comparison of n/d with 2^52 * 2^e that `b64Scale` makes. -/
def belowSignificand (n d : Nat) : Int → Bool
  | .ofNat k => decide (n < 2 ^ 52 * (d * 2 ^ k))
  | .negSucc k => decide (n * 2 ^ (k + 1) < 2 ^ 52 * d)

theorem belowSignificand_iff {n d : Nat} (hd : d ≠ 0) (e : Int) :
    belowSignificand n d e = true ↔ (n : ℚ) / d < 2 ^ (52 + e) := by
  have hd' : (0 : ℚ) < d := by exact_mod_cast Nat.pos_of_ne_zero hd
  rw [div_lt_iff₀ hd', zpow_add₀ (by norm_num)]
  cases e with
  | ofNat k =>
    rw [belowSignificand, decide_eq_true_eq, ← Nat.cast_lt (α := ℚ), Int.ofNat_eq_natCast,
      zpow_natCast]
    push_cast
    ring_nf
  | negSucc k =>
    rw [belowSignificand, decide_eq_true_eq, ← Nat.cast_lt (α := ℚ), zpow_negSucc]
    push_cast
    rw [mul_right_comm, ← div_eq_mul_inv, lt_div_iff₀ (by positivity)]

/-- n/d as a fraction times 2^e. -/
def fractionAt (n d : Nat) : Int → Nat × Nat
  | .ofNat k => (n, d * 2 ^ k)
  | .negSucc k => (n * 2 ^ (k + 1), d)

theorem fractionAt_spec {n d : Nat} (hd : d ≠ 0) (e : Int) : (fractionAt n d e).2 ≠ 0 ∧
    ((fractionAt n d e).1 : ℚ) / (fractionAt n d e).2 * 2 ^ e = n / d := by
  have hd' : (d : ℚ) ≠ 0 := by exact_mod_cast hd
  cases e with
  | ofNat k =>
    refine ⟨Nat.mul_ne_zero hd (by positivity), ?_⟩
    simp only [fractionAt, Int.ofNat_eq_natCast, zpow_natCast]
    push_cast
    field_simp
  | negSucc k =>
    refine ⟨hd, ?_⟩
    simp only [fractionAt, zpow_negSucc]
    push_cast
    field_simp

/-- The exponent that `b64Scale` takes for n/d, before the bound for subnormals. -/
def leadingExponent (n d : Nat) : Int :=
  let guess : Int := (Nat.log2 n : Int) - (Nat.log2 d : Int) - 52
  if belowSignificand n d guess then guess - 1 else guess

theorem b64Scale_eq (n d : Nat) : b64Scale n d =
    ((fractionAt n d (max (leadingExponent n d) (-1074))).1,
      (fractionAt n d (max (leadingExponent n d) (-1074))).2,
      max (leadingExponent n d) (-1074)) := by
  have h : ∀ e : Int, (match e with
    | .ofNat k => (n, d * 2 ^ k, e)
    | .negSucc k => (n * 2 ^ (k + 1), d, e) : Nat × Nat × Int) =
      ((fractionAt n d e).1, (fractionAt n d e).2, e) := fun e => by cases e <;> rfl
  exact h (max (leadingExponent n d) (-1074))

/-- At its leading exponent n/d lies in [2^52, 2^53). -/
theorem leadingExponent_spec {n d : Nat} (hn : n ≠ 0) (hd : d ≠ 0) :
    (2 : ℚ) ^ (52 + leadingExponent n d) ≤ n / d ∧
    (n : ℚ) / d < 2 ^ (53 + leadingExponent n d) := by
  obtain ⟨hlow, hhigh⟩ := zpow_log2_bounds hn hd
  unfold leadingExponent
  generalize hg : (Nat.log2 n : Int) - (Nat.log2 d : Int) - 52 = guess
  rw [show (Nat.log2 n : Int) - Nat.log2 d - 1 = 52 + (guess - 1) by omega] at hlow
  rw [show (Nat.log2 n : Int) - Nat.log2 d + 1 = 53 + guess by omega] at hhigh
  have hbelow := belowSignificand_iff (n := n) hd guess
  simp only
  split
  case isTrue hb =>
    refine ⟨hlow.le, ?_⟩
    rw [show 53 + (guess - 1) = 52 + guess by ring]
    exact hbelow.mp hb
  case isFalse hb => exact ⟨not_lt.mp fun hlt => hb (hbelow.mpr hlt), hhigh⟩

/-! ### Rounding a value of the format gives it back -/

/-- A quotient that comes out even is not rounded. -/
theorem roundHalfEven_mul {b : Nat} (hb : b ≠ 0) (m : Nat) : roundHalfEven (m * b) b = m := by
  have hb : 0 < b := Nat.pos_of_ne_zero hb
  simp [roundHalfEven, hb]

/-- The significand and exponent of a value of the format: normal, or at the least exponent. -/
def IsSignificand (m : Nat) (e : Int) : Prop :=
  m < 2 ^ 53 ∧ -1074 ≤ e ∧ (2 ^ 52 ≤ m ∨ e = -1074)

/-- The exponent that `b64Scale` rounds at is that of the format. -/
theorem max_leadingExponent {n d m : Nat} {e : Int} (hn : n ≠ 0) (hd : d ≠ 0)
    (h : (n : ℚ) / d = m * 2 ^ e) (hm : IsSignificand m e) :
    max (leadingExponent n d) (-1074) = e := by
  obtain ⟨hlow, hhigh⟩ := leadingExponent_spec hn hd
  generalize leadingExponent n d = g at hlow hhigh
  obtain ⟨hm53, he, hnormal⟩ := hm
  rw [h] at hlow hhigh
  have hm53 : (m : ℚ) < 2 ^ (53 : Int) := by exact_mod_cast hm53
  have hge : g ≤ e := by
    have : (2 : ℚ) ^ (52 + g) < 2 ^ (53 + e) := by
      rw [zpow_add₀ (by norm_num) 53]
      exact hlow.trans_lt (by gcongr)
    have := (zpow_lt_zpow_iff_right₀ (by norm_num : (1 : ℚ) < 2)).mp this
    omega
  rcases hnormal with h52 | rfl
  · have h52 : (2 : ℚ) ^ (52 : Int) ≤ m := by exact_mod_cast h52
    have : (2 : ℚ) ^ (52 + e) < 2 ^ (53 + g) := by
      rw [zpow_add₀ (by norm_num) 52]
      exact lt_of_le_of_lt (by gcongr) hhigh
    have := (zpow_lt_zpow_iff_right₀ (by norm_num : (1 : ℚ) < 2)).mp this
    omega
  · omega

/-- Rounding a positive value of the format: its own exponent and significand. -/
theorem b64RoundBits_of_significand {n d m : Nat} {e : Int} (hn : n ≠ 0) (hd : d ≠ 0)
    (h : (n : ℚ) / d = m * 2 ^ e) (hm : IsSignificand m e) :
    b64RoundBits n d = (e + 1074).toNat * 2 ^ 52 + m := by
  obtain ⟨hb, hf⟩ := fractionAt_spec (n := n) hd e
  have ha : (fractionAt n d e).1 = m * (fractionAt n d e).2 := by
    have hb' : ((fractionAt n d e).2 : ℚ) ≠ 0 := by exact_mod_cast hb
    have hz : (2 : ℚ) ^ e ≠ 0 := by positivity
    rw [h] at hf
    have hf := (div_eq_iff hb').mp (mul_right_cancel₀ hz hf)
    exact_mod_cast hf
  rw [b64RoundBits, if_neg hn, b64Scale_eq, max_leadingExponent hn hd h hm]
  simp only
  rw [ha, roundHalfEven_mul hb]

/-! ### The fields of a binary64 pattern -/

theorem b64Exponent_eq (b : BitVec 64) : b64Exponent b = b.toNat / 2 ^ 52 % 2 ^ 11 := by
  simp [b64Exponent, Nat.shiftRight_eq_div_pow]

theorem b64Fraction_eq (b : BitVec 64) : b64Fraction b = b.toNat % 2 ^ 52 := by
  simp [b64Fraction]

theorem b64Negative_eq (b : BitVec 64) : b64Negative b = decide (2 ^ 63 ≤ b.toNat) := by
  have := BitVec.msb_eq_decide b
  rwa [BitVec.msb_eq_getLsbD_last] at this

/-- A pattern is its sign, exponent and fraction fields. -/
theorem toNat_eq_fields (b : BitVec 64) : b.toNat =
    (if b64Negative b then 2 ^ 63 else 0) + (b64Exponent b * 2 ^ 52 + b64Fraction b) := by
  have hb := b.isLt
  rw [b64Exponent_eq, b64Fraction_eq, b64Negative_eq]
  by_cases h : 2 ^ 63 ≤ b.toNat
  · rw [if_pos (by simpa using h)]; omega
  · rw [if_neg (by simpa using h)]; omega

theorem b64Exponent_lt_of_finite {b : BitVec 64} (h : b64Finite b = true) :
    b64Exponent b < 2047 := by
  have hne : b64Exponent b ≠ 2047 := by simpa [b64Finite] using h
  rw [b64Exponent_eq] at hne ⊢
  omega

/-- The magnitude of a finite pattern, and the fields it stands in. -/
theorem b64Magnitude_spec (b : BitVec 64) :
    IsSignificand (b64Magnitude b).1 (b64Magnitude b).2 ∧
    ((b64Magnitude b).2 + 1074).toNat * 2 ^ 52 + (b64Magnitude b).1 =
      b64Exponent b * 2 ^ 52 + b64Fraction b := by
  have hf : b64Fraction b < 2 ^ 52 := by rw [b64Fraction_eq]; exact Nat.mod_lt _ (by norm_num)
  unfold b64Magnitude IsSignificand
  by_cases he : b64Exponent b = 0
  · rw [if_pos he, he]
    omega
  · rw [if_neg he]
    omega

theorem b64Value_eq (b : BitVec 64) : b64Value b =
    if b64Negative b then -((b64Magnitude b).1 * 2 ^ (b64Magnitude b).2 : ℚ)
    else ((b64Magnitude b).1 * 2 ^ (b64Magnitude b).2 : ℚ) := by
  simp only [b64Value, scaled_eq_zpow]

/-! ### A finite pattern is what its value rounds to -/

theorem natAbs_num_div_den (x : ℚ) : (x.num.natAbs : ℚ) / x.den = |x| := by
  rw [Nat.cast_natAbs, Int.cast_abs]
  conv_rhs => rw [← Rat.num_div_den x, abs_div, Nat.abs_cast]

/-- A value of the format, with a sign, rounds to its own fields; a zero takes the sign given. -/
theorem b64Round_of_significand (negative : Bool) {m : Nat} {e : Int} (hm : IsSignificand m e)
    (hfit : (e + 1074).toNat * 2 ^ 52 + m < 2047 * 2 ^ 52) :
    b64Round negative (if negative then -(m * 2 ^ e : ℚ) else (m * 2 ^ e : ℚ)) =
      some (BitVec.ofNat 64
        ((if negative then 2 ^ 63 else 0) + ((e + 1074).toNat * 2 ^ 52 + m))) := by
  by_cases h0 : m = 0
  · obtain ⟨-, -, hn⟩ := hm
    have he : e = -1074 := hn.resolve_left (by omega)
    subst h0 he
    cases negative <;> simp [b64Round, b64RoundBits]
  · have hpos : (0 : ℚ) < m * 2 ^ e := by
      have : (0 : ℚ) < m := by exact_mod_cast Nat.pos_of_ne_zero h0
      positivity
    generalize hx : (if negative then -(m * 2 ^ e : ℚ) else (m * 2 ^ e : ℚ)) = x
    have habs : |x| = m * 2 ^ e := by
      rw [← hx]
      cases negative <;> simp [abs_of_pos hpos]
    have hnum : x.num ≠ 0 := by
      rw [Rat.num_ne_zero]
      intro h
      rw [h, abs_zero] at habs
      exact hpos.ne habs
    have hsign : decide (x.num < 0) = negative := by
      rw [← hx]
      cases negative <;> simp [Rat.num_neg, hpos, hpos.le]
    have hbits : b64RoundBits x.num.natAbs x.den = (e + 1074).toNat * 2 ^ 52 + m :=
      b64RoundBits_of_significand (Int.natAbs_ne_zero.mpr hnum) x.den_nz
        ((natAbs_num_div_den x).trans habs) hm
    unfold b64Round
    simp only [if_neg hnum, hsign, hbits, if_pos hfit]

/-- Every finite pattern is what its value rounds to under its sign (00_scope.md R16). -/
theorem b64Round_b64Value {b : BitVec 64} (h : b64Finite b = true) :
    b64Round (b64Negative b) (b64Value b) = some b := by
  obtain ⟨hm, hfields⟩ := b64Magnitude_spec b
  have hf : b64Fraction b < 2 ^ 52 := by rw [b64Fraction_eq]; exact Nat.mod_lt _ (by norm_num)
  have he := b64Exponent_lt_of_finite h
  rw [b64Value_eq, b64Round_of_significand _ hm (by omega), hfields, ← toNat_eq_fields,
    BitVec.ofNat_toNat, BitVec.setWidth_eq]

/-! ### The bit form of a record -/

theorem toBits_num {n : NumSystem} {f : BitForm n.Carrier} (hf : n.numerics.bitForm = some f)
    (x : NUM) : (Machine.Beat.num x).toBits n = some (f.enc (n.unwrap x)) := by
  simp [Machine.Beat.toBits, numEnc, hf]

theorem numDec_of_bitForm {n : NumSystem} {f : BitForm n.Carrier} (hf : n.numerics.bitForm = some f)
    (b : BitVec 64) : numDec n b = n.wrap (f.dec b) := by
  unfold numDec
  rw [hf]

/-- `dec` undoes `enc` on the values of the record (30_encoding.md R102). -/
theorem numDec_enc {n : NumSystem} {f : BitForm n.Carrier} (hf : n.numerics.bitForm = some f)
    {x : NUM} (hx : n.owns x = true) : numDec n (f.enc (n.unwrap x)) = x := by
  rw [numDec_of_bitForm hf, f.dec_enc, NumSystem.wrap_unwrap hx]

theorem wordsOfBits_payload (n : NumSystem) {w : Nat} (h : (BitVec.ofNat 32 w).getLsbD 31 = true) :
    wordsOfBits n w =
      [.head (BitVec.ofNat 32 w), .payload (numDec n (BitVec.ofNat 64 (w / 2 ^ 32)))] :=
  if_pos h

theorem unwrap_value (t : NumTables) (k : Fin t.size) :
    (NumSystem.tables t).unwrap (.value k) = k :=
  NumSystem.unwrap_wrap (.tables t) k

theorem owns_value (t : NumTables) (k : Fin t.size) :
    (NumSystem.tables t).owns (.value k) = true := NumSystem.owns_wrap (.tables t) k

/-- In the reference instantiation bits in a table word stand for their binary64 value (log 4). -/
theorem numDec_exact {b : BitVec 64} (h : b64Finite b = true) :
    numDec .exact b = .exact (b64Value b) := by
  show NUM.exact (exactOfBits b) = _
  rw [exactOfBits, if_pos h]

/-- Settles O59. -/
theorem numBitForm : Obligations.NumBitForm := by
  refine ⟨fun n f hf => ⟨fun x hx => ⟨toBits_num hf x, numDec_enc hf hx⟩, fun w hw => ?_⟩,
    fun t k => ?_, fun n v => rfl, fun x => rfl, fun b => ⟨rfl, rfl⟩,
    fun b h => ⟨b64Round_b64Value h, numDec_exact h⟩⟩
  · rw [wordsOfBits_payload n hw, numDec_of_bitForm hf]
  · have he := toBits_num (n := .tables t) rfl (.value k)
    have hd := numDec_enc (n := .tables t) rfl (owns_value t k)
    rw [unwrap_value] at he hd
    exact ⟨he, hd⟩

end Sys2Proof

/-! SUPPORT. Every step but that of a HistoryQueue mutator keeps the FilterBank's queues full
and, in the exact NUM, each power the energy of its window (10_state.md R27). -/

namespace Sys2Proof.Machine

/-! ### What a queue holds after an overwrite-push -/

theorem queueContents_hqOpush_self {s : State} {q : QueueId}
    (h : (s.queue q).wf s.cfg.num (s.capacity q)) (v : NUM) :
    queueContents (hqOpush q v s) q = overwritten (s.capacity q) (queueContents s q) v := by
  rw [hqOpush_eq, queueContents_eq, queueContents_eq, State.queue_setQueue_self]
  exact HistoryQueue.contents_overwrite (State.capacity_pos s q) h v

theorem queueContents_hqOpush_ne {q q' : QueueId} (h : q' ≠ q) (v : NUM) (s : State) :
    queueContents (hqOpush q v s) q' = queueContents s q' :=
  queueContents_congr (by rw [hqOpush_eq, State.queue_setQueue_ne s h]) (hqOpush_cfg q v s)

/-- An overwrite-push into a full queue gives up the head. -/
theorem overwritten_full {α : Type} {n : Nat} {l : List α} (h : l.length = n) (v : α) :
    overwritten n l v = l.tail ++ [v] := by rw [overwritten, if_pos h]

/-! ### Powers and windows in the reference instantiation -/

theorem unwrap_sumOfSquares_cons (a : NUM) (l : List NUM) :
    NumSystem.exact.unwrap (sumOfSquares (a :: l)) =
      NumSystem.exact.unwrap a * NumSystem.exact.unwrap a +
        NumSystem.exact.unwrap (sumOfSquares l) := by simp [sumOfSquares]

/-- 42_filter_bank.md R188: the window's energy, less the square of what
leaves and plus the square of what comes. -/
theorem sumOfSquares_slide {l : List NUM} (h : l ≠ []) (z d : NUM) :
    numAdd .exact (numSub .exact (sumOfSquares l) (numMul .exact (l.getD 0 d) (l.getD 0 d)))
      (numMul .exact z z) = sumOfSquares (l.tail ++ [z]) := by
  obtain ⟨a, rest, rfl⟩ := List.exists_cons_of_ne_nil h
  simp only [numAdd_exact, numSub_exact, numMul_exact, sumOfSquares, List.map_cons, List.sum_cons,
    List.tail_cons, List.map_append, List.sum_append, List.getD_cons_zero, unwrap_exact]
  congr 1
  simp

/-- 42_filter_bank.md R189: the sum of squares accumulated from 0. -/
theorem foldl_squares_exact (l : List NUM) (x : Rat) :
    l.foldl (fun acc e => numAdd .exact acc (numMul .exact e e)) (.exact x) =
      .exact (x + NumSystem.exact.unwrap (sumOfSquares l)) := by
  induction l generalizing x with
  | nil => simp [sumOfSquares]
  | cons a rest ih =>
    rw [List.foldl_cons, unwrap_sumOfSquares_cons, ← add_assoc]
    exact ih _

/-- FB_recompute gives a channel the power of its window. -/
theorem fbRecompute_exact {s : State} (hn : s.cfg.num = .exact) (c : Channel) :
    fbRecompute c s = s.setPower c (sumOfSquares (queueContents s (queueP c))) := by
  have hm : queueContents s (queueP c) = (List.range (s.queue (queueP c)).count).map
      fun a => (queueContents s (queueP c)).getD a (numZero .exact) := by
    refine List.ext_getElem (by simp) fun i h1 h2 => ?_
    simp only [List.getElem_map, List.getElem_range]
    exact (List.getD_eq_getElem _ _ h1).symm
  have hs := foldl_squares_exact (queueContents s (queueP c)) 0
  rw [zero_add] at hs
  rw [fbRecompute_eq, hn]
  congr 1
  refine Eq.trans ?_ hs
  conv_rhs => rw [hm, List.foldl_map]
  rfl

/-! ### Which queue is a power window -/

theorem queueP_ne_queueX (c : Channel) : queueP c ≠ queueX :=
  Fin.ne_of_val_ne (by show 12 + c.val ≠ 0; omega)

theorem queueP_ne_queueY (c : Channel) : queueP c ≠ queueY :=
  Fin.ne_of_val_ne (by show 12 + c.val ≠ 1; omega)

theorem queueP_ne_queueZ (c d : Channel) : queueP c ≠ queueZ d :=
  Fin.ne_of_val_ne (by show 12 + c.val ≠ 2 + d.val; omega)

theorem queueP_ne_queueP {c d : Channel} (h : c ≠ d) : queueP c ≠ queueP d := by
  simpa [queueP, Fin.ext_iff] using h

/-! ### The FilterBank's invariant, procedure by procedure -/

/-- 10_state.md R27 with the queues well formed: every queue full and, in the exact NUM, the power of
each channel the energy of its window. -/
def filterReady (s : State) : Prop :=
  queuesWf s ∧ queuesFull s ∧ (s.cfg.num = .exact → powersExact s)

theorem powersExact_congr {s t : State} (hc : t.cfg = s.cfg) (hq : t.q = s.q) (hf : t.fb = s.fb)
    (h : powersExact s) : powersExact t := by
  intro c
  have hqc : t.queue (queueP c) = s.queue (queueP c) := by rw [State.queue, hq]; rfl
  rw [hf, queueContents_congr hqc hc]
  exact h c

theorem filterReady_congr {s t : State} (hc : t.cfg = s.cfg) (hq : t.q = s.q) (hf : t.fb = s.fb)
    (h : filterReady s) : filterReady t := by
  obtain ⟨hw, hfull, hp⟩ := h
  refine ⟨queuesWf_congr hc hq hw, queuesFull_congr hc hq hfull, fun hn => ?_⟩
  rw [hc] at hn
  exact powersExact_congr hc hq hf (hp hn)

@[simp] theorem hqOpush_fb (q : QueueId) (v : NUM) (s : State) : (hqOpush q v s).fb = s.fb := by
  rw [hqOpush_frame]

/-- An overwrite-push into a queue that is no power window keeps the powers exact. -/
theorem powersExact_hqOpush {s : State} {q : QueueId} (hq : ∀ c, queueP c ≠ q) (h : powersExact s)
    (v : NUM) : powersExact (hqOpush q v s) := by
  intro c
  rw [queueContents_hqOpush_ne (hq c), hqOpush_fb]
  exact h c

theorem hqOpush_filterReady {s : State} {q : QueueId} (hq : ∀ c, queueP c ≠ q) (h : filterReady s)
    (v : NUM) : filterReady (hqOpush q v s) := by
  obtain ⟨hw, hf, hp⟩ := h
  exact ⟨hqOpush_queuesWf hw q v, hqOpush_queuesFull hf q v,
    fun hn => powersExact_hqOpush hq (hp (by rwa [hqOpush_cfg] at hn)) v⟩

/-- A full window gives up the element of age 0 and nothing is raised (R188). -/
theorem windowOldest_full {s : State} (h : queuesFull s) (c : Channel) :
    windowOldest c s = ((queueContents s (queueP c)).getD 0 (numZero s.cfg.num), s) := by
  have hc : (s.queue (queueP c)).count = s.cfg.powerWindow := by
    rw [h, State.capacity, Config.queueCapacity, queueP, if_neg (by simp), if_neg (by simp)]
  rw [windowOldest, if_pos hc, hqReadAt_eq, if_pos (by rw [hc]; exact Config.powerWindow_pos s.cfg)]

/-- The window that a channel's output is pushed into, after the push (R187, R188). -/
theorem queueContents_channelPush {s : State} (hw : queuesWf s) (hf : queuesFull s) (c : Channel)
    (z : NUM) : queueContents (hqOpush (queueP c) z (hqOpush (queueZ c) z s)) (queueP c) =
      (queueContents s (queueP c)).tail ++ [z] := by
  have hw' := hqOpush_queuesWf hw (queueZ c) z
  have hf' := hqOpush_queuesFull hf (queueZ c) z
  rw [queueContents_hqOpush_self (hw' _), overwritten_full (by rw [queueContents_length, hf']),
    queueContents_hqOpush_ne (queueP_ne_queueZ c c)]

/-- 42_filter_bank.md R188: a channel's update keeps the powers exact. -/
theorem channelUpdate_powersExact {s : State} (hw : queuesWf s) (hf : queuesFull s)
    (hn : s.cfg.num = .exact) (h : powersExact s) (c : Channel) (z : NUM) :
    powersExact (channelUpdate c z s) := by
  intro d
  rw [channelUpdate_eq, windowOldest_full hf, State.power_setPower, hn]
  simp only [hqOpush_fb]
  rw [queueContents_congr (State.setPower_queue ..) (State.setPower_cfg ..)]
  by_cases hd : d = c
  · have hne : queueContents s (queueP c) ≠ [] := by
      rw [← List.length_pos_iff, queueContents_length, hf]
      exact State.capacity_pos s _
    rw [hd, if_pos rfl, queueContents_channelPush hw hf, h c]
    exact sumOfSquares_slide hne z _
  · rw [if_neg hd, queueContents_hqOpush_ne (queueP_ne_queueP hd),
      queueContents_hqOpush_ne (queueP_ne_queueZ d c)]
    exact h d

theorem channelUpdate_filterReady {s : State} (h : filterReady s) (c : Channel) (z : NUM) :
    filterReady (channelUpdate c z s) := by
  obtain ⟨hw, hf, hp⟩ := h
  refine ⟨channelUpdate_ind (fun h => hqOpush_queuesWf h) queuesWf_congr hw c z,
    channelUpdate_ind (fun h => hqOpush_queuesFull h) queuesFull_congr hf c z, fun hn => ?_⟩
  rw [channelUpdate_cfg] at hn
  exact channelUpdate_powersExact hw hf hn (hp hn) c z

theorem sumProducts_filterReady {s : State} (h : filterReady s) (q : QueueId)
    (terms : List (NUM × Nat)) (acc : NUM) : filterReady (sumProducts q terms acc s).2 := by
  rw [sumProducts_frame]
  exact filterReady_congr (s := s) rfl rfl rfl h

theorem channelStep_filterReady {s : State} (h : filterReady s) (c : Channel) :
    filterReady (channelStep c s) :=
  channelUpdate_filterReady (sumProducts_filterReady (sumProducts_filterReady h _ _ _) _ _ _) c _

theorem foldl_channelStep_filterReady (l : List Channel) {s : State} (h : filterReady s) :
    filterReady (l.foldl (fun s c => channelStep c s) s) := by
  induction l generalizing s with
  | nil => exact h
  | cons c rest ih =>
    rw [List.foldl_cons]
    exact ih (channelStep_filterReady h c)

theorem fbWindow_filterReady {s : State} (h : filterReady s) : filterReady (fbWindow s) := by
  have hy := sumProducts_filterReady h queueX (firTerms s.cfg) (numZero s.cfg.num)
  unfold fbWindow
  exact foldl_channelStep_filterReady channels (hqOpush_filterReady queueP_ne_queueY hy _)

theorem fbAccept_filterReady {s : State} (h : filterReady s) (v : AdcCode) :
    filterReady (fbAccept v s) := hqOpush_filterReady queueP_ne_queueX h _

theorem filterStep_filterReady {s : State} (h : filterReady s) : filterReady (filterStep s) :=
  filterStep_ind filterReady_congr (fun h v => fbAccept_filterReady h v) fbWindow_filterReady h

theorem resetWith_filterReady (cfg : Config) (pin : Bool) : filterReady (State.resetWith cfg pin) :=
  ⟨resetWith_queuesWf cfg pin, resetWith_queuesFull cfg pin, fun hn => resetWith_powersExact hn pin⟩

/-- DET_INIT leaves the FilterBank as reset does (R191). -/
theorem detInit_filterReady (s : State) : filterReady (detInit s) := by
  refine filterReady_congr (s := State.resetWith s.cfg s.trigIn) ?_ ?_ ?_
    (resetWith_filterReady s.cfg s.trigIn)
  all_goals
    rw [detInit, fbInit_eq]
    rfl

theorem fbRecompute_filterReady {s : State} (h : filterReady s) (c : Channel) :
    filterReady (fbRecompute c s) := by
  obtain ⟨hw, hf, hp⟩ := h
  refine ⟨queuesWf_congr (fbRecompute_cfg c s) (fbRecompute_q c s) hw,
    queuesFull_congr (fbRecompute_cfg c s) (fbRecompute_q c s) hf, fun hn d => ?_⟩
  rw [fbRecompute_cfg] at hn
  rw [fbRecompute_exact hn, State.power_setPower,
    queueContents_congr (State.setPower_queue ..) (State.setPower_cfg ..)]
  split
  · rename_i e; rw [e]
  · exact hp hn d

/-! ### Instructions and steps -/

/-- Every instruction but a queue mutator keeps the FilterBank ready. -/
theorem exec_filterReady {i : Instr} {u t : State} (h : exec i u = .next t) (hu : filterReady u)
    (hm : isQueueMutator i = false) : filterReady t := by
  rcases exec_fb h with hf | ⟨ch, rfl⟩ | rfl
  · rcases exec_q h with hq | ⟨q, rfl⟩ | ⟨q, v, rfl⟩ | ⟨q, rfl⟩ | ⟨q, v, rfl⟩ | rfl
    · exact filterReady_congr (exec_cfg h) hq hf hu
    · cases hm
    · cases hm
    · cases hm
    · cases hm
    · injection h with h; rw [← h]; exact detInit_filterReady u
  · cases h; exact withOperand_ind _ _ _ _ _ hu fun c _ => fbRecompute_filterReady hu c
  · injection h with h; rw [← h]; exact detInit_filterReady u

theorem step_filterReady {s t : State} (h : step s = .next t) (hs : filterReady s)
    (hm : runsQueueMutator s = false) : filterReady t := by
  have block {u : State} (b : SameBlock s u) : filterReady u := filterReady_congr b.cfg b.q b.fb hs
  cases step_cases h with
  | run u i b next result _ =>
    rw [runsQueueMutator, next] at hm
    exact exec_filterReady result (block b) hm
  | pop u b _ result => rw [result, popStep_frame]; exact block (u := u) b
  | filter u b _ result => rw [result]; exact filterStep_filterReady (block b)
  | decide u b _ result =>
    obtain ⟨d, r, g, n, p, e⟩ := decideStep_form u
    rw [result, e]
    exact block (u := u) b
  | wait b _ => exact block b
  | illegal u w b _ result => rw [result]; exact block (u := u) b
  | pin u level b result => rw [result]; exact block (u := u) b
  | reset u rest b _ _ result =>
    rw [result, hardwareReset_eq]
    exact resetWith_filterReady u.cfg u.trigIn

/-- Settles O21. -/
theorem stepKeepsFilterReady : Obligations.StepKeepsFilterReady :=
  fun _ _ hw hf hp hm h => step_filterReady h ⟨hw, hf, hp⟩ hm

end Sys2Proof.Machine

/-! SUPPORT. While a DET_RUN is in progress no step takes a command. -/

namespace Sys2Proof.Machine

/-- Inside a DET_RUN the foreground's step is a phase step. -/
theorem foregroundStep_inRun {u : State} (h : u.seq.phase ≠ .idle) :
    ∃ t, foregroundStep u = .done t ∧ t.cmd = u.cmd := by
  rcases foregroundStep_cases u with ⟨hp, -⟩ | ⟨hp, -⟩ | ⟨hp, -⟩ | ⟨hp, -⟩ |
    ⟨-, e⟩ | ⟨-, e⟩ | ⟨-, e⟩
  · exact absurd hp h
  · exact absurd hp h
  · exact absurd hp h
  · exact absurd hp h
  · exact ⟨_, e, by rw [popStep_frame]⟩
  · obtain ⟨q, fb, g, d, p, hf⟩ := filterStep_form u
    exact ⟨_, e, by rw [hf]⟩
  · obtain ⟨d, r, g, n, p, hf⟩ := decideStep_form u
    exact ⟨_, e, by rw [hf]⟩

/-- Settles O8. -/
theorem commandsWaitForTheRun : Obligations.CommandsWaitForTheRun := by
  intro s hs
  obtain ⟨u, b, hc, hw⟩ := nextWork_cases s
  rw [← b.seq] at hs
  rw [← hc]
  unfold step
  rcases hw with e | ⟨adc, e⟩ | ⟨level, e⟩ | e <;> rw [e]
  · obtain ⟨t, hf, ht⟩ := foregroundStep_inRun hs
    exact ⟨t, by rw [hf], ht⟩
  · exact ⟨takeTick adc u, rfl, exec_cmd (i := .tick adc) rfl⟩
  · exact ⟨_, rfl, rfl⟩
  · exact ⟨_, rfl, by rw [hardwareReset_eq]⟩

end Sys2Proof.Machine

/-! SUPPORT. RESP, DIAG and NOTIFY only grow, but at RESET. -/

namespace Sys2Proof.Machine

/-! ### DIAG: what the queue procedures and the FilterBank append -/

theorem hqPush_diag (q : QueueId) (v : NUM) (s : State) : s.diag <+: (hqPush q v s).diag := by
  by_cases hf : (s.queue q).count = s.capacity q
  · rw [hqPush_full hf]; exact List.prefix_append _ _
  · rw [hqPush_room hf]; exact List.prefix_refl _

theorem hqPop_diag (q : QueueId) (s : State) : s.diag <+: (hqPop q s).2.diag := by
  by_cases hf : (s.queue q).count = 0
  · rw [hqPop_empty hf]; exact List.prefix_append _ _
  · rw [hqPop_some hf]; exact List.prefix_refl _

theorem hqReadAt_diag (q : QueueId) (age : Nat) (s : State) :
    s.diag <+: (hqReadAt q age s).2.diag := by
  by_cases ha : age < (s.queue q).count
  · rw [hqReadAt_some ha]
  · rw [hqReadAt_none (Nat.not_lt.mp ha)]; exact List.prefix_append _ _

theorem hqOpush_diag (q : QueueId) (v : NUM) (s : State) : (hqOpush q v s).diag = s.diag := by
  rw [hqOpush_frame]

theorem sumProducts_diag (q : QueueId) : ∀ (terms : List (NUM × Nat)) (acc : NUM) (s : State),
    s.diag <+: (sumProducts q terms acc s).2.diag
  | [], _, _ => List.prefix_refl _
  | (_, age) :: rest, _, s =>
    (hqReadAt_diag q age s).trans (sumProducts_diag q rest _ _)

theorem channelUpdate_diag (c : Channel) (z : NUM) (s : State) :
    s.diag <+: (channelUpdate c z s).diag := by
  rw [channelUpdate_eq, State.setPower_diag, hqOpush_diag, hqOpush_diag, windowOldest]
  split
  · exact hqReadAt_diag _ _ s
  · exact List.prefix_refl _

theorem channelStep_diag (c : Channel) (s : State) : s.diag <+: (channelStep c s).diag :=
  (sumProducts_diag _ _ _ s).trans
    ((sumProducts_diag _ _ _ _).trans (channelUpdate_diag c _ (channelOutput c s).2))

theorem foldl_channelStep_diag (l : List Channel) (s : State) :
    s.diag <+: (l.foldl (fun s c => channelStep c s) s).diag := by
  induction l generalizing s with
  | nil => exact List.prefix_refl _
  | cons c rest ih =>
    rw [List.foldl_cons]
    exact (channelStep_diag c s).trans (ih (channelStep c s))

theorem fbWindow_diag (s : State) : s.diag <+: (fbWindow s).diag := by
  have hy := sumProducts_diag queueX (firTerms s.cfg) (numZero s.cfg.num) s
  unfold fbWindow
  refine hy.trans (List.IsPrefix.trans ?_ (foldl_channelStep_diag channels _))
  rw [hqOpush_diag]

theorem filterStep_diag (s : State) : s.diag <+: (filterStep s).diag := by
  have ha : (fbAccept s.seq.sample s).diag = s.diag := hqOpush_diag _ _ _
  unfold filterStep
  generalize fbAccept s.seq.sample s = a at ha ⊢
  rw [← ha]
  simp only
  split
  · have hw := fbWindow_diag { a with det := { a.det with decimationCounter := 0 } }
    generalize fbWindow { a with det := { a.det with decimationCounter := 0 } } = w at hw ⊢
    exact hw
  · exact List.prefix_refl _

/-! ### NOTIFY: what the Trigger appends -/

/-- TR_fire notifies nothing. -/
theorem trFire_notify (s : State) : (trFire s).notify = s.notify := by
  unfold trFire; split <;> rfl

theorem trTransition_notify (p : Bool) (s : State) : s.notify <+: (trTransition p s).notify := by
  unfold trTransition
  cases s.tr.state with
  | idle => cases p <;> exact List.prefix_refl _
  | pressDebounce =>
    simp only
    split
    · exact List.prefix_refl _
    · split
      · rw [trFire_notify]
      · exact List.prefix_refl _
  | releaseDebounce =>
    simp only
    split <;> split
    · exact List.prefix_append _ _
    all_goals exact List.prefix_refl _

theorem trTick_notify (s : State) : s.notify <+: (trTick s).notify := by
  unfold trTick
  split
  · exact trTransition_notify _ s
  · exact List.prefix_refl _

/-! ### Instructions and steps -/

/-- DIAG and NOTIFY of `t` continue those of `s`. -/
def eventsGrow (s t : State) : Prop := s.diag <+: t.diag ∧ s.notify <+: t.notify

theorem eventsGrow_of_diag {s t : State} (hd : s.diag <+: t.diag) (hn : t.notify = s.notify) :
    eventsGrow s t := ⟨hd, by rw [hn]⟩

theorem eventsGrow_of_notify {s t : State} (hd : t.diag = s.diag) (hn : s.notify <+: t.notify) :
    eventsGrow s t := ⟨by rw [hd], hn⟩

theorem eventsGrow_of_eq {s t : State} (hd : t.diag = s.diag) (hn : t.notify = s.notify) :
    eventsGrow s t := ⟨by rw [hd], by rw [hn]⟩

/-- A rejected operand raises one diagnostic; else the command does what it does. -/
theorem withOperand_eventsGrow {α : Type} {o : Option α} {i : Instr} {l : List Beat}
    {k : α → State → State} {s : State} (hk : ∀ a, eventsGrow s (k a s)) :
    eventsGrow s (withOperand o i l k s) :=
  withOperand_ind o i l k s (eventsGrow_of_diag (List.prefix_append _ _) rfl) fun a _ => hk a

theorem exec_eventsGrow {i : Instr} {u t : State} (h : exec i u = .next t) : eventsGrow u t := by
  cases i <;> (unfold exec at h; injection h with h; subst h)
  case hqPush =>
    exact withOperand_eventsGrow fun q =>
      eventsGrow_of_diag (hqPush_diag q _ u) (by rw [hqPush_frame])
  case hqPop =>
    exact withOperand_eventsGrow fun q => eventsGrow_of_diag (hqPop_diag q u)
      (by rw [State.respond_notify, hqPop_frame])
  case hqReadat =>
    exact withOperand_eventsGrow fun q => eventsGrow_of_diag (hqReadAt_diag q _ u)
      (by rw [State.respond_notify, hqReadAt_frame])
  case hqOpush =>
    exact withOperand_eventsGrow fun q =>
      eventsGrow_of_eq (by rw [hqOpush_frame]) (by rw [hqOpush_frame])
  case fbRecompute =>
    exact withOperand_eventsGrow fun c =>
      eventsGrow_of_eq (by rw [fbRecompute_eq]; rfl) (by rw [fbRecompute_eq]; rfl)
  case hqInit | hqSize | hqCount | hqUnderflowed | hqOverflowed | fbPower | fbFircoef | fbIira |
      fbIirb | fbConst | txSetfreq =>
    exact withOperand_eventsGrow fun _ => eventsGrow_of_eq rfl rfl
  case srPop =>
    exact eventsGrow_of_eq (by rw [State.respond_diag, srPop_frame])
      (by rw [State.respond_notify, srPop_frame])
  case detInit => exact eventsGrow_of_eq (by rw [detInit, fbInit_eq]) (by rw [detInit, fbInit_eq])
  case ivTick => exact eventsGrow_of_eq (by rw [ivTick_frame]) (by rw [ivTick_frame])
  case trTick => exact eventsGrow_of_notify (by rw [trTick_frame]) (trTick_notify u)
  case trReload => exact eventsGrow_of_notify rfl (List.prefix_append _ _)
  case tick =>
    exact eventsGrow_of_notify (by rw [takeTick_frame])
      (by rw [takeTick_frame]; exact trTick_notify u)
  all_goals exact eventsGrow_of_eq rfl rfl

theorem detDecide_eventsGrow (s : State) : eventsGrow s (detDecide s) := by
  unfold detDecide
  cases hitDecision s.cfg.num s.fb.power s.det.ignored s.det.fudgeFactor with
  | allIgnored => exact eventsGrow_of_diag (List.prefix_append _ _) rfl
  | noHit => exact eventsGrow_of_eq rfl rfl
  | hit c => exact eventsGrow_of_notify rfl (List.prefix_append _ _)

theorem decideStep_eventsGrow (s : State) : eventsGrow s (decideStep s) := by
  have hd := detDecide_eventsGrow s
  unfold decideStep
  generalize detDecide s = a at hd ⊢
  simp only
  split
  · exact hd
  · exact eventsGrow_of_eq rfl rfl

/-- Every step but RESET only appends to the output lists. -/
theorem step_outputsGrow {s t : State} (h : step s = .next t)
    (hr : s.tickPending = true ∨ ∀ rest, s.schedule ≠ .reset :: rest) :
    s.resp <+: t.resp ∧ eventsGrow s t := by
  cases step_cases h with
  | run u i b _ result _ =>
    have hg := exec_eventsGrow result
    rw [eventsGrow, b.diag, b.notify] at hg
    exact ⟨by rw [exec_resp result, b.resp]; exact List.prefix_append _ _, hg⟩
  | pop u b _ result =>
    rw [result, popStep_frame, b]
    exact ⟨List.prefix_refl _, eventsGrow_of_eq rfl rfl⟩
  | filter u b _ result =>
    have hd := filterStep_diag u
    obtain ⟨q, fb, g, d, p, e⟩ := filterStep_form u
    rw [b.diag, ← result] at hd
    rw [← result] at e
    exact ⟨by rw [e, b.resp], eventsGrow_of_diag hd (by rw [e, b.notify])⟩
  | decide u b _ result =>
    have hg := decideStep_eventsGrow u
    obtain ⟨d, r, g, n, p, e⟩ := decideStep_form u
    rw [← result] at e hg
    rw [eventsGrow, b.diag, b.notify] at hg
    exact ⟨by rw [e, b.resp], hg⟩
  | wait b _ => exact ⟨by rw [b.resp], eventsGrow_of_eq b.diag b.notify⟩
  | illegal u w b _ result =>
    rw [result, b]
    exact ⟨List.prefix_refl _, eventsGrow_of_diag (List.prefix_append _ _) rfl⟩
  | pin u level b result =>
    rw [result, b]
    exact ⟨List.prefix_refl _, eventsGrow_of_eq rfl rfl⟩
  | reset u rest _ pending next _ =>
    exact absurd next (hr.resolve_left (by simp [pending]) rest)

/-- Settles O13. -/
theorem outputsAppendOnly : Obligations.OutputsAppendOnly := fun _ _ h hr => step_outputsGrow h hr

end Sys2Proof.Machine

/-! SUPPORT. Every step keeps the ring linked, but a TICK inside an unprotected run. -/

namespace Sys2Proof.Machine

theorem tickPush_protected {s : State} (h : unprotectedRun s = false) (adc : AdcCode) :
    tickPush adc s = srPush adc s := by
  rw [tickPush, h]; rfl

theorem takeTick_sr (adc : AdcCode) (s : State) : (takeTick adc s).sr = (tickPush adc s).sr := by
  rw [takeTick_frame]

/-- Every instruction keeps the ring linked, but a TICK inside an unprotected run. -/
theorem exec_ringLinked {i : Instr} {u t : State} (h : exec i u = .next t) (hu : ringLinked u)
    (hp : ∀ adc, i = .tick adc → unprotectedRun u = false) : ringLinked t := by
  rcases exec_sr h with hr | rfl | ⟨v, rfl⟩ | rfl | ⟨adc, rfl⟩
  · exact ringLinked_congr (exec_cfg h) hr hu
  · cases h; exact (Nat.zero_mod _).symm
  · cases h; exact srPush_linked hu v
  · cases h; exact ringLinked_congr (s := (srPop u).2) rfl rfl (srPop_linked hu)
  · have hs : t.sr = (srPush adc u).sr := by
      injection h with h
      rw [← h, takeTick_sr, tickPush_protected (hp adc rfl)]
    have hc : t.cfg = u.cfg := exec_cfg h
    exact ringLinked_congr (s := srPush adc u) hc hs (srPush_linked hu adc)

theorem step_ringLinked {s t : State} (h : step s = .next t) (hs : ringLinked s)
    (hp : ticksUnprotectedRun s = false) : ringLinked t := by
  have block {u : State} (b : SameBlock s u) : ringLinked u := ringLinked_congr b.cfg b.sr hs
  cases step_cases h with
  | run u i b next result _ =>
    refine exec_ringLinked result (block b) fun adc hi => ?_
    rwa [ticksUnprotectedRun, next, hi] at hp
  | pop u b _ result =>
    rw [result]
    exact ringLinked_congr (s := (srPop u).2) rfl rfl (srPop_linked (block b))
  | filter u b _ result =>
    obtain ⟨q, fb, g, d, p, e⟩ := filterStep_form u
    rw [result, e]
    exact block (u := u) b
  | decide u b _ result =>
    obtain ⟨d, r, g, n, p, e⟩ := decideStep_form u
    rw [result, e]
    exact block (u := u) b
  | wait b _ => exact block b
  | illegal u w b _ result => rw [result]; exact block (u := u) b
  | pin u level b result => rw [result]; exact block (u := u) b
  | reset u rest b _ _ result =>
    rw [result, hardwareReset_eq]
    exact resetWith_linked u.cfg u.trigIn

/-- Settles O18. -/
theorem stepKeepsRingOrder : Obligations.StepKeepsRingOrder :=
  fun _ _ _ hl hp h => step_ringLinked h hl hp

end Sys2Proof.Machine

/-! SUPPORT. Every step keeps the run sequencer's form. -/

namespace Sys2Proof.Machine

/-! ### The count of the ring and the phase after a sample -/

theorem srPush_count_le (v : AdcCode) (s : State) : s.sr.count ≤ (srPush v s).sr.count := by
  by_cases hf : s.sr.count = s.cfg.ringCapacity
  · rw [srPush_full hf]
  · rw [srPush_room hf]; exact Nat.le_succ _

theorem srPop_count (s : State) : (srPop s).2.sr.count = s.sr.count - 1 := by
  by_cases hf : s.sr.count = 0
  · rw [srPop_empty hf, hf]
  · rw [srPop_some hf]

@[simp] theorem afterSample_eq_idle {k : Nat} : afterSample k = .idle ↔ k = 0 := by
  unfold afterSample; split <;> simp [*]

@[simp] theorem afterSample_eq_pop {k : Nat} : afterSample k = .pop ↔ k ≠ 0 := by
  unfold afterSample; split <;> simp [*]

/-! ### What keeps the form -/

theorem sequencerWf_of_idle {s : State} (hp : s.seq.phase = .idle) (hr : s.seq.remaining = 0) :
    sequencerWf s := ⟨fun _ => hr, fun h => by simp [hp] at h, fun h => absurd hp h⟩

/-- The form is kept while the ring loses nothing. -/
theorem sequencerWf_of_count_le {s t : State} (h : sequencerWf s) (hq : t.seq = s.seq)
    (hc : s.seq.phase ≠ .idle → s.seq.irqEn = true → s.sr.count ≤ t.sr.count) : sequencerWf t := by
  obtain ⟨hi, hp, hr⟩ := h
  rw [sequencerWf, hq]
  exact ⟨hi, hp, fun hn he => (hr hn he).trans (hc hn he)⟩

/-- A sample is done with: the phase says whether one remains. -/
theorem sequencerWf_of_afterSample {s t : State}
    (hr : s.seq.irqEn = true → s.seq.remaining ≤ s.sr.count) (hs : t.sr = s.sr)
    (hq : t.seq = { s.seq with phase := afterSample s.seq.remaining }) : sequencerWf t := by
  rw [sequencerWf, hq, hs]
  exact ⟨afterSample_eq_idle.mp, fun h => Nat.pos_of_ne_zero (afterSample_eq_pop.mp h),
    fun _ => hr⟩

/-! ### Every instruction, phase step and step keeps it -/

theorem takeTick_sequencerWf {s : State} (h : sequencerWf s) (adc : AdcCode) :
    sequencerWf (takeTick adc s) := by
  refine sequencerWf_of_count_le h (by rw [takeTick_frame]) fun _ he => ?_
  rw [takeTick_sr, tickPush_protected (by simp [unprotectedRun, he])]
  exact srPush_count_le adc s

theorem detEntry_sequencerWf (b : Bool) (s : State) : sequencerWf (detEntry b s) :=
  sequencerWf_of_afterSample
    (s := { s with seq := { s.seq with irqEn := b, remaining := s.sr.count } })
    (fun _ => le_refl _) rfl rfl

/-- Outside a DET_RUN every instruction keeps the sequencer's form. -/
theorem exec_sequencerWf {i : Instr} {u t : State} (h : exec i u = .next t) (hu : sequencerWf u)
    (hi : u.seq.phase = .idle) : sequencerWf t := by
  rcases exec_seq h with hq | ⟨b, rfl⟩
  · exact sequencerWf_of_idle (by rw [hq, hi]) (by rw [hq, hu.1 hi])
  · cases h; exact detEntry_sequencerWf b u

theorem popStep_sequencerWf {s : State} (h : sequencerWf s) (hp : s.seq.phase = .pop) :
    sequencerWf (popStep s) := by
  obtain ⟨-, -, hr⟩ := h
  have hf : (popStep s).seq.phase = .filter := rfl
  refine ⟨fun e => ?_, fun e => ?_, fun _ he => ?_⟩
  · rw [hf] at e; cases e
  · rw [hf] at e; cases e
  · have hirq : s.seq.irqEn = true := by rwa [popStep, srPop_frame] at he
    have hc : (popStep s).sr.count = s.sr.count - 1 := srPop_count s
    rw [hc]
    exact Nat.sub_le_sub_right (hr (by simp [hp]) hirq) 1

/-- A FILTER step goes on to DECIDE or is done with its sample. -/
theorem filterStep_seq (s : State) : (filterStep s).seq = { s.seq with phase := .decide } ∨
    (filterStep s).seq = { s.seq with phase := afterSample s.seq.remaining } := by
  have ha : (fbAccept s.seq.sample s).seq = s.seq := by rw [fbAccept_frame]; rfl
  unfold filterStep
  generalize fbAccept s.seq.sample s = a at ha ⊢
  simp only
  split
  · left
    rw [fbWindow_frame]
    simp [ha]
  · right
    simp [ha]

theorem filterStep_sequencerWf {s : State} (h : sequencerWf s) (hp : s.seq.phase = .filter) :
    sequencerWf (filterStep s) := by
  have hr := h.2.2 (by simp [hp])
  have hs : (filterStep s).sr = s.sr := by
    obtain ⟨q, fb, g, d, p, e⟩ := filterStep_form s
    rw [e]
  rcases filterStep_seq s with hq | hq
  · rw [sequencerWf, hq, hs]
    exact ⟨nofun, nofun, fun _ => hr⟩
  · exact sequencerWf_of_afterSample hr hs hq

theorem decideStep_seq (s : State) :
    (decideStep s).seq = { s.seq with phase := afterSample s.seq.remaining } := by
  unfold decideStep detDecide
  simp only
  split
  · split <;> rfl
  · rfl

theorem decideStep_sequencerWf {s : State} (h : sequencerWf s) (hp : s.seq.phase = .decide) :
    sequencerWf (decideStep s) := by
  refine sequencerWf_of_afterSample (h.2.2 (by simp [hp])) ?_ (decideStep_seq s)
  obtain ⟨d, r, g, n, p, e⟩ := decideStep_form s
  rw [e]

theorem step_sequencerWf {s t : State} (h : step s = .next t) (hs : sequencerWf s) :
    sequencerWf t := by
  have block {u : State} (b : SameBlock s u) : sequencerWf u := by rw [b]; exact hs
  cases step_cases h with
  | run u i b _ result origin =>
    rcases origin with ⟨adc, rfl⟩ | ⟨hp, -⟩
    · injection result with e; rw [← e]; exact takeTick_sequencerWf (block b) adc
    · exact exec_sequencerWf result (block b) hp
  | pop u b phase result => rw [result]; exact popStep_sequencerWf (block b) phase
  | filter u b phase result => rw [result]; exact filterStep_sequencerWf (block b) phase
  | decide u b phase result => rw [result]; exact decideStep_sequencerWf (block b) phase
  | wait b _ => exact block b
  | illegal u w b _ result => rw [result]; exact block (u := u) b
  | pin u level b result => rw [result]; exact block (u := u) b
  | reset u rest b _ _ result =>
    rw [result, hardwareReset_eq]
    exact resetWith_sequencerWf u.cfg u.trigIn

/-- Settles O20. -/
theorem stepKeepsSequencerForm : Obligations.StepKeepsSequencerForm :=
  fun _ _ hs h => step_sequencerWf h hs

end Sys2Proof.Machine

/-! SUPPORT. SampleRing as a bounded first-in first-out queue. -/

namespace Sys2Proof.Machine

/-- Settles O24. -/
theorem ringIsFirstInFirstOut : Obligations.RingIsFirstInFirstOut := by
  intro s hr hl
  obtain ⟨htail, hhead⟩ := ringContents_srPop hr.2.1
  refine ⟨fun v => ⟨_, rfl, ringContents_srPush hr hl v⟩, _, rfl, ?_, ?_⟩
  · rw [← htail]
    exact ringContents_congr rfl rfl
  · rw [State.respond_resp, srPop_frame, hhead]

end Sys2Proof.Machine

/-! SUPPORT. A hit is counted and never uncounted, but at DET_INIT and RESET. -/

namespace Sys2Proof.Machine

theorem saturatingIncrement_ge (c : BitVec 32) : c.toNat ≤ (saturatingIncrement c).toNat := by
  unfold saturatingIncrement
  split
  · exact le_refl _
  · rename_i hc
    have hn : c.toNat ≠ 2 ^ 32 - 1 := fun e => hc (BitVec.eq_of_toNat_eq e)
    have := c.isLt
    rw [BitVec.toNat_add_of_lt (by simp; omega)]
    exact Nat.le_add_right _ _

theorem exec_hitCounts {i : Instr} {u t : State} (h : exec i u = .next t) (hi : i ≠ .detInit) :
    t.det.hitCounts = u.det.hitCounts := by
  rcases exec_det h with hd | rfl | ⟨m, rfl⟩ | ⟨b, rfl⟩ | rfl | ⟨b, rfl⟩ | ⟨f, rfl⟩ | rfl |
    ⟨adc, rfl⟩
  · rw [hd]
  · exact absurd rfl hi
  · cases h; rfl
  · cases h; rfl
  · cases h; rfl
  · cases h; rfl
  · cases h; rfl
  · injection h with h; rw [← h, ivTick_frame]
  · injection h with h; rw [← h, takeTick_frame]

theorem recordHit_hitCounts (cand c : Channel) (s : State) :
    s.det.hitCounts[c].toNat ≤ (recordHit cand s).det.hitCounts[c].toNat := by
  show _ ≤ (s.det.hitCounts.set cand.val _ cand.isLt)[c.val].toNat
  rw [Vector.getElem_set]
  split
  · rename_i e
    obtain rfl : cand = c := Fin.ext e
    exact saturatingIncrement_ge _
  · exact le_refl _

theorem detDecide_hitCounts (s : State) (c : Channel) :
    s.det.hitCounts[c].toNat ≤ (detDecide s).det.hitCounts[c].toNat := by
  unfold detDecide
  cases hitDecision s.cfg.num s.fb.power s.det.ignored s.det.fudgeFactor with
  | allIgnored => exact le_refl _
  | noHit => exact le_refl _
  | hit cand => exact recordHit_hitCounts cand c s

theorem decideStep_hitCounts (s : State) (c : Channel) :
    s.det.hitCounts[c].toNat ≤ (decideStep s).det.hitCounts[c].toNat := by
  have hd := detDecide_hitCounts s c
  unfold decideStep
  generalize detDecide s = a at hd ⊢
  simp only
  split
  · exact hd
  · exact le_refl _

theorem step_hitCounts {s t : State} (h : step s = .next t)
    (hd : ∀ s', nextWork s ≠ .run .detInit s')
    (hr : s.tickPending = true ∨ ∀ rest, s.schedule ≠ .reset :: rest) (c : Channel) :
    s.det.hitCounts[c].toNat ≤ t.det.hitCounts[c].toNat := by
  cases step_cases h with
  | run u i b next result _ =>
    have hi : i ≠ .detInit := fun e => hd u (e ▸ next)
    rw [exec_hitCounts result hi, b.det]
  | pop u b _ result => rw [result, popStep_frame, b.det]
  | filter u b _ result =>
    obtain ⟨q, fb, g, d, p, e⟩ := filterStep_form u
    rw [result, e, b.det]
  | decide u b _ result => rw [result, ← b.det]; exact decideStep_hitCounts u c
  | wait b _ => rw [b.det]
  | illegal u w b _ result => rw [result, State.raise_det, b.det]
  | pin u level b result => rw [result, b.det]
  | reset u rest _ pending next _ =>
    exact absurd next (hr.resolve_left (by simp [pending]) rest)

/-- Settles O45. -/
theorem hitCountsNeverDecrease : Obligations.HitCountsNeverDecrease :=
  fun _ _ h hd hr c => step_hitCounts h hd hr c

end Sys2Proof.Machine

/-! SUPPORT. Only a PIN event changes `trig_in`. -/

namespace Sys2Proof.Machine

/-- A step of the foreground leaves `trig_in` as it is. -/
theorem step_trigIn_of_foreground {s t u : State} (h : step s = .next t)
    (hw : nextWork s = foregroundStep u) : t.trigIn = u.trigIn := by
  unfold step at h
  rw [hw] at h
  rcases foregroundStep_cases u with ⟨-, -, e⟩ | ⟨-, e⟩ | ⟨-, w, v, rest, er, -, -, e⟩ |
    ⟨-, w, v, rest, i, -, -, e⟩ | ⟨-, e⟩ | ⟨-, e⟩ | ⟨-, e⟩ <;> rw [e] at h
  · cases h
  · cases h; rfl
  · cases h; rfl
  · exact exec_trigIn (u := { u with cmd := rest }) h
  · cases h; rw [popStep_frame]
  · cases h
    obtain ⟨q, fb, g, d, p, hf⟩ := filterStep_form u
    rw [hf]
  · cases h
    obtain ⟨d, r, g, n, p, hf⟩ := decideStep_form u
    rw [hf]

/-- A step that runs an instruction leaves `trig_in` as it is. -/
theorem step_trigIn_of_run {s t u : State} {i : Instr} (h : step s = .next t)
    (hw : nextWork s = .run i u) : t.trigIn = u.trigIn := by
  unfold step at h
  rw [hw] at h
  exact exec_trigIn h

/-- Only a PIN event changes `trig_in`. -/
theorem step_trigIn {s t : State} (h : step s = .next t)
    (hp : s.tickPending = true ∨ ∀ level rest, s.schedule ≠ .pin level :: rest) :
    t.trigIn = s.trigIn := by
  by_cases ht : s.tickPending = true
  · exact (step_trigIn_of_run h (nextWork_pending ht)).trans rfl
  have hn := hp.resolve_left ht
  have ht : s.tickPending = false := by simpa using ht
  cases hs : s.schedule with
  | nil => exact (step_trigIn_of_foreground h (nextWork_foreground ⟨ht, .inl hs⟩)).trans rfl
  | cons e rest =>
    cases e with
    | tick w => exact (step_trigIn_of_run h (nextWork_tick ht hs)).trans rfl
    | pin level => exact absurd hs (hn level rest)
    | reset => rw [stepFrom_done h (nextWork_reset ht hs), hardwareReset_eq]; rfl
    | foreground =>
      exact (step_trigIn_of_foreground h (nextWork_foreground ⟨ht, .inr ⟨rest, hs⟩⟩)).trans rfl
    | foregroundAndTick w =>
      cases hm : irqMask s with
      | true => exact (step_trigIn_of_foreground h (nextWork_masked ht hs hm)).trans rfl
      | false => exact (step_trigIn_of_run h (nextWork_unmasked ht hs hm)).trans rfl

/-- Settles O60. -/
theorem pinEventSetsTrigIn : Obligations.PinEventSetsTrigIn := by
  refine ⟨fun s level rest ht hs => ?_, fun s t h hp => step_trigIn h hp⟩
  unfold step
  rw [nextWork_pin ht hs]

end Sys2Proof.Machine

/-! SUPPORT. The table of the values after reset (10_state.md R65). -/

namespace Sys2Proof.Machine

/-- Settles O14. -/
theorem resetStateValues : Obligations.ResetStateValues := by
  refine fun cfg pin => ⟨⟨fun i => rfl, rfl, rfl, rfl⟩, fun q => ?_, resetWith_power cfg pin,
    ⟨rfl, rfl, fun c => by simp [State.resetWith, Detector.reset], rfl, rfl, rfl, rfl, rfl⟩,
    ⟨rfl, rfl, rfl⟩, ⟨rfl, rfl, rfl, rfl⟩, ⟨rfl, rfl, rfl, rfl, rfl, rfl, rfl⟩,
    ⟨rfl, rfl, rfl, rfl, rfl, rfl, rfl, rfl⟩, ⟨rfl, rfl, rfl, rfl⟩, rfl, rfl, rfl, rfl, rfl⟩
  rw [resetWith_queue]
  exact ⟨fun i => rfl, rfl, rfl, rfl, rfl, rfl⟩

end Sys2Proof.Machine

/-! SUPPORT. What a step runs: the command on CMD, a TICK event, or a held TICK; and that no step changes
the configuration. -/

namespace Sys2Proof.Machine

/-- The outcome of what a step does: that of its instruction, its next state, or its fault. -/
def Work.outcome : Work → Host.Outcome State Fault Refusal
  | .run i s => exec i s
  | .done s => .next s
  | .stop r => .fault r

theorem step_eq_outcome (s : State) : step s = (nextWork s).outcome := by
  unfold step
  cases nextWork s <;> rfl

theorem step_foreground {s : State} (hf : foregroundIsNext s) :
    step s = (foregroundStep { s with schedule := s.schedule.tail }).outcome := by
  rw [step_eq_outcome, nextWork_foreground hf]

theorem step_tick {s : State} {w : TickWord} {rest : List Event} (ht : s.tickPending = false)
    (hs : s.schedule = .tick w :: rest) :
    step s = exec (.tick (w.extractLsb' 0 12)) { s with schedule := rest } := by
  rw [step_eq_outcome, nextWork_tick ht hs]
  rfl

theorem step_pending {s : State} (ht : s.tickPending = true) :
    step s =
      exec (.tick (s.heldTick.extractLsb' 0 12)) { s with tickPending := false, heldTick := 0 } := by
  rw [step_eq_outcome, nextWork_pending ht]
  rfl

theorem step_unmasked {s : State} {w : TickWord} {rest : List Event} (ht : s.tickPending = false)
    (hs : s.schedule = .foregroundAndTick w :: rest) (hm : irqMask s = false) :
    step s = exec (.tick (w.extractLsb' 0 12)) { s with schedule := .foreground :: rest } := by
  rw [step_eq_outcome, nextWork_unmasked ht hs hm]
  rfl

theorem foregroundStep_pop {u : State} (hp : u.seq.phase = .pop) :
    foregroundStep u = .done (popStep u) := by
  rw [foregroundStep, hp]

theorem foregroundStep_command {u : State} {h : Head} {v : NUM} {rest : List CmdWord} {i : Instr}
    (hp : u.seq.phase = .idle) (hc : u.cmd = issuedWords h v ++ rest)
    (hd : decodeHead h v = .ok i) : foregroundStep u = .run i { u with cmd := rest } := by
  simp only [foregroundStep, hp, nextCommand, hc, takeCommand_issued, decodeHead_issued, hd]

/-- Settles O5. -/
theorem stepRunsDecodedInstruction : Obligations.StepRunsDecodedInstruction := by
  refine ⟨fun s h payload rest i hf hi hc hd => ?_, fun s w rest ht hs => step_tick ht hs,
    fun s ht => step_pending ht⟩
  rw [step_eq_outcome, nextWork_command hf hi hc hd]
  rfl

/-- Settles O12. -/
theorem configurationNeverChanges : Obligations.ConfigurationNeverChanges :=
  fun _ _ h => step_cfg_eq h

end Sys2Proof.Machine

/-! SUPPORT. A TICK that arrives during a critical section is held, and nothing else of the step
changes (20_memory.md R83; 60_exceptions.md R341). -/

namespace Sys2Proof.Machine

/-! ### The mask -/

theorem maskedCommand_iff {i : Instr} :
    maskedCommand i = true ↔ i = .srInit ∨ (∃ v, i = .srPush v) ∨ i = .srPop := by
  cases i <;> simp [maskedCommand]

/-- Between runs the mask is that of the command at the front of CMD. -/
theorem irqMask_idle {s : State} (hp : s.seq.phase = .idle) : irqMask s = true ↔
    ∃ h payload rest i, s.cmd = issuedWords h payload ++ rest ∧ decodeHead h payload = .ok i ∧
      maskedCommand i = true := by
  unfold irqMask nextCommand
  rw [hp]
  constructor
  · intro hm
    cases hc : takeCommand s.cmd with
    | nothing => simp [hc] at hm
    | incomplete => simp [hc] at hm
    | outOfStep => simp [hc] at hm
    | command h v rest =>
      cases hd : decodeHead h v with
      | error e => simp [hc, hd] at hm
      | ok i => exact ⟨h, v, rest, i, takeCommand_eq_command hc, hd, by simpa [hc, hd] using hm⟩
  · rintro ⟨h, v, rest, i, hc, hd, hm⟩
    simpa only [hc, takeCommand_issued, decodeHead_issued, hd] using hm

/-- In a run the mask is that of the POP step of a protected one. -/
theorem irqMask_inRun {s : State} (hp : s.seq.phase ≠ .idle) :
    irqMask s = true ↔ s.seq.phase = .pop ∧ s.seq.irqEn = true := by
  unfold irqMask
  cases h : s.seq.phase with
  | idle => exact absurd h hp
  | pop => simp
  | filter => simp
  | decide => simp

theorem irqMask_iff (s : State) : irqMask s = true ↔
    (s.seq.phase = .pop ∧ s.seq.irqEn = true) ∨
    (s.seq.phase = .idle ∧ ∃ h payload rest i, s.cmd = issuedWords h payload ++ rest ∧
      decodeHead h payload = .ok i ∧ maskedCommand i = true) := by
  by_cases hp : s.seq.phase = .idle
  · simp [irqMask_idle hp, hp]
  · simp [irqMask_inRun hp, hp]

/-! ### A critical section beside a TICK that is held -/

/-- `s` with the TICK word `w` held (10_state.md R64). -/
def State.holdTick (w : TickWord) (s : State) : State :=
  { s with tickPending := true, heldTick := w }

theorem srPop_holdTick (w : TickWord) (s : State) :
    srPop (s.holdTick w) = ((srPop s).1, (srPop s).2.holdTick w) := by
  by_cases h : s.sr.count = 0
  · rw [srPop_empty h, srPop_empty (s := s.holdTick w) h]
  · rw [srPop_some h, srPop_some (s := s.holdTick w) h]; rfl

theorem popStep_holdTick (w : TickWord) (s : State) :
    popStep (s.holdTick w) = (popStep s).holdTick w := by
  unfold popStep
  rw [srPop_holdTick]
  rfl

/-- The masked commands neither read nor write what is held. -/
theorem exec_holdTick {i : Instr} (hi : maskedCommand i = true) (w : TickWord) (s : State) :
    ∃ t, exec i s = .next t ∧ exec i (s.holdTick w) = .next (t.holdTick w) := by
  rcases maskedCommand_iff.mp hi with rfl | ⟨v, rfl⟩ | rfl
  · exact ⟨srInit s, rfl, rfl⟩
  · exact ⟨srPush v s, rfl, rfl⟩
  · refine ⟨_, rfl, ?_⟩
    show execSrPop (s.holdTick w) = _
    rw [execSrPop, srPop_holdTick]
    rfl

/-- A masked foreground step with a TICK held is the same step without it, but for what is held. -/
theorem foregroundStep_holdTick {s : State} (hm : irqMask s = true) (w : TickWord) :
    ∃ t, (foregroundStep s).outcome = .next t ∧
      (foregroundStep (s.holdTick w)).outcome = .next (t.holdTick w) ∧ t.schedule = s.schedule := by
  rcases (irqMask_iff s).mp hm with ⟨hp, -⟩ | ⟨hp, h, v, rest, i, hc, hd, hi⟩
  · refine ⟨popStep s, by rw [foregroundStep_pop hp]; rfl, ?_, by rw [popStep_frame]⟩
    rw [foregroundStep_pop (u := s.holdTick w) hp, popStep_holdTick]
    rfl
  · obtain ⟨t, ht, hh⟩ := exec_holdTick hi w { s with cmd := rest }
    refine ⟨t, by rw [foregroundStep_command hp hc hd]; exact ht, ?_, by rw [exec_schedule ht]⟩
    rw [foregroundStep_command (u := s.holdTick w) hp hc hd]
    exact hh

/-- Settles O9. -/
theorem maskedStepHoldsTick : Obligations.MaskedStepHoldsTick := by
  refine ⟨fun s => ?_, fun s w rest ht hs hm => ?_, fun s w rest ht hs hm => step_unmasked ht hs hm⟩
  · simp only [← maskedCommand_iff]
    exact irqMask_iff s
  · have hm' : irqMask { s with schedule := rest } = true := by rwa [irqMask_iff] at hm ⊢
    obtain ⟨u, hu, hh, hsched⟩ := foregroundStep_holdTick hm' w
    have plain : step { s with schedule := .foreground :: rest } = .next u := by
      rw [step_foreground (s := { s with schedule := .foreground :: rest })
        ⟨ht, .inr ⟨rest, rfl⟩⟩]
      exact hu
    have masked : step s = .next (u.holdTick w) := by
      rw [step_eq_outcome, nextWork_masked ht hs hm]
      exact hh
    exact ⟨u, u.holdTick w, plain, masked, rfl, hsched, step_pending rfl⟩

end Sys2Proof.Machine

/-! SUPPORT. The number of steps left in a DET_RUN: each foreground step takes one from it, and the TICKs
leave it as it is (43_detector.md R236; 20_memory.md R86). -/

namespace Sys2Proof.Machine

/-! ### What the number depends on -/

theorem runStepsLeft_congr {s t : State} (hq : t.seq = s.seq)
    (hd : t.det.decimationCounter = s.det.decimationCounter) : runStepsLeft t = runStepsLeft s := by
  rw [runStepsLeft, runStepsLeft, hq, hd]

theorem runStepsLeft_pop {s : State} (h : s.seq.phase = .pop) : runStepsLeft s =
    2 * s.seq.remaining + (s.det.decimationCounter.val + s.seq.remaining) / 10 := by
  rw [runStepsLeft, h]

theorem runStepsLeft_filter {s : State} (h : s.seq.phase = .filter) : runStepsLeft s =
    1 + 2 * s.seq.remaining + (s.det.decimationCounter.val + 1 + s.seq.remaining) / 10 := by
  rw [runStepsLeft, h]

theorem runStepsLeft_decide {s : State} (h : s.seq.phase = .decide) : runStepsLeft s =
    1 + 2 * s.seq.remaining + (s.det.decimationCounter.val + s.seq.remaining) / 10 := by
  rw [runStepsLeft, h]

/-- Between two samples the number is the same expression whether one remains or not. -/
theorem runStepsLeft_afterSample {s : State} (h : s.seq.phase = afterSample s.seq.remaining) :
    runStepsLeft s =
      2 * s.seq.remaining + (s.det.decimationCounter.val + s.seq.remaining) / 10 := by
  by_cases hr : s.seq.remaining = 0
  · have hd := s.det.decimationCounter.isLt
    rw [runStepsLeft, h, afterSample, if_pos hr]
    show 0 = _
    omega
  · exact runStepsLeft_pop (h.trans (if_neg hr))

theorem runStepsLeft_eq_zero_iff {s : State} (h : sequencerWf s) :
    runStepsLeft s = 0 ↔ s.seq.phase = .idle := by
  obtain ⟨-, hpop, -⟩ := h
  cases hp : s.seq.phase with
  | idle => simp [runStepsLeft, hp]
  | pop =>
    have hr := hpop hp
    rw [runStepsLeft_pop hp]
    simp only [reduceCtorEq, iff_false]
    omega
  | filter => rw [runStepsLeft_filter hp]; simp
  | decide => rw [runStepsLeft_decide hp]; simp

/-! ### ENTRY and the TICKs -/

theorem runStepsLeft_detEntry (b : Bool) (s : State) : runStepsLeft (detEntry b s) =
    2 * s.sr.count + (s.det.decimationCounter.val + s.sr.count) / 10 :=
  runStepsLeft_afterSample (s := detEntry b s) rfl

theorem runStepsLeft_takeTick (adc : AdcCode) (s : State) :
    runStepsLeft (takeTick adc s) = runStepsLeft s :=
  runStepsLeft_congr (by rw [takeTick_frame]) (by rw [takeTick_frame])

/-! ### The phase steps -/

/-- A FILTER step at the end of a window starts the counter again and goes on to DECIDE; any other counts
its sample and is done with it (43_detector.md R234). -/
theorem filterStep_counter (s : State) :
    (s.det.decimationCounter.val + 1 = 10 ∧ (filterStep s).seq = { s.seq with phase := .decide } ∧
      (filterStep s).det.decimationCounter.val = 0) ∨
    (s.det.decimationCounter.val + 1 < 10 ∧
      (filterStep s).seq = { s.seq with phase := afterSample s.seq.remaining } ∧
      (filterStep s).det.decimationCounter.val = s.det.decimationCounter.val + 1) := by
  have hseq : (fbAccept s.seq.sample s).seq = s.seq := by rw [fbAccept_frame]; rfl
  have hdet : (fbAccept s.seq.sample s).det = s.det := by rw [fbAccept_frame]; rfl
  have hlt := s.det.decimationCounter.isLt
  unfold filterStep
  generalize fbAccept s.seq.sample s = a at hseq hdet ⊢
  simp only [hdet, decimation]
  split
  · rename_i hd
    refine .inl ⟨hd, ?_, ?_⟩
    · rw [fbWindow_frame, ← hseq]; rfl
    · rw [fbWindow_frame]; rfl
  · rename_i hd
    refine .inr ⟨by omega, by rw [hseq], ?_⟩
    show (s.det.decimationCounter + 1).val = _
    rw [Fin.val_add_one_of_lt (Fin.lt_def.mpr (by show _ < 9; omega))]

theorem decideStep_decimationCounter (s : State) :
    (decideStep s).det.decimationCounter = s.det.decimationCounter := by
  unfold decideStep detDecide
  simp only
  split
  · split <;> rfl
  · rfl

theorem runStepsLeft_popStep {s : State} (hp : s.seq.phase = .pop) (hr : 1 ≤ s.seq.remaining) :
    runStepsLeft (popStep s) + 1 = runStepsLeft s := by
  have hd : (popStep s).det = s.det := by rw [popStep_frame]
  have hrem : (popStep s).seq.remaining = s.seq.remaining - 1 := rfl
  rw [runStepsLeft_filter (s := popStep s) rfl, runStepsLeft_pop hp, hd, hrem]
  omega

theorem runStepsLeft_filterStep {s : State} (hp : s.seq.phase = .filter) :
    runStepsLeft (filterStep s) + 1 = runStepsLeft s := by
  rw [runStepsLeft_filter hp]
  rcases filterStep_counter s with ⟨hd, hq, hc⟩ | ⟨-, hq, hc⟩
  · have hrem : (filterStep s).seq.remaining = s.seq.remaining := by rw [hq]
    rw [runStepsLeft_decide (by rw [hq]), hrem, hc]
    omega
  · have hrem : (filterStep s).seq.remaining = s.seq.remaining := by rw [hq]
    rw [runStepsLeft_afterSample (by rw [hq]), hrem, hc]
    omega

theorem runStepsLeft_decideStep {s : State} (hp : s.seq.phase = .decide) :
    runStepsLeft (decideStep s) + 1 = runStepsLeft s := by
  have hq := decideStep_seq s
  have hrem : (decideStep s).seq.remaining = s.seq.remaining := by rw [hq]
  rw [runStepsLeft_decide hp, runStepsLeft_afterSample (by rw [hq]), hrem,
    decideStep_decimationCounter]
  omega

/-- In a DET_RUN the foreground's step takes one from the number of steps left, and leaves the pending
bit as it is. -/
theorem foregroundStep_countsDown {u : State} (hu : sequencerWf u) (hp : u.seq.phase ≠ .idle) :
    ∃ t, (foregroundStep u).outcome = .next t ∧ runStepsLeft t + 1 = runStepsLeft u ∧
      t.tickPending = u.tickPending := by
  rcases foregroundStep_cases u with ⟨hi, -⟩ | ⟨hi, -⟩ | ⟨hi, -⟩ | ⟨hi, -⟩ |
    ⟨hph, e⟩ | ⟨hph, e⟩ | ⟨hph, e⟩
  · exact absurd hi hp
  · exact absurd hi hp
  · exact absurd hi hp
  · exact absurd hi hp
  · obtain ⟨-, hpop, -⟩ := hu
    exact ⟨popStep u, by rw [e]; rfl, runStepsLeft_popStep hph (hpop hph), by rw [popStep_frame]⟩
  · obtain ⟨q, fb, g, d, p, hf⟩ := filterStep_form u
    exact ⟨filterStep u, by rw [e]; rfl, runStepsLeft_filterStep hph, by rw [hf]⟩
  · obtain ⟨d, r, g, n, p, hf⟩ := decideStep_form u
    exact ⟨decideStep u, by rw [e]; rfl, runStepsLeft_decideStep hph, by rw [hf]⟩

/-! ### The steps -/

/-- A TICK that is the next step, held or due, leaves the number of steps left as it is. -/
theorem step_tick_runStepsLeft {s : State} {w : TickWord} {rest : List Event}
    (h : s.tickPending = true ∨ s.schedule = .tick w :: rest) :
    ∃ t, step s = .next t ∧ runStepsLeft t = runStepsLeft s := by
  by_cases ht : s.tickPending = true
  · exact ⟨_, step_pending ht, runStepsLeft_takeTick _ _⟩
  · exact ⟨_, step_tick (by simpa using ht) (h.resolve_left ht), runStepsLeft_takeTick _ _⟩

/-- Settles O43. -/
theorem runStepsCountDown : Obligations.RunStepsCountDown := by
  refine ⟨fun b s => ⟨detEntry b s, rfl, runStepsLeft_detEntry b s⟩,
    fun s hs => runStepsLeft_eq_zero_iff hs, fun s hs hf hp => ?_,
    fun s w rest hs hp ht hsched => ?_, fun s w rest h => step_tick_runStepsLeft h,
    fun s level rest ht hs => ⟨{ s with schedule := rest, trigIn := level }, ?_, rfl⟩⟩
  · obtain ⟨t, hw, hl, -⟩ :=
      foregroundStep_countsDown (u := { s with schedule := s.schedule.tail }) hs hp
    exact ⟨t, (step_foreground hf).trans hw, hl⟩
  · cases hm : irqMask s with
    | true =>
      obtain ⟨t, hw, hl, hpend⟩ := foregroundStep_countsDown
        (u := { s with schedule := rest, tickPending := true, heldTick := w }) hs hp
      refine ⟨t, ?_, fun _ => ⟨hl, hpend⟩, nofun⟩
      rw [step_eq_outcome, nextWork_masked ht hsched hm]
      exact hw
    | false =>
      exact ⟨_, step_unmasked ht hsched hm, nofun,
        fun _ => ⟨runStepsLeft_takeTick _ _, exec_schedule (i := .tick _) rfl⟩⟩
  · rw [step_eq_outcome, nextWork_pin ht hs]
    rfl

end Sys2Proof.Machine

/-! SUPPORT. The encoding as one typed table: each format of 30_encoding.md R101 written and read
back, each opcode of R103 with its format and its instruction. -/

namespace Sys2Proof.Machine

/-! ### Fields of a head under a mask -/

theorem headField_and_of_allOnes {h m : Head} {lo len : Nat}
    (hm : headField m lo len = BitVec.allOnes len) :
    headField (h &&& m) lo len = headField h lo len := by
  rw [headField, BitVec.extractLsb'_and]
  change _ &&& headField m lo len = _
  rw [hm, BitVec.and_allOnes]
  rfl

/-- A field below the opcode that the mask covers is 0 where the mask leaves the opcode alone. -/
theorem headField_eq_zero_of_and {h m : Head} {op : BitVec 8} {lo len : Nat}
    (e : h &&& m = op ++ 0#24) (hm : headField m lo len = BitVec.allOnes len)
    (hl : lo + len ≤ 24) :
    headField h lo len = 0#len := by
  rw [← headField_and_of_allOnes hm, e]
  exact (BitVec.extractLsb'_append_eq_of_add_le hl).trans BitVec.extractLsb'_zero

/-! ### Formats (30_encoding.md R101) -/

/-- The formats of a head. QP is Q in its head. -/
inductive HeadFormat where
  | z | v12 | q | qa | ch | ci | i8 | m10 | b1 | u16 | u24

namespace HeadFormat

/-- The operand fields of a format. -/
@[reducible] def Operands : HeadFormat → Type
  | .z => Unit
  | .v12 => AdcCode
  | .q => BitVec 5
  | .qa => BitVec 5 × BitVec 16
  | .ch => BitVec 4
  | .ci => BitVec 4 × BitVec 8
  | .i8 => BitVec 8
  | .m10 => BitVec 10
  | .b1 => Bool
  | .u16 => BitVec 16
  | .u24 => BitVec 24

/-- The head with this opcode and these operands: the fixed-width pattern of the format. -/
def write (op : BitVec 8) : (f : HeadFormat) → f.Operands → Head
  | .z, _ => op ++ 0#24
  | .v12, v => op ++ 0#12 ++ v
  | .q, id => op ++ 0#3 ++ id ++ 0#16
  | .qa, (id, age) => op ++ 0#3 ++ id ++ age
  | .ch, c => op ++ 0#20 ++ c
  | .ci, (c, i) => op ++ 0#12 ++ c ++ i
  | .i8, i => op ++ 0#16 ++ i
  | .m10, m => op ++ 0#14 ++ m
  | .b1, b => op ++ 0#23 ++ BitVec.ofBool b
  | .u16, u => op ++ 0#8 ++ u
  | .u24, u => op ++ u

/-- The operand fields of a head. -/
def fields (h : Head) : (f : HeadFormat) → f.Operands
  | .z => ()
  | .v12 => headField h 0 12
  | .q => headField h 16 5
  | .qa => (headField h 16 5, headField h 0 16)
  | .ch => headField h 0 4
  | .ci => (headField h 8 4, headField h 0 8)
  | .i8 => headField h 0 8
  | .m10 => headField h 0 10
  | .b1 => h.getLsbD 0
  | .u16 => headField h 0 16
  | .u24 => headField h 0 24

/-- The bits that the format reserves are 0 (R111). -/
def reservedAreZero (h : Head) : HeadFormat → Bool
  | .z => headField h 0 24 == 0#24
  | .v12 => headField h 12 12 == 0#12
  | .q => headField h 21 3 == 0#3 && headField h 0 16 == 0#16
  | .qa => headField h 21 3 == 0#3
  | .ch => headField h 4 20 == 0#20
  | .ci => headField h 12 12 == 0#12
  | .i8 => headField h 8 16 == 0#16
  | .m10 => headField h 10 14 == 0#14
  | .b1 => headField h 1 23 == 0#23
  | .u16 => headField h 16 8 == 0#8
  | .u24 => true

/-- The mask of the format's rows: 1 where the opcode or a reserved bit stands (R103). -/
def mask : HeadFormat → Head
  | .z => BitVec.allOnes 8 ++ BitVec.allOnes 24
  | .v12 => BitVec.allOnes 8 ++ BitVec.allOnes 12 ++ 0#12
  | .q => BitVec.allOnes 8 ++ BitVec.allOnes 3 ++ 0#5 ++ BitVec.allOnes 16
  | .qa => BitVec.allOnes 8 ++ BitVec.allOnes 3 ++ 0#5 ++ 0#16
  | .ch => BitVec.allOnes 8 ++ BitVec.allOnes 20 ++ 0#4
  | .ci => BitVec.allOnes 8 ++ BitVec.allOnes 12 ++ 0#4 ++ 0#8
  | .i8 => BitVec.allOnes 8 ++ BitVec.allOnes 16 ++ 0#8
  | .m10 => BitVec.allOnes 8 ++ BitVec.allOnes 14 ++ 0#10
  | .b1 => BitVec.allOnes 8 ++ BitVec.allOnes 23 ++ 0#1
  | .u16 => BitVec.allOnes 8 ++ BitVec.allOnes 8 ++ 0#16
  | .u24 => BitVec.allOnes 8 ++ 0#24

/-- The number that the operands spell below the opcode. -/
def value : (f : HeadFormat) → f.Operands → Nat
  | .z, _ => 0
  | .v12, v => v.toNat
  | .q, id => id.toNat * 2 ^ 16
  | .qa, (id, age) => id.toNat * 2 ^ 16 + age.toNat
  | .ch, c => c.toNat
  | .ci, (c, i) => c.toNat * 2 ^ 8 + i.toNat
  | .i8, i => i.toNat
  | .m10, m => m.toNat
  | .b1, b => b.toNat
  | .u16, u => u.toNat
  | .u24, u => u.toNat

/-! #### A head as a number -/

theorem toNat_append_zero_append {n m k : Nat} (a : BitVec n) (c : BitVec k) :
    (a ++ 0#m ++ c).toNat = a.toNat * 2 ^ (m + k) + c.toNat := by
  simp only [append_toNat, BitVec.toNat_ofNat, Nat.zero_mod, Nat.add_zero, Nat.mul_assoc,
    ← Nat.pow_add]

theorem toNat_append_zero_append_append {n m k l : Nat} (a : BitVec n) (b : BitVec k)
    (c : BitVec l) :
    (a ++ 0#m ++ b ++ c).toNat = a.toNat * 2 ^ (m + k + l) + (b.toNat * 2 ^ l + c.toNat) := by
  rw [append_toNat, toNat_append_zero_append, Nat.add_mul, Nat.mul_assoc, ← Nat.pow_add,
    Nat.add_assoc]

theorem write_toNat (op : BitVec 8) (f : HeadFormat) (x : f.Operands) :
    (f.write op x).toNat = op.toNat * 2 ^ 24 + f.value x := by
  cases f with
  | z => exact (append_toNat op 0#24).trans (congrArg _ BitVec.toNat_zero)
  | v12 => exact toNat_append_zero_append op x
  | q =>
    exact (toNat_append_zero_append_append op x 0#16).trans
      (congrArg (op.toNat * 2 ^ 24 + ·) (Nat.add_zero _))
  | qa => exact toNat_append_zero_append_append op x.1 x.2
  | ch => exact toNat_append_zero_append op x
  | ci => exact toNat_append_zero_append_append op x.1 x.2
  | i8 => exact toNat_append_zero_append op x
  | m10 => exact toNat_append_zero_append op x
  | b1 => cases x <;> exact toNat_append_zero_append op _
  | u16 => exact toNat_append_zero_append op x
  | u24 => exact append_toNat op x

theorem value_lt (f : HeadFormat) (x : f.Operands) : f.value x < 2 ^ 24 := by
  cases f
  case qa => obtain ⟨id, age⟩ := x; simp only [value]; omega
  case ci => obtain ⟨c, i⟩ := x; simp only [value]; omega
  case b1 => exact (Bool.toNat_lt x).trans (by decide)
  all_goals
    simp only [value]
    omega

theorem opcodeOf_write (op : BitVec 8) (f : HeadFormat) (x : f.Operands) :
    opcodeOf (f.write op x) = op.toNat := by
  have := f.value_lt x
  rw [opcodeOf_eq, write_toNat]
  omega

/-! #### Written, then read -/

/-- A head that was written in a format reads back: no reserved bit is set, and the fields are the
operands. -/
theorem read_write (op : BitVec 8) (f : HeadFormat) (x : f.Operands)
    (mk : f.Operands → Instr) :
    checkReserved (f.reservedAreZero (f.write op x)) (mk (f.fields (f.write op x))) =
      .ok (mk x) := by
  have e := write_toNat op f x
  cases f with
  | z => exact readZ_of_toNat (mk ()) (e.trans (Nat.add_zero _))
  | v12 => exact readV12_of_toNat mk e
  | q => exact readQ_of_toNat mk e
  | qa =>
    exact readQA_of_toNat (q := x.1) (age := x.2) (fun q age => mk (q, age))
      (e.trans (Nat.add_assoc ..).symm)
  | ch => exact readCH_of_toNat mk e
  | ci =>
    exact readCI_of_toNat (ch := x.1) (i := x.2) (fun ch i => mk (ch, i))
      (e.trans (Nat.add_assoc ..).symm)
  | i8 => exact readI8_of_toNat mk e
  | m10 => exact readM10_of_toNat mk e
  | b1 => exact readB1_of_toNat mk e
  | u16 => exact readU16_of_toNat mk e
  | u24 => exact readU24_of_toNat mk e

/-! #### Read, then written -/

/-- A head without a reserved bit is its opcode and its fields, and nothing else. -/
theorem write_fields {f : HeadFormat} {h : Head} (hr : f.reservedAreZero h = true) :
    f.write (headField h 24 8) (f.fields h) = h := by
  apply BitVec.eq_of_toNat_eq
  rw [write_toNat, headField_toNat]
  have hb := h.isLt
  cases f
  case b1 =>
    simp only [reservedAreZero, headField_eq_iff, BitVec.toNat_ofNat] at hr
    simp only [value, fields, BitVec.getLsbD, Nat.toNat_testBit]
    omega
  all_goals
    simp only [reservedAreZero, Bool.and_eq_true, headField_eq_iff, BitVec.toNat_ofNat] at hr
    simp only [value, fields, headField_toNat]
    omega

/-! #### Under the mask -/

theorem append_zero_append_and {m k : Nat} (op : BitVec 8) (c : BitVec k) :
    (op ++ 0#m ++ c) &&& (BitVec.allOnes 8 ++ BitVec.allOnes m ++ 0#k) = op ++ 0#m ++ 0#k := by
  simp only [BitVec.and_append, BitVec.and_allOnes, BitVec.and_zero]

theorem append_zero_append_append_and {m k l : Nat} (op : BitVec 8) (b : BitVec k) (c d : BitVec l)
    (hcd : c &&& d = 0#l) :
    (op ++ 0#m ++ b ++ c) &&& (BitVec.allOnes 8 ++ BitVec.allOnes m ++ 0#k ++ d) =
      op ++ 0#m ++ 0#k ++ 0#l := by
  simp only [BitVec.and_append, BitVec.and_allOnes, BitVec.and_zero, hcd]

theorem write_of_value_eq_zero (op : BitVec 8) {f : HeadFormat} {x : f.Operands}
    (hx : f.value x = 0) : f.write op x = op ++ 0#24 := by
  apply BitVec.eq_of_toNat_eq
  rw [write_toNat, hx]
  exact (append_toNat op 0#24).symm

/-- What is written lies under the mask but for the operands. -/
theorem write_and_mask (op : BitVec 8) (f : HeadFormat) (x : f.Operands) :
    f.write op x &&& f.mask = op ++ 0#24 := by
  have zero (f : HeadFormat) (y : f.Operands) (hy : f.value y = 0) := write_of_value_eq_zero op hy
  cases f with
  | z => exact BitVec.and_append.trans (by rw [BitVec.and_allOnes, BitVec.and_allOnes])
  | v12 => exact (append_zero_append_and op x).trans (zero .v12 0#12 rfl)
  | q => exact (append_zero_append_append_and op x _ _ (by simp)).trans (zero .q 0#5 rfl)
  | qa =>
    exact (append_zero_append_append_and op x.1 _ _ (by simp)).trans (zero .qa (0#5, 0#16) rfl)
  | ch => exact (append_zero_append_and op x).trans (zero .ch 0#4 rfl)
  | ci =>
    exact (append_zero_append_append_and op x.1 _ _ (by simp)).trans (zero .ci (0#4, 0#8) rfl)
  | i8 => exact (append_zero_append_and op x).trans (zero .i8 0#8 rfl)
  | m10 => exact (append_zero_append_and op x).trans (zero .m10 0#10 rfl)
  | b1 => exact (append_zero_append_and op _).trans (zero .b1 false rfl)
  | u16 => exact (append_zero_append_and op x).trans (zero .u16 0#16 rfl)
  | u24 => exact BitVec.and_append.trans (by rw [BitVec.and_allOnes, BitVec.and_zero])

theorem mask_opcode (f : HeadFormat) : headField f.mask 24 8 = BitVec.allOnes 8 := by
  cases f <;> rfl

/-- The reserved bits are 0 exactly where the head under the mask is its opcode alone. -/
theorem reservedAreZero_iff {f : HeadFormat} {h : Head} :
    f.reservedAreZero h = true ↔ h &&& f.mask = headField h 24 8 ++ 0#24 := by
  constructor
  · intro hr
    have e := write_and_mask (headField h 24 8) f (f.fields h)
    rwa [write_fields hr] at e
  · intro e
    cases f with
    | q =>
      have hhi : headField h 21 3 = 0#3 := headField_eq_zero_of_and e rfl (by omega)
      have hlo : headField h 0 16 = 0#16 := headField_eq_zero_of_and e rfl (by omega)
      simp only [reservedAreZero, hhi, hlo, BEq.rfl, Bool.and_self]
    | u24 => rfl
    | _ => exact beq_iff_eq.mpr (headField_eq_zero_of_and e rfl (by omega))

end HeadFormat

/-! ### The opcode map (30_encoding.md R103) -/

/-- A command of the opcode map: its format, and the instruction that a payload and operands
make. -/
structure CommandForm where
  format : HeadFormat
  instr : NUM → format.Operands → Instr

/-- The command that an opcode stands for. -/
def commandForm : Nat → Option CommandForm
  | 0x01 => some ⟨.z, fun _ _ => .srInit⟩
  | 0x02 => some ⟨.v12, fun _ => .srPush⟩
  | 0x03 => some ⟨.z, fun _ _ => .srPop⟩
  | 0x04 => some ⟨.z, fun _ _ => .srCount⟩
  | 0x05 => some ⟨.z, fun _ _ => .srCap⟩
  | 0x10 => some ⟨.q, fun _ => .hqInit⟩
  | 0x11 => some ⟨.q, fun _ => .hqPop⟩
  | 0x12 => some ⟨.qa, fun _ x => .hqReadat x.1 x.2⟩
  | 0x13 => some ⟨.q, fun _ => .hqSize⟩
  | 0x14 => some ⟨.q, fun _ => .hqCount⟩
  | 0x15 => some ⟨.q, fun _ => .hqUnderflowed⟩
  | 0x16 => some ⟨.q, fun _ => .hqOverflowed⟩
  | 0x90 => some ⟨.q, fun v id => .hqPush id v⟩
  | 0x91 => some ⟨.q, fun v id => .hqOpush id v⟩
  | 0x20 => some ⟨.ch, fun _ => .fbPower⟩
  | 0x21 => some ⟨.z, fun _ _ => .fbPowers⟩
  | 0x22 => some ⟨.z, fun _ _ => .fbNorm⟩
  | 0x23 => some ⟨.ch, fun _ => .fbRecompute⟩
  | 0x24 => some ⟨.i8, fun _ => .fbFircoef⟩
  | 0x25 => some ⟨.ci, fun _ x => .fbIira x.1 x.2⟩
  | 0x26 => some ⟨.ci, fun _ x => .fbIirb x.1 x.2⟩
  | 0x27 => some ⟨.i8, fun _ => .fbConst⟩
  | 0x30 => some ⟨.z, fun _ _ => .detInit⟩
  | 0x31 => some ⟨.m10, fun _ => .detSetign⟩
  | 0x32 => some ⟨.b1, fun _ => .detRun⟩
  | 0x33 => some ⟨.z, fun _ _ => .detHit⟩
  | 0x34 => some ⟨.z, fun _ _ => .detLastfreq⟩
  | 0x35 => some ⟨.z, fun _ _ => .detClearhit⟩
  | 0x36 => some ⟨.b1, fun _ => .detIgnall⟩
  | 0x37 => some ⟨.z, fun _ _ => .detHitcounts⟩
  | 0x38 => some ⟨.u24, fun _ => .detSetfudge⟩
  | 0x39 => some ⟨.z, fun _ _ => .detInvoc⟩
  | 0x40 => some ⟨.z, fun _ _ => .ltInit⟩
  | 0x41 => some ⟨.z, fun _ _ => .ltStart⟩
  | 0x42 => some ⟨.z, fun _ _ => .ltRunning⟩
  | 0x43 => some ⟨.z, fun _ _ => .ltTick⟩
  | 0x50 => some ⟨.z, fun _ _ => .ivInit⟩
  | 0x51 => some ⟨.u16, fun _ => .ivStart⟩
  | 0x52 => some ⟨.z, fun _ _ => .ivRunning⟩
  | 0x53 => some ⟨.z, fun _ _ => .ivTick⟩
  | 0x60 => some ⟨.z, fun _ _ => .trInit⟩
  | 0x61 => some ⟨.z, fun _ _ => .trStart⟩
  | 0x62 => some ⟨.z, fun _ _ => .trRunning⟩
  | 0x63 => some ⟨.z, fun _ _ => .trTick⟩
  | 0x64 => some ⟨.z, fun _ _ => .trEnable⟩
  | 0x65 => some ⟨.z, fun _ _ => .trDisable⟩
  | 0x66 => some ⟨.z, fun _ _ => .trGetshots⟩
  | 0x67 => some ⟨.u16, fun _ => .trSetshots⟩
  | 0x68 => some ⟨.z, fun _ _ => .trReload⟩
  | 0x70 => some ⟨.z, fun _ _ => .txInit⟩
  | 0x71 => some ⟨.z, fun _ _ => .txStart⟩
  | 0x72 => some ⟨.z, fun _ _ => .txRunning⟩
  | 0x73 => some ⟨.z, fun _ _ => .txTick⟩
  | 0x74 => some ⟨.ch, fun _ => .txSetfreq⟩
  | 0x75 => some ⟨.z, fun _ _ => .txGetfreq⟩
  | 0x76 => some ⟨.b1, fun _ => .txSetcont⟩
  | _ => none

/-- The decoder looks up the opcode and reads the format of its command. -/
theorem decodeHead_eq_of_commandForm {h : Head} {c : CommandForm} (v : NUM)
    (hc : commandForm (opcodeOf h) = some c) :
    decodeHead h v =
      checkReserved (c.format.reservedAreZero h) (c.instr v (c.format.fields h)) := by
  unfold decodeHead
  generalize opcodeOf h = n at hc ⊢
  unfold commandForm at hc
  split at hc <;> cases hc <;> rfl

/-- An opcode without a command is reserved (R110). -/
theorem decodeHead_eq_of_commandForm_none {h : Head} (v : NUM)
    (hc : commandForm (opcodeOf h) = none) : decodeHead h v = .error .reservedOpcode := by
  unfold decodeHead
  generalize opcodeOf h = n at hc ⊢
  split
  rotate_right
  · rfl
  all_goals cases hc

theorem decodeHead_eq_ok_iff {h : Head} {v : NUM} {i : Instr} :
    decodeHead h v = .ok i ↔ ∃ c, commandForm (opcodeOf h) = some c ∧
      c.format.reservedAreZero h = true ∧ c.instr v (c.format.fields h) = i := by
  constructor
  · intro hd
    cases hc : commandForm (opcodeOf h) with
    | none => rw [decodeHead_eq_of_commandForm_none v hc] at hd; cases hd
    | some c =>
      rw [decodeHead_eq_of_commandForm v hc] at hd
      cases hr : c.format.reservedAreZero h <;> rw [hr] at hd <;> cases hd
      exact ⟨c, rfl, hr, rfl⟩
  · rintro ⟨c, hc, hr, rfl⟩
    rw [decodeHead_eq_of_commandForm v hc, hr]
    rfl

/-- The head of a command decodes to the command. -/
theorem decodeHead_write {op : BitVec 8} {c : CommandForm} (hc : commandForm op.toNat = some c)
    (v : NUM) (x : c.format.Operands) :
    decodeHead (c.format.write op x) v = .ok (c.instr v x) := by
  rw [decodeHead_eq_of_commandForm v (by rw [HeadFormat.opcodeOf_write, hc])]
  exact HeadFormat.read_write op c.format x (c.instr v)

theorem announcesPayload_eq_opcodeOf (h : Head) :
    announcesPayload h = decide (128 ≤ opcodeOf h) := by
  rw [announcesPayload_eq, opcodeOf_eq]
  congr 1
  simp only [eq_iff_iff]
  omega

/-- The encoder writes the format of the command, and the payload where the opcode has its top
bit. -/
theorem encode_instr {op : BitVec 8} {c : CommandForm} (hc : commandForm op.toNat = some c)
    (v : NUM) (x : c.format.Operands) :
    encode (c.instr v x) = .onCmd (issuedWords (c.format.write op x) v) := by
  rw [issuedWords, announcesPayload_eq_opcodeOf, HeadFormat.opcodeOf_write]
  have hop : op = BitVec.ofNat 8 op.toNat := by simp
  generalize op.toNat = n at hc hop ⊢
  subst hop
  unfold commandForm at hc
  split at hc <;> cases hc <;> rfl

/-- Every instruction but TICK is a command of the opcode map. -/
theorem tick_or_commandForm : ∀ i : Instr, (∃ adc, i = .tick adc) ∨
    ∃ (op : BitVec 8) (c : CommandForm), commandForm op.toNat = some c ∧ ∃ v x, i = c.instr v x
  | .srInit => .inr ⟨0x01, _, rfl, noPayload, (), rfl⟩
  | .srPush v => .inr ⟨0x02, _, rfl, noPayload, v, rfl⟩
  | .srPop => .inr ⟨0x03, _, rfl, noPayload, (), rfl⟩
  | .srCount => .inr ⟨0x04, _, rfl, noPayload, (), rfl⟩
  | .srCap => .inr ⟨0x05, _, rfl, noPayload, (), rfl⟩
  | .hqInit q => .inr ⟨0x10, _, rfl, noPayload, q, rfl⟩
  | .hqPop q => .inr ⟨0x11, _, rfl, noPayload, q, rfl⟩
  | .hqReadat q age => .inr ⟨0x12, _, rfl, noPayload, (q, age), rfl⟩
  | .hqSize q => .inr ⟨0x13, _, rfl, noPayload, q, rfl⟩
  | .hqCount q => .inr ⟨0x14, _, rfl, noPayload, q, rfl⟩
  | .hqUnderflowed q => .inr ⟨0x15, _, rfl, noPayload, q, rfl⟩
  | .hqOverflowed q => .inr ⟨0x16, _, rfl, noPayload, q, rfl⟩
  | .hqPush q val => .inr ⟨0x90, _, rfl, val, q, rfl⟩
  | .hqOpush q val => .inr ⟨0x91, _, rfl, val, q, rfl⟩
  | .fbPower ch => .inr ⟨0x20, _, rfl, noPayload, ch, rfl⟩
  | .fbPowers => .inr ⟨0x21, _, rfl, noPayload, (), rfl⟩
  | .fbNorm => .inr ⟨0x22, _, rfl, noPayload, (), rfl⟩
  | .fbRecompute ch => .inr ⟨0x23, _, rfl, noPayload, ch, rfl⟩
  | .fbFircoef i => .inr ⟨0x24, _, rfl, noPayload, i, rfl⟩
  | .fbIira ch i => .inr ⟨0x25, _, rfl, noPayload, (ch, i), rfl⟩
  | .fbIirb ch i => .inr ⟨0x26, _, rfl, noPayload, (ch, i), rfl⟩
  | .fbConst i => .inr ⟨0x27, _, rfl, noPayload, i, rfl⟩
  | .detInit => .inr ⟨0x30, _, rfl, noPayload, (), rfl⟩
  | .detSetign m => .inr ⟨0x31, _, rfl, noPayload, m, rfl⟩
  | .detRun b => .inr ⟨0x32, _, rfl, noPayload, b, rfl⟩
  | .detHit => .inr ⟨0x33, _, rfl, noPayload, (), rfl⟩
  | .detLastfreq => .inr ⟨0x34, _, rfl, noPayload, (), rfl⟩
  | .detClearhit => .inr ⟨0x35, _, rfl, noPayload, (), rfl⟩
  | .detIgnall b => .inr ⟨0x36, _, rfl, noPayload, b, rfl⟩
  | .detHitcounts => .inr ⟨0x37, _, rfl, noPayload, (), rfl⟩
  | .detSetfudge u => .inr ⟨0x38, _, rfl, noPayload, u, rfl⟩
  | .detInvoc => .inr ⟨0x39, _, rfl, noPayload, (), rfl⟩
  | .ltInit => .inr ⟨0x40, _, rfl, noPayload, (), rfl⟩
  | .ltStart => .inr ⟨0x41, _, rfl, noPayload, (), rfl⟩
  | .ltRunning => .inr ⟨0x42, _, rfl, noPayload, (), rfl⟩
  | .ltTick => .inr ⟨0x43, _, rfl, noPayload, (), rfl⟩
  | .ivInit => .inr ⟨0x50, _, rfl, noPayload, (), rfl⟩
  | .ivStart u => .inr ⟨0x51, _, rfl, noPayload, u, rfl⟩
  | .ivRunning => .inr ⟨0x52, _, rfl, noPayload, (), rfl⟩
  | .ivTick => .inr ⟨0x53, _, rfl, noPayload, (), rfl⟩
  | .trInit => .inr ⟨0x60, _, rfl, noPayload, (), rfl⟩
  | .trStart => .inr ⟨0x61, _, rfl, noPayload, (), rfl⟩
  | .trRunning => .inr ⟨0x62, _, rfl, noPayload, (), rfl⟩
  | .trTick => .inr ⟨0x63, _, rfl, noPayload, (), rfl⟩
  | .trEnable => .inr ⟨0x64, _, rfl, noPayload, (), rfl⟩
  | .trDisable => .inr ⟨0x65, _, rfl, noPayload, (), rfl⟩
  | .trGetshots => .inr ⟨0x66, _, rfl, noPayload, (), rfl⟩
  | .trSetshots u => .inr ⟨0x67, _, rfl, noPayload, u, rfl⟩
  | .trReload => .inr ⟨0x68, _, rfl, noPayload, (), rfl⟩
  | .txInit => .inr ⟨0x70, _, rfl, noPayload, (), rfl⟩
  | .txStart => .inr ⟨0x71, _, rfl, noPayload, (), rfl⟩
  | .txRunning => .inr ⟨0x72, _, rfl, noPayload, (), rfl⟩
  | .txTick => .inr ⟨0x73, _, rfl, noPayload, (), rfl⟩
  | .txSetfreq ch => .inr ⟨0x74, _, rfl, noPayload, ch, rfl⟩
  | .txGetfreq => .inr ⟨0x75, _, rfl, noPayload, (), rfl⟩
  | .txSetcont b => .inr ⟨0x76, _, rfl, noPayload, b, rfl⟩
  | .tick adc => .inl ⟨adc, rfl⟩

/-! ### Round trips -/

theorem decodeTick_append (adc : AdcCode) : decodeTick (0#4 ++ adc) = .tick adc :=
  congrArg Instr.tick BitVec.extractLsb'_append_eq_right

/-- The words of one command, alone on CMD, decode as its head does. -/
theorem decodeEncoded_issuedWords (h : Head) (v : NUM) :
    decodeEncoded (.onCmd (issuedWords h v)) = (decodeHead h v).toOption := by
  have e := takeCommand_issued h v []
  rw [List.append_nil] at e
  simp only [decodeEncoded, e, decodeHead_issued]

/-- Settles O1. -/
theorem decodeEncodeRoundTrip : Obligations.DecodeEncodeRoundTrip := by
  intro i
  obtain ⟨adc, rfl⟩ | ⟨op, c, hc, v, x, rfl⟩ := tick_or_commandForm i
  · exact congrArg some (decodeTick_append adc)
  · rw [encode_instr hc, decodeEncoded_issuedWords, decodeHead_write hc]
    rfl

/-- Settles O2. -/
theorem decodedHeadEncodesBack : Obligations.DecodedHeadEncodesBack := by
  intro h v i hd
  obtain ⟨c, hc, hr, rfl⟩ := decodeHead_eq_ok_iff.mp hd
  rw [encode_instr (op := headField h 24 8) hc, HeadFormat.write_fields hr]

/-! ### The opcode map as data -/

/-- Each row has the mask of its command's format, and its match is its opcode alone. -/
theorem mask_pattern_of_mem_opcodeRows : ∀ r ∈ opcodeRows,
    (commandForm (opcodeOf r.pattern)).map (·.format.mask) = some r.mask ∧
      r.pattern = headField r.pattern 24 8 ++ 0#24 := by
  decide

theorem exists_row_of_commandForm {n : Nat} {c : CommandForm} (hc : commandForm n = some c) :
    ∃ r ∈ opcodeRows, opcodeOf r.pattern = n := by
  unfold commandForm at hc
  split at hc
  rotate_right
  · cases hc
  all_goals decide

/-- No two rows have the same opcode: "The rows are disjoint" (R103). -/
theorem nodup_opcodes : (opcodeRows.map fun r => opcodeOf r.pattern).Nodup := by
  decide

/-- A row selects the heads of its opcode that have no reserved bit of its format. -/
theorem and_mask_eq_pattern_iff {r : OpcodeRow} (hm : r ∈ opcodeRows) (h : Head) :
    h &&& r.mask = r.pattern ↔ opcodeOf h = opcodeOf r.pattern ∧
      ∃ c, commandForm (opcodeOf h) = some c ∧ c.format.reservedAreZero h = true := by
  obtain ⟨hmask, hpat⟩ := mask_pattern_of_mem_opcodeRows r hm
  obtain ⟨c, hc, hmask⟩ := Option.map_eq_some_iff.mp hmask
  rw [← hmask]
  constructor
  · intro e
    have ho : headField h 24 8 = headField r.pattern 24 8 := by
      rw [← e, headField_and_of_allOnes c.format.mask_opcode]
    refine ⟨congrArg BitVec.toNat ho, c, ?_, ?_⟩
    · exact (congrArg commandForm (congrArg BitVec.toNat ho)).trans hc
    · rw [HeadFormat.reservedAreZero_iff, ho, ← hpat, e]
  · rintro ⟨ho, c', hc', hr⟩
    rw [ho, hc] at hc'
    cases hc'
    rw [HeadFormat.reservedAreZero_iff.mp hr, hpat, BitVec.eq_of_toNat_eq ho]

/-- Settles O3. -/
theorem legalHeadsAreTheTableRows : Obligations.LegalHeadsAreTheTableRows := by
  intro h v
  constructor
  · rintro ⟨i, hd⟩
    obtain ⟨c, hc, hr, -⟩ := decodeHead_eq_ok_iff.mp hd
    obtain ⟨r, hm, ho⟩ := exists_row_of_commandForm hc
    refine ⟨r, ⟨hm, (and_mask_eq_pattern_iff hm h).mpr ⟨ho.symm, c, hc, hr⟩⟩, ?_⟩
    rintro r' ⟨hm', hs'⟩
    have ho' := ((and_mask_eq_pattern_iff hm' h).mp hs').1
    exact List.inj_on_of_nodup_map nodup_opcodes hm' hm (ho'.symm.trans ho.symm)
  · rintro ⟨r, ⟨hm, hs⟩, -⟩
    obtain ⟨-, c, hc, hr⟩ := (and_mask_eq_pattern_iff hm h).mp hs
    exact ⟨_, decodeHead_eq_ok_iff.mpr ⟨c, hc, hr, rfl⟩⟩

/-- Settles O4: closed words, evaluated. -/
theorem decodesSpecWords : Obligations.DecodesSpecWords := by
  unfold Obligations.DecodesSpecWords
  decide +kernel

end Sys2Proof.Machine

/-! SUPPORT. The SampleRing commands, each with its exact next state. -/

namespace Sys2Proof.Machine

theorem exec_srPop (s : State) :
    exec .srPop s = .next ((srPop s).2.respond [natBeat (srPop s).1.toNat]) := rfl

/-- Settles O22. -/
theorem srPushResult : Obligations.SrPushResult := by
  intro v s hm
  refine ⟨srPush v s, rfl, srPush_frame v s, ?_⟩
  by_cases hf : s.sr.count = s.cfg.ringCapacity
  · rw [srPush_full hf]
    exact ⟨rfl, fun _ => ⟨rfl, rfl⟩, fun room => absurd hf room, fun i => Memory.read_write hm _ i v⟩
  · rw [srPush_room hf]
    exact ⟨rfl, fun full => absurd full hf, fun _ => ⟨rfl, rfl⟩, fun i => Memory.read_write hm _ i v⟩

/-- Settles O23. -/
theorem srPopInitAndAccessors : Obligations.SrPopInitAndAccessors := by
  refine ⟨fun s h => ?empty, fun s h => ?some, fun s => ?init, fun s => rfl, fun s => rfl⟩
  case empty => rw [exec_srPop, srPop_empty h]; rfl
  case some => rw [exec_srPop, srPop_some h]; rfl
  case init => exact ⟨srInit s, rfl, rfl, rfl, rfl, rfl, fun i => rfl⟩

end Sys2Proof.Machine

/-! SUPPORT. Overwrite-pushes keep the newest elements, which pops then answer oldest first
(40_sample_ring.md R136): one argument for a buffer of the state, then SampleRing and every
HistoryQueue are such buffers. -/

namespace Sys2Proof.Machine

/-! ### Sequences of instructions -/

theorem execAll_cons {i : Instr} {s t : State} (h : exec i s = .next t) (is : List Instr) :
    execAll (i :: is) s = execAll is t := by rw [execAll, h]

theorem execAll_append {is : List Instr} : ∀ {s t : State}, execAll is s = .next t →
    ∀ js, execAll (is ++ js) s = execAll js t := by
  induction is with
  | nil => intro s t h js; cases h; rfl
  | cons i is ih =>
    intro s t h js
    rw [execAll] at h
    split at h
    · rename_i u hu
      rw [List.cons_append, execAll_cons hu, ih h]
    · cases h
    · cases h

/-! ### A list after many overwrites -/

theorem overwritten_length_le {α : Type} {n : Nat} {l : List α} (hn : 0 < n) (h : l.length ≤ n)
    (v : α) : (overwritten n l v).length ≤ n := by
  unfold overwritten
  split <;> simp <;> omega

/-- Overwrites keep the last `n` of all elements. -/
theorem foldl_overwritten {α : Type} {n : Nat} (hn : 0 < n) (vs : List α) : ∀ {l : List α},
    l.length ≤ n → vs.foldl (overwritten n) l = (l ++ vs).drop (l.length + vs.length - n) := by
  induction vs with
  | nil => intro l h; simp [Nat.sub_eq_zero_of_le h]
  | cons v vs ih =>
    intro l h
    rw [List.foldl_cons, ih (overwritten_length_le hn h v)]
    by_cases hf : l.length = n
    · obtain ⟨a, l, rfl⟩ := List.exists_cons_of_length_pos (hf ▸ hn)
      have hk : (a :: l).length + (v :: vs).length - n = vs.length + 1 := by
        rw [hf, List.length_cons]; omega
      rw [overwritten_full hf, hk]
      simp only [List.length_cons] at hf
      simp [hf]
    · simp [overwritten, hf, Nat.add_assoc, Nat.add_comm 1]

/-- One overwrite more than there is room for loses the first of them, and all there was before. -/
theorem foldl_overwritten_concat {α : Type} {n : Nat} {l vs : List α} (hn : 0 < n)
    (hl : l.length ≤ n) (hv : vs.length = n) (last : α) :
    (vs ++ [last]).foldl (overwritten n) l = vs.tail ++ [last] := by
  have hd : l.length + (vs ++ [last]).length - n = l.length + 1 := by
    rw [List.length_append, hv, List.length_singleton]; omega
  rw [foldl_overwritten hn _ hl, hd, List.drop_length_add_append, List.drop_one]
  exact List.tail_append_of_ne_nil (List.ne_nil_of_length_pos (hv ▸ hn))

/-! ### A bounded buffer that overwrites -/

/-- `Holds l s` says that a buffer of the state `s`, of capacity `n`, is in form and holds the list `l`,
oldest first. `push` overwrites and answers nothing; `pop` takes the oldest element and answers it in
one beat. -/
structure OverwritingBuffer {α : Type} (n : Nat) (Holds : List α → State → Prop) (push : α → Instr)
    (pop : Instr) (beat : α → Beat) : Prop where
  exec_push : ∀ {l s}, Holds l s → ∀ v,
    ∃ t, exec (push v) s = .next t ∧ Holds (overwritten n l v) t ∧ t.resp = s.resp
  exec_pop : ∀ {a l s}, Holds (a :: l) s →
    ∃ t, exec pop s = .next t ∧ Holds l t ∧ t.resp = s.resp ++ [beat a]

namespace OverwritingBuffer

variable {α : Type} {n : Nat} {Holds : List α → State → Prop} {push : α → Instr} {pop : Instr}
  {beat : α → Beat}

theorem execAll_pushes (b : OverwritingBuffer n Holds push pop beat) (vs : List α) :
    ∀ {l : List α} {s : State}, Holds l s → ∃ t, execAll (vs.map push) s = .next t ∧
      Holds (vs.foldl (overwritten n) l) t ∧ t.resp = s.resp := by
  induction vs with
  | nil => intro l s h; exact ⟨s, rfl, h, rfl⟩
  | cons v vs ih =>
    intro l s h
    obtain ⟨u, hu, hold, hr⟩ := b.exec_push h v
    obtain ⟨t, ht, hold', hr'⟩ := ih hold
    exact ⟨t, by rw [List.map_cons, execAll_cons hu, ht], hold', hr'.trans hr⟩

theorem execAll_pops (b : OverwritingBuffer n Holds push pop beat) (l : List α) :
    ∀ {s : State}, Holds l s → ∃ t, execAll (List.replicate l.length pop) s = .next t ∧
      t.resp = s.resp ++ l.map beat := by
  induction l with
  | nil => intro s _; exact ⟨s, rfl, by simp⟩
  | cons a l ih =>
    intro s h
    obtain ⟨u, hu, hold, hr⟩ := b.exec_pop h
    obtain ⟨t, ht, hr'⟩ := ih hold
    refine ⟨t, ?_, by rw [hr', hr, List.map_cons, List.append_assoc, List.singleton_append]⟩
    rw [List.length_cons, List.replicate_succ, execAll_cons hu, ht]

/-- 40_sample_ring.md R136. -/
theorem keeps_newest (b : OverwritingBuffer n Holds push pop beat) (hn : 0 < n) {l vs : List α}
    {s : State} (h : Holds l s) (hl : l.length ≤ n) (hv : vs.length = n) (last : α) :
    ∃ t, execAll ((vs ++ [last]).map push ++ List.replicate vs.length pop) s = .next t ∧
      t.resp = s.resp ++ (vs.tail ++ [last]).map beat := by
  obtain ⟨u, hu, hold, hr⟩ := b.execAll_pushes (vs ++ [last]) h
  rw [foldl_overwritten_concat hn hl hv] at hold
  obtain ⟨t, ht, hr'⟩ := b.execAll_pops (vs.tail ++ [last]) hold
  have hk : (vs.tail ++ [last]).length = vs.length := by simp; omega
  rw [hk] at ht
  exact ⟨t, by rw [execAll_append hu, ht], by rw [hr', hr]⟩

end OverwritingBuffer

/-! ### SampleRing is one -/

/-- The ring of `s` is in form, holds `l`, and has the capacity of `cfg`. -/
def ringHolds (cfg : Config) (l : List AdcCode) (s : State) : Prop :=
  s.cfg = cfg ∧ ringInRange s ∧ ringLinked s ∧ ringContents s = l

theorem ring_overwritingBuffer (cfg : Config) : OverwritingBuffer cfg.ringCapacity (ringHolds cfg)
    .srPush .srPop fun v => natBeat v.toNat where
  exec_push := by
    rintro l s ⟨rfl, hr, hl, rfl⟩ v
    exact ⟨srPush v s, rfl, ⟨rfl, srPush_inRange hr v, srPush_linked hl v,
      ringContents_srPush hr hl v⟩, rfl⟩
  exec_pop := by
    rintro a l s ⟨rfl, hr, hl, hc⟩
    have ⟨_, hread, _, _⟩ := hr
    obtain ⟨htail, hhead⟩ := ringContents_srPop hread
    rw [hc] at htail hhead
    refine ⟨_, exec_srPop s, ⟨?_, srPop_inRange hr, srPop_linked hl, htail⟩, ?_⟩
    · rw [State.respond_cfg, srPop_frame]
    · rw [State.respond_resp, hhead, srPop_frame]; rfl

/-! ### So is every HistoryQueue -/

theorem exec_hqPop {q : BitVec 5} (hq : q.toNat < 22) (s : State) : exec (.hqPop q) s =
    .next ((hqPop ⟨q.toNat, hq⟩ s).2.respond [.num (hqPop ⟨q.toNat, hq⟩ s).1]) := by
  show execHqPop q s = _
  rw [execHqPop, operandQueue_of_lt hq, withOperand_some]

theorem exec_hqOpush {q : BitVec 5} (hq : q.toNat < 22) (v : NUM) (s : State) :
    exec (.hqOpush q v) s = .next (hqOpush ⟨q.toNat, hq⟩ v s) := by
  show execHqOpush q v s = _
  rw [execHqOpush, operandQueue_of_lt hq, withOperand_some]

/-- A pop of a queue that holds something answers its oldest element and replaces the queue by one in
form that holds the others. -/
theorem hqPop_cons {s : State} {q : QueueId} (h : (s.queue q).wf s.cfg.num (s.capacity q)) {a : NUM}
    {l : List NUM} (hc : queueContents s q = a :: l) : ∃ x : HistoryQueue,
      hqPop q s = (a, s.setQueue q x) ∧ x.wf s.cfg.num (s.capacity q) ∧
      x.contents s.cfg.num (s.capacity q) = l := by
  obtain ⟨hr, hw, hn, hlink, hm⟩ := h
  have hne : (s.queue q).count ≠ 0 := by
    rw [← queueContents_length, hc]; exact Nat.succ_ne_zero _
  refine ⟨{ s.queue q with
    readIndex := ((s.queue q).readIndex + 1) % s.capacity q
    count := (s.queue q).count - 1
    overflowed := false }, ?_, ⟨Nat.mod_lt _ (State.capacity_pos s q), hw, ?_, ?_, hm⟩, ?_⟩
  · have head : Memory.read (unlistedNum s.cfg.num) (s.queue q).mem (s.queue q).readIndex = a := by
      rw [← window_headD hne hr a]
      exact congrArg (·.headD a) hc
    rw [hqPop_some hne, head]
  · exact (Nat.sub_le _ _).trans hn
  · simp only; rw [hlink, Nat.mod_add_mod]; congr 1; omega
  · exact (window_pop hne).trans (congrArg List.tail hc)

/-- The queue `q` of `s` is in form, holds `l`, and has its capacity and NUM from `cfg`. -/
def queueHolds (cfg : Config) (q : QueueId) (l : List NUM) (s : State) : Prop :=
  s.cfg = cfg ∧ (s.queue q).wf s.cfg.num (s.capacity q) ∧ queueContents s q = l

theorem queue_overwritingBuffer (cfg : Config) {q : BitVec 5} (hq : q.toNat < 22) :
    OverwritingBuffer (cfg.queueCapacity ⟨q.toNat, hq⟩) (queueHolds cfg ⟨q.toNat, hq⟩)
      (.hqOpush q) (.hqPop q) .num where
  exec_push := by
    rintro l s ⟨rfl, hw, rfl⟩ v
    refine ⟨_, exec_hqOpush hq v s, ⟨hqOpush_cfg _ v s, ?_, queueContents_hqOpush_self hw v⟩, ?_⟩
    · rw [hqOpush_eq, State.queue_setQueue_self]
      exact HistoryQueue.overwrite_wf (State.capacity_pos s _) hw v
    · rw [hqOpush_eq, State.setQueue_resp]
  exec_pop := by
    rintro a l s ⟨rfl, hw, hc⟩
    obtain ⟨x, hx, hw', hc'⟩ := hqPop_cons hw hc
    refine ⟨_, exec_hqPop hq s, ?_⟩
    rw [hx]
    refine ⟨⟨rfl, ?_, ?_⟩, rfl⟩
    · rw [State.respond_queue, State.queue_setQueue_self]; exact hw'
    · rw [queueContents_eq, State.respond_queue, State.queue_setQueue_self]; exact hc'

/-- Settles O25. -/
theorem overwriteKeepsNewest : Obligations.OverwriteKeepsNewest := by
  constructor
  · intro s vs last hr hl hv
    have ⟨_, _, hcount, _⟩ := hr
    exact (ring_overwritingBuffer s.cfg).keeps_newest (Config.ringCapacity_pos s.cfg)
      ⟨rfl, hr, hl, rfl⟩ (by rwa [ringContents_length]) hv last
  · intro s q hq vs last hw hv
    have ⟨_, _, hcount, _⟩ := hw
    exact (queue_overwritingBuffer s.cfg hq).keeps_newest (State.capacity_pos s _)
      ⟨rfl, hw, rfl⟩ (by rwa [queueContents_length]) hv last

end Sys2Proof.Machine

/-! SUPPORT. The ENTRY and POP steps of a DET_RUN (43_detector.md R232, R233). -/

namespace Sys2Proof.Machine

theorem exec_detRun (b : Bool) (s : State) : exec (.detRun b) s = .next (detEntry b s) := rfl

/-- A POP step, of an empty ring too, whose sentinel is the sample. -/
theorem popStep_eq (s : State) : popStep s = { s with
    sr := if s.sr.count = 0 then s.sr else { s.sr with
      readIndex := (s.sr.readIndex + 1) % s.cfg.ringCapacity
      count := s.sr.count - 1 }
    seq := { s.seq with
      sample := if s.sr.count = 0 then 0 else Memory.read unlistedSample s.sr.mem s.sr.readIndex
      remaining := s.seq.remaining - 1
      phase := .filter } } := by
  unfold popStep
  by_cases h : s.sr.count = 0
  · rw [srPop_empty h, if_pos h, if_pos h]
  · rw [srPop_some h, if_neg h, if_neg h]

/-- Settles O42. -/
theorem detRunEntryAndPop : Obligations.DetRunEntryAndPop := by
  refine ⟨fun b s => exec_detRun b s, fun s hf hp => ?_⟩
  rw [step_foreground hf, foregroundStep_pop (u := { s with schedule := s.schedule.tail }) hp,
    popStep_eq]
  rfl

end Sys2Proof.Machine

/-! SUPPORT. The HistoryQueue commands, each with its exact next state (41_history_queue.md R151 to
R159). -/

namespace Sys2Proof.Machine

/-! ### A queue-id operand that names a queue -/

/-- What a HistoryQueue command does with the queue that its operand names. -/
theorem withOperand_operandQueue {q : BitVec 5} (hq : q.toNat < 22) (i : Instr) (l : List Beat)
    (k : QueueId → State → State) (s : State) :
    withOperand (operandQueue q) i l k s = k ⟨q.toNat, hq⟩ s := by
  rw [operandQueue_of_lt hq, withOperand_some]

theorem exec_hqPush {q : BitVec 5} (hq : q.toNat < 22) (v : NUM) (s : State) :
    exec (.hqPush q v) s = .next (hqPush ⟨q.toNat, hq⟩ v s) :=
  congrArg _ (withOperand_operandQueue hq _ _ _ s)

theorem exec_hqInit {q : BitVec 5} (hq : q.toNat < 22) (s : State) :
    exec (.hqInit q) s = .next (hqInit ⟨q.toNat, hq⟩ s) :=
  congrArg _ (withOperand_operandQueue hq _ _ _ s)

theorem exec_hqReadat {q : BitVec 5} (hq : q.toNat < 22) (age : BitVec 16) (s : State) :
    exec (.hqReadat q age) s = .next ((hqReadAt ⟨q.toNat, hq⟩ age.toNat s).2.respond
      [.num (hqReadAt ⟨q.toNat, hq⟩ age.toNat s).1]) :=
  congrArg _ (withOperand_operandQueue hq _ _ _ s)

/-! ### Push, pop, overwrite-push, read -/

/-- Settles O26: full or with room, empty or not. -/
theorem hqPushAndPopResult : Obligations.HqPushAndPopResult := by
  intro q hq s
  refine ⟨fun v hfull => ?_, fun v hroom hm => ?_, fun hempty => ?_, fun hsome => ?_⟩
  · rw [exec_hqPush hq, hqPush_full hfull]
    rfl
  · refine ⟨_, ?_, fun i => Memory.read_write hm _ i v⟩
    rw [exec_hqPush hq, hqPush_room hroom]
  · rw [exec_hqPop hq, hqPop_empty hempty]
    rfl
  · rw [exec_hqPop hq, hqPop_some hsome]
    rfl

/-- Settles O27: an overwrite-push replaces the queue by `HistoryQueue.overwrite`. -/
theorem hqOpushResult : Obligations.HqOpushResult := by
  intro q hq v s id hw
  have hpos := State.capacity_pos s id
  have ⟨_, _, _, _, hm⟩ := hw
  refine ⟨_, ?_, HistoryQueue.overwrite_wf hpos hw v, ?_, rfl, rfl,
    fun i => Memory.read_write hm _ i v⟩
  · rw [exec_hqOpush hq, hqOpush_eq]
  · rw [← hqOpush_eq]
    exact queueContents_hqOpush_self hw v

/-- Settles O28: an age below the count, or not. -/
theorem hqReadatResult : Obligations.HqReadatResult := by
  intro q hq age s
  refine ⟨fun hage => ?_, fun hage => ?_⟩
  · rw [exec_hqReadat hq, hqReadAt_some hage]
    rfl
  · have info : readInfo ⟨q.toNat, hq⟩ age.toNat =
        BitVec.ofNat 32 (q.toNat * 65536 + age.toNat) := by
      rw [readInfo, Nat.mod_eq_of_lt age.isLt]
    rw [exec_hqReadat hq, hqReadAt_none hage, info]
    rfl

/-- Settles O29. -/
theorem hqInitAndAccessors : Obligations.HqInitAndAccessors := by
  intro q hq s
  refine ⟨⟨_, exec_hqInit hq s, rfl, rfl, rfl, rfl, rfl, fun i => Memory.read_nil i⟩,
    ?_, ?_, ?_, ?_⟩
  all_goals exact congrArg _ (withOperand_operandQueue hq _ _ _ s)

end Sys2Proof.Machine

/-! SUPPORT. A sum of products over a queue that software has shortened (41_history_queue.md R155,
42_filter_bank.md R183). -/

namespace Sys2Proof.Machine

/-! ### A sum over a queue of any length -/

/-- The value of a sum of products over queue `q`: 0 for every age that is not there. -/
def historySum (q : QueueId) (terms : List (NUM × Nat)) (s : State) : NUM :=
  sumOfPairs s.cfg.num
    (terms.map fun t => (t.1, (queueContents s q).getD t.2 (numZero s.cfg.num)))

theorem historySum_congr {s t : State} {q : QueueId} (hc : t.cfg = s.cfg)
    (hq : t.queue q = s.queue q) (terms : List (NUM × Nat)) :
    historySum q terms t = historySum q terms s := by
  rw [historySum, queueContents_congr hq hc, hc, historySum]

theorem missingAges_cons (q : QueueId) (count age : Nat) (ages : List Nat) :
    missingAges q count (age :: ages) =
      (if age < count then [] else [⟨.invalidIndex, readInfo q age⟩]) ++
        missingAges q count ages := by
  by_cases h : age < count
  · simp [missingAges, h]
  · rw [if_neg h]
    simp [missingAges, Nat.le_of_not_lt h, readInfo]

/-- A sum of products from any accumulator: its value, and one diagnostic for each missing age. -/
theorem sumProducts_accumulated (q : QueueId) (terms : List (NUM × Nat)) (acc : NUM) (s : State) :
    sumProducts q terms acc s =
      ((terms.map fun t => (t.1, (queueContents s q).getD t.2 (numZero s.cfg.num))).foldl
          (fun acc t => numAdd s.cfg.num acc (numMul s.cfg.num t.1 t.2)) acc,
        { s with diag := s.diag ++ missingAges q (s.queue q).count (terms.map (·.2)) }) := by
  induction terms generalizing acc s with
  | nil => simp [sumProducts, missingAges]
  | cons t rest ih =>
    obtain ⟨coefficient, age⟩ := t
    rw [List.map_cons, List.map_cons, missingAges_cons, sumProducts, hqReadAt_eq, ih]
    by_cases h : age < (s.queue q).count
    · simp only [if_pos h]
      rfl
    · simp only [if_neg h, State.raise_diag, List.append_assoc]
      rfl

/-- Settles O32: the accumulator starts from 0. -/
theorem sumOverShortQueue : Obligations.SumOverShortQueue := fun q terms s =>
  sumProducts_accumulated q terms (numZero s.cfg.num) s

/-- A sum of products is `historySum` and raises the missing ages. -/
theorem sumProducts_eq (q : QueueId) (terms : List (NUM × Nat)) (s : State) :
    sumProducts q terms (numZero s.cfg.num) s = (historySum q terms s,
      { s with diag := s.diag ++ missingAges q (s.queue q).count (terms.map (·.2)) }) :=
  sumOverShortQueue q terms s

end Sys2Proof.Machine

/-! SUPPORT. A window of the FilterBank over queues of any length: one channel, the ten channels, the FIR
output before them (42_filter_bank.md R182 to R190). -/

namespace Sys2Proof.Machine

/-! ### One overwrite-push -/

/-- Queue `q` after an overwrite-push of `v`. -/
def State.pushed (q : QueueId) (v : NUM) (s : State) : HistoryQueue :=
  (s.queue q).overwrite s.cfg.num (s.capacity q) v

theorem hqOpush_eq_pushed (q : QueueId) (v : NUM) (s : State) :
    hqOpush q v s = s.setQueue q (s.pushed q v) := hqOpush_eq q s v

theorem State.pushed_congr {s t : State} {q : QueueId} (hc : t.cfg = s.cfg)
    (hq : t.queue q = s.queue q) (v : NUM) : t.pushed q v = s.pushed q v := by
  rw [State.pushed, State.capacity, hc, hq]
  rfl

theorem State.pushed_wf {s : State} {q : QueueId} (h : (s.queue q).wf s.cfg.num (s.capacity q))
    (v : NUM) : (s.pushed q v).wf s.cfg.num (s.capacity q) :=
  HistoryQueue.overwrite_wf (State.capacity_pos s q) h v

/-- The flags that an overwrite-push leaves (41_history_queue.md R154). -/
theorem State.pushed_flags (q : QueueId) (v : NUM) (s : State) :
    (s.pushed q v).underflowed = false ∧ (s.pushed q v).overflowed =
      if (s.queue q).count = s.capacity q then false else (s.queue q).overflowed := ⟨rfl, rfl⟩

/-- What a queue that took one overwrite-push holds. -/
theorem queueContents_of_pushed {s t : State} {q : QueueId} {v : NUM} (hc : t.cfg = s.cfg)
    (h : (s.queue q).wf s.cfg.num (s.capacity q)) (ht : t.queue q = s.pushed q v) :
    queueContents t q = overwritten (s.capacity q) (queueContents s q) v := by
  rw [queueContents_eq, ht, hc, State.capacity, hc]
  exact HistoryQueue.contents_overwrite (State.capacity_pos s q) h v

/-! ### Which queue is which -/

theorem queueX_ne_queueY : queueX ≠ queueY := by decide

theorem queueZ_ne_queueX (c : Channel) : queueZ c ≠ queueX :=
  Fin.ne_of_val_ne (by show 2 + c.val ≠ 0; omega)

theorem queueZ_ne_queueY (c : Channel) : queueZ c ≠ queueY :=
  Fin.ne_of_val_ne (by show 2 + c.val ≠ 1; omega)

theorem queueZ_ne_queueZ {c d : Channel} (h : c ≠ d) : queueZ c ≠ queueZ d := by
  simpa [queueZ, Fin.ext_iff] using h

theorem capacity_queueZ (c : Channel) (s : State) : s.capacity (queueZ c) = 11 := by
  have hc : 2 + c.val < 12 := by omega
  rw [State.capacity, Config.queueCapacity, queueZ, if_neg (by simp), if_pos hc]

theorem capacity_queueP (c : Channel) (s : State) : s.capacity (queueP c) = s.cfg.powerWindow := by
  rw [State.capacity, Config.queueCapacity, queueP, if_neg (by simp), if_neg (by simp)]

/-- Every queue is X, Y, or one of the two histories of a channel (10_state.md R25). -/
theorem queueId_cases (q : QueueId) :
    q = queueX ∨ q = queueY ∨ (∃ c, q = queueZ c) ∨ ∃ c, q = queueP c := by
  revert q
  decide

/-! ### One channel of a window -/

/-- The output of channel `c` (R185, R186). -/
def channelResult (c : Channel) (s : State) : NUM :=
  numSub s.cfg.num (historySum queueY (term1Terms s.cfg c) s)
    (historySum (queueZ c) (term2Terms s.cfg c) s)

/-- What computing the output of channel `c` raises. -/
def channelMissing (c : Channel) (s : State) : List DiagEvent :=
  missingAges queueY (s.queue queueY).count ((term1Terms s.cfg c).map (·.2)) ++
    missingAges (queueZ c) (s.queue (queueZ c)).count ((term2Terms s.cfg c).map (·.2))

/-- The element that a push into P[c] evicts; 0 where the window is not full (R188). -/
def evictedPower (c : Channel) (s : State) : NUM :=
  if (queueContents s (queueP c)).length = s.cfg.powerWindow then
    (queueContents s (queueP c)).headD (numZero s.cfg.num)
  else numZero s.cfg.num

/-- The power of channel `c` after its output `z` (R188). -/
def slidPower (c : Channel) (z : NUM) (s : State) : NUM :=
  numAdd s.cfg.num
    (numSub s.cfg.num s.fb.power[c] (numMul s.cfg.num (evictedPower c s) (evictedPower c s)))
    (numMul s.cfg.num z z)

theorem channelOutput_eq (c : Channel) (s : State) :
    channelOutput c s = (channelResult c s, { s with diag := s.diag ++ channelMissing c s }) := by
  have second := sumProducts_eq (queueZ c) (term2Terms s.cfg c) { s with
    diag := s.diag ++ missingAges queueY (s.queue queueY).count ((term1Terms s.cfg c).map (·.2)) }
  rw [channelOutput, sumProducts_eq, channelMissing, ← List.append_assoc]
  exact congrArg (fun r : NUM × State =>
    (numSub s.cfg.num (historySum queueY (term1Terms s.cfg c) s) r.1, r.2)) second

/-- The read of the leaving element raises nothing: it is made of a full window only. -/
theorem windowOldest_eq (c : Channel) (s : State) : windowOldest c s = (evictedPower c s, s) := by
  rw [windowOldest, evictedPower, queueContents_length]
  split
  · rename_i hfull
    have hsome : 0 < (s.queue (queueP c)).count := by
      rw [hfull]; exact Config.powerWindow_pos s.cfg
    have head : (queueContents s (queueP c)).getD 0 (numZero s.cfg.num) =
        (queueContents s (queueP c)).headD (numZero s.cfg.num) := by
      cases queueContents s (queueP c) <;> rfl
    rw [hqReadAt_eq, if_pos hsome, head]
  · rfl

theorem channelUpdate_closed (c : Channel) (z : NUM) (s : State) : channelUpdate c z s =
    ((s.setQueue (queueZ c) (s.pushed (queueZ c) z)).setQueue (queueP c)
      (s.pushed (queueP c) z)).setPower c (slidPower c z s) := by
  have hP : (s.setQueue (queueZ c) (s.pushed (queueZ c) z)).pushed (queueP c) z =
      s.pushed (queueP c) z :=
    State.pushed_congr (s := s) (State.setQueue_cfg ..)
      (State.queue_setQueue_ne s (queueP_ne_queueZ c c) _) z
  rw [channelUpdate_eq, windowOldest_eq, hqOpush_eq_pushed, hqOpush_eq_pushed, hP]
  rfl

/-- One channel of a window: two overwrite-pushes of its output, its power, and the missing ages. -/
theorem channelStep_eq (c : Channel) (s : State) : channelStep c s =
    (({ s with diag := s.diag ++ channelMissing c s }.setQueue (queueZ c)
      (s.pushed (queueZ c) (channelResult c s))).setQueue (queueP c)
      (s.pushed (queueP c) (channelResult c s))).setPower c (slidPower c (channelResult c s) s) := by
  rw [channelStep, channelOutput_eq, channelUpdate_closed]
  rfl

theorem channelStep_diag_eq (c : Channel) (s : State) :
    (channelStep c s).diag = s.diag ++ channelMissing c s := by
  rw [channelStep_eq]
  rfl

theorem channelStep_queueZ (c : Channel) (s : State) :
    (channelStep c s).queue (queueZ c) = s.pushed (queueZ c) (channelResult c s) := by
  rw [channelStep_eq, State.setPower_queue, State.queue_setQueue_ne _ (queueP_ne_queueZ c c).symm,
    State.queue_setQueue_self]

theorem channelStep_queueP (c : Channel) (s : State) :
    (channelStep c s).queue (queueP c) = s.pushed (queueP c) (channelResult c s) := by
  rw [channelStep_eq, State.setPower_queue, State.queue_setQueue_self]

theorem channelStep_queue_ne {c : Channel} {q : QueueId} (hz : q ≠ queueZ c) (hp : q ≠ queueP c)
    (s : State) : (channelStep c s).queue q = s.queue q := by
  rw [channelStep_eq, State.setPower_queue, State.queue_setQueue_ne _ hp,
    State.queue_setQueue_ne _ hz]
  rfl

theorem channelStep_power (c d : Channel) (s : State) : (channelStep c s).fb.power[d] =
    if d = c then slidPower c (channelResult c s) s else s.fb.power[d] := by
  rw [channelStep_eq, State.power_setPower]
  rfl

/-! ### What a channel reads and writes -/

/-- `t` is as `s` is in all that the step of channel `c` reads and writes. -/
structure ChannelAgrees (c : Channel) (s t : State) : Prop where
  cfg : t.cfg = s.cfg
  queueY : t.queue queueY = s.queue queueY
  queueZ : t.queue (queueZ c) = s.queue (queueZ c)
  queueP : t.queue (queueP c) = s.queue (queueP c)
  power : t.fb.power[c] = s.fb.power[c]

namespace ChannelAgrees

variable {c : Channel} {s t u : State}

theorem refl (c : Channel) (s : State) : ChannelAgrees c s s := ⟨rfl, rfl, rfl, rfl, rfl⟩

theorem trans (h : ChannelAgrees c s t) (h' : ChannelAgrees c t u) : ChannelAgrees c s u :=
  ⟨h'.cfg.trans h.cfg, h'.queueY.trans h.queueY, h'.queueZ.trans h.queueZ,
    h'.queueP.trans h.queueP, h'.power.trans h.power⟩

theorem channelResult_eq (h : ChannelAgrees c s t) : channelResult c t = channelResult c s := by
  rw [channelResult, historySum_congr h.cfg h.queueY, historySum_congr h.cfg h.queueZ, h.cfg,
    channelResult]

theorem channelMissing_eq (h : ChannelAgrees c s t) : channelMissing c t = channelMissing c s := by
  rw [channelMissing, h.cfg, h.queueY, h.queueZ, channelMissing]

theorem slidPower_eq (h : ChannelAgrees c s t) (z : NUM) : slidPower c z t = slidPower c z s := by
  rw [slidPower, evictedPower, queueContents_congr h.queueP h.cfg, h.cfg, h.power, slidPower,
    evictedPower]

/-- The steps of a channel agree where the states before them do. -/
theorem step (h : ChannelAgrees c s t) :
    ChannelAgrees c (channelStep c s) (channelStep c t) where
  cfg := by rw [channelStep_cfg, channelStep_cfg, h.cfg]
  queueY := by
    rw [channelStep_queue_ne (queueZ_ne_queueY c).symm (queueP_ne_queueY c).symm,
      channelStep_queue_ne (queueZ_ne_queueY c).symm (queueP_ne_queueY c).symm, h.queueY]
  queueZ := by
    rw [channelStep_queueZ, channelStep_queueZ, h.channelResult_eq,
      State.pushed_congr h.cfg h.queueZ]
  queueP := by
    rw [channelStep_queueP, channelStep_queueP, h.channelResult_eq,
      State.pushed_congr h.cfg h.queueP]
  power := by
    rw [channelStep_power, channelStep_power, if_pos rfl, if_pos rfl, h.channelResult_eq,
      h.slidPower_eq]

end ChannelAgrees

/-- A channel's step touches nothing that another channel reads or writes. -/
theorem channelStep_agrees {c d : Channel} (h : d ≠ c) (s : State) :
    ChannelAgrees d s (channelStep c s) where
  cfg := channelStep_cfg c s
  queueY := channelStep_queue_ne (queueZ_ne_queueY c).symm (queueP_ne_queueY c).symm s
  queueZ := channelStep_queue_ne (queueZ_ne_queueZ h) (queueP_ne_queueZ c d).symm s
  queueP := channelStep_queue_ne (queueP_ne_queueZ d c) (queueP_ne_queueP h) s
  power := by rw [channelStep_power, if_neg h]

/-! ### The channels of a window -/

theorem foldl_channelStep_queue_ne {q : QueueId} (hz : ∀ c, q ≠ queueZ c) (hp : ∀ c, q ≠ queueP c)
    (l : List Channel) (s : State) :
    (l.foldl (fun s c => channelStep c s) s).queue q = s.queue q := by
  induction l generalizing s with
  | nil => rfl
  | cons c rest ih => rw [List.foldl_cons, ih, channelStep_queue_ne (hz c) (hp c)]

/-- The steps of other channels touch nothing of channel `d`. -/
theorem foldl_channelStep_agrees_of_notMem {d : Channel} {l : List Channel} (h : d ∉ l) (s : State) :
    ChannelAgrees d s (l.foldl (fun s c => channelStep c s) s) := by
  induction l generalizing s with
  | nil => exact .refl d s
  | cons c rest ih =>
    have hc : d ≠ c := fun e => h (e ▸ List.mem_cons_self)
    have hrest : d ∉ rest := fun hd => h (List.mem_cons_of_mem c hd)
    rw [List.foldl_cons]
    exact (channelStep_agrees hc s).trans (ih hrest (channelStep c s))

/-- Among the steps of different channels, channel `d` ends as its own step from the first state
leaves it. -/
theorem foldl_channelStep_agrees_of_mem {d : Channel} {l : List Channel} (hl : l.Nodup) (h : d ∈ l)
    (s : State) : ChannelAgrees d (channelStep d s) (l.foldl (fun s c => channelStep c s) s) := by
  induction l generalizing s with
  | nil => exact absurd h List.not_mem_nil
  | cons c rest ih =>
    obtain ⟨hc, hrest⟩ := List.nodup_cons.mp hl
    rw [List.foldl_cons]
    by_cases hd : d = c
    · subst hd
      exact foldl_channelStep_agrees_of_notMem hc (channelStep d s)
    · exact (channelStep_agrees hd s).step.trans
        (ih hrest (List.mem_of_ne_of_mem hd h) (channelStep c s))

/-- Each channel raises, in its turn, what it would raise from the first state. -/
theorem foldl_channelStep_diag_eq {l : List Channel} (hl : l.Nodup) (s : State) :
    (l.foldl (fun s c => channelStep c s) s).diag =
      s.diag ++ l.flatMap fun c => channelMissing c s := by
  induction l generalizing s with
  | nil => simp
  | cons c rest ih =>
    obtain ⟨hc, hrest⟩ := List.nodup_cons.mp hl
    have other {d : Channel} (hd : d ∈ rest) : d ≠ c := fun e => hc (e ▸ hd)
    have same : rest.flatMap (fun d => channelMissing d (channelStep c s)) =
        rest.flatMap fun d => channelMissing d s :=
      List.flatMap_congr fun d hd =>
        (channelStep_agrees (other hd) s).channelMissing_eq
    rw [List.foldl_cons, ih hrest, same, channelStep_diag_eq, List.flatMap_cons,
      List.append_assoc]

/-! ### A whole window -/

/-- The FIR output (R183). -/
def firResult (s : State) : NUM := historySum queueX (firTerms s.cfg) s

/-- What computing the FIR output raises. -/
def firMissing (s : State) : List DiagEvent :=
  missingAges queueX (s.queue queueX).count ((firTerms s.cfg).map (·.2))

/-- The state from which the channels of a window start: the FIR output is in Y (R184). -/
def firStep (s : State) : State :=
  { s with diag := s.diag ++ firMissing s }.setQueue queueY (s.pushed queueY (firResult s))

theorem firStep_queueY (s : State) : (firStep s).queue queueY = s.pushed queueY (firResult s) :=
  State.queue_setQueue_self ..

theorem firStep_queue_ne {q : QueueId} (h : q ≠ queueY) (s : State) :
    (firStep s).queue q = s.queue q := State.queue_setQueue_ne _ h _

theorem fbWindow_eq_foldl (s : State) :
    fbWindow s = channels.foldl (fun s c => channelStep c s) (firStep s) := by
  rw [fbWindow, sumProducts_eq, hqOpush_eq_pushed]
  rfl

theorem fbWindow_queueX (s : State) : (fbWindow s).queue queueX = s.queue queueX := by
  rw [fbWindow_eq_foldl, foldl_channelStep_queue_ne (fun c => (queueZ_ne_queueX c).symm)
    (fun c => (queueP_ne_queueX c).symm), firStep_queue_ne queueX_ne_queueY]

theorem fbWindow_queueY (s : State) :
    (fbWindow s).queue queueY = s.pushed queueY (firResult s) := by
  rw [fbWindow_eq_foldl, foldl_channelStep_queue_ne (fun c => (queueZ_ne_queueY c).symm)
    (fun c => (queueP_ne_queueY c).symm), firStep_queueY]

/-- A window leaves each channel as the channel's own step after the FIR output does. -/
theorem fbWindow_agrees (c : Channel) (s : State) :
    ChannelAgrees c (channelStep c (firStep s)) (fbWindow s) := by
  have listed : c ∈ channels := by revert c; decide
  rw [fbWindow_eq_foldl]
  exact foldl_channelStep_agrees_of_mem (by decide) listed (firStep s)

theorem fbWindow_queueZ (c : Channel) (s : State) : (fbWindow s).queue (queueZ c) =
    s.pushed (queueZ c) (channelResult c (firStep s)) := by
  rw [(fbWindow_agrees c s).queueZ, channelStep_queueZ]
  exact State.pushed_congr (s := s) (t := firStep s) rfl
    (firStep_queue_ne (queueZ_ne_queueY c) s) _

theorem fbWindow_queueP (c : Channel) (s : State) : (fbWindow s).queue (queueP c) =
    s.pushed (queueP c) (channelResult c (firStep s)) := by
  rw [(fbWindow_agrees c s).queueP, channelStep_queueP]
  exact State.pushed_congr (s := s) (t := firStep s) rfl
    (firStep_queue_ne (queueP_ne_queueY c) s) _

theorem fbWindow_power (c : Channel) (s : State) :
    (fbWindow s).fb.power[c] = slidPower c (channelResult c (firStep s)) (firStep s) := by
  rw [(fbWindow_agrees c s).power, channelStep_power, if_pos rfl]

theorem fbWindow_diag_eq (s : State) : (fbWindow s).diag =
    s.diag ++ firMissing s ++ channels.flatMap fun c => channelMissing c (firStep s) := by
  rw [fbWindow_eq_foldl, foldl_channelStep_diag_eq (by decide)]
  rfl

end Sys2Proof.Machine

/-! SUPPORT. The FILTER step of a DET_RUN, with the queues at any length (43_detector.md R234). -/

namespace Sys2Proof.Machine

/-! ### The FILTER step -/

theorem fbAccept_eq (v : AdcCode) (s : State) :
    fbAccept v s = s.setQueue queueX (s.pushed queueX (scaleSample s.cfg.num v)) :=
  hqOpush_eq_pushed ..

/-- A sample that completes no window (43_detector.md R234). -/
theorem filterStep_accept {s : State} (h : s.det.decimationCounter.val < 9) : filterStep s =
    { s.setQueue queueX (s.pushed queueX (scaleSample s.cfg.num s.seq.sample)) with
      det := { s.det with decimationCounter := s.det.decimationCounter + 1 }
      seq := { s.seq with phase := nextPhase s } } := by
  have hne : s.det.decimationCounter.val + 1 ≠ decimation := by rw [decimation]; omega
  rw [filterStep, fbAccept_eq]
  exact if_neg hne

/-- A window does not read the Detector. -/
theorem fbWindow_setDet (d : Detector) (s : State) :
    fbWindow { s with det := d } = { fbWindow s with det := d } := by
  have moved : fbWindow (State.embed { s with det := d } s) =
      State.embed { s with det := d } (fbWindow s) := fbWindow_embed ..
  have framed := fbWindow_frame s
  generalize fbWindow s = w at moved framed ⊢
  rw [framed]
  exact moved

/-- The sample that completes a window (43_detector.md R234). -/
theorem filterStep_window {s : State} (h : s.det.decimationCounter = 9) :
    let w := fbWindow (fbAccept s.seq.sample s)
    filterStep s = { s with
      q := w.q
      fb := w.fb
      diag := w.diag
      det := { s.det with decimationCounter := 0 }
      seq := { s.seq with phase := .decide } } := by
  have hten : s.det.decimationCounter.val + 1 = decimation := by rw [h]; rfl
  obtain ⟨q, accepted⟩ : ∃ q, fbAccept s.seq.sample s = { s with q := q } :=
    ⟨_, hqOpush_frame ..⟩
  simp only [filterStep, accepted, if_pos hten]
  have cleared := fbWindow_setDet { s.det with decimationCounter := 0 } { s with q := q }
  have framed := fbWindow_frame { s with q := q }
  have kept := fbWindow_cfg { s with q := q }
  generalize fbWindow { s with q := q } = w at cleared framed kept ⊢
  rw [cleared, framed, State.embed, kept]

/-- With a sample popped, the foreground's step is the FILTER step. -/
theorem step_filter {s : State} (hf : foregroundIsNext s) (hp : s.seq.phase = .filter) :
    step s = .next (filterStep { s with schedule := s.schedule.tail }) := by
  have hu : foregroundStep { s with schedule := s.schedule.tail } =
      .done (filterStep { s with schedule := s.schedule.tail }) := by
    simp only [foregroundStep, hp]
  rw [step_foreground hf, hu]
  rfl

/-- The scaling in the reference instantiation (R181). -/
theorem scaleSample_exact (v : AdcCode) :
    scaleSample .exact v = .exact ((2 * (v.toNat : Rat) - 4095) / 4095) := by
  simp only [scaleSample, adcMax, numOfNat_exact, numDiv_exact, numSub_exact, unwrap_exact]
  congr 1
  push_cast
  ring

/-- Settles O30. -/
theorem filterStepAcceptsSample : Obligations.FilterStepAcceptsSample := by
  refine ⟨fun n v => rfl, scaleSample_exact, fun s hf hp hw hd => ?_⟩
  refine ⟨s.pushed queueX (scaleSample s.cfg.num s.seq.sample), ?_, ?_,
    State.pushed_wf (q := queueX) hw _, rfl, rfl,
    queueContents_of_pushed (s := s) rfl hw (State.queue_setQueue_self ..)⟩
  · rw [step_filter hf hp, filterStep_accept (s := { s with schedule := s.schedule.tail }) hd]
    rfl
  · rw [exec_hqOpush (by decide), ← hqOpush_eq_pushed]
    rfl

/-! ### The FILTER step of the tenth sample -/

theorem fbAccept_queueX (v : AdcCode) (s : State) :
    (fbAccept v s).queue queueX = s.pushed queueX (scaleSample s.cfg.num v) := by
  rw [fbAccept_eq, State.queue_setQueue_self]

theorem fbAccept_queue_ne {q : QueueId} (h : q ≠ queueX) (v : AdcCode) (s : State) :
    (fbAccept v s).queue q = s.queue q := by
  rw [fbAccept_eq, State.queue_setQueue_ne s h]

theorem fbAccept_diag (v : AdcCode) (s : State) : (fbAccept v s).diag = s.diag := hqOpush_diag ..

/-- The state from which the channels start: the sample is in X, the FIR output in Y. -/
def channelsStart (s : State) : State := firStep (fbAccept s.seq.sample s)

theorem channelsStart_cfg (s : State) : (channelsStart s).cfg = s.cfg := fbAccept_cfg ..

theorem channelsStart_fb (s : State) : (channelsStart s).fb = s.fb := hqOpush_fb ..

theorem channelsStart_queueY (s : State) :
    (channelsStart s).queue queueY = s.pushed queueY (firResult (fbAccept s.seq.sample s)) := by
  rw [channelsStart, firStep_queueY]
  exact State.pushed_congr (fbAccept_cfg ..) (fbAccept_queue_ne queueX_ne_queueY.symm ..) _

theorem channelsStart_queue_ne {q : QueueId} (hx : q ≠ queueX) (hy : q ≠ queueY) (s : State) :
    (channelsStart s).queue q = s.queue q := by
  rw [channelsStart, firStep_queue_ne hy, fbAccept_queue_ne hx]

section
variable {s : State} (h : s.det.decimationCounter = 9)
include h

/-- The queues, the powers and DIAG are those of the window. -/
theorem filterStep_bank : (filterStep s).q = (fbWindow (fbAccept s.seq.sample s)).q ∧
    (filterStep s).fb = (fbWindow (fbAccept s.seq.sample s)).fb ∧
    (filterStep s).diag = (fbWindow (fbAccept s.seq.sample s)).diag := by
  have e := filterStep_window h
  generalize fbWindow (fbAccept s.seq.sample s) = w at e ⊢
  rw [e]
  exact ⟨rfl, rfl, rfl⟩

/-- The queues, the powers, DIAG, the decimation counter and the phase are all that changes. -/
theorem filterStep_window_frame : filterStep s = { s with
    q := (filterStep s).q
    fb := (filterStep s).fb
    diag := (filterStep s).diag
    det := { s.det with decimationCounter := 0 }
    seq := { s.seq with phase := .decide } } := by
  obtain ⟨hq, hfb, hdiag⟩ := filterStep_bank h
  rw [hq, hfb, hdiag]
  exact filterStep_window h

theorem filterStep_queue (q : QueueId) :
    (filterStep s).queue q = (fbWindow (fbAccept s.seq.sample s)).queue q := by
  rw [State.queue, (filterStep_bank h).1, State.queue]

theorem filterStep_queueX :
    (filterStep s).queue queueX = s.pushed queueX (scaleSample s.cfg.num s.seq.sample) := by
  rw [filterStep_queue h, fbWindow_queueX, fbAccept_queueX]

theorem filterStep_queueY : (filterStep s).queue queueY =
    s.pushed queueY (firResult (fbAccept s.seq.sample s)) := by
  rw [filterStep_queue h, fbWindow_queueY]
  exact State.pushed_congr (fbAccept_cfg ..) (fbAccept_queue_ne queueX_ne_queueY.symm ..) _

theorem filterStep_queueZ (c : Channel) : (filterStep s).queue (queueZ c) =
    s.pushed (queueZ c) (channelResult c (channelsStart s)) := by
  rw [filterStep_queue h, fbWindow_queueZ]
  exact State.pushed_congr (fbAccept_cfg ..) (fbAccept_queue_ne (queueZ_ne_queueX c) ..) _

theorem filterStep_queueP (c : Channel) : (filterStep s).queue (queueP c) =
    s.pushed (queueP c) (channelResult c (channelsStart s)) := by
  rw [filterStep_queue h, fbWindow_queueP]
  exact State.pushed_congr (fbAccept_cfg ..) (fbAccept_queue_ne (queueP_ne_queueX c) ..) _

/-- Every queue takes one overwrite-push. -/
theorem filterStep_pushes (q : QueueId) : ∃ v, (filterStep s).queue q = s.pushed q v := by
  rcases queueId_cases q with rfl | rfl | ⟨c, rfl⟩ | ⟨c, rfl⟩
  · exact ⟨_, filterStep_queueX h⟩
  · exact ⟨_, filterStep_queueY h⟩
  · exact ⟨_, filterStep_queueZ h c⟩
  · exact ⟨_, filterStep_queueP h c⟩

theorem filterStep_power (c : Channel) : (filterStep s).fb.power[c] =
    slidPower c (channelResult c (channelsStart s)) (channelsStart s) := by
  obtain ⟨-, hfb, -⟩ := filterStep_bank h
  rw [hfb, fbWindow_power, channelsStart]

theorem filterStep_diag_eq : (filterStep s).diag = s.diag ++
    firMissing (fbAccept s.seq.sample s) ++
    channels.flatMap fun c => channelMissing c (channelsStart s) := by
  obtain ⟨-, -, hdiag⟩ := filterStep_bank h
  rw [hdiag, fbWindow_diag_eq, fbAccept_diag, channelsStart]

end

/-- A FILTER step keeps the queues in form. -/
theorem filterStep_queuesWf {s : State} (hw : queuesWf s) : queuesWf (filterStep s) :=
  filterStep_ind (fun hc hq _ => queuesWf_congr hc hq) (fun h v => fbAccept_queuesWf h v)
    (fun h => fbWindow_queuesWf h) hw

/-! ### The ages that the sums of a window read -/

theorem firTerms_ages (cfg : Config) : (firTerms cfg).map (·.2) = List.range 81 := by
  rw [firTerms, List.range_eq_range']
  exact (List.zipIdx_map_snd 0 _).trans (by rw [Vector.length_toList])

theorem term1Terms_ages (cfg : Config) (c : Channel) :
    (term1Terms cfg c).map (·.2) = (List.range 11).reverse := by
  have ages : (term1Terms cfg c).map (·.2) =
      (cfg.iirB[c].toList.zipIdx.map Prod.snd).map (10 - ·) := by
    rw [term1Terms, List.map_map, List.map_map]
    rfl
  rw [ages, List.zipIdx_map_snd, Vector.length_toList]
  decide

theorem term2Terms_ages (cfg : Config) (c : Channel) :
    (term2Terms cfg c).map (·.2) = (List.range 10).map (10 - ·) := by
  have ages : (term2Terms cfg c).map (·.2) =
      (cfg.iirA[c].toList.tail.zipIdx.map Prod.snd).map (10 - ·) := by
    rw [term2Terms, List.map_map, List.map_map]
    rfl
  rw [ages, List.zipIdx_map_snd, List.length_tail, Vector.length_toList, List.range_eq_range']

/-! ### The sums of a window, by what the queues hold -/

theorem firResult_eq (s : State) : firResult s = sumOfPairs s.cfg.num
    (s.cfg.firCoef.toList.zipIdx.map fun t =>
      (t.1, (queueContents s queueX).getD t.2 (numZero s.cfg.num))) := rfl

theorem channelResult_eq (c : Channel) (s : State) : channelResult c s = numSub s.cfg.num
    (sumOfPairs s.cfg.num (s.cfg.iirB[c].toList.zipIdx.map fun t =>
      (t.1, (queueContents s queueY).getD (10 - t.2) (numZero s.cfg.num))))
    (sumOfPairs s.cfg.num (s.cfg.iirA[c].toList.tail.zipIdx.map fun t =>
      (t.1, (queueContents s (queueZ c)).getD (10 - t.2) (numZero s.cfg.num)))) := by
  rw [channelResult, historySum, historySum, term1Terms, term2Terms, List.map_map, List.map_map]
  rfl

theorem firMissing_eq (s : State) : firMissing s =
    missingAges queueX (queueContents s queueX).length (List.range 81) := by
  rw [firMissing, firTerms_ages, queueContents_length]

theorem channelMissing_eq (c : Channel) (s : State) : channelMissing c s =
    missingAges queueY (queueContents s queueY).length (List.range 11).reverse ++
      missingAges (queueZ c) (queueContents s (queueZ c)).length ((List.range 10).map (10 - ·)) := by
  rw [channelMissing, term1Terms_ages, term2Terms_ages, queueContents_length, queueContents_length]

/-- Settles O31. The step is taken from `u`, the state with its schedule entry used up; every queue takes
one overwrite-push there, and the sums are read off the contents after the pushes before them. -/
theorem filterStepComputesWindow : Obligations.FilterStepComputesWindow := by
  intro s hf hp hd hw n xs y ys zs ps z old
  let u : State := { s with schedule := s.schedule.tail }
  have hdu : u.det.decimationCounter = 9 := hd
  have hwu : queuesWf u := hw
  have hcfg : (filterStep u).cfg = u.cfg := by rw [filterStep_window hdu]
  have hX : queueContents (fbAccept u.seq.sample u) queueX = xs :=
    queueContents_of_pushed (fbAccept_cfg ..) (hwu queueX) (fbAccept_queueX ..)
  have hy : firResult (fbAccept u.seq.sample u) = y := by
    rw [firResult_eq, hX, fbAccept_cfg]
  have hY : queueContents (channelsStart u) queueY = ys := by
    rw [queueContents_of_pushed (channelsStart_cfg u) (hwu queueY) (channelsStart_queueY u), hy]
    rfl
  have hZ (c : Channel) : queueContents (channelsStart u) (queueZ c) = zs c :=
    queueContents_congr (channelsStart_queue_ne (queueZ_ne_queueX c) (queueZ_ne_queueY c) u)
      (channelsStart_cfg u)
  have hP (c : Channel) : queueContents (channelsStart u) (queueP c) = ps c :=
    queueContents_congr (channelsStart_queue_ne (queueP_ne_queueX c) (queueP_ne_queueY c) u)
      (channelsStart_cfg u)
  have hz (c : Channel) : channelResult c (channelsStart u) = z c := by
    rw [channelResult_eq, hY, hZ, channelsStart_cfg]
  have hdiag : (filterStep u).diag = s.diag ++ missingAges queueX xs.length (List.range 81) ++
      channels.flatMap fun c => missingAges queueY ys.length (List.range 11).reverse ++
        missingAges (queueZ c) (zs c).length ((List.range 10).map (10 - ·)) := by
    simp only [filterStep_diag_eq hdu, firMissing_eq, channelMissing_eq, hX, hY, hZ]
    rfl
  refine ⟨filterStep u, step_filter hf hp, ?_, ?_, ?_, fun c => ⟨?_, ?_, ?_⟩, ?_, fun q => ?_⟩
  · rw [← hdiag]
    exact filterStep_window_frame hdu
  · exact queueContents_of_pushed hcfg (hwu queueX) (filterStep_queueX hdu)
  · rw [queueContents_of_pushed hcfg (hwu queueY) (filterStep_queueY hdu), hy]
    rfl
  · rw [queueContents_of_pushed hcfg (hwu _) (filterStep_queueZ hdu c), hz, capacity_queueZ]
    rfl
  · rw [queueContents_of_pushed hcfg (hwu _) (filterStep_queueP hdu c), hz, capacity_queueP]
    rfl
  · rw [filterStep_power hdu, hz, slidPower, evictedPower, hP, channelsStart_cfg,
      channelsStart_fb]
  · exact filterStep_queuesWf hwu
  · obtain ⟨v, hq⟩ := filterStep_pushes hdu q
    rw [hq]
    exact State.pushed_flags q v u

end Sys2Proof.Machine

/-! SUPPORT. FB_NORM: the upward scan for the maximum power, and what is answered (42_filter_bank.md
R194). -/

namespace Sys2Proof.Machine

/-! ### The lowest channel of maximum power -/

section
variable {n : NumSystem} {power : Vector NUM 10}

/-- Channel `m` is the lowest of those with the maximum power among the channels of `seen`. -/
structure LowestMaximum (n : NumSystem) (power : Vector NUM 10) (seen : List Channel) (m : Channel) :
    Prop where
  mem : m ∈ seen
  maximum : ∀ c ∈ seen, numLt n power[m] power[c] = false
  lowest : ∀ c ∈ seen, c < m → numLt n power[c] power[m] = true

theorem ordersPowers.irrefl (h : ordersPowers n power) (a : Channel) :
    numLt n power[a] power[a] = false := by
  cases e : numLt n power[a] power[a] with
  | false => rfl
  | true => rw [← e, h.1 a a e]

/-- The scan's next channel, above all the channels seen, replaces the best so far where `lt` puts it
above. -/
theorem LowestMaximum.next {seen : List Channel} {m c : Channel} (h : ordersPowers n power)
    (hm : LowestMaximum n power seen m) (hc : ∀ d ∈ seen, d < c) :
    LowestMaximum n power (seen ++ [c]) (if numLt n power[m] power[c] then c else m) := by
  obtain ⟨mem, maximum, lowest⟩ := hm
  have ⟨asymm, between⟩ := h
  cases e : numLt n power[m] power[c] with
  | false =>
    exact ⟨List.mem_append_left _ mem,
      List.forall_mem_append.2 ⟨maximum, List.forall_mem_singleton.2 e⟩,
      List.forall_mem_append.2 ⟨lowest,
        List.forall_mem_singleton.2 fun hlt => absurd hlt (hc m mem).asymm⟩⟩
  | true =>
    have below : ∀ d ∈ seen, numLt n power[d] power[c] = true := fun d hd =>
      (between m d c e).resolve_left (Bool.eq_false_iff.1 (maximum d hd))
    exact ⟨List.mem_append_right _ (List.mem_singleton.2 rfl),
      List.forall_mem_append.2 ⟨fun d hd => asymm d c (below d hd),
        List.forall_mem_singleton.2 (h.irrefl c)⟩,
      List.forall_mem_append.2 ⟨fun d hd _ => below d hd,
        List.forall_mem_singleton.2 fun hlt => absurd rfl hlt.ne⟩⟩

/-- The scan of the channels of `rest`, all above those of `seen`, ends at the lowest maximum. -/
theorem LowestMaximum.foldl (h : ordersPowers n power) {rest : List Channel} :
    ∀ {seen : List Channel} {m : Channel}, (seen ++ rest).Pairwise (· < ·) →
      LowestMaximum n power seen m → LowestMaximum n power (seen ++ rest)
        (rest.foldl (fun m c => if numLt n power[m] power[c] then c else m) m) := by
  induction rest with
  | nil => intro seen m _ hm; simpa using hm
  | cons c rest ih =>
    intro seen m hp hm
    obtain ⟨_, _, ascending⟩ := List.pairwise_append.1 hp
    rw [List.append_cons] at hp ⊢
    exact ih hp (hm.next h fun d hd => ascending d hd c List.mem_cons_self)

theorem lowestMaximum_maxChannel (h : ordersPowers n power) :
    LowestMaximum n power channels (maxChannel n power) :=
  LowestMaximum.foldl h (seen := [0]) (by decide)
    ⟨List.mem_singleton.2 rfl, List.forall_mem_singleton.2 (h.irrefl 0),
      List.forall_mem_singleton.2 fun hlt => absurd rfl hlt.ne⟩

end

theorem ordersPowers_exact (power : Vector NUM 10) : ordersPowers .exact power := by
  refine ⟨fun a b h => ?_, fun a b c h => ?_⟩
  · rw [numLt_exact, decide_eq_true_iff] at h
    rw [numLt_exact, decide_eq_false_iff_not]
    exact h.asymm
  · simp only [numLt_exact, decide_eq_true_iff] at h ⊢
    exact (lt_or_ge _ _).imp_right fun hba => hba.trans_lt h

/-! ### The response -/

theorem mem_channels (c : Channel) : c ∈ channels := by revert c; decide

/-- The channels in ascending order read a table of ten from its first element to its last. -/
theorem map_channels {α β : Type} (v : Vector α 10) (f : α → β) :
    channels.map (fun c => f v[c]) = v.toList.map f := by
  have hc : channels = List.finRange 10 := by decide
  rw [hc]
  refine List.ext_getElem (by simp) fun i _ _ => ?_
  simp

theorem normBeats_of_isZero {n : NumSystem} {power : Vector NUM 10}
    (h : numIsZero n power[maxChannel n power] = true) :
    normBeats n power = List.replicate 10 (.num (numZero n)) ++ [.int 0] := by
  rw [normBeats, if_pos h]
  rfl

theorem normBeats_of_not_isZero {n : NumSystem} {power : Vector NUM 10}
    (h : numIsZero n power[maxChannel n power] = false) :
    normBeats n power =
      power.toList.map (fun x => .num (numDiv n x power[maxChannel n power])) ++
        [natBeat (maxChannel n power).val] := by
  rw [normBeats, if_neg (Bool.eq_false_iff.1 h),
    map_channels power fun x => Beat.num (numDiv n x power[maxChannel n power])]

theorem exec_fbNorm (s : State) :
    exec .fbNorm s = .next (s.respond (normBeats s.cfg.num s.fb.power)) := rfl

/-- Settles O36: the scan keeps the lowest maximum of the channels it has seen; 0 equals 0 in every
record, so a maximum that does not is not 0. -/
theorem fbNormResult : Obligations.FbNormResult := by
  refine ⟨ordersPowers_exact, fun s => ⟨fun hz => ?_, fun hz => ⟨fun e => ?_, ?_⟩, fun ho => ?_⟩⟩
  · rw [exec_fbNorm, normBeats_of_isZero hz]
    rfl
  · rw [e, numIsZero_numZero] at hz
    cases hz
  · rw [exec_fbNorm, normBeats_of_not_isZero hz]
    rfl
  · obtain ⟨_, maximum, lowest⟩ := lowestMaximum_maxChannel ho
    exact ⟨fun c => maximum c (mem_channels c), fun c => lowest c (mem_channels c)⟩

end Sys2Proof.Machine

/-! SUPPORT. FB_RECOMPUTE, and the read-outs of the FilterBank (42_filter_bank.md R189, R192 to R199). -/

namespace Sys2Proof.Machine

/-! ### An operand that names something -/

/-- A command whose operand names `a` does what it does with `a`. -/
theorem withOperand_of_eq_some {α : Type} {o : Option α} {a : α} (h : o = some a) (i : Instr)
    (l : List Beat) (k : α → State → State) (s : State) : withOperand o i l k s = k a s := by
  rw [h, withOperand_some]

/-! ### FB_RECOMPUTE -/

theorem map_range_getD {α : Type} (l : List α) (d : α) :
    (List.range l.length).map (fun a => l.getD a d) = l := by
  refine List.ext_getElem (by simp) fun i _ hi => ?_
  rw [List.getElem_map, List.getElem_range, List.getD_eq_getElem _ _ hi]

/-- The sum of squares over the window, in ascending age. -/
theorem fbRecompute_eq_sumOfPairs (c : Channel) (s : State) : fbRecompute c s =
    s.setPower c
      (sumOfPairs s.cfg.num ((queueContents s (queueP c)).map fun e => (e, e))) := by
  rw [fbRecompute_eq, ← queueContents_length, sumOfPairs, List.foldl_map]
  conv_rhs => rw [← map_range_getD (queueContents s (queueP c)) (numZero s.cfg.num), List.foldl_map]

@[simp] theorem State.setPower_self (c : Channel) (s : State) : s.setPower c s.fb.power[c] = s := by
  simp [State.setPower]

theorem exec_fbRecompute {ch : BitVec 4} (h : ch.toNat < 10) (s : State) :
    exec (.fbRecompute ch) s = .next (fbRecompute ⟨ch.toNat, h⟩ s) :=
  congrArg _ (withOperand_of_eq_some (operandChannel_of_lt h) _ _ _ s)

/-- Settles O34: every age below the count is there; in the exact NUM the sum of squares is the power
that the channel has. -/
theorem fbRecomputeResult : Obligations.FbRecomputeResult := by
  intro ch h s c
  refine ⟨?_, fun hn hp => ?_⟩
  · rw [exec_fbRecompute h, fbRecompute_eq_sumOfPairs]
    rfl
  · rw [exec_fbRecompute h, fbRecompute_exact hn, ← hp, State.setPower_self]

/-! ### The read-outs -/

/-- Settles O35: each operand names what the read-out answers. -/
theorem fbReadouts : Obligations.FbReadouts := by
  refine ⟨fun ch h s => ?_, fun s => ?_, fun i h s => ?_, fun ch i hc hi s => ?_,
    fun ch i hc hi s => ?_, fun i h s => ?_⟩
  · exact congrArg _ (withOperand_of_eq_some (operandChannel_of_lt h) _ _ _ s)
  · exact congrArg (fun beats => Host.Outcome.next (s.respond beats))
      (map_channels s.fb.power Beat.num)
  · exact congrArg _ (withOperand_of_eq_some (operandFirIndex_of_lt h) _ _ _ s)
  · exact congrArg _ (withOperand_of_eq_some (operandCoefficient_of_lt hc hi) _ _ _ s)
  · exact congrArg _ (withOperand_of_eq_some (operandCoefficient_of_lt hc hi) _ _ _ s)
  · exact congrArg _ (withOperand_of_eq_some (operandConst_of_lt h) _ _ _ s)

end Sys2Proof.Machine

/-! SUPPORT. The Detector's configuration commands, its read-outs and DET_INIT (43_detector.md R221 to
R229). -/

namespace Sys2Proof.Machine

/-! ### Configuration and read-outs -/

theorem exec_detHitcounts (s : State) : exec .detHitcounts s =
    .next (s.respond (channels.map fun c => natBeat s.det.hitCounts[c].toNat)) := rfl

/-- Settles O37: each clause is the command's arm; the ten counters stand in channel order. -/
theorem detConfigurationAndReadouts : Obligations.DetConfigurationAndReadouts := by
  refine fun s => ⟨fun m => rfl, rfl, rfl, rfl, fun u => rfl, rfl, rfl, ?hitcounts, rfl⟩
  case hitcounts =>
    rw [exec_detHitcounts, map_channels s.det.hitCounts fun k => natBeat k.toNat]
    rfl

/-! ### DET_INIT -/

/-- DET_INIT leaves the queues, the powers and the Detector as RESET does, and touches nothing else. -/
theorem detInit_eq (s : State) : detInit s = { s with
    q := (State.resetWith s.cfg s.trigIn).q
    fb := (State.resetWith s.cfg s.trigIn).fb
    det := .reset s.cfg.fudgeReset } := by
  rw [detInit, fbInit_eq]
  rfl

theorem detInit_queue (q : QueueId) (s : State) :
    (detInit s).queue q = .reset (s.cfg.queueCapacity q) := by
  rw [detInit_eq]
  exact resetWith_queue s.cfg s.trigIn q

theorem detInit_power (c : Channel) (s : State) :
    (detInit s).fb.power[c] = numZero s.cfg.num := by
  rw [detInit_eq]
  exact resetWith_power s.cfg s.trigIn c

theorem detInit_det (s : State) : (detInit s).det = .reset s.cfg.fudgeReset := by rw [detInit_eq]

/-- Settles O38. -/
theorem detInitResult : Obligations.DetInitResult := by
  refine fun s => ⟨detInit s, rfl, ?frame, fun q => ?queue, fun c => detInit_power c s, ?_⟩
  case frame => rw [detInit_eq]
  case queue =>
    rw [detInit_queue]
    exact ⟨fun i => rfl, rfl, rfl, rfl, rfl, rfl⟩
  rw [detInit_det]
  exact ⟨rfl, rfl, fun c => Vector.getElem_replicate .., rfl, rfl, rfl, rfl, rfl⟩

end Sys2Proof.Machine

/-! SUPPORT. The ranking of the channels and the candidate (43_detector.md R237, R239). -/

namespace Sys2Proof.Machine

section
variable {n : NumSystem} {power : Vector NUM 10}

/-! ### The order of the ranks -/

/-- No channel above another has the lower power. -/
theorem ranksBelow.not_numLt (h : ordersPowers n power) {a b : Channel}
    (hab : ranksBelow n power a b) : numLt n power[b] power[a] = false :=
  hab.elim (h.1 a b) And.left

theorem ranksBelow.asymm (h : ordersPowers n power) {a b : Channel}
    (hab : ranksBelow n power a b) : ¬ ranksBelow n power b a := by
  rintro (lower | ⟨noHigher, hba⟩)
  · rw [hab.not_numLt h] at lower
    cases lower
  · rcases hab with lower | ⟨-, hlt⟩
    · rw [noHigher] at lower
      cases lower
    · exact hlt.asymm hba

/-- A channel of lower power than another ranks below every channel above that one. -/
theorem ranksBelow.of_numLt (h : ordersPowers n power) {k c d : Channel}
    (hkc : numLt n power[k] power[c] = true) (hcd : ranksBelow n power c d) :
    ranksBelow n power k d :=
  .inl ((h.2 k d c hkc).resolve_right (Bool.eq_false_iff.1 (hcd.not_numLt h)))

/-! ### The insertion sort -/

theorem insertByPower_perm (k : Channel) (l : List Channel) :
    (insertByPower n power k l).Perm (k :: l) := by
  induction l with
  | nil => exact .refl _
  | cons c rest ih =>
    rw [insertByPower]
    split
    · exact .refl _
    · exact (ih.cons c).trans (.swap k c rest)

/-- A channel numbered above those of a ranked list is inserted at its rank. -/
theorem insertByPower_pairwise (h : ordersPowers n power) {k : Channel} {l : List Channel}
    (hl : l.Pairwise (ranksBelow n power)) (hk : ∀ c ∈ l, c < k) :
    (insertByPower n power k l).Pairwise (ranksBelow n power) := by
  induction l with
  | nil => exact List.pairwise_singleton ..
  | cons c rest ih =>
    obtain ⟨hc, hrest⟩ := List.pairwise_cons.1 hl
    obtain ⟨hck, hk'⟩ := List.forall_mem_cons.1 hk
    rw [insertByPower]
    split
    · rename_i lower
      exact hl.cons (List.forall_mem_cons.2
        ⟨.inl lower, fun d hd => ranksBelow.of_numLt h lower (hc d hd)⟩)
    · rename_i notLower
      refine (ih hrest hk').cons fun d hd => ?_
      obtain rfl | hd := List.mem_cons.1 ((insertByPower_perm k rest).mem_iff.1 hd)
      · exact .inr ⟨Bool.eq_false_iff.2 notLower, hck⟩
      · exact hc d hd

theorem foldl_insertByPower_perm (rest : List Channel) : ∀ seen : List Channel,
    (rest.foldl (fun sorted k => insertByPower n power k sorted) seen).Perm (rest ++ seen) := by
  induction rest with
  | nil => exact .refl
  | cons k rest ih =>
    intro seen
    exact (ih _).trans (((insertByPower_perm k seen).append_left rest).trans List.perm_middle)

/-- Inserting channels in ascending order, each above those seen, keeps the list ranked. -/
theorem foldl_insertByPower_pairwise (h : ordersPowers n power) {rest : List Channel}
    (ascending : rest.Pairwise (· < ·)) : ∀ {seen : List Channel},
    seen.Pairwise (ranksBelow n power) → (∀ c ∈ seen, ∀ k ∈ rest, c < k) →
    (rest.foldl (fun sorted k => insertByPower n power k sorted) seen).Pairwise
      (ranksBelow n power) := by
  induction ascending with
  | nil => exact fun hs _ => hs
  | @cons k rest hk _ ih =>
    intro seen hs above
    refine ih (insertByPower_pairwise h hs fun c hc => above c hc k List.mem_cons_self)
      fun c hc d hd => ?_
    obtain rfl | hc := List.mem_cons.1 ((insertByPower_perm k seen).mem_iff.1 hc)
    · exact hk d hd
    · exact above c hc d (List.mem_cons_of_mem k hd)

theorem rankChannels_perm (n : NumSystem) (power : Vector NUM 10) :
    (rankChannels n power).Perm channels := by
  rw [rankChannels]
  simpa only [List.append_nil] using foldl_insertByPower_perm channels []

theorem rankChannels_pairwise (h : ordersPowers n power) :
    (rankChannels n power).Pairwise (ranksBelow n power) :=
  foldl_insertByPower_pairwise h (by decide) .nil fun _ hc => absurd hc List.not_mem_nil

theorem mem_rankChannels (c : Channel) : c ∈ rankChannels n power :=
  (rankChannels_perm n power).mem_iff.2 (mem_channels c)

end

/-! ### The records that order their powers -/

/-- A record whose `lt` compares rationals that the powers stand for orders the powers. -/
theorem ordersPowers_of_value {n : NumSystem} {power : Vector NUM 10} (value : Channel → Rat)
    (h : ∀ a b, numLt n power[a] power[b] = decide (value a < value b)) : ordersPowers n power := by
  refine ⟨fun a b hab => ?_, fun a b c hac => ?_⟩
  · rw [h, decide_eq_true_iff] at hab
    rw [h, decide_eq_false_iff_not]
    exact hab.asymm
  · simp only [h, decide_eq_true_iff] at hac ⊢
    exact (lt_or_ge (value a) (value b)).imp_right fun hba => hba.trans_lt hac

theorem numLt_binary64 {a b : BitVec 64} (ha : b64Finite a = true) (hb : b64Finite b = true) :
    numLt .binary64 (.binary64 a) (.binary64 b) = decide (b64Value a < b64Value b) := by
  show b64Lt a b = _
  rw [b64Lt, ha, hb]
  rfl

/-- binary64 orders finite powers, both zeros included. -/
theorem ordersPowers_binary64 {power : Vector NUM 10}
    (h : ∀ c : Channel, ∃ b, power[c] = .binary64 b ∧ b64Finite b = true) :
    ordersPowers .binary64 power := by
  choose bits hbits finite using h
  refine ordersPowers_of_value (fun c => b64Value (bits c)) fun a b => ?_
  rw [hbits, hbits]
  exact numLt_binary64 (finite a) (finite b)

/-- Settles O39: the insertion sort ranks the channels, and two ranked permutations are equal because
the order of the ranks is asymmetric. -/
theorem rankingIsTheStableSort : Obligations.RankingIsTheStableSort := by
  refine ⟨ordersPowers_exact, fun _ => ordersPowers_binary64, fun n power h =>
    ⟨⟨rankChannels_perm n power, rankChannels_pairwise h⟩, fun l ⟨perm, ranked⟩ => ?_⟩⟩
  exact List.Perm.eq_of_pairwise (fun a b _ _ hab hba => absurd hba (hab.asymm h)) ranked
    (rankChannels_pairwise h) (perm.trans (rankChannels_perm n power).symm)

/-! ### The candidate -/

/-- In a list ordered by an asymmetric relation, the last element with a property is the one above every
other with it. -/
theorem find?_reverse_eq_some_iff {α : Type} {r : α → α → Prop} {p : α → Bool} {l : List α}
    (hr : ∀ {a b}, r a b → ¬ r b a) (hl : l.Pairwise r) {a : α} :
    l.reverse.find? p = some a ↔
      a ∈ l ∧ p a = true ∧ ∀ b ∈ l, p b = true → b ≠ a → r b a := by
  have highest {a : α} (found : l.reverse.find? p = some a) {b : α} (hb : b ∈ l)
      (pb : p b = true) (hne : b ≠ a) : r b a := by
    obtain ⟨-, before, after, parts, fails⟩ := List.find?_eq_some_iff_append.1 found
    have mem : b ∈ before ++ a :: after := parts ▸ List.mem_reverse.2 hb
    have ordered : (before ++ a :: after).Pairwise fun x y => r y x :=
      parts ▸ List.pairwise_reverse.2 hl
    rcases List.mem_append.1 mem with hb | hb
    · exact absurd pb (by simpa using fails b hb)
    · exact List.rel_of_pairwise_cons (List.pairwise_append.1 ordered).2.1
        ((List.mem_cons.1 hb).resolve_left hne)
  constructor
  · intro found
    exact ⟨List.mem_reverse.1 (List.mem_of_find?_eq_some found), List.find?_some found,
      fun b hb pb hne => highest found hb pb hne⟩
  · rintro ⟨ha, pa, above⟩
    cases found : l.reverse.find? p with
    | none => exact absurd pa (List.find?_eq_none.1 found a (List.mem_reverse.2 ha))
    | some b =>
      have hb : b ∈ l := List.mem_reverse.1 (List.mem_of_find?_eq_some found)
      by_contra hne
      have hba : b ≠ a := fun e => hne (congrArg some e)
      exact hr (above b hb (List.find?_some found) hba) (highest found ha pa hba.symm)

theorem candidate_eq_none_iff (n : NumSystem) (power : Vector NUM 10) (ignored : BitVec 10) :
    candidate n power ignored = none ↔ ∀ c : Channel, ignored.getLsbD c.val = true := by
  simp [candidate, isIgnored, List.find?_eq_none, mem_rankChannels]

/-- Settles O40: every channel has a rank, and the candidate is the last not ignored. -/
theorem candidateIsHighestNotIgnored : Obligations.CandidateIsHighestNotIgnored := by
  refine fun n power ignored => ⟨candidate_eq_none_iff n power ignored, fun h c => ?_⟩
  rw [candidate, find?_reverse_eq_some_iff (fun hab => hab.asymm h) (rankChannels_pairwise h)]
  simp [isIgnored, mem_rankChannels]

end Sys2Proof.Machine

/-! SUPPORT. The DECIDE step of a DET_RUN (43_detector.md R231, R235 to R241). -/

namespace Sys2Proof.Machine

/-! ### The gate and the decision -/

theorem gateOpen_iff (s : State) : gateOpen s = true ↔ s.lt.state = .idle ∧ s.iv.state = .idle := by
  simp [gateOpen]

theorem detDecide_of_none {s : State} (hc : candidate s.cfg.num s.fb.power s.det.ignored = none) :
    detDecide s = clearHitFlag (s.raise .allIgnored 0) := by
  rw [detDecide, hitDecision, hc]

/-- The power of channel `c` is at least the median times the fudge factor (43_detector.md R240). -/
def reachesThreshold (c : Channel) (s : State) : Bool :=
  numLe s.cfg.num (numMul s.cfg.num (medianPower s.cfg.num s.fb.power) s.det.fudgeFactor) s.fb.power[c]

theorem detDecide_of_some {s : State} {c : Channel}
    (hc : candidate s.cfg.num s.fb.power s.det.ignored = some c) :
    detDecide s = if reachesThreshold c s then recordHit c s else clearHitFlag s := by
  have hd : hitDecision s.cfg.num s.fb.power s.det.ignored s.det.fudgeFactor =
      if reachesThreshold c s then .hit c else .noHit := by
    rw [hitDecision, hc]
    rfl
  rw [detDecide, hd]
  cases reachesThreshold c s <;> rfl

/-- A counter counts below 2^32 - 1 and stays there (00_scope.md R15 (iii)). -/
theorem saturatingIncrement_eq (k : BitVec 32) :
    saturatingIncrement k = if k.toNat = 2 ^ 32 - 1 then k else k + 1 := by
  have full : k = BitVec.allOnes 32 ↔ k.toNat = 2 ^ 32 - 1 := by
    rw [← BitVec.toNat_inj, BitVec.toNat_allOnes]
  simp only [saturatingIncrement, full]

theorem recordHit_eq (c : Channel) (s : State) : recordHit c s = { s with
    det := { s.det with
      hitDetectedFlag := true
      lastHitFrequency := c
      hitCounts := s.det.hitCounts.set c.val
        (if s.det.hitCounts[c].toNat = 2 ^ 32 - 1 then s.det.hitCounts[c]
          else s.det.hitCounts[c] + 1) }
    lt := { s.lt with startRequested := true }
    notify := s.notify ++ [⟨.hit, BitVec.ofNat 8 c.val⟩] } := by
  rw [← saturatingIncrement_eq]
  rfl

/-! ### The step -/

theorem decideStep_of_gateClosed {s : State} (hg : ¬ (s.lt.state = .idle ∧ s.iv.state = .idle)) :
    decideStep s = { s with seq := { s.seq with phase := nextPhase s } } := by
  rw [decideStep, if_neg fun h => hg ((gateOpen_iff s).1 h)]
  rfl

theorem decideStep_of_gateOpen {s t : State} (hg : s.lt.state = .idle ∧ s.iv.state = .idle)
    (hd : detDecide s = t) : decideStep s = { t with seq := { t.seq with phase := nextPhase t } } := by
  rw [decideStep, if_pos ((gateOpen_iff s).2 hg), hd]
  rfl

theorem foregroundStep_decide {u : State} (hp : u.seq.phase = .decide) :
    foregroundStep u = .done (decideStep u) := by
  rw [foregroundStep, hp]

theorem step_decide {s : State} (hf : foregroundIsNext s) (hp : s.seq.phase = .decide) :
    step s = .next (decideStep { s with schedule := s.schedule.tail }) := by
  rw [step_foreground hf, foregroundStep_decide (u := { s with schedule := s.schedule.tail }) hp]
  rfl

/-- Settles O41: one case for each side of the gate test and for each decision. -/
theorem decideStepResult : Obligations.DecideStepResult := by
  intro s hf hp t sorted cand threshold gate
  rw [step_decide hf hp]
  let u : State := { s with schedule := s.schedule.tail }
  refine ⟨fun hg => congrArg _ (decideStep_of_gateClosed (s := u) hg), fun hg hc => ?allIgnored,
    fun c hg hc hle => ?hit, fun c hg hc hle => ?noHit⟩
  case allIgnored => exact congrArg _ (decideStep_of_gateOpen (s := u) hg (detDecide_of_none hc))
  case hit =>
    have hd : detDecide u = recordHit c u := (detDecide_of_some (s := u) hc).trans (if_pos hle)
    exact congrArg _ (decideStep_of_gateOpen (s := u) hg (hd.trans (recordHit_eq c u)))
  case noHit =>
    have hd : detDecide u = clearHitFlag u :=
      (detDecide_of_some (s := u) hc).trans (if_neg (Bool.eq_false_iff.1 hle))
    exact congrArg _ (decideStep_of_gateOpen (s := u) hg hd)

end Sys2Proof.Machine

/-! SUPPORT. DET_RUN from ENTRY to the end, with no event scheduled (43_detector.md R230, R236). -/

namespace Sys2Proof.Machine

theorem steps_succ {s t : State} (h : step s = .next t) (k : Nat) : steps (k + 1) s = steps k t := by
  rw [steps, h]

/-! ### ENTRY -/

/-- The head of DET_RUN, at the front of CMD, is a whole command. -/
theorem issuedWords_detRun (b : Bool) (v : NUM) :
    issuedWords (encodeHead (.detRun b)) v = [.head (encodeHead (.detRun b))] := by
  cases b <;> rfl

theorem decodeHead_detRun (b : Bool) (v : NUM) :
    decodeHead (encodeHead (.detRun b)) v = .ok (.detRun b) := by
  cases b <;> rfl

theorem step_detRun {s : State} {b : Bool} {rest : List CmdWord} (hf : foregroundIsNext s)
    (hp : s.seq.phase = .idle) (hc : s.cmd = .head (encodeHead (.detRun b)) :: rest) :
    step s = .next (detEntry b { s with cmd := rest, schedule := s.schedule.tail }) := by
  have issued : s.cmd = issuedWords (encodeHead (.detRun b)) noPayload ++ rest := by
    rw [issuedWords_detRun, hc]
    rfl
  rw [step_eq_outcome, nextWork_command hf hp issued (decodeHead_detRun b _)]
  rfl

/-! ### What every step of the run keeps -/

/-- The samples of the run that are not yet counted by the decimation counter: those in the ring, and the
one that a POP step has taken from it. -/
def samplesLeft (s : State) : Nat :=
  s.seq.remaining + if s.seq.phase = .filter then 1 else 0

/-- A DET_RUN with no event scheduled, from its ENTRY to its end: `rest` follows it on CMD, it is the
invocation `count`, and its samples take the decimation counter to `residue`. -/
structure RunAlone (rest : List CmdWord) (count : BitVec 32) (residue : Nat) (s : State) : Prop where
  pending : s.tickPending = false
  schedule : s.schedule = []
  cmd : s.cmd = rest
  invocation : s.det.invocationCount = count
  form : sequencerWf s
  ring : s.sr.count = s.seq.remaining
  counted : (s.det.decimationCounter.val + samplesLeft s) % 10 = residue

theorem samplesLeft_of_filter {s : State} (hp : s.seq.phase = .filter) :
    samplesLeft s = s.seq.remaining + 1 := by rw [samplesLeft, if_pos hp]

theorem samplesLeft_of_not_filter {s : State} (hp : s.seq.phase ≠ .filter) :
    samplesLeft s = s.seq.remaining := by rw [samplesLeft, if_neg hp]; rfl

theorem afterSample_ne_filter (k : Nat) : afterSample k ≠ .filter := by
  unfold afterSample
  split <;> nofun

theorem decideStep_invocationCount (s : State) :
    (decideStep s).det.invocationCount = s.det.invocationCount := by
  unfold decideStep detDecide
  simp only
  split
  · split <;> rfl
  · rfl

section
variable {rest : List CmdWord} {count : BitVec 32} {residue : Nat} {s : State}

theorem detEntry_runAlone (b : Bool) (hf : s.tickPending = false) (hs : s.schedule = []) :
    RunAlone s.cmd (s.det.invocationCount + 1) ((s.det.decimationCounter.val + s.sr.count) % 10)
      (detEntry b s) where
  pending := hf
  schedule := hs
  cmd := rfl
  invocation := rfl
  form := detEntry_sequencerWf b s
  ring := rfl
  counted := by
    rw [samplesLeft_of_not_filter (s := detEntry b s) (afterSample_ne_filter _)]
    rfl

theorem popStep_runAlone (h : RunAlone rest count residue s) (hp : s.seq.phase = .pop) :
    RunAlone rest count residue (popStep s) := by
  obtain ⟨pending, schedule, cmd, invocation, form, ring, counted⟩ := h
  have ⟨_, remainsAtPop, _⟩ := form
  have remains : 1 ≤ s.seq.remaining := remainsAtPop hp
  have left : (popStep s).seq.remaining = s.seq.remaining - 1 := rfl
  have counter : (popStep s).det = s.det := by rw [popStep_frame]
  refine ⟨by rw [popStep_frame, pending], by rw [popStep_frame, schedule],
    by rw [popStep_frame, cmd], by rw [popStep_frame, invocation], popStep_sequencerWf form hp,
    (srPop_count s).trans (by rw [ring, left]), ?_⟩
  rw [samplesLeft_of_not_filter (by simp [hp])] at counted
  rw [samplesLeft_of_filter (s := popStep s) rfl, counter, left, Nat.sub_add_cancel remains, counted]

theorem filterStep_runAlone (h : RunAlone rest count residue s) (hp : s.seq.phase = .filter) :
    RunAlone rest count residue (filterStep s) := by
  obtain ⟨pending, schedule, cmd, invocation, form, ring, counted⟩ := h
  have counts := filterStep_counter s
  have form' := filterStep_sequencerWf form hp
  obtain ⟨q, fb, g, d, p, frame⟩ := filterStep_form s
  generalize filterStep s = t at counts form' frame ⊢
  have left : t.seq.remaining = s.seq.remaining := by rw [frame]
  refine ⟨by rw [frame, pending], by rw [frame, schedule], by rw [frame, cmd],
    by rw [frame, invocation], form', by rw [left, frame, ring], ?_⟩
  rw [samplesLeft_of_filter hp] at counted
  rcases counts with ⟨tenth, seq, counter⟩ | ⟨-, seq, counter⟩
  · rw [samplesLeft_of_not_filter (by rw [seq]; nofun), left, counter]
    omega
  · rw [samplesLeft_of_not_filter (by rw [seq]; exact afterSample_ne_filter _), left, counter]
    omega

theorem decideStep_runAlone (h : RunAlone rest count residue s) (hp : s.seq.phase = .decide) :
    RunAlone rest count residue (decideStep s) := by
  obtain ⟨pending, schedule, cmd, invocation, form, ring, counted⟩ := h
  have seq := decideStep_seq s
  have counter := decideStep_decimationCounter s
  have invocation' := decideStep_invocationCount s
  have form' := decideStep_sequencerWf form hp
  obtain ⟨d, r, g, n, p, frame⟩ := decideStep_form s
  generalize decideStep s = t at seq counter invocation' form' frame ⊢
  have left : t.seq.remaining = s.seq.remaining := by rw [seq]
  refine ⟨by rw [frame, pending], by rw [frame, schedule], by rw [frame, cmd],
    by rw [invocation', invocation], form', by rw [left, frame, ring], ?_⟩
  rw [samplesLeft_of_not_filter (by simp [hp])] at counted
  rw [samplesLeft_of_not_filter (by rw [seq]; exact afterSample_ne_filter _), left, counter, counted]

/-! ### The steps of the run -/

theorem foregroundStep_runAlone {t : State} (h : RunAlone rest count residue s)
    (hp : s.seq.phase ≠ .idle) (ht : (foregroundStep s).outcome = .next t) :
    RunAlone rest count residue t := by
  rw [foregroundStep] at ht
  cases phase : s.seq.phase with
  | idle => exact absurd phase hp
  | pop => rw [phase] at ht; cases ht; exact popStep_runAlone h phase
  | filter => rw [phase] at ht; cases ht; exact filterStep_runAlone h phase
  | decide => rw [phase] at ht; cases ht; exact decideStep_runAlone h phase

/-- A step of the run takes one from the number of steps left. -/
theorem RunAlone.exists_step (h : RunAlone rest count residue s) (hp : s.seq.phase ≠ .idle) :
    ∃ t, step s = .next t ∧ RunAlone rest count residue t ∧
      runStepsLeft t + 1 = runStepsLeft s := by
  obtain ⟨t, ht, left, -⟩ := foregroundStep_countsDown h.form hp
  have same : s.schedule.tail = s.schedule := by rw [h.schedule]; rfl
  refine ⟨t, ?_, foregroundStep_runAlone h hp ht, left⟩
  rw [step_foreground ⟨h.pending, .inl h.schedule⟩, same]
  exact ht

theorem RunAlone.exists_steps {k : Nat} : ∀ {s : State}, RunAlone rest count residue s →
    k ≤ runStepsLeft s →
    ∃ t, steps k s = .next t ∧ RunAlone rest count residue t ∧
      runStepsLeft t + k = runStepsLeft s := by
  induction k with
  | zero => exact fun {s} h _ => ⟨s, rfl, h, rfl⟩
  | succ k ih =>
    intro s h hk
    have running : s.seq.phase ≠ .idle := fun e => by
      rw [(runStepsLeft_eq_zero_iff h.form).2 e] at hk
      omega
    obtain ⟨u, hu, alone, left⟩ := h.exists_step running
    obtain ⟨t, ht, alone', left'⟩ := ih alone (by omega)
    exact ⟨t, (steps_succ hu k).trans ht, alone', by omega⟩

/-- With no step left the run is over: the ring is empty and every sample is counted. -/
theorem RunAlone.finished (h : RunAlone rest count residue s) (hs : runStepsLeft s = 0) :
    s.seq.phase = .idle ∧ s.sr.count = 0 ∧ s.det.decimationCounter.val = residue := by
  have idle := (runStepsLeft_eq_zero_iff h.form).1 hs
  obtain ⟨emptyWhenIdle, -, -⟩ := h.form
  have drained : s.seq.remaining = 0 := emptyWhenIdle idle
  have counted := h.counted
  rw [samplesLeft_of_not_filter (by simp [idle]), drained, Nat.add_zero,
    Nat.mod_eq_of_lt s.det.decimationCounter.isLt] at counted
  exact ⟨idle, h.ring.trans drained, counted⟩

end

/-- Settles O44: after ENTRY the run has as many steps left as its samples and the decisions among them
take, each step takes one of them, and none is left exactly when it is over. -/
theorem detRunCompletes : Obligations.DetRunCompletes := by
  intro s b rest hpend hs hp hc n d total
  have entry := step_detRun ⟨hpend, .inl hs⟩ hp hc
  have start := detEntry_runAlone (s := { s with cmd := rest, schedule := s.schedule.tail }) b hpend
    (by rw [hs]; rfl)
  have length : runStepsLeft (detEntry b { s with cmd := rest, schedule := s.schedule.tail }) =
      2 * n + (d + n) / 10 := runStepsLeft_detEntry ..
  generalize detEntry b { s with cmd := rest, schedule := s.schedule.tail } = u at entry start length
  have whole : total = runStepsLeft u + 1 := by omega
  have after {k : Nat} (hk : k ≤ runStepsLeft u) : ∃ t, steps (k + 1) s = .next t ∧
      RunAlone rest (s.det.invocationCount + 1) ((d + n) % 10) t ∧
      runStepsLeft t + k = runStepsLeft u := by
    rw [steps_succ entry]
    exact start.exists_steps hk
  rw [whole]
  constructor
  · obtain ⟨t, ht, alone, left⟩ := after le_rfl
    obtain ⟨idle, drained, counter⟩ := alone.finished (by omega)
    exact ⟨t, ht, idle, alone.cmd, drained, alone.invocation, counter⟩
  · intro k hk hlt
    obtain ⟨j, rfl⟩ := Nat.exists_eq_add_of_le' hk
    obtain ⟨t, ht, alone, left⟩ := after (k := j) (by omega)
    refine ⟨t, ht, fun idle => ?_⟩
    rw [(runStepsLeft_eq_zero_iff alone.form).2 idle] at left
    omega

end Sys2Proof.Machine

/-! SUPPORT. A TICK before a FILTER step and after it: each reads and writes a part of the state that the
other leaves alone (43_detector.md R234; 20_memory.md R82). -/

namespace Sys2Proof.Machine

/-! ### What a FILTER step reads and writes -/

/-- `r` with what a FILTER step reads and writes taken from `s`. -/
def State.embedFilter (r s : State) : State :=
  { r.embed s with
    seq := s.seq
    det := { r.det with decimationCounter := s.det.decimationCounter } }

theorem filterStep_embedFilter (r s : State) :
    filterStep (r.embedFilter s) = r.embedFilter (filterStep s) := by
  by_cases hd : s.det.decimationCounter = 9
  · have accepted : fbAccept (r.embedFilter s).seq.sample (r.embedFilter s) =
        (r.embedFilter s).embed (fbAccept s.seq.sample s) := fbAccept_embed (r.embedFilter s) s _
    have windowed : fbWindow (fbAccept (r.embedFilter s).seq.sample (r.embedFilter s)) =
        (r.embedFilter s).embed (fbWindow (fbAccept s.seq.sample s)) := by
      rw [accepted, fbWindow_embed]
    rw [filterStep_window hd, filterStep_window (s := r.embedFilter s) hd, windowed]
    generalize fbWindow (fbAccept s.seq.sample s) = bank
    rfl
  · have hlt : s.det.decimationCounter.val < 9 := by
      have := s.det.decimationCounter.isLt
      have : s.det.decimationCounter.val ≠ 9 := fun e => hd (Fin.ext e)
      omega
    rw [filterStep_accept hlt, filterStep_accept (s := r.embedFilter s) hlt]
    rfl

/-! ### What a TICK reads and writes -/

/-- `r` with what a TICK reads and writes, where the push is specified, taken from `s`. -/
def State.embedTick (r s : State) : State :=
  { r with
    cfg := s.cfg, sr := s.sr, lt := s.lt, iv := s.iv, tr := s.tr, tx := s.tx
    trigIn := s.trigIn, notify := s.notify
    det := { r.det with ignored := s.det.ignored, savedIgnored := s.det.savedIgnored } }

/-- IV_tick reads and writes only the InvincibilityTimer and the ignore sets. -/
theorem ivTick_congr {s t : State} (hiv : t.iv = s.iv) (hi : t.det.ignored = s.det.ignored)
    (hs : t.det.savedIgnored = s.det.savedIgnored) :
    (ivTick t).iv = (ivTick s).iv ∧ (ivTick t).det.ignored = (ivTick s).det.ignored := by
  simp only [ivTick, ivTransition, hiv]
  cases s.iv.state with
  | idle =>
    simp only
    split
    · exact ⟨rfl, rfl⟩
    · exact ⟨by rw [hiv], hi⟩
  | active =>
    simp only
    split
    · exact ⟨rfl, hs⟩
    · exact ⟨by rw [hiv], hi⟩

theorem takeTick_of_protected {s : State} (h : s.seq.irqEn = true) (adc : AdcCode) : takeTick adc s =
    { s with
      sr := (srPush adc s).sr
      lt := (ltTick s).lt
      iv := (ivTick s).iv
      tr := (trTick s).tr
      tx := (txTick (trTick s)).tx
      notify := (trTick s).notify
      det := { s.det with ignored := (ivTick s).det.ignored } } := by
  have hp : unprotectedRun s = false := by simp [unprotectedRun, h]
  rw [takeTick_frame, tickPush_protected hp]
  rfl

theorem takeTick_embedTick {r s : State} (hr : r.seq.irqEn = true) (hs : s.seq.irqEn = true)
    (adc : AdcCode) : takeTick adc (r.embedTick s) = r.embedTick (takeTick adc s) := by
  have htr : trTick (r.embedTick s) = (r.embedTick s).embedTrigger (trTick s) :=
    trTick_embed (r.embedTick s) s
  obtain ⟨hiv, hign⟩ := ivTick_congr (s := s) (t := r.embedTick s) rfl rfl rfl
  rw [takeTick_of_protected (s := r.embedTick s) hr, takeTick_of_protected hs, htr, hiv, hign]
  rfl

/-! ### The two orders -/

theorem filterStep_cfg (s : State) : (filterStep s).cfg = s.cfg := by
  obtain ⟨q, fb, g, d, p, e⟩ := filterStep_form s
  rw [e]

theorem filterStep_irqEn (s : State) : (filterStep s).seq.irqEn = s.seq.irqEn := by
  rcases filterStep_seq s with e | e <;> rw [e]

theorem takeTick_cfg (adc : AdcCode) (s : State) : (takeTick adc s).cfg = s.cfg := by
  rw [takeTick_frame]

/-- What a TICK writes and what a FILTER step writes are disjoint parts of the state. -/
theorem embedTick_embedFilter {f t : State} (hc : f.cfg = t.cfg) (r : State) :
    (r.embedTick t).embedFilter f = (r.embedFilter f).embedTick t := by
  simp only [State.embedTick, State.embedFilter, State.embed, hc]

/-- `x` is the schedule at the TICK, `y` that at the FILTER step after it. -/
theorem filterStep_takeTick {s : State} (h : s.seq.irqEn = true) (adc : AdcCode) (x y : List Event) :
    filterStep { takeTick adc { s with schedule := x } with schedule := y } =
      (State.embedTick { s with schedule := y } (takeTick adc s)).embedFilter (filterStep s) := by
  have hc := takeTick_cfg adc s
  have ticked : takeTick adc { s with schedule := x } =
      State.embedTick { s with schedule := x } (takeTick adc s) :=
    takeTick_embedTick (r := { s with schedule := x }) h h adc
  rw [ticked, ← filterStep_embedFilter]
  congr 1
  generalize takeTick adc s = t at hc
  simp only [State.embedTick, State.embedFilter, State.embed, hc]

/-- `x` is the schedule at the FILTER step, `y` that at the TICK after it. -/
theorem takeTick_filterStep {s : State} (h : s.seq.irqEn = true) (adc : AdcCode) (x y : List Event) :
    takeTick adc { filterStep { s with schedule := x } with schedule := y } =
      (State.embedFilter { s with schedule := y } (filterStep s)).embedTick (takeTick adc s) := by
  have hc := filterStep_cfg s
  have filtered : filterStep { s with schedule := x } =
      State.embedFilter { s with schedule := x } (filterStep s) :=
    filterStep_embedFilter { s with schedule := x } s
  have he : (State.embedFilter { s with schedule := y } (filterStep s)).seq.irqEn = true :=
    (filterStep_irqEn s).trans h
  rw [filtered, ← takeTick_embedTick he h]
  congr 1
  generalize filterStep s = t at hc
  simp only [State.embedTick, State.embedFilter, State.embed, hc]

theorem steps_tick_filter {s : State} {w : TickWord} (ht : s.tickPending = false)
    (hp : s.seq.phase = .filter) : steps 2 { s with schedule := [.tick w, .foreground] } =
      .next (filterStep { takeTick (w.extractLsb' 0 12) { s with schedule := [.foreground] } with
        schedule := [] }) := by
  have first : step { s with schedule := [.tick w, .foreground] } =
      .next (takeTick (w.extractLsb' 0 12) { s with schedule := [.foreground] }) := step_tick ht rfl
  have frame := takeTick_frame (w.extractLsb' 0 12) { s with schedule := [.foreground] }
  generalize takeTick (w.extractLsb' 0 12) { s with schedule := [.foreground] } = t at first frame ⊢
  have hs : t.schedule = [.foreground] := by rw [frame]
  have hf : foregroundIsNext t := ⟨by rw [frame]; exact ht, .inr ⟨[], hs⟩⟩
  rw [steps_succ first, steps_succ (step_filter hf (by rw [frame]; exact hp)), hs]
  rfl

theorem steps_filter_tick {s : State} {w : TickWord} (ht : s.tickPending = false)
    (hp : s.seq.phase = .filter) : steps 2 { s with schedule := [.foreground, .tick w] } =
      .next (takeTick (w.extractLsb' 0 12) { filterStep { s with schedule := [.tick w] } with
        schedule := [] }) := by
  have first : step { s with schedule := [.foreground, .tick w] } =
      .next (filterStep { s with schedule := [.tick w] }) := step_filter ⟨ht, .inr ⟨_, rfl⟩⟩ hp
  obtain ⟨q, fb, g, d, p, form⟩ := filterStep_form { s with schedule := [.tick w] }
  generalize filterStep { s with schedule := [.tick w] } = t at first form ⊢
  have second : step t = .next (takeTick (w.extractLsb' 0 12) { t with schedule := [] }) :=
    step_tick (by rw [form]; exact ht) (by rw [form])
  rw [steps_succ first, steps_succ second]
  rfl

/-- Settles O48: the parts that the two write are disjoint, and each is the same in both orders. -/
theorem tickCommutesWithFilter : Obligations.TickCommutesWithFilter := by
  intro s w ht hp he
  rw [steps_tick_filter ht hp, steps_filter_tick ht hp]
  refine ⟨⟨_, rfl⟩, ?_⟩
  rw [filterStep_takeTick he, takeTick_filterStep he,
    embedTick_embedFilter ((filterStep_cfg s).trans (takeTick_cfg _ s).symm)]

end Sys2Proof.Machine

/-! SUPPORT. A TICK: the five procedures in order, and what it makes of each component it writes
(44_timers.md R320). -/

namespace Sys2Proof.Machine

theorem exec_tick (adc : AdcCode) (s : State) : exec (.tick adc) s = .next (takeTick adc s) := rfl

/-- Settles O46: outside an unprotected run the producer side of the TICK is SR_PUSH. -/
theorem tickResult : Obligations.TickResult := by
  intro adc s hp
  have inOrder : execAll [.srPush adc, .ltTick, .ivTick, .trTick, .txTick] s =
      .next (txTick (trTick (ivTick (ltTick (srPush adc s))))) := rfl
  refine ⟨⟨_, exec_tick adc s⟩, ?_⟩
  rw [exec_tick, inOrder, takeTick, tickPush_protected hp]

variable (adc : AdcCode) (s : State)

@[simp] theorem takeTick_lt : (takeTick adc s).lt = (ltTick s).lt := by rw [takeTick_frame]
@[simp] theorem takeTick_iv : (takeTick adc s).iv = (ivTick s).iv := by rw [takeTick_frame]
@[simp] theorem takeTick_ignored : (takeTick adc s).det.ignored = (ivTick s).det.ignored := by
  rw [takeTick_frame]
@[simp] theorem takeTick_savedIgnored :
    (takeTick adc s).det.savedIgnored = s.det.savedIgnored := by rw [takeTick_frame]
@[simp] theorem takeTick_tr : (takeTick adc s).tr = (trTick s).tr := by rw [takeTick_frame]
@[simp] theorem takeTick_notify : (takeTick adc s).notify = (trTick s).notify := by
  rw [takeTick_frame]
@[simp] theorem takeTick_trigIn : (takeTick adc s).trigIn = s.trigIn := by rw [takeTick_frame]
@[simp] theorem takeTick_tx : (takeTick adc s).tx = transmitterTick s.cfg (trTick s).tx := by
  rw [takeTick_frame, txTick_tx, trTick_frame]

end Sys2Proof.Machine

/-! SUPPORT. LockoutTimer (44_timers.md R261 to R264). -/

namespace Sys2Proof.Machine

section
variable {s : State}

theorem ltTick_of_idle (hs : s.lt.state = .idle) (hr : s.lt.startRequested = false) :
    ltTick s = s := by
  have same : s.lt = ⟨.idle, s.lt.elapsedTicks, false⟩ := by rw [← hs, ← hr]
  rw [ltTick, same]
  simp only [reduceCtorEq, if_false, Bool.false_eq_true]
  rw [← same]

theorem ltTick_of_requested (hs : s.lt.state = .idle) (hr : s.lt.startRequested = true) :
    ltTick s = { s with lt := ⟨.active, 1, false⟩ } := by
  simp [ltTick, hs, hr]

theorem ltTick_of_elapsed (hs : s.lt.state = .active)
    (he : s.cfg.lockoutTicks ≤ s.lt.elapsedTicks.toNat) :
    ltTick s = { s with lt := ⟨.idle, s.lt.elapsedTicks, false⟩ } := by
  simp [ltTick, hs, he]

theorem ltTick_of_active (hs : s.lt.state = .active)
    (he : s.lt.elapsedTicks.toNat < s.cfg.lockoutTicks) :
    ltTick s = { s with lt := ⟨.active, s.lt.elapsedTicks + 1, false⟩ } := by
  simp [ltTick, hs, Nat.not_le.mpr he]

end

theorem exec_ltTick (s : State) : exec .ltTick s = .next (ltTick s) := rfl

/-- A flag is answered as 1 or 0 (30_encoding.md R104). -/
theorem flagBeat_beq {α : Type} [BEq α] [LawfulBEq α] [DecidableEq α] (a b : α) :
    flagBeat (a == b) = .int (if a = b then 1 else 0) := by
  by_cases h : a = b <;> simp [flagBeat, h]

/-- Settles O49: LT_TICK by state, request and elapsed ticks. -/
theorem lockoutCommands : Obligations.LockoutCommands := by
  refine fun s => ⟨rfl, rfl, ?running, fun hs hr => ?idle, fun hs hr => ?requested,
    fun hs he => ?elapsed, fun hs he => ?active⟩
  case running => rw [← flagBeat_beq]; rfl
  case idle => rw [exec_ltTick, ltTick_of_idle hs hr]
  case requested => rw [exec_ltTick, ltTick_of_requested hs hr]
  case elapsed => rw [exec_ltTick, ltTick_of_elapsed hs he]
  case active => rw [exec_ltTick, ltTick_of_active hs he]

end Sys2Proof.Machine

/-! SUPPORT. InvincibilityTimer (44_timers.md R270 to R273). -/

namespace Sys2Proof.Machine

section
variable {s : State}

/-- Without a request, and with a duration of 0, the machine stays in IDLE. -/
theorem ivTick_of_idle (hs : s.iv.state = .idle)
    (hr : s.iv.startRequested = false ∨ s.iv.durationTicks = 0) :
    ivTick s = { s with iv := { s.iv with startRequested := false } } := by
  have stays : ¬ (s.iv.startRequested = true ∧ 1 ≤ s.iv.durationTicks.toNat) := by
    rcases hr with hr | hr <;> simp [hr]
  have waits : ivTransition s = s := by simp only [ivTransition, hs, if_neg stays]
  rw [ivTick, waits]
  simp [ivAction, hs]

theorem ivTick_of_requested (hs : s.iv.state = .idle) (hr : s.iv.startRequested = true)
    (hd : s.iv.durationTicks ≠ 0) : ivTick s = { s with
      iv := ⟨.active, 1, false, s.iv.durationTicks⟩
      det := { s.det with ignored := 0x3FF } } := by
  have positive : 1 ≤ s.iv.durationTicks.toNat :=
    Nat.one_le_iff_ne_zero.mpr fun h => hd (BitVec.eq_of_toNat_eq h)
  simp [ivTick, ivTransition, ivAction, detIgnoreAll, hs, hr, positive]

theorem ivTick_of_elapsed (hs : s.iv.state = .active)
    (he : s.iv.durationTicks ≤ s.iv.elapsedTicks) : ivTick s = { s with
      iv := ⟨.idle, s.iv.elapsedTicks, false, s.iv.durationTicks⟩
      det := { s.det with ignored := s.det.savedIgnored } } := by
  simp [ivTick, ivTransition, ivAction, detIgnoreAll, hs, BitVec.le_def.mp he]

theorem ivTick_of_active (hs : s.iv.state = .active)
    (he : s.iv.elapsedTicks < s.iv.durationTicks) : ivTick s = { s with
      iv := ⟨.active, s.iv.elapsedTicks + 1, false, s.iv.durationTicks⟩ } := by
  have counting : ivTransition s = s := by
    simp [ivTransition, hs, Nat.not_le.mpr (BitVec.lt_def.mp he)]
  rw [ivTick, counting]
  simp [ivAction, hs]

end

theorem exec_ivTick (s : State) : exec .ivTick s = .next (ivTick s) := rfl

/-- Settles O50: IV_TICK by state, request, duration and elapsed ticks. -/
theorem invincibilityCommands : Obligations.InvincibilityCommands := by
  refine fun s => ⟨rfl, ?running, fun u => rfl, fun hs hr => ?idle, fun hs hr hd => ?requested,
    fun hs he => ?elapsed, fun hs he => ?active⟩
  case running => rw [← flagBeat_beq]; rfl
  case idle => rw [exec_ivTick, ivTick_of_idle hs hr]
  case requested => rw [exec_ivTick, ivTick_of_requested hs hr hd]
  case elapsed => rw [exec_ivTick, ivTick_of_elapsed hs he]
  case active => rw [exec_ivTick, ivTick_of_active hs he]

end Sys2Proof.Machine

/-! SUPPORT. Trigger (44_timers.md R280 to R290). -/

namespace Sys2Proof.Machine

theorem triggerPressed_eq_true {s : State} (h : s.trigIn = true ∧ s.tr.ignoreInput = false) :
    triggerPressed s = true := by
  simp [triggerPressed, h]

theorem triggerPressed_eq_false {s : State} (h : ¬ (s.trigIn = true ∧ s.tr.ignoreInput = false)) :
    triggerPressed s = false := by
  simpa [triggerPressed] using h

theorem trTick_of_disabled {s : State} (he : s.tr.enabled = false) : trTick s = s := by
  simp [trTick, he]

section
variable {s : State} (he : s.tr.enabled = true)
include he

theorem trTick_of_idle (hs : s.tr.state = .idle) (hp : triggerPressed s = false) :
    trTick s = { s with tr := { s.tr with startRequested := false } } := by
  simp [trTick, trTransition, trAction, he, hs, hp]

theorem trTick_of_pressed (hs : s.tr.state = .idle) (hp : triggerPressed s = true) :
    trTick s = { s with tr := { s.tr with
      startRequested := false, state := .pressDebounce, elapsedTicks := 1 } } := by
  simp [trTick, trTransition, trAction, he, hs, hp]

theorem trTick_of_bounce (hs : s.tr.state = .pressDebounce) (hp : triggerPressed s = false) :
    trTick s = { s with tr := { s.tr with startRequested := false, state := .idle } } := by
  simp [trTick, trTransition, trAction, he, hs, hp]

theorem trTick_of_settling (hs : s.tr.state = .pressDebounce) (hp : triggerPressed s = true)
    (hd : s.tr.elapsedTicks.toNat < s.cfg.debounceTicks) : trTick s = { s with tr := { s.tr with
      startRequested := false, elapsedTicks := s.tr.elapsedTicks + 1 } } := by
  simp [trTick, trTransition, trAction, he, hs, hp, Nat.not_le.mpr hd]

theorem trTick_of_shot (hs : s.tr.state = .pressDebounce) (hp : triggerPressed s = true)
    (hd : s.cfg.debounceTicks ≤ s.tr.elapsedTicks.toNat) (hn : s.tr.remainingShotCount ≠ 0) :
    trTick s = { s with
      tr := { s.tr with
        startRequested := false
        state := .releaseDebounce
        elapsedTicks := 0
        holdTicks := 1
        remainingShotCount := s.tr.remainingShotCount - 1 }
      tx := { s.tx with startRequested := true } } := by
  have loaded : 0 < s.tr.remainingShotCount.toNat :=
    Nat.pos_of_ne_zero fun h => hn (BitVec.eq_of_toNat_eq h)
  simp [trTick, trTransition, trAction, trFire, he, hs, hp, hd, loaded]

theorem trTick_of_emptyClip (hs : s.tr.state = .pressDebounce) (hp : triggerPressed s = true)
    (hd : s.cfg.debounceTicks ≤ s.tr.elapsedTicks.toNat) (hn : s.tr.remainingShotCount = 0) :
    trTick s = { s with tr := { s.tr with
      startRequested := false, state := .releaseDebounce, elapsedTicks := 0, holdTicks := 1 } } := by
  simp [trTick, trTransition, trAction, trFire, he, hs, hp, hd, hn]

theorem trTick_of_hold (hs : s.tr.state = .releaseDebounce) (hp : triggerPressed s = true)
    (hh : s.tr.holdTicks.toNat < s.cfg.reloadHoldTicks) : trTick s = { s with tr := { s.tr with
      startRequested := false, elapsedTicks := 0, holdTicks := s.tr.holdTicks + 1 } } := by
  simp [trTick, trTransition, trAction, he, hs, hp, Nat.not_le.mpr hh]

theorem trTick_of_reload (hs : s.tr.state = .releaseDebounce) (hp : triggerPressed s = true)
    (hh : s.cfg.reloadHoldTicks ≤ s.tr.holdTicks.toNat) : trTick s = { s with
      tr := { s.tr with
        startRequested := false
        elapsedTicks := 0
        holdTicks := 1
        remainingShotCount := s.cfg.clipSize }
      notify := s.notify ++ [⟨.reload, 0⟩] } := by
  simp [trTick, trTransition, trAction, trReload, State.notifyEvent, he, hs, hp, hh]

theorem trTick_of_releasing (hs : s.tr.state = .releaseDebounce) (hp : triggerPressed s = false)
    (hd : s.tr.elapsedTicks.toNat < s.cfg.debounceTicks) : trTick s = { s with tr := { s.tr with
      startRequested := false, holdTicks := 0, elapsedTicks := s.tr.elapsedTicks + 1 } } := by
  simp [trTick, trTransition, trAction, he, hs, hp, Nat.not_le.mpr hd]

theorem trTick_of_released (hs : s.tr.state = .releaseDebounce) (hp : triggerPressed s = false)
    (hd : s.cfg.debounceTicks ≤ s.tr.elapsedTicks.toNat) : trTick s = { s with tr := { s.tr with
      startRequested := false, state := .idle, holdTicks := 0 } } := by
  simp [trTick, trTransition, trAction, he, hs, hp, hd]

end

theorem exec_trTick (s : State) : exec .trTick s = .next (trTick s) := rfl

/-- Settles O52: TR_TICK by state, believed level and counters. -/
theorem triggerTick : Obligations.TriggerTick := by
  intro s p tr
  have pressed (h : p) : triggerPressed s = true := triggerPressed_eq_true h
  have released (h : ¬ p) : triggerPressed s = false := triggerPressed_eq_false h
  rw [exec_trTick]
  refine ⟨fun he => ?dormant, fun he hs => ⟨fun hp => ?waits, fun hp => ?begins⟩,
    fun he hs => ⟨fun hp => ?bounces, fun hp hd => ?settles, fun hp hd hn => ?fires,
      fun hp hd hn => ?clicks⟩,
    fun he hs => ⟨fun hp hh => ?holds, fun hp hh => ?reloads, fun hp hd => ?releasing,
      fun hp hd => ?released⟩⟩
  case dormant => rw [trTick_of_disabled he]
  case waits => rw [trTick_of_idle he hs (released hp)]
  case begins => rw [trTick_of_pressed he hs (pressed hp)]
  case bounces => rw [trTick_of_bounce he hs (released hp)]
  case settles => rw [trTick_of_settling he hs (pressed hp) hd]
  case fires => rw [trTick_of_shot he hs (pressed hp) hd hn]
  case clicks => rw [trTick_of_emptyClip he hs (pressed hp) hd hn]
  case holds => rw [trTick_of_hold he hs (pressed hp) hh]
  case reloads => rw [trTick_of_reload he hs (pressed hp) hh]
  case releasing => rw [trTick_of_releasing he hs (released hp) hd]
  case released => rw [trTick_of_released he hs (released hp) hd]

/-- Settles O51: each clause is the command's arm; TR_RUNNING answers 0 in IDLE and 1 elsewhere. -/
theorem triggerCommands : Obligations.TriggerCommands := by
  refine fun s => ⟨rfl, rfl, ?running, rfl, rfl, rfl, fun u => rfl, rfl⟩
  case running =>
    have answer : flagBeat (trRunning s) = .int (if s.tr.state = .idle then 0 else 1) := by
      cases h : s.tr.state <;> simp [trRunning, flagBeat, h]
    rw [← answer]
    rfl

end Sys2Proof.Machine

/-! SUPPORT. Transmitter (44_timers.md R300 to R306). -/

namespace Sys2Proof.Machine

section
variable {cfg : Config} {x : Transmitter}

theorem transmitterTick_of_low (hs : x.state = .low) (hr : x.startRequested = false) :
    transmitterTick cfg x = x := by
  have same : x = { x with startRequested := false } := by rw [← hr]
  conv_rhs => rw [same]
  simp [transmitterTick, txTransition, txAction, hs, hr]

theorem transmitterTick_of_requested (hs : x.state = .low) (hr : x.startRequested = true) :
    transmitterTick cfg x = burstStarted x := by
  simp [transmitterTick, txTransition, txAction, beginBurst, burstStarted, hs, hr]

theorem transmitterTick_of_nextBurst (hs : x.state = .transmit) (hb : cfg.burst ≤ x.elapsedTicks)
    (hc : x.continuousMode = true) : transmitterTick cfg x = burstStarted x := by
  simp [transmitterTick, txTransition, txAction, beginBurst, burstStarted, hs, hb, hc]

theorem transmitterTick_of_burstEnd (hs : x.state = .transmit) (hb : cfg.burst ≤ x.elapsedTicks)
    (hc : x.continuousMode = false) :
    transmitterTick cfg x = { x with startRequested := false, state := .low, pin := false } := by
  simp [transmitterTick, txTransition, txAction, hs, hb, hc]

theorem transmitterTick_of_toggle (hs : x.state = .transmit) (hb : x.elapsedTicks < cfg.burst)
    (hh : cfg.halfPeriod x.activeFrequency ≤ x.halfTicks) : transmitterTick cfg x = { x with
      startRequested := false
      pin := !x.pin
      halfTicks := 1
      elapsedTicks := x.elapsedTicks + 1 } := by
  simp [transmitterTick, txTransition, txAction, hs, Nat.not_le.mpr hb, hh]

theorem transmitterTick_of_counting (hs : x.state = .transmit) (hb : x.elapsedTicks < cfg.burst)
    (hh : x.halfTicks < cfg.halfPeriod x.activeFrequency) : transmitterTick cfg x = { x with
      startRequested := false
      halfTicks := x.halfTicks + 1
      elapsedTicks := x.elapsedTicks + 1 } := by
  simp [transmitterTick, txTransition, txAction, hs, Nat.not_le.mpr hb, Nat.not_le.mpr hh]

end

theorem exec_txTick (s : State) :
    exec .txTick s = .next { s with tx := transmitterTick s.cfg s.tx } := rfl

/-- Settles O56: TX_TICK by state, request, mode and counters. -/
theorem transmitterTickResult : Obligations.TransmitterTick := by
  intro s tx newBurst burst half
  rw [exec_txTick]
  refine ⟨fun hs hr => ?low, fun hs hr => ?starts, fun hs hb hc => ?continues,
    fun hs hb hc => ?ends, fun hs hb hh => ?toggles, fun hs hb hh => ?counts⟩
  case low => rw [transmitterTick_of_low hs hr]
  case starts => rw [transmitterTick_of_requested hs hr]; rfl
  case continues => rw [transmitterTick_of_nextBurst hs hb hc]; rfl
  case ends => rw [transmitterTick_of_burstEnd hs hb hc]
  case toggles => rw [transmitterTick_of_toggle hs hb hh]
  case counts => rw [transmitterTick_of_counting hs hb hh]

/-- Settles O55: each clause is the command's arm; the operand of TX_SETFREQ names a channel. -/
theorem transmitterCommands : Obligations.TransmitterCommands := by
  refine fun s => ⟨rfl, rfl, ?running, fun ch h => ?setfreq, rfl, fun b => rfl⟩
  case running => rw [← flagBeat_beq]; rfl
  case setfreq => exact congrArg _ (withOperand_of_eq_some (operandChannel_of_lt h) _ _ _ s)

end Sys2Proof.Machine

/-! SUPPORT. Machines that count TICKs: the first TICK begins the count, TICK `d + 1` ends it. -/

namespace Sys2Proof.Machine

/-! ### Sequences of TICKs -/

/-- The state after a TICK with each of these samples. -/
def afterTicks (adcs : List AdcCode) (s : State) : State := adcs.foldl (fun t adc => takeTick adc t) s

theorem execAll_ticks (adcs : List AdcCode) (s : State) :
    execAll (adcs.map .tick) s = .next (afterTicks adcs s) := by
  induction adcs generalizing s with
  | nil => rfl
  | cons adc adcs ih => exact (execAll_cons (exec_tick adc s) _).trans (ih _)

theorem afterTicks_concat (adcs : List AdcCode) (adc : AdcCode) (s : State) :
    afterTicks (adcs ++ [adc]) s = takeTick adc (afterTicks adcs s) := by
  simp [afterTicks]

theorem afterTicks_append (adcs adcs' : List AdcCode) (s : State) :
    afterTicks (adcs ++ adcs') s = afterTicks adcs' (afterTicks adcs s) := by
  simp [afterTicks]

/-! ### Counting TICKs -/

/-- From `Waiting` the first TICK leads to `Counted 1`, each one below `d` counts on, and the one after
the `d`-th leads to `Finished`. -/
structure CountsTicks (d : Nat) (Waiting : State → Prop) (Counted : Nat → State → Prop)
    (Finished : State → Prop) : Prop where
  positive : 1 ≤ d
  begins : ∀ {s : State} (adc : AdcCode), Waiting s → Counted 1 (takeTick adc s)
  goesOn : ∀ {s : State} {k : Nat} (adc : AdcCode), Counted k s → k < d →
    Counted (k + 1) (takeTick adc s)
  ends : ∀ {s : State} (adc : AdcCode), Counted d s → Finished (takeTick adc s)

namespace CountsTicks

variable {d : Nat} {Waiting : State → Prop} {Counted : Nat → State → Prop} {Finished : State → Prop}

theorem counted (h : CountsTicks d Waiting Counted Finished) {s : State} (hs : Waiting s)
    (adcs : List AdcCode) : 1 ≤ adcs.length → adcs.length ≤ d →
      Counted adcs.length (afterTicks adcs s) := by
  induction adcs using List.reverseRecOn with
  | nil => intro h1; cases h1
  | append_singleton adcs adc ih =>
    intro _ hd
    rw [List.length_append] at hd ⊢
    rw [afterTicks_concat]
    by_cases first : adcs = []
    · subst first; exact h.begins adc hs
    · exact h.goesOn adc (ih (List.length_pos_of_ne_nil first) (Nat.le_of_succ_le hd)) hd

theorem finished (h : CountsTicks d Waiting Counted Finished) {s : State} (hs : Waiting s)
    {adcs : List AdcCode} (hd : adcs.length = d + 1) : Finished (afterTicks adcs s) := by
  obtain ⟨before, adc, rfl⟩ : ∃ before adc, adcs = before ++ [adc] :=
    ⟨_, _, (List.dropLast_append_getLast (List.ne_nil_of_length_eq_add_one hd)).symm⟩
  have hb : before.length = d := by simpa using hd
  have last := h.counted hs before (hb ▸ h.positive) hb.le
  rw [afterTicks_concat]
  exact h.ends adc (hb ▸ last)

/-- A command that leads to `Waiting`, then TICKs. -/
theorem afterCommand (h : CountsTicks d Waiting Counted Finished) {i : Instr} {s u : State}
    (hi : exec i s = .next u) (hu : Waiting u) (adcs : List AdcCode) :
    ∃ t, execAll (i :: adcs.map .tick) s = .next t ∧
      (1 ≤ adcs.length → adcs.length ≤ d → Counted adcs.length t) ∧
      (adcs.length = d + 1 → Finished t) :=
  ⟨_, (execAll_cons hi _).trans (execAll_ticks adcs u), h.counted hu adcs, h.finished hu⟩

end CountsTicks

/-- Counting does not wrap below a bound of 32 bits. -/
theorem toNat_succ_of_lt {x : BitVec 32} {k bound : Nat} (hx : x.toNat = k) (hk : k < bound)
    (hb : bound < 2 ^ 32) : (x + 1).toNat = k + 1 := by
  rw [BitVec.toNat_add_of_lt] <;> simp <;> omega

end Sys2Proof.Machine

/-! SUPPORT. The waveform of a burst, and the lifecycle of the machines of a fixed duration
(44_timers.md R259, R264, R273, R303). -/

namespace Sys2Proof.Machine

/-! ### LockoutTimer -/

/-- `k` of the lockout's TICKs are counted. -/
structure LockoutCounted (cfg : Config) (k : Nat) (t : State) : Prop where
  cfg : t.cfg = cfg
  state : t.lt.state = .active
  elapsed : t.lt.elapsedTicks.toNat = k

theorem lockout_countsTicks (cfg : Config) : CountsTicks cfg.lockoutTicks
    (fun s => s.cfg = cfg ∧ s.lt.state = .idle ∧ s.lt.startRequested = true) (LockoutCounted cfg)
    (fun t => t.lt.state = .idle) where
  positive := cfg.lockoutTicks_range.1
  begins := by
    rintro s adc ⟨hc, hs, hr⟩
    have first := ltTick_of_requested hs hr
    exact ⟨(takeTick_cfg adc s).trans hc, by rw [takeTick_lt, first], by rw [takeTick_lt, first]; rfl⟩
  goesOn := by
    rintro s k adc ⟨rfl, hs, he⟩ hk
    have next := ltTick_of_active hs (he ▸ hk)
    refine ⟨takeTick_cfg adc s, by rw [takeTick_lt, next], ?_⟩
    rw [takeTick_lt, next]
    exact toNat_succ_of_lt he hk s.cfg.lockoutTicks_range.2
  ends := by
    rintro s adc ⟨rfl, hs, he⟩
    rw [takeTick_lt, ltTick_of_elapsed hs he.ge]

/-! ### InvincibilityTimer -/

/-- `k` TICKs of the duration are counted; every channel is ignored, and the saved set waits. -/
structure InvincibilityCounted (duration : BitVec 32) (saved : BitVec 10) (k : Nat) (t : State) :
    Prop where
  state : t.iv.state = .active
  elapsed : t.iv.elapsedTicks.toNat = k
  duration : t.iv.durationTicks = duration
  ignored : t.det.ignored = 0x3FF
  saved : t.det.savedIgnored = saved

theorem invincibility_countsTicks {duration : BitVec 32} (hd : duration ≠ 0) (saved : BitVec 10) :
    CountsTicks duration.toNat
      (fun s => s.iv.state = .idle ∧ s.iv.startRequested = true ∧ s.iv.durationTicks = duration ∧
        s.det.savedIgnored = saved)
      (InvincibilityCounted duration saved)
      (fun t => t.iv.state = .idle ∧ t.det.ignored = saved) where
  positive := Nat.one_le_iff_ne_zero.mpr fun h => hd (BitVec.eq_of_toNat_eq h)
  begins := by
    rintro s adc ⟨hs, hr, rfl, rfl⟩
    have first := ivTick_of_requested hs hr hd
    constructor <;> simp [first]
  goesOn := by
    rintro s k adc ⟨hs, he, rfl, hi, rfl⟩ hk
    have next := ivTick_of_active hs (BitVec.lt_def.mpr (he ▸ hk))
    have counted := toNat_succ_of_lt he hk s.iv.durationTicks.isLt
    constructor <;> simp only [takeTick_iv, takeTick_ignored, takeTick_savedIgnored, next, hi, counted]
  ends := by
    rintro s adc ⟨hs, he, rfl, hi, rfl⟩
    have last := ivTick_of_elapsed hs (BitVec.le_def.mpr he.ge)
    constructor <;> simp [last]

theorem sat32_toNat (x : Nat) : (sat32 x).toNat = min x (2 ^ 32 - 1) := by
  rw [sat32, BitVec.toNat_ofNat, Nat.mod_eq_of_lt]
  omega

/-- A duration of one second or more takes at least one TICK. -/
theorem sat32_duration_ne_zero {u : BitVec 16} (hu : u ≠ 0) (cfg : Config) :
    sat32 (u.toNat * cfg.tickRateHz) ≠ 0 := by
  have seconds : 0 < u.toNat := Nat.pos_of_ne_zero fun h => hu (BitVec.eq_of_toNat_eq h)
  have ticks : 0 < u.toNat * cfg.tickRateHz := Nat.mul_pos seconds cfg.tickRateHz_range
  intro h
  have none : min (u.toNat * cfg.tickRateHz) (2 ^ 32 - 1) = 0 := by rw [← sat32_toNat, h]; rfl
  omega

/-! ### Transmitter -/

/-- TR_tick leaves the Transmitter alone or sets its request. -/
theorem trTick_tx_cases (s : State) :
    (trTick s).tx = s.tx ∨ (trTick s).tx = { s.tx with startRequested := true } := by
  unfold trTick trTransition
  split
  · cases hs : s.tr.state with
    | idle => simp only; split <;> exact .inl rfl
    | pressDebounce =>
      simp only [trFire]
      split
      · exact .inl rfl
      · split
        · split
          · exact .inr rfl
          · exact .inl rfl
        · exact .inl rfl
    | releaseDebounce => simp only; split <;> split <;> exact .inl rfl
  · exact .inl rfl

/-- A TICK is a TX_tick of the Transmitter, with the request that it has or gets from the Trigger. -/
theorem takeTick_tx_cases (adc : AdcCode) (s : State) : ∃ r,
    (s.tx.startRequested = true → r = true) ∧
    (takeTick adc s).tx = transmitterTick s.cfg { s.tx with startRequested := r } := by
  rw [takeTick_tx]
  rcases trTick_tx_cases s with e | e <;> rw [e]
  · exact ⟨_, id, rfl⟩
  · exact ⟨true, fun _ => rfl, rfl⟩

/-- TICK `k` of a burst at the frequency `f`: the pin is high in the half periods of even number, and
`halfTicks` is the place of the TICK in its half period (44_timers.md R303). -/
structure BurstPhase (cfg : Config) (f : Channel) (continuous : Bool) (k : Nat) (x : Transmitter) :
    Prop where
  positive : 1 ≤ k
  state : x.state = .transmit
  elapsed : x.elapsedTicks = k
  half : x.halfTicks = (k - 1) % cfg.halfPeriod f + 1
  frequency : x.activeFrequency = f
  mode : x.continuousMode = continuous
  pin : x.pin = decide ((k - 1) / cfg.halfPeriod f % 2 = 0)

namespace BurstPhase

variable {cfg : Config} {f : Channel} {continuous : Bool} {k : Nat} {x : Transmitter}

theorem started (cfg : Config) (x : Transmitter) :
    BurstPhase cfg x.frequencyNumber x.continuousMode 1 (burstStarted x) := by
  constructor <;> simp [burstStarted]

/-- The request is not part of the phase. -/
theorem withRequest (h : BurstPhase cfg f continuous k x) (r : Bool) :
    BurstPhase cfg f continuous k { x with startRequested := r } :=
  ⟨h.positive, h.state, h.elapsed, h.half, h.frequency, h.mode, h.pin⟩

/-- Before the end of the burst a TX_tick leads to the next TICK of it: with a half period completed
the pin toggles. -/
theorem next (h : BurstPhase cfg f continuous k x) (hk : k < cfg.burst) :
    BurstPhase cfg f continuous (k + 1) (transmitterTick cfg x) := by
  obtain ⟨hpos, hs, rfl, hh, rfl, rfl, hp⟩ := h
  obtain ⟨j, hj⟩ := Nat.exists_eq_add_of_le' hpos
  rw [hj, Nat.add_sub_cancel] at hh hp
  have hH := Config.halfPeriod_pos cfg x.activeFrequency
  have split := Nat.mod_add_div j (cfg.halfPeriod x.activeFrequency)
  have inPeriod := Nat.mod_lt j hH
  by_cases toggles : cfg.halfPeriod x.activeFrequency ≤ x.halfTicks
  · obtain ⟨quotient, rest⟩ := (Nat.div_mod_unique (a := j + 1) (c := 0)
      (d := j / cfg.halfPeriod x.activeFrequency + 1) hH).mpr
      ⟨by rw [Nat.mul_add, Nat.mul_one]; omega, hH⟩
    rw [transmitterTick_of_toggle hs hk toggles]
    refine ⟨Nat.le_add_left _ _, hs, rfl, ?_, rfl, rfl, ?_⟩
    · rw [Nat.add_sub_cancel, hj, rest]
    · rw [Nat.add_sub_cancel, hj, quotient, hp, ← decide_not, decide_eq_decide]
      omega
  · obtain ⟨quotient, rest⟩ := (Nat.div_mod_unique (a := j + 1)
      (c := j % cfg.halfPeriod x.activeFrequency + 1)
      (d := j / cfg.halfPeriod x.activeFrequency) hH).mpr ⟨by omega, by omega⟩
    rw [transmitterTick_of_counting hs hk (Nat.not_le.mp toggles)]
    refine ⟨Nat.le_add_left _ _, hs, rfl, ?_, rfl, rfl, ?_⟩
    · rw [Nat.add_sub_cancel, hj, rest, hh]
    · rw [Nat.add_sub_cancel, hj, quotient, hp]

end BurstPhase

theorem burst_countsTicks (cfg : Config) (f : Channel) (continuous : Bool) :
    CountsTicks cfg.burst
      (fun s => s.cfg = cfg ∧ s.tx.state = .low ∧ s.tx.startRequested = true ∧
        s.tx.frequencyNumber = f ∧ s.tx.continuousMode = continuous)
      (fun k t => t.cfg = cfg ∧ BurstPhase cfg f continuous k t.tx)
      (fun t => continuous = false → t.tx.state = .low ∧ t.tx.pin = false) where
  positive := Config.burst_pos cfg
  begins := by
    rintro s adc ⟨rfl, hs, hr, rfl, rfl⟩
    obtain ⟨r, kept, tick⟩ := takeTick_tx_cases adc s
    refine ⟨takeTick_cfg adc s, ?_⟩
    rw [tick, transmitterTick_of_requested (x := { s.tx with startRequested := r }) hs (kept hr)]
    exact .started s.cfg { s.tx with startRequested := r }
  goesOn := by
    rintro s k adc ⟨rfl, phase⟩ hk
    obtain ⟨r, -, tick⟩ := takeTick_tx_cases adc s
    refine ⟨takeTick_cfg adc s, ?_⟩
    rw [tick]
    exact (phase.withRequest r).next hk
  ends := by
    rintro s adc ⟨rfl, phase⟩ hc
    obtain ⟨r, -, tick⟩ := takeTick_tx_cases adc s
    rw [tick, transmitterTick_of_burstEnd (x := { s.tx with startRequested := r }) phase.state
      phase.elapsed.ge (phase.mode.trans hc)]
    exact ⟨rfl, rfl⟩

/-! ### Lifecycle and waveform -/

/-- Settles O57: each of the three machines counts its TICKs from the START. -/
theorem timerLifecycle : Obligations.TimerLifecycle := by
  refine fun s adcs => ⟨fun hs => ?lockout, fun u hs hu => ?invincibility, fun hs hc => ?transmitter⟩
  case lockout =>
    obtain ⟨t, run, during, after⟩ := (lockout_countsTicks s.cfg).afterCommand (i := .ltStart)
      (s := s) rfl ⟨rfl, hs, rfl⟩ adcs
    exact ⟨t, run, fun h1 hd => (during h1 hd).state, after⟩
  case invincibility =>
    have counts := invincibility_countsTicks (sat32_duration_ne_zero hu s.cfg) s.det.savedIgnored
    rw [sat32_toNat] at counts
    obtain ⟨t, run, during, after⟩ := counts.afterCommand (i := .ivStart u) (s := s) rfl
      ⟨hs, rfl, rfl, rfl⟩ adcs
    exact ⟨t, run, fun h1 hd => ⟨(during h1 hd).state, (during h1 hd).ignored⟩, after⟩
  case transmitter =>
    obtain ⟨t, run, during, after⟩ := (burst_countsTicks s.cfg s.tx.frequencyNumber
      s.tx.continuousMode).afterCommand (i := .txStart) (s := s) rfl ⟨rfl, hs, rfl, rfl, rfl⟩ adcs
    exact ⟨t, run, fun h1 hd => (during h1 hd).2.state, fun hd => after hd hc⟩

/-- Settles O58: the level of the pin is part of the phase of the burst. -/
theorem burstWaveform : Obligations.BurstWaveform := by
  intro s adcs hs h1 hd
  obtain ⟨t, run, during, -⟩ := (burst_countsTicks s.cfg s.tx.frequencyNumber
    s.tx.continuousMode).afterCommand (i := .txStart) (s := s) rfl ⟨rfl, hs, rfl, rfl, rfl⟩ adcs
  obtain ⟨-, phase⟩ := during h1 hd
  refine ⟨t, run, ?_⟩
  rw [phase.pin, decide_eq_true_iff]

end Sys2Proof.Machine

/-! SUPPORT. A press of the trigger that is held: the debounce, the shot, the reload (44_timers.md R283 to
R285, R320). -/

namespace Sys2Proof.Machine

/-! ### What a TR_tick never writes -/

theorem trFire_settings (s : State) : (trFire s).tr.enabled = s.tr.enabled ∧
    (trFire s).tr.ignoreInput = s.tr.ignoreInput := by
  unfold trFire; split <;> exact ⟨rfl, rfl⟩

theorem trTransition_settings (p : Bool) (s : State) :
    (trTransition p s).tr.enabled = s.tr.enabled ∧
    (trTransition p s).tr.ignoreInput = s.tr.ignoreInput := by
  unfold trTransition
  cases s.tr.state with
  | idle => cases p <;> exact ⟨rfl, rfl⟩
  | pressDebounce =>
    simp only
    split
    · exact ⟨rfl, rfl⟩
    · split
      · exact trFire_settings _
      · exact ⟨rfl, rfl⟩
  | releaseDebounce => simp only; split <;> split <;> exact ⟨rfl, rfl⟩

theorem trAction_settings (p : Bool) (x : Trigger) : (trAction p x).enabled = x.enabled ∧
    (trAction p x).ignoreInput = x.ignoreInput := by
  cases hs : x.state <;> cases p <;> simp [trAction, hs]

/-- TR_tick writes neither the enable nor the input latch. -/
theorem trTick_settings (s : State) : (trTick s).tr.enabled = s.tr.enabled ∧
    (trTick s).tr.ignoreInput = s.tr.ignoreInput := by
  unfold trTick
  split
  · obtain ⟨enabled, latch⟩ := trTransition_settings (triggerPressed s) s
    obtain ⟨enabled', latch'⟩ :=
      trAction_settings (triggerPressed s) (trTransition (triggerPressed s) s).tr
    exact ⟨enabled'.trans enabled, latch'.trans latch⟩
  · exact ⟨rfl, rfl⟩

/-- The Trigger is enabled and reads its input as pressed. -/
structure TriggerHeld (cfg : Config) (t : State) : Prop where
  cfg : t.cfg = cfg
  enabled : t.tr.enabled = true
  pressed : triggerPressed t = true

theorem TriggerHeld.tick {config : Config} {t : State} (h : TriggerHeld config t) (adc : AdcCode) :
    TriggerHeld config (takeTick adc t) := by
  obtain ⟨enabled, latch⟩ := trTick_settings t
  refine ⟨(takeTick_cfg adc t).trans h.cfg, ?_, ?_⟩
  · rw [takeTick_tr, enabled, h.enabled]
  · rw [← h.pressed, triggerPressed, triggerPressed, takeTick_trigIn, takeTick_tr, latch]

/-! ### The debounce of the press, and the shot -/

/-- A press that settles, with a shot in the clip or without one, leads to RELEASE_DEBOUNCE and begins
the hold. -/
theorem trTick_of_settled {s : State} (he : s.tr.enabled = true) (hs : s.tr.state = .pressDebounce)
    (hp : triggerPressed s = true) (hd : s.cfg.debounceTicks ≤ s.tr.elapsedTicks.toNat) :
    (trTick s).tr.state = .releaseDebounce ∧ (trTick s).tr.holdTicks = 1 ∧
    (trTick s).notify = s.notify := by
  by_cases empty : s.tr.remainingShotCount = 0
  · rw [trTick_of_emptyClip he hs hp hd empty]; exact ⟨rfl, rfl, rfl⟩
  · rw [trTick_of_shot he hs hp hd empty]; exact ⟨rfl, rfl, rfl⟩

/-- After `k` TICKs of a press that began in the state `s`. -/
structure PressCounted (s : State) (k : Nat) (t : State) : Prop where
  held : TriggerHeld s.cfg t
  state : t.tr.state = .pressDebounce
  elapsed : t.tr.elapsedTicks.toNat = k
  shots : t.tr.remainingShotCount = s.tr.remainingShotCount
  notify : t.notify = s.notify
  quiet : s.tx.state = .low → s.tx.startRequested = false → t.tx = s.tx

/-- After the TICK on which the press of `s` settles. -/
structure PressSettled (s t : State) : Prop where
  state : t.tr.state = .releaseDebounce
  shots : s.tr.remainingShotCount ≠ 0 →
    t.tr.remainingShotCount = s.tr.remainingShotCount - 1
  burst : s.tr.remainingShotCount ≠ 0 → s.tx.state = .low → s.tx.startRequested = false →
    t.tx = burstStarted s.tx

/-- A Transmitter in LOW, without a request, and with none from the Trigger, stays as it is. -/
theorem takeTick_tx_of_low {s : State} (adc : AdcCode) (ht : (trTick s).tx = s.tx)
    (hs : s.tx.state = .low) (hr : s.tx.startRequested = false) : (takeTick adc s).tx = s.tx := by
  rw [takeTick_tx, ht, transmitterTick_of_low hs hr]

theorem press_countsTicks {s : State} (held : TriggerHeld s.cfg s) (idle : s.tr.state = .idle) :
    CountsTicks s.cfg.debounceTicks (· = s) (PressCounted s) (PressSettled s) where
  positive := s.cfg.debounceTicks_range.1
  begins := by
    rintro s adc rfl
    have first := trTick_of_pressed held.enabled idle held.pressed
    refine ⟨held.tick adc, ?_, ?_, ?_, ?_, takeTick_tx_of_low adc (by rw [first])⟩
    · rw [takeTick_tr, first]
    · rw [takeTick_tr, first]; rfl
    · rw [takeTick_tr, first]
    · rw [takeTick_notify, first]
  goesOn := by
    rintro t k adc ⟨held, hs, rfl, hn, hl, quiet⟩ hk
    have next := trTick_of_settling held.enabled hs held.pressed (held.cfg ▸ hk)
    refine ⟨held.tick adc, ?_, ?_, ?_, ?_, fun hlow hr => ?_⟩
    · rw [takeTick_tr, next, hs]
    · rw [takeTick_tr, next]
      exact toNat_succ_of_lt rfl hk s.cfg.debounceTicks_range.2
    · rw [takeTick_tr, next, hn]
    · rw [takeTick_notify, next, hl]
    · have same := quiet hlow hr
      rw [takeTick_tx_of_low adc (by rw [next]) (same ▸ hlow) (same ▸ hr), same]
  ends := by
    rintro t adc ⟨held, hs, he, hn, -, quiet⟩
    have settled : t.cfg.debounceTicks ≤ t.tr.elapsedTicks.toNat := by rw [held.cfg, he]
    obtain ⟨release, -, -⟩ := trTick_of_settled held.enabled hs held.pressed settled
    have shot (loaded : s.tr.remainingShotCount ≠ 0) :=
      trTick_of_shot held.enabled hs held.pressed settled (hn ▸ loaded)
    refine ⟨by rw [takeTick_tr, release], fun loaded => ?_, fun loaded hlow hr => ?_⟩
    · rw [takeTick_tr, shot loaded, hn]
    · rw [takeTick_tx, shot loaded, quiet hlow hr]
      exact transmitterTick_of_requested (x := { s.tx with startRequested := true }) hlow rfl

/-! ### The hold, and the reload -/

/-- After `k` TICKs of hold, the one on which the press of `s` settled among them. -/
structure HoldCounted (s : State) (k : Nat) (t : State) : Prop where
  held : TriggerHeld s.cfg t
  state : t.tr.state = .releaseDebounce
  hold : t.tr.holdTicks.toNat = k
  notify : t.notify = s.notify

/-- After the TICK on which the hold reloads the clip. -/
structure HoldReloaded (s t : State) : Prop where
  state : t.tr.state = .releaseDebounce
  shots : t.tr.remainingShotCount = s.cfg.clipSize
  notify : t.notify = s.notify ++ [⟨.reload, 0⟩]

theorem hold_countsTicks (s : State) : CountsTicks s.cfg.reloadHoldTicks
    (PressCounted s s.cfg.debounceTicks) (HoldCounted s) (HoldReloaded s) where
  positive := s.cfg.reloadHoldTicks_range.1
  begins := by
    rintro t adc ⟨held, hs, he, -, hl, -⟩
    have settled : t.cfg.debounceTicks ≤ t.tr.elapsedTicks.toNat := by rw [held.cfg, he]
    obtain ⟨release, hold, notify⟩ := trTick_of_settled held.enabled hs held.pressed settled
    exact ⟨held.tick adc, by rw [takeTick_tr, release], by rw [takeTick_tr, hold]; rfl,
      by rw [takeTick_notify, notify, hl]⟩
  goesOn := by
    rintro t k adc ⟨held, hs, rfl, hl⟩ hk
    have next := trTick_of_hold held.enabled hs held.pressed (held.cfg ▸ hk)
    refine ⟨held.tick adc, by rw [takeTick_tr, next, hs], ?_, by rw [takeTick_notify, next, hl]⟩
    rw [takeTick_tr, next]
    exact toNat_succ_of_lt rfl hk s.cfg.reloadHoldTicks_range.2
  ends := by
    rintro t adc ⟨held, hs, hh, hl⟩
    have last := trTick_of_reload held.enabled hs held.pressed (by rw [held.cfg, hh])
    exact ⟨by rw [takeTick_tr, last, hs], by rw [takeTick_tr, last, held.cfg],
      by rw [takeTick_notify, last, hl]⟩

/-- Settles O54: the debounce counts DEBOUNCE_TICKS, then the hold counts RELOAD_HOLD_TICKS from the
TICK on which the press settles. -/
theorem pressFiresAndReloads : Obligations.PressFiresAndReloads := by
  intro s adcs enabled idle input latch
  have held : TriggerHeld s.cfg s := ⟨rfl, enabled, triggerPressed_eq_true ⟨input, latch⟩⟩
  have press := press_countsTicks held idle
  refine ⟨fun h1 hd => ⟨_, execAll_ticks adcs s, ?debounce⟩,
    fun hd loaded => ⟨_, execAll_ticks adcs s, ?shot⟩,
    fun hd => ⟨_, execAll_ticks adcs s, ?reload⟩⟩
  case debounce =>
    have counted := press.counted rfl adcs h1 hd
    exact ⟨counted.state, counted.shots⟩
  case shot =>
    have settled := press.finished rfl hd
    refine ⟨settled.state, settled.shots loaded, fun hlow hr => ?_⟩
    rw [settled.burst loaded hlow hr]
    exact ⟨rfl, rfl, rfl⟩
  case reload =>
    have length : (adcs.take s.cfg.debounceTicks).length = s.cfg.debounceTicks := by
      rw [List.length_take]; omega
    have debounced := press.counted rfl (adcs.take s.cfg.debounceTicks)
      (by rw [length]; exact press.positive) length.le
    rw [length] at debounced
    have reloaded := (hold_countsTicks s).finished debounced
      (adcs := adcs.drop s.cfg.debounceTicks) (by rw [List.length_drop]; omega)
    rw [← afterTicks_append, List.take_append_drop] at reloaded
    exact ⟨reloaded.state, reloaded.shots, reloaded.notify⟩

end Sys2Proof.Machine

/-! SUPPORT. The input latch of the Trigger (44_timers.md R280, R283). -/

namespace Sys2Proof.Machine

/-- What a step other than RESET does to the Trigger is what the instruction that it runs does. -/
theorem step_tr_cases {s t : State} (h : step s = .next t)
    (hr : s.tickPending = true ∨ ∀ rest, s.schedule ≠ .reset :: rest) :
    t.tr = s.tr ∨ ∃ u i, SameBlock s u ∧ nextWork s = .run i u ∧ exec i u = .next t := by
  cases step_cases h with
  | run u i b next result _ => exact .inr ⟨u, i, b, next, result⟩
  | pop u b _ result => rw [result, popStep_frame]; exact .inl b.tr
  | filter u b _ result =>
    obtain ⟨q, fb, g, d, p, e⟩ := filterStep_form u
    rw [result, e]; exact .inl b.tr
  | decide u b _ result =>
    obtain ⟨d, r, g, n, p, e⟩ := decideStep_form u
    rw [result, e]; exact .inl b.tr
  | wait b _ => exact .inl b.tr
  | illegal u w b _ result => rw [result]; exact .inl b.tr
  | pin u level b result => rw [result]; exact .inl b.tr
  | reset u rest _ pending next _ =>
    exact absurd next (hr.resolve_left (by simp [pending]) rest)

/-- With the input latch set, TR_tick leaves an idle Trigger in IDLE and the clip as it is. -/
theorem trTick_of_latched {s : State} (hl : s.tr.ignoreInput = true) (hs : s.tr.state = .idle) :
    (trTick s).tr.state = .idle ∧
    (trTick s).tr.remainingShotCount = s.tr.remainingShotCount := by
  have released : triggerPressed s = false := by simp [triggerPressed, hl]
  cases he : s.tr.enabled with
  | false => rw [trTick_of_disabled he]; exact ⟨hs, rfl⟩
  | true => rw [trTick_of_idle he hs released]; exact ⟨hs, rfl⟩

/-- TR_INIT alone writes the input latch. -/
theorem exec_ignoreInput {i : Instr} {u t : State} (h : exec i u = .next t) (hi : i ≠ .trInit) :
    t.tr.ignoreInput = u.tr.ignoreInput := by
  rcases exec_tr h with e | rfl | rfl | rfl | rfl | rfl | ⟨n, rfl⟩ | rfl | ⟨adc, rfl⟩
  · rw [e]
  · exact absurd rfl hi
  · cases h; rfl
  · injection h with h; rw [← h]; exact (trTick_settings u).2
  · cases h; rfl
  · cases h; rfl
  · cases h; rfl
  · cases h; rfl
  · injection h with h; rw [← h, takeTick_tr]; exact (trTick_settings u).2

/-- With the input latch set, every instruction leaves an idle Trigger in IDLE, and TR_SETSHOTS,
TR_RELOAD and TR_INIT alone write the clip. -/
theorem exec_tr_of_latched {i : Instr} {u t : State} (h : exec i u = .next t)
    (hl : u.tr.ignoreInput = true) (hs : u.tr.state = .idle) : t.tr.state = .idle ∧
    (i ≠ .trInit → (∀ n, i ≠ .trSetshots n) → i ≠ .trReload →
      t.tr.remainingShotCount = u.tr.remainingShotCount) := by
  obtain ⟨idle, clip⟩ := trTick_of_latched hl hs
  rcases exec_tr h with e | rfl | rfl | rfl | rfl | rfl | ⟨n, rfl⟩ | rfl | ⟨adc, rfl⟩
  · rw [e]; exact ⟨hs, fun _ _ _ => rfl⟩
  · cases h; exact ⟨rfl, fun hi => absurd rfl hi⟩
  · cases h; exact ⟨hs, fun _ _ _ => rfl⟩
  · injection h with h; rw [← h]; exact ⟨idle, fun _ _ _ => clip⟩
  · cases h; exact ⟨hs, fun _ _ _ => rfl⟩
  · cases h; exact ⟨hs, fun _ _ _ => rfl⟩
  · cases h; exact ⟨hs, fun _ hn => absurd rfl (hn n)⟩
  · cases h; exact ⟨hs, fun _ _ hi => absurd rfl hi⟩
  · injection h with h; rw [← h, takeTick_tr]; exact ⟨idle, fun _ _ _ => clip⟩

/-- Settles O53: only a step that runs an instruction writes the Trigger, and none but TR_INIT writes
the latch or takes a latched Trigger out of IDLE. -/
theorem inputLatchIsPermanent : Obligations.InputLatchIsPermanent := by
  intro s t h hinit hreset
  rcases step_tr_cases h hreset with e | ⟨u, i, b, next, result⟩
  · rw [e]; exact ⟨rfl, fun _ hs => ⟨hs, fun _ _ => rfl⟩⟩
  · have hi : i ≠ .trInit := fun e => hinit u (e ▸ next)
    rw [← b.tr]
    refine ⟨exec_ignoreInput result hi, fun hl hs => ?_⟩
    obtain ⟨idle, clip⟩ := exec_tr_of_latched result hl hs
    exact ⟨idle, fun hset hload =>
      clip hi (fun n e => hset n u (e ▸ next)) fun e => hload u (e ▸ next)⟩

end Sys2Proof.Machine

/-! SUPPORT. The foreground's steps that run no instruction, and where a step stops
(30_encoding.md R100, R110, R111; 60_exceptions.md R330, R335). -/

namespace Sys2Proof.Machine

/-! ### Completion -/

theorem exec_completes (i : Instr) (s : State) : completes (exec i s) := by
  cases i <;> exact ⟨_, rfl⟩

/-- Settles O11. -/
theorem everyInstructionCompletes : Obligations.EveryInstructionCompletes := exec_completes

/-! ### An illegal head -/

/-- A head that no row of the opcode map selects is rejected. -/
theorem decodeHead_error_of_no_row {h : Head} (v : NUM)
    (hr : ∀ r ∈ opcodeRows, h &&& r.mask ≠ r.pattern) : ∃ e, decodeHead h v = .error e := by
  cases hd : decodeHead h v with
  | error e => exact ⟨e, rfl⟩
  | ok i =>
    obtain ⟨r, ⟨listed, selects⟩, -⟩ := (legalHeadsAreTheTableRows h v).mp ⟨i, hd⟩
    exact absurd selects (hr r listed)

theorem foregroundStep_illegal {u : State} {h : Head} {v : NUM} {rest : List CmdWord}
    {e : DecodeError} (hp : u.seq.phase = .idle) (hc : u.cmd = issuedWords h v ++ rest)
    (hd : decodeHead h v = .error e) :
    foregroundStep u = .done ({ u with cmd := rest }.raise .illegalCommand h) := by
  simp only [foregroundStep, hp, nextCommand, hc, takeCommand_issued, decodeHead_issued, hd]

/-- Settles O6. -/
theorem illegalCommandStep : Obligations.IllegalCommandStep := by
  intro s h payload rest hf hp hc hr
  obtain ⟨e, hd⟩ := decodeHead_error_of_no_row payload hr
  rw [step_foreground hf,
    foregroundStep_illegal (u := { s with schedule := s.schedule.tail }) hp hc hd]
  rfl

/-! ### Words on CMD that are no command -/

/-- A head whose payload has not come. -/
theorem takeCommand_incomplete {h : Head} (hp : h.getLsbD 31 = true) :
    takeCommand [.head h] = .incomplete := if_pos hp

/-- A head where a payload is due. -/
theorem takeCommand_head_head {h h' : Head} {rest : List CmdWord} (hp : h.getLsbD 31 = true) :
    takeCommand (.head h :: .head h' :: rest) = .outOfStep := if_pos hp

theorem foregroundStep_wait {u : State} (hp : u.seq.phase = .idle)
    (hc : takeCommand u.cmd = .nothing ∨ takeCommand u.cmd = .incomplete) :
    foregroundStep u = .done u := by
  rcases hc with hc | hc <;> simp only [foregroundStep, hp, nextCommand, hc]

theorem foregroundStep_outOfStep {u : State} (hp : u.seq.phase = .idle)
    (hc : takeCommand u.cmd = .outOfStep) : foregroundStep u = .stop .cmdOutOfStep := by
  simp only [foregroundStep, hp, nextCommand, hc]

/-- The foreground's step stops only where the words on CMD are out of step. -/
theorem foregroundStep_completes_or_stops (u : State) : completes (foregroundStep u).outcome ∨
    ((foregroundStep u).outcome = .fault .cmdOutOfStep ∧ u.seq.phase = .idle ∧
      takeCommand u.cmd = .outOfStep) := by
  rcases foregroundStep_cases u with ⟨hp, hc, e⟩ | ⟨-, e⟩ | ⟨-, h, v, rest, er, -, -, e⟩ |
    ⟨-, h, v, rest, i, -, -, e⟩ | ⟨-, e⟩ | ⟨-, e⟩ | ⟨-, e⟩ <;> rw [e]
  · exact .inr ⟨rfl, hp, hc⟩
  · exact .inl ⟨_, rfl⟩
  · exact .inl ⟨_, rfl⟩
  · exact .inl (exec_completes i _)
  · exact .inl ⟨_, rfl⟩
  · exact .inl ⟨_, rfl⟩
  · exact .inl ⟨_, rfl⟩

/-- Settles O10: every step but the foreground's leads to a next state. -/
theorem stepStopsOnlyOutOfStep : Obligations.StepStopsOnlyOutOfStep := by
  refine ⟨fun s => ?anyStep, fun s hf hp hc => ?waits, fun s hf hp hc => ?stops⟩
  case anyStep =>
    obtain ⟨u, block, hc, hw⟩ := nextWork_cases s
    rw [step_eq_outcome, ← hc, ← block.seq]
    rcases hw with e | ⟨adc, e⟩ | ⟨level, e⟩ | e <;> rw [e]
    · exact foregroundStep_completes_or_stops u
    · exact .inl (exec_completes (.tick adc) u)
    · exact .inl ⟨_, rfl⟩
    · exact .inl ⟨_, rfl⟩
  case waits =>
    have noCommand : takeCommand s.cmd = .nothing ∨ takeCommand s.cmd = .incomplete := by
      rcases hc with hc | ⟨h, announced, hc⟩ <;> rw [hc]
      · exact .inl rfl
      · exact .inr (takeCommand_incomplete announced)
    rw [step_foreground hf,
      foregroundStep_wait (u := { s with schedule := s.schedule.tail }) hp noCommand]
    rfl
  case stops =>
    have outOfStep : takeCommand s.cmd = .outOfStep := by
      rcases hc with ⟨v, rest, hc⟩ | ⟨h, h', rest, announced, hc⟩ <;> rw [hc]
      · rfl
      · exact takeCommand_head_head announced
    rw [step_foreground hf,
      foregroundStep_outOfStep (u := { s with schedule := s.schedule.tail }) hp outOfStep]
    rfl

end Sys2Proof.Machine

/-! SUPPORT. The step of a command whose operand names nothing (60_exceptions.md R334). -/

namespace Sys2Proof.Machine

/-- `named` is the check as `Instr.wf` makes it. -/
theorem withOperand_rejects {α : Type} {o : Option α} {named : Bool} (check : o.isSome = named)
    (fails : named = false) (i : Instr) (sentinel : List Beat) (k : α → State → State)
    (s : State) : (.next (withOperand o i sentinel k s) : Host.Outcome State Fault Refusal) =
      .next (s.rejectOperand i sentinel) := by
  have nothing : o = none := by simpa using check.trans fails
  rw [nothing, withOperand_none]

/-- The instructions that have an operand check reject where it fails; the others are well formed. -/
theorem exec_of_not_wf {i : Instr} (h : i.wf = false) (s : State) :
    exec i s = .next (s.rejectOperand i (sentinelBeats s.cfg.num i)) := by
  cases i
  case hqInit q => exact withOperand_rejects (Laws.OperandsNamed.hqInit q) h ..
  case hqPop q => exact withOperand_rejects (Laws.OperandsNamed.hqPop q) h ..
  case hqReadat q age => exact withOperand_rejects (Laws.OperandsNamed.hqReadat q age) h ..
  case hqSize q => exact withOperand_rejects (Laws.OperandsNamed.hqSize q) h ..
  case hqCount q => exact withOperand_rejects (Laws.OperandsNamed.hqCount q) h ..
  case hqUnderflowed q => exact withOperand_rejects (Laws.OperandsNamed.hqUnderflowed q) h ..
  case hqOverflowed q => exact withOperand_rejects (Laws.OperandsNamed.hqOverflowed q) h ..
  case hqPush q val => exact withOperand_rejects (Laws.OperandsNamed.hqPush q val) h ..
  case hqOpush q val => exact withOperand_rejects (Laws.OperandsNamed.hqOpush q val) h ..
  case fbPower ch => exact withOperand_rejects (Laws.OperandsNamed.fbPower ch) h ..
  case fbRecompute ch => exact withOperand_rejects (Laws.OperandsNamed.fbRecompute ch) h ..
  case fbFircoef k => exact withOperand_rejects (Laws.OperandsNamed.fbFircoef k) h ..
  case fbIira ch k => exact withOperand_rejects (Laws.OperandsNamed.fbIira ch k) h ..
  case fbIirb ch k => exact withOperand_rejects (Laws.OperandsNamed.fbIirb ch k) h ..
  case fbConst k => exact withOperand_rejects (Laws.OperandsNamed.fbConst k) h ..
  case txSetfreq ch => exact withOperand_rejects (Laws.OperandsNamed.txSetfreq ch) h ..
  all_goals cases h

theorem head?_issuedWords (h : Head) (v : NUM) : (issuedWords h v).head? = some (.head h) := by
  unfold issuedWords
  split <;> rfl

theorem encode_of_ne_tick {i : Instr} (hi : ∀ adc, i ≠ .tick adc) :
    encode i = .onCmd (.head (encodeHead i) :: (encodePayload i).toList.map .payload) := by
  rw [encode]
  exact hi

/-- The head that an instruction was decoded from is its own. -/
theorem encodeHead_of_decodeHead {h : Head} {v : NUM} {i : Instr} (hd : decodeHead h v = .ok i) :
    encodeHead i = h := by
  have hi : ∀ adc, i ≠ .tick adc := fun adc e => decodeHead_ne_tick (e ▸ hd)
  have back := decodedHeadEncodesBack h v i hd
  rw [encode_of_ne_tick hi, Encoded.onCmd.injEq] at back
  have front := head?_issuedWords h v
  rw [← back] at front
  cases front
  rfl

/-- Settles O7. -/
theorem operandErrorStep : Obligations.OperandErrorStep := by
  refine ⟨fun i s h => exec_of_not_wf h s, fun s h payload rest i hf hp hc hd hi => ?_⟩
  rw [stepRunsDecodedInstruction.1 s h payload rest i hf hp hc hd, exec_of_not_wf hi,
    ← encodeHead_of_decodeHead hd]
  rfl

end Sys2Proof.Machine

/-! SUPPORT. What a DET_RUN raises while the queues are full (60_exceptions.md R332). -/

namespace Sys2Proof.Machine

/-! ### Reads of full queues -/

theorem missingAges_of_lt {q : QueueId} {count : Nat} {ages : List Nat}
    (h : ∀ age ∈ ages, age < count) : missingAges q count ages = [] := by
  have none_missing : ages.filter (fun age => decide (count ≤ age)) = [] :=
    List.filter_eq_nil_iff.mpr fun age ha => by simpa using h age ha
  rw [missingAges, none_missing]
  rfl

theorem firMissing_of_full {s : State} (h : queuesFull s) : firMissing s = [] := by
  have count : (s.queue queueX).count = 81 := h queueX
  rw [firMissing_eq, queueContents_length, count]
  exact missingAges_of_lt fun age ha => List.mem_range.mp ha

theorem channelMissing_of_full {s : State} (h : queuesFull s) (c : Channel) :
    channelMissing c s = [] := by
  have countY : (s.queue queueY).count = 11 := h queueY
  have countZ : (s.queue (queueZ c)).count = 11 := (h (queueZ c)).trans (capacity_queueZ c s)
  rw [channelMissing_eq, queueContents_length, queueContents_length, countY, countZ,
    missingAges_of_lt (by decide), missingAges_of_lt (by decide)]
  rfl

theorem firStep_queuesFull {s : State} (h : queuesFull s) : queuesFull (firStep s) :=
  queuesFull_setQueue (s := { s with diag := s.diag ++ firMissing s }) h
    (HistoryQueue.overwrite_count_full (h queueY) _)

/-! ### The phase steps -/

theorem popStep_diag (s : State) : (popStep s).diag = s.diag := by rw [popStep_frame]

/-- With the queues full every age that a window reads is there. -/
theorem filterStep_diag_of_full {s : State} (h : queuesFull s) : (filterStep s).diag = s.diag := by
  have accepted : queuesFull (fbAccept s.seq.sample s) := fbAccept_queuesFull h _
  have started : queuesFull (channelsStart s) := firStep_queuesFull accepted
  by_cases hd : s.det.decimationCounter = 9
  · rw [filterStep_diag_eq hd, firMissing_of_full accepted,
      List.flatMap_eq_nil_iff.mpr fun c _ => channelMissing_of_full started c]
    simp
  · have hlt : s.det.decimationCounter.val < 9 :=
      lt_of_le_of_ne (Fin.le_last _) fun e => hd (Fin.ext e)
    rw [filterStep_accept hlt]
    rfl

/-- A decision is aborted where every channel is ignored, and that alone is raised. -/
theorem detDecide_diag (s : State) : (detDecide s).diag = s.diag ∨
    ((∀ c : Channel, s.det.ignored.getLsbD c.val = true) ∧
      (detDecide s).diag = s.diag ++ [⟨.allIgnored, 0⟩]) := by
  cases hc : candidate s.cfg.num s.fb.power s.det.ignored with
  | none =>
    rw [detDecide_of_none hc]
    exact .inr ⟨(candidate_eq_none_iff ..).mp hc, rfl⟩
  | some c =>
    rw [detDecide_of_some hc]
    cases reachesThreshold c s <;> exact .inl rfl

theorem decideStep_diag (s : State) : (decideStep s).diag = s.diag ∨
    ((∀ c : Channel, s.det.ignored.getLsbD c.val = true) ∧
      (decideStep s).diag = s.diag ++ [⟨.allIgnored, 0⟩]) := by
  by_cases hg : s.lt.state = .idle ∧ s.iv.state = .idle
  · rw [decideStep_of_gateOpen hg rfl]
    exact detDecide_diag s
  · rw [decideStep_of_gateClosed hg]
    exact .inl rfl

/-- Settles O33: one case for each phase of the run. -/
theorem runRaisesOnlyAllIgnored : Obligations.RunRaisesOnlyAllIgnored := by
  intro s t hrun _ hfull hf ht
  cases hp : s.seq.phase with
  | idle => exact absurd hp hrun
  | pop =>
    rw [step_foreground hf,
      foregroundStep_pop (u := { s with schedule := s.schedule.tail }) hp] at ht
    cases ht
    exact .inl (popStep_diag _)
  | filter =>
    rw [step_filter hf hp] at ht
    cases ht
    exact .inl (filterStep_diag_of_full (s := { s with schedule := s.schedule.tail }) hfull)
  | decide =>
    rw [step_decide hf hp] at ht
    cases ht
    exact (decideStep_diag { s with schedule := s.schedule.tail }).imp_right
      fun raised => ⟨rfl, raised⟩

end Sys2Proof.Machine

/-! SUPPORT. What a TICK leaves alone (60_exceptions.md R343), inside an unprotected run too
(20_memory.md R84; log 9). -/

namespace Sys2Proof.Machine

/-- Only entering and leaving ACTIVE write the active ignore set. -/
theorem ivTick_ignored_of_state {s : State} (h : (ivTick s).iv.state = s.iv.state) :
    (ivTick s).det.ignored = s.det.ignored := by
  cases hs : s.iv.state with
  | idle =>
    by_cases hr : s.iv.startRequested = false ∨ s.iv.durationTicks = 0
    · rw [ivTick_of_idle hs hr]
    · obtain ⟨requested, duration⟩ := not_or.mp hr
      rw [ivTick_of_requested hs (Bool.not_eq_false _ ▸ requested) duration, hs] at h
      cases h
  | active =>
    by_cases he : s.iv.durationTicks ≤ s.iv.elapsedTicks
    · rw [ivTick_of_elapsed hs he, hs] at h
      cases h
    · rw [ivTick_of_active hs (BitVec.not_le.mp he)]

theorem takeTick_freeDraws (adc : AdcCode) (s : State) :
    (takeTick adc s).freeDraws = (tickPush adc s).freeDraws := by rw [takeTick_frame]

/-- A TICK changes these components only; they are written as it leaves them. -/
theorem takeTick_writes (adc : AdcCode) (s : State) : takeTick adc s =
    { s with
      sr := (takeTick adc s).sr
      lt := (takeTick adc s).lt
      iv := (takeTick adc s).iv
      tr := (takeTick adc s).tr
      tx := (takeTick adc s).tx
      notify := (takeTick adc s).notify
      det := { s.det with ignored := (takeTick adc s).det.ignored }
      freeDraws := (takeTick adc s).freeDraws } := by
  have frame := takeTick_frame adc s
  generalize takeTick adc s = t at frame ⊢
  rw [frame]

theorem tickPush_unprotected {s : State} (h : unprotectedRun s = true) (adc : AdcCode) :
    tickPush adc s =
      { s with sr := freeRing s.cfg s.freeDraws, freeDraws := s.freeDraws + 1 } := if_pos h

theorem takeTick_inRange_of_unprotected {s : State} (h : unprotectedRun s = true) (adc : AdcCode) :
    ringInRange (takeTick adc s) :=
  freeRing_inRange s.cfg s.freeDraws _ (takeTick_cfg adc s)
    (by rw [takeTick_sr, tickPush_unprotected h])

/-- Protecting the run makes the push the specified one and changes nothing else of a TICK. -/
theorem takeTick_protect (adc : AdcCode) (s : State) :
    takeTick adc { s with seq := { s.seq with irqEn := true } } =
      { takeTick adc s with
        seq := { s.seq with irqEn := true }
        sr := (srPush adc s).sr
        freeDraws := s.freeDraws } := by
  let u : State := { s with seq := { s.seq with irqEn := true } }
  have trigger : trTick u = u.embedTrigger (trTick s) := trTick_embed u s
  obtain ⟨iv, ignored⟩ := ivTick_congr (s := s) (t := u) rfl rfl rfl
  rw [takeTick_of_protected (s := u) rfl, takeTick_frame adc s, trigger, iv, ignored]
  rfl

/-- Settles O47. -/
theorem tickFrame : Obligations.TickFrame := by
  intro adc s
  refine ⟨takeTick adc s, exec_tick adc s, takeTick_writes adc s, fun h => ?_, fun h => ?_,
    fun h => ⟨takeTick_inRange_of_unprotected h adc, ?_⟩⟩
  · rw [takeTick_ignored]
    rw [takeTick_iv] at h
    exact ivTick_ignored_of_state h
  · rw [takeTick_freeDraws, tickPush_protected h]
    rfl
  · rw [exec_tick, takeTick_protect]

end Sys2Proof.Machine

/-! SUPPORT. The RESET step (70_reset_and_hazards.md R370). -/

namespace Sys2Proof.Machine

theorem step_reset {s : State} {rest : List Event} (ht : s.tickPending = false)
    (hs : s.schedule = .reset :: rest) :
    step s = .next (hardwareReset { s with schedule := rest }) := by
  rw [step_eq_outcome, nextWork_reset ht hs]
  rfl

/-- Settles O15: RESET runs with its own event already consumed, and every component's init leads to
the reset table's value (`hardwareReset_eq`). -/
theorem resetEventReachesResetState : Obligations.ResetEventReachesResetState := by
  intro s rest ht hs
  rw [step_reset ht hs, hardwareReset_eq]

end Sys2Proof.Machine
